-- ==== Sys2Proof/Word.lean ====
section
/-! DEFINITION. The word and element types of CCSB (00_scope.md R9, R10, R12; 30_encoding.md R90): the
32-bit command word, bytes, hard bits, soft bits and the hyperframe period. -/

namespace Sys2Proof

/-- A command word (R90) and a 4-byte value of the data window. -/
abbrev Word := BitVec 32

/-- A byte of a PDU, of a mailbox or of the data window. -/
abbrev Byte := BitVec 8

/-- A hard bit, `ubit` (R10): `true` is 1. -/
abbrev UBit := Bool

/-- A frame number register (R21). The values a frame number takes are those below `HYPER`. -/
abbrev Fn := BitVec 22

/-- `HYPER`, the period of the frame number (R7, R12). -/
def HYPER : Nat := 2715648

/-- A soft bit, `sbit` (R10): a signed 8-bit integer in -127..127. -128 is not a legal soft bit, so
it cannot be built. -/
structure SBit where
  val : BitVec 8 := 0#8
  legal : val ≠ 0x80#8 := by decide
  deriving DecidableEq, Repr, Inhabited

/-- The signed value of a soft bit. -/
def SBit.toInt (s : SBit) : Int := s.val.toInt

/-- The magnitude, "confidence" (R10). -/
def SBit.mag (s : SBit) : Nat := s.toInt.natAbs

/-- An erasure (R10). -/
def SBit.zero : SBit := ⟨0#8, by decide⟩

/-- `hard(s)` (R10): 1 exactly when the soft bit is negative. An erasure slices to 0. -/
def SBit.hard (s : SBit) : UBit := s.val.msb

/-- `soft(b)` (R10). -/
def SBit.soft (b : UBit) : SBit :=
  if b then ⟨0x81#8, by decide⟩ else ⟨0x7F#8, by decide⟩

/-- The soft bit a byte of the data window stands for, none for -128 (20_memory.md R73). -/
def SBit.ofByte? (b : Byte) : Option SBit :=
  if h : b ≠ 0x80#8 then some ⟨b, h⟩ else none

/-- A soft bit from any byte; -128, which stands for none, is clamped to -127
(70_reset_and_hazards.md R343). Used to shape free values only. -/
def SBit.clamp (b : Byte) : SBit :=
  if h : b ≠ 0x80#8 then ⟨b, h⟩ else ⟨0x81#8, by decide⟩

end Sys2Proof
end

