-- ==== Sys2Proof/Syntax.lean ====
section
/-! DEFINITION. The 41 commands of spec/opcode_table.json (30_encoding.md R94) with their operands
(R93), and the operand types. Selector operands are names, not numbers. -/

namespace Sys2Proof

/-- `crcsel` (R93): a row of 40_crc_unit.md R111. -/
inductive CrcSel where
  | fire40 | crc16 | crc10 | crc6 | crc3 | crc8
  deriving DecidableEq, Repr, Inhabited

/-- `isel` (R93): a row of 43_interleaver_mapper.md R151. -/
inductive ISel where
  | x4 | t8
  deriving DecidableEq, Repr, Inhabited

/-- `nb` (R93): the bursts of a block, 4 or 8. -/
inductive NBursts where
  | four | eight
  deriving DecidableEq, Repr, Inhabited

/-- `tsel` (R93): a pattern table of 43_interleaver_mapper.md R166. -/
inductive TSel where
  | cs | usf6 | usf12 | afsic
  deriving DecidableEq, Repr, Inhabited

/-- `order` (R93): the bit order between bytes and bits, 20_memory.md R72. -/
inductive BitOrder where
  | lsb | msb
  deriving DecidableEq, Repr, Inhabited

/-- `efr` (R93): the speech variant. -/
inductive Efr where
  | fr | efr
  deriving DecidableEq, Repr, Inhabited

/-- `phase` (R93): which index the in-band indicator carries, 46_codec_tch.md R238. -/
inductive Phase where
  | cmi | cmr
  deriving DecidableEq, Repr, Inhabited

/-- `linksel` (R93): 47_scheduler.md R261. -/
inductive LinkSel where
  | all | main | sacch
  deriving DecidableEq, Repr, Inhabited

/-- `dir` (R93). -/
inductive Dir where
  | ul | dl
  deriving DecidableEq, Repr, Inhabited

/-- A timeslot number `tn`, 0..7. -/
abbrev Tn := Fin 8

/-- A logical channel code `ch`, 0..38 (10_state.md R42). -/
abbrev Chan := Fin 39

/-- The commands, one constructor per row of spec/opcode_table.json. Operands whose value set is
smaller than their type are checked by `Instr.WellFormed`; `codesel`, `puncsel`, `pchan` and the
fourth `tsel` are legal or not by the model instance, which the meaning checks (R96, log 14). -/
inductive Instr where
  /-- `CRC.GEN crcsel, n` (R113) -/
  | crcGen (crcsel : CrcSel) (n : BitVec 16)
  /-- `CRC.CHK crcsel, n` (R114) -/
  | crcChk (crcsel : CrcSel) (n : BitVec 16)
  /-- `UAPP.PAR` (R115) -/
  | uappPar
  /-- `UAPP.ZERO 0, n` (R116) -/
  | uappZero (n : BitVec 16)
  /-- `PAR.LD r, n` (R117) -/
  | parLd (r : Byte) (n : BitVec 16)
  /-- `CONV.ENC codesel` (R124) -/
  | convEnc (codesel : Fin 16)
  /-- `CONV.DEC codesel, kd` (R128) -/
  | convDec (codesel : Fin 16) (kd : BitVec 16)
  /-- `PUNC puncsel` (R143) -/
  | punc (puncsel : Fin 16)
  /-- `DEPUNC puncsel` (R144) -/
  | depunc (puncsel : Fin 16)
  /-- `INTLV isel` (R153) -/
  | intlv (isel : ISel)
  /-- `DEINTLV isel` (R154) -/
  | deintlv (isel : ISel)
  /-- `MAP nb` (R156) -/
  | map (nb : NBursts)
  /-- `UNMAP nb` (R157) -/
  | unmap (nb : NBursts)
  /-- `H.SET nb, pattern` (R158) -/
  | hSet (nb : NBursts) (pattern : BitVec 16)
  /-- `UNPACK order, n` (R160) -/
  | unpack (order : BitOrder) (n : BitVec 16)
  /-- `PACK order, n` (R161) -/
  | pack (order : BitOrder) (n : BitVec 16)
  /-- `MATCH tsel` (R168) -/
  | matchPat (tsel : TSel)
  /-- `XCCH.ENC` (R177) -/
  | xcchEnc
  /-- `XCCH.DEC` (R179) -/
  | xcchDec
  /-- `RACH.ENC bsic` (R184) -/
  | rachEnc (bsic : BitVec 6)
  /-- `RACH.DEC bsic` (R186) -/
  | rachDec (bsic : BitVec 6)
  /-- `SCH.ENC` (R191) -/
  | schEnc
  /-- `SCH.DEC` (R193) -/
  | schDec
  /-- `PDTCH.ENC` (R206) -/
  | pdtchEnc
  /-- `PDTCH.DEC` (R210) -/
  | pdtchDec
  /-- `AMR.CFG` (R234) -/
  | amrCfg
  /-- `TCHFR.ENC efr` (R227) -/
  | tchfrEnc (speech : Efr)
  /-- `TCHFR.DEC efr` (R229) -/
  | tchfrDec (speech : Efr)
  /-- `TCHAFS.ENC phase` (R240) -/
  | tchafsEnc (phase : Phase)
  /-- `TCHAFS.DEC phase` (R242) -/
  | tchafsDec (phase : Phase)
  /-- `SCHED.INIT` (R255) -/
  | schedInit
  /-- `SET.PCHAN tn, pchan, tsc` (R258) -/
  | setPchan (tn : Tn) (pchan : BitVec 4) (tsc : BitVec 3)
  /-- `CH.ACT tn, ch, linksel` (R262) -/
  | chAct (tn : Tn) (ch : Chan) (linksel : LinkSel)
  /-- `CH.DEACT tn, ch, linksel` (R263) -/
  | chDeact (tn : Tn) (ch : Chan) (linksel : LinkSel)
  /-- `SET.MODE tn, ch, 0` (R265) -/
  | setMode (tn : Tn) (ch : Chan)
  /-- `SET.CIPHER tn, ch, dir` (R267) -/
  | setCipher (tn : Tn) (ch : Chan) (dir : Dir)
  /-- `PDU.ENQ tn, ch, aux` (R269) -/
  | pduEnq (tn : Tn) (ch : Chan) (aux : Byte)
  /-- `SET.ATT tn, att` (R259) -/
  | setAtt (tn : Tn) (att : Byte)
  /-- `TICK fn` (R278) -/
  | tick (fn : Fn)
  /-- `RX.BURST` (R270) -/
  | rxBurst
  /-- `SET.BSIC bsic` (R257) -/
  | setBsic (bsic : BitVec 6)
  deriving DecidableEq, Repr

end Sys2Proof
end

