-- ==== Sys2Proof/Machine/Records.lean ====
section
/-! DEFINITION. The record types of the state and of the constant tables (10_state.md, 40 to 47):
plain data, no operation but the codes of the enumerations. -/

namespace Sys2Proof.Machine

/-! ### Constant tables -/

/-- How a convolutional code ends (R120): `none`, the engine processes exactly its input; `flush`,
it adds `m` steps that drive the register to zero. -/
inductive Term where
  | none | flush
  deriving DecidableEq, Repr, Inhabited

/-- A convolutional code (R120). `N` is the number of generators; a generator and `fb` are lists of
delays. -/
structure Code where
  k : Nat
  gens : List (List Nat)
  fb : List Nat
  term : Term
  deriving DecidableEq, Repr, Inhabited

/-- A puncture mask (R140): `keep[0..full-1]`, so `full` is the length. -/
structure Mask where
  keep : List Bool
  deriving DecidableEq, Repr, Inhabited

/-- One slot of a multiframe layout (R41). -/
structure Slot where
  dlChan : Chan
  dlBid : Fin 8
  ulChan : Chan
  ulBid : Fin 8
  deriving DecidableEq, Repr, Inhabited

/-- A multiframe layout (R41); its period is the number of slots. -/
structure Layout where
  slots : List Slot
  deriving DecidableEq, Repr, Inhabited

/-- The channel families (R42). -/
inductive Family where
  | none | fcch | sch | rach | xcch | pdtch | tch | unsupp
  deriving DecidableEq, Repr, Inhabited

/-- The in-band indicator patterns of AMR (R238): `W_IC`, and `AFS_IC`, whose length is `N_IC`. -/
structure AfsIc where
  wIc : Nat
  rows : List (List UBit)
  deriving DecidableEq, Repr, Inhabited

/-- `AFS_CODE[m]` (R237): a `codesel` and a `puncsel` or none. -/
structure AfsCode where
  codesel : Fin 16
  puncsel : Option (Fin 16)
  deriving DecidableEq, Repr, Inhabited

/-- `EFR_MAP` (R225). -/
structure EfrMap where
  prot : List Nat
  rep : List Nat
  order : List Nat
  deriving DecidableEq, Repr, Inhabited

/-- A row of `AFS_MODE` (R236). -/
structure AfsMode where
  bits : Nat
  n1a : Nat
  bytes : Nat
  deriving DecidableEq, Repr, Inhabited

/-! ### Registers and channel state -/

/-- `STAT` (R24): `CODE` and `AUX`; bits 31:24 read 0 and are no storage. -/
structure Stat where
  code : Byte
  aux : BitVec 16
  deriving DecidableEq, Repr, Inhabited

/-- The result registers `RES` (R25). -/
structure Res where
  nerr : BitVec 16
  nbits : BitVec 16
  usf : BitVec 3
  cs : BitVec 3
  ft : BitVec 3
  cmr : BitVec 3
  idx : Byte
  dist : BitVec 16
  steal : Bool
  deriving DecidableEq, Repr, Inhabited

/-- The working AMR configuration `WAMR` (R26). -/
structure Wamr where
  n : BitVec 4
  list : Vector (BitVec 3) 8
  ft : BitVec 3
  cmr : BitVec 3
  deriving DecidableEq, Repr, Inhabited

/-- The registers of one timeslot (R30). -/
structure TsRegs where
  pchan : BitVec 4
  tsc : BitVec 3
  att : Byte
  deriving DecidableEq, Repr, Inhabited

/-- The values of `TCH_MODE` (R221). No command can store another (R265). -/
inductive TchMode where
  | sign | fr | efr | amr
  deriving DecidableEq, Repr, Inhabited

/-- One copy of the channel mode (R37). -/
structure Mode where
  rslCmode : Byte
  tchMode : TchMode
  amrN : BitVec 4
  amrList : Vector (BitVec 3) 8
  deriving DecidableEq, Repr, Inhabited

/-- One cipher record (R39). -/
structure Cipher where
  algo : BitVec 4
  key : Vector Byte 8
  deriving DecidableEq, Repr, Inhabited

/-- The state of one logical channel of one timeslot (R31 to R39). `ulBuf` has 928 elements while
`ulAlloc` is set and is empty otherwise; `dlBuf` holds the used part while `dlAlloc` is set and is
empty otherwise (log 19). -/
structure ChanState where
  active : Bool
  ulAlloc : Bool
  ulBuf : List SBit
  ulMask : Byte
  ulFirstFn : Fn
  ulSync : Bool
  dlAlloc : Bool
  dlBuf : List UBit
  dlMod : Bool
  rssiSum : BitVec 32
  rssiNum : Byte
  toaSum : BitVec 32
  toaNum : Byte
  ciSum : BitVec 32
  ciNum : Byte
  nproc : BitVec 32
  nlost : BitVec 32
  lastFn : Fn
  lastValid : Bool
  modeP : Mode
  modeUl : Mode
  modeDl : Mode
  ulFt : BitVec 3
  ulCmr : BitVec 3
  dlFt : BitVec 3
  dlCmr : BitVec 3
  ciphUlP : Cipher
  ciphUl : Cipher
  ciphDlP : Cipher
  ciphDl : Cipher
  deriving DecidableEq, Repr, Inhabited

/-- An element of an outbound queue (R44): `len` is the number of bytes. -/
structure QElem where
  bytes : List Byte
  aux : Byte
  deriving DecidableEq, Repr, Inhabited

/-- The burst-indication mailbox `RXIND` (R56). All 444 elements of `bits` keep what was written, whatever
`nbits` is (log 26). -/
structure RxInd where
  fn : Fn
  tn : BitVec 3
  toa256 : BitVec 16
  rssi : BitVec 8
  present : BitVec 3
  mod : Bool
  tscinfo : Byte
  ci : BitVec 16
  nbits : BitVec 9
  bits : Vector SBit 444
  deriving DecidableEq, Repr, Inhabited

/-- The logged conditions (60_exceptions.md R303). -/
inductive LogCode where
  | incomplete | badPduLen | nomem | abandoned
  deriving DecidableEq, Repr, Inhabited

/-- The events of `EVQ` (R58). `nbits` of a `TXREQ` and `len` of a `DATAIND` are the lengths of their
lists. -/
inductive Event where
  /-- `TXREQ`: the burst request. -/
  | txReq (fn : Fn) (tn : Tn) (att : Byte) (bits : List UBit)
  /-- `DATAIND`: one decoded PDU with its quality metrics. -/
  | dataInd (tn : Tn) (ch : Chan) (fn : Fn) (bytes : List Byte) (rssi : BitVec 8)
      (toa256 : BitVec 16) (lqualCb : BitVec 16) (lqualValid : Bool) (ber10k : BitVec 16)
      (aux : Byte)
  /-- `RTSIND`: ready to send. -/
  | rtsInd (tn : Tn) (ch : Chan) (fn : Fn)
  /-- `LOG`: one logged condition. -/
  | log (code : LogCode) (tn : Tn) (ch : Chan) (fn : Fn)
  /-- `MODEIND`: an AMR mode index outside the codec list. -/
  | modeInd (tn : Tn) (ch : Chan) (fn : Fn) (idx : Byte)
  deriving DecidableEq, Repr, Inhabited

/-- The status codes (60_exceptions.md R301). -/
inductive ErrCode where
  | none | illegal | len | badBlock | modeRange | pduLen | nomem | badChan | badInd | param
  deriving DecidableEq, Repr, Inhabited

/-- One slot of a working buffer's storage (R50): a value, or no value, which reads as the free value
number `tag` of that element (log 5). -/
inductive Elem (α : Type) where
  | val (v : α)
  | any (tag : Nat)
  deriving DecidableEq, Repr, Inhabited

/-- A working buffer (R50, R51): its length register, the elements listed from index 0, and the tag
under which every element beyond the list reads as a free value. -/
structure Buf (α : Type) where
  len : Nat
  elems : List (Elem α)
  rest : Nat
  deriving DecidableEq, Repr, Inhabited

/-- The working buffers (R51). `cs` is `CS_`, `is` is `IS`. -/
structure Memory where
  pdu : Buf Byte
  u : Buf UBit
  par : Buf UBit
  c : Buf UBit
  cs : Buf SBit
  i : Buf UBit
  is : Buf SBit
  e : Buf UBit
  es : Buf SBit
  h : Buf UBit
  hs : Buf SBit
  deriving DecidableEq, Repr, Inhabited

/-- One access of the host to the data window (20_memory.md R74): `n` bytes at offset `off`. -/
inductive HostAccess where
  | read (off : BitVec 16) (n : Nat)
  | write (off : BitVec 16) (n : Nat) (v : Word)
  deriving DecidableEq, Repr, Inhabited

end Sys2Proof.Machine
end

