-- ==== Sys2Proof/Machine/Tables.lean ====
section
/-! DEFINITION. The fixed constant tables (10_state.md R60): `CHDESC`, the CRC configurations, the code
`XCCH`, the masks `CS2` and `CS3`, the pattern tables, the scheme table and `AFS_MODE`; and the codes
of the enumerations. -/

namespace Sys2Proof.Machine

/-! ### The channel descriptor table (R42) -/

/-- Channel code 0. -/
def chIdle : Chan := 0

/-- The downlink family column of `CHDESC`. -/
def dlFamily (ch : Chan) : Family :=
  if ch.val = 1 then .fcch
  else if ch.val = 2 then .sch
  else if ch.val = 3 ∨ ch.val = 5 then .xcch
  else if ch.val = 6 then .tch
  else if ch.val = 7 ∨ ch.val = 8 then .unsupp
  else if 9 ≤ ch.val ∧ ch.val ≤ 35 then .xcch
  else if ch.val = 36 then .pdtch
  else if ch.val = 37 ∨ ch.val = 38 then .xcch
  else .none

/-- The uplink family column of `CHDESC`. -/
def ulFamily (ch : Chan) : Family :=
  if ch.val = 4 ∨ ch.val = 37 then .rach
  else if ch.val = 6 then .tch
  else if ch.val = 7 ∨ ch.val = 8 then .unsupp
  else if 9 ≤ ch.val ∧ ch.val ≤ 35 then .xcch
  else if ch.val = 36 then .pdtch
  else .none

/-- The `auto` column of `CHDESC`: IDLE, FCCH, SCH, BCCH, RACH, CCCH. -/
def chAuto (ch : Chan) : Bool := ch.val ≤ 5

/-- The `pdch` column of `CHDESC`: PDTCH and PTCCH. No rule reads it. -/
def chPdch (ch : Chan) : Bool := ch.val = 36 ∨ ch.val = 37

/-- The `assoc` column of `CHDESC`: channels 6..20 have the associated channels 21..35, in order. -/
def chAssoc (ch : Chan) : Option Chan :=
  if h : 6 ≤ ch.val ∧ ch.val ≤ 20 then some ⟨ch.val + 15, by omega⟩ else none

/-- The bursts per block of a family (R42). -/
def Family.nb : Family → Nat
  | .fcch | .sch | .rach => 1
  | .xcch | .pdtch => 4
  | .tch => 8
  | .none | .unsupp => 0

/-- `nb_dl(ch)`. -/
def nbDl (ch : Chan) : Nat := (dlFamily ch).nb

/-- `nb_ul(ch)`. -/
def nbUl (ch : Chan) : Nat := (ulFamily ch).nb

/-- The downlink families whose blocks carry PDUs of a queue (R269, R279, R280). -/
def Family.queued : Family → Bool
  | .xcch | .pdtch | .tch => true
  | .none | .fcch | .sch | .rach | .unsupp => false

/-! ### CRC configurations (R111) -/

/-- `r`, the number of parity bits. -/
def crcWidth : CrcSel → Nat
  | .fire40 => 40 | .crc16 => 16 | .crc10 => 10 | .crc6 => 6 | .crc3 => 3 | .crc8 => 8

/-- `poly`: `g(D)` without its `D^r` term; bit `i` is the coefficient of `D^i`. -/
def crcPoly : CrcSel → Nat
  | .fire40 => 0x0004820009 | .crc16 => 0x1021 | .crc10 => 0x175 | .crc6 => 0x2F | .crc3 => 0x3
  | .crc8 => 0x1D

/-- `rem`: all ones, but all zeros for `CRC8`. -/
def crcRem : CrcSel → Bool
  | .crc8 => false
  | .fire40 | .crc16 | .crc10 | .crc6 | .crc3 => true

/-! ### Codes and masks -/

/-- `CODES[0]`, `XCCH` (R121). -/
def xcchCode : Code := { k := 5, gens := [[0, 3, 4], [0, 1, 3, 4]], fb := [0], term := .none }

/-- `PUNCS[0]`, `CS2` (R141): `keep[j] = 0` exactly for `j = 3 + 4*i`, `i` in 3..146 and not
9, 21, ..., 141. -/
def cs2Mask : Mask :=
  { keep := (List.range 588).map fun j =>
      !(j % 4 = 3 && (15 ≤ j && (j / 4) % 12 ≠ 9)) }

/-- `PUNCS[1]`, `CS3` (R141): `keep[j] = 0` exactly for `j = 3 + 6*i` and `j = 5 + 6*i`, `i` in
2..111. -/
def cs3Mask : Mask :=
  { keep := (List.range 676).map fun j =>
      !((j % 6 = 3 || j % 6 = 5) && (12 ≤ j && j < 672)) }

/-! ### Pattern tables (R166): an entry spelled as a number is read index 0 first -/

/-- The bits of a pattern, index 0 the most significant bit of the spelling. -/
def patBits (width spelling : Nat) : List UBit :=
  (List.range width).map fun t => spelling.testBit (width - 1 - t)

/-- `T_CS`: the header patterns of schemes 1 to 4. -/
def tCs : List (List UBit) :=
  [0b11111111, 0b11001000, 0b00100001, 0b00010110].map (patBits 8)

/-- `T_USF6`. -/
def tUsf6 : List (List UBit) :=
  [0b000000, 0b001011, 0b010110, 0b011101, 0b100101, 0b101110, 0b110011, 0b111000].map (patBits 6)

/-- `T_USF12`. -/
def tUsf12 : List (List UBit) :=
  [0b000000000000, 0b000011011101, 0b001101110110, 0b001110101011,
   0b110100001011, 0b110111010110, 0b111001111101, 0b111010100000].map (patBits 12)

/-! ### Packet-data schemes (R200, R201) and AMR modes (R236) -/

/-- The packet-data coding schemes. -/
inductive Scheme where
  | cs1 | cs2 | cs3 | cs4
  deriving DecidableEq, Repr, Inhabited

/-- The number of a scheme, 1..4. -/
def Scheme.num : Scheme → Nat
  | .cs1 => 1 | .cs2 => 2 | .cs3 => 3 | .cs4 => 4

/-- `scheme_of_len(L)` (R201). -/
def schemeOfLen (len : Nat) : Option Scheme :=
  if len = 23 then some .cs1 else if len = 34 then some .cs2 else if len = 40 then some .cs3
  else if len = 54 then some .cs4 else none

/-- The scheme of a header pattern index (R207): index `i` is scheme `i + 1`. -/
def schemeOfIdx (idx : Nat) : Scheme :=
  if idx = 0 then .cs1 else if idx = 1 then .cs2 else if idx = 2 then .cs3 else .cs4

/-- The header pattern of a scheme (R200). -/
def Scheme.header (s : Scheme) : List UBit := tCs.getD (s.num - 1) []

/-- `np`, the payload bits of a scheme (R200). -/
def Scheme.np : Scheme → Nat
  | .cs1 => 184 | .cs2 => 271 | .cs3 => 315 | .cs4 => 431

/-- `AFS_MODE` (R236), by mode number. -/
def afsMode (m : BitVec 3) : AfsMode :=
  match m with
  | 0#3 => ⟨95, 39, 12⟩
  | 1#3 => ⟨103, 49, 13⟩
  | 2#3 => ⟨118, 55, 15⟩
  | 3#3 => ⟨134, 55, 17⟩
  | 4#3 => ⟨148, 61, 19⟩
  | 5#3 => ⟨159, 75, 20⟩
  | 6#3 => ⟨204, 65, 26⟩
  | 7#3 => ⟨244, 81, 31⟩

/-! ### Codes of the enumerations -/

/-- The number of a status code (R301). -/
def ErrCode.code : ErrCode → Byte
  | .none => 0 | .illegal => 1 | .len => 2 | .badBlock => 3 | .modeRange => 4 | .pduLen => 5
  | .nomem => 6 | .badChan => 7 | .badInd => 8 | .param => 9

/-- The number of a logged condition (R303). -/
def LogCode.code : LogCode → Byte
  | .incomplete => 1 | .badPduLen => 2 | .nomem => 3 | .abandoned => 4

/-- The number of a `TCH_MODE` (R221). -/
def TchMode.code : TchMode → Byte
  | .sign => 0 | .fr => 1 | .efr => 2 | .amr => 3

/-- The `TCH_MODE` of a parameter byte (R265): 4 to 255 are not legal. -/
def TchMode.ofCode? (v : Byte) : Option TchMode :=
  if v = 0 then some .sign else if v = 1 then some .fr else if v = 2 then some .efr
  else if v = 3 then some .amr else none

/-- The bursts of an `nb` operand. -/
def nbOf : NBursts → Nat
  | .four => 4 | .eight => 8

/-- The bursts of an interleaver map (R151). -/
def nbiOf : ISel → Nat
  | .x4 => 4 | .t8 => 8

end Sys2Proof.Machine
end

