-- ==== Sys2Proof/Machine/Frames.lean ====
section
/-! DEFINITION. Frame-number arithmetic (00_scope.md R12) and layout lookup (47_scheduler.md R251,
R252). -/

namespace Sys2Proof.Machine

/-- `fn_add(a, n)` (R12). -/
def fnAdd (a : Nat) (n : Int) : Nat := (((a : Int) + n) % (HYPER : Int)).toNat

/-- `fn_sub(a, b)` (R12): the frames elapsed from `b` to `a`. -/
def fnSub (a b : Nat) : Nat := (((a : Int) - (b : Int)) % (HYPER : Int)).toNat

/-- `fn_before(a, b)` (R12). -/
def fnBefore (a b : Nat) : Bool := decide (0 < fnSub b a ∧ fnSub b a < HYPER / 2)

/-- A frame number in its register. -/
def toFn (a : Nat) : Fn := BitVec.ofNat 22 a

/-- A slot with nothing in it. -/
def idleSlot : Slot := { dlChan := chIdle, dlBid := 0, ulChan := chIdle, ulBid := 0 }

/-- The period of a layout (R41). -/
def Layout.period (l : Layout) : Nat := l.slots.length

/-- The slot of frame `fn` (R251). -/
def Layout.slot (l : Layout) (fn : Nat) : Slot := l.slots.getD (fn % l.period) idleSlot

/-- The channel occurs in some slot of the layout (R262). -/
def Layout.mentions (l : Layout) (ch : Chan) : Bool :=
  l.slots.any fun x => x.dlChan = ch || x.ulChan = ch

/-- `ul_first_fn` (R252): the frame `fn_sub(fn, k)` of the smallest `k` at which the slot carries
burst 0 of the same uplink channel. In a well-formed layout some `k < period` does. -/
def ulFirstFn (l : Layout) (fn : Nat) : Nat :=
  let ch := (l.slot fn).ulChan
  match (List.range l.period).find? fun k =>
      (l.slot (fnSub fn k)).ulChan = ch && (l.slot (fnSub fn k)).ulBid = 0 with
  | some k => fnSub fn k
  | none => fn

/-- `dl_first_fn` (R252), "the same on the downlink columns". No other rule uses it. -/
def dlFirstFn (l : Layout) (fn : Nat) : Nat :=
  let ch := (l.slot fn).dlChan
  match (List.range l.period).find? fun k =>
      (l.slot (fnSub fn k)).dlChan = ch && (l.slot (fnSub fn k)).dlBid = 0 with
  | some k => fnSub fn k
  | none => fn

end Sys2Proof.Machine
end

