-- ==== Sys2Proof/Machine/Interleave.lean ====
section
/-! DEFINITION. The functions of 43_interleaver_mapper.md and of 20_memory.md R72: the interleaver, the
burst mapping, the bit packer and the pattern matcher; and the burst wrapping of 47_scheduler.md R272,
R283 and R284. -/

namespace Sys2Proof.Machine

/-! ### Interleaver (R150, R151) -/

/-- `j(k)` (R150). -/
def ilvPos (k : Nat) : Nat := 2 * ((49 * k) % 57) + (k % 8) / 4

/-- `114*B(k) + j(k)` (R150, R153). -/
def ilvIndex (sel : ISel) (k : Nat) : Nat := 114 * (k % nbiOf sel) + ilvPos k

/-- The writes `I[114*B(k) + j(k)] <- C[k]` for `k, k+1, ...` (R153). -/
def ilvWrite (sel : ISel) : Nat → List UBit → List UBit → List UBit
  | _, [], out => out
  | k, x :: xs, out => ilvWrite sel (k + 1) xs (out.set (ilvIndex sel k) x)

/-- `interleave(isel, c)` (R153): positions outside the image are 0. -/
def interleave (sel : ISel) (c : List UBit) : List UBit :=
  ilvWrite sel 0 c (List.replicate (114 * nbiOf sel) false)

/-- `deinterleave(isel, is)` (R154). -/
def deinterleave (sel : ISel) (is : List SBit) : List SBit :=
  (List.range 456).map fun k => is.getD (ilvIndex sel k) SBit.zero

/-! ### Burst mapper (R155 to R157) -/

/-- `x[a .. a+n-1]` (R10). -/
def slice {α : Type} (x : List α) (a n : Nat) : List α := (x.drop a).take n

/-- The 116-position payload of one burst (R155). -/
def mapBurst (i : List UBit) (hl hu : UBit) : List UBit := i.take 57 ++ [hl, hu] ++ i.drop 57

/-- `map(nb, i, h)` (R156). -/
def mapBlock (nb : Nat) (i h : List UBit) : List UBit :=
  (List.range nb).flatMap fun b =>
    mapBurst (slice i (114 * b) 114) (h.getD (2 * b) false) (h.getD (2 * b + 1) false)

/-- The interleaved bits of `unmap(nb, es)` (R157). -/
def unmapBits (nb : Nat) (es : List SBit) : List SBit :=
  (List.range nb).flatMap fun b => slice es (116 * b) 57 ++ slice es (116 * b + 59) 57

/-- The stealing flags of `unmap(nb, es)` (R157). -/
def unmapFlags (nb : Nat) (es : List SBit) : List SBit :=
  (List.range nb).flatMap fun b => slice es (116 * b + 57) 2

/-- `H.SET`'s flags (R158). -/
def hPattern (nb : Nat) (pattern : Nat) : List UBit :=
  (List.range (2 * nb)).map fun t => pattern.testBit t

/-- `tch_flags(h)` (46_codec_tch.md R222): `hu` in bursts 0 to 3, `hl` in bursts 4 to 7. -/
def tchFlags (h : UBit) : List UBit :=
  [false, h, false, h, false, h, false, h, h, false, h, false, h, false, h, false]

/-- `stolen(hs)` (46_codec_tch.md R222): the sign of the sum of the eight soft flags. -/
def stolen (hs : List SBit) : Bool :=
  decide (([1, 3, 5, 7, 8, 10, 12, 14].map fun t => (hs.getD t SBit.zero).toInt).sum < 0)

/-! ### Bit packer (20_memory.md R72) -/

/-- `unpack_lsb(bytes, n)`. -/
def unpackLsb (bytes : List Byte) (n : Nat) : List UBit :=
  (List.range n).map fun i => (bytes.getD (i / 8) 0).getLsbD (i % 8)

/-- `unpack_msb(bytes, n)`. -/
def unpackMsb (bytes : List Byte) (n : Nat) : List UBit :=
  (List.range n).map fun i => (bytes.getD (i / 8) 0).getLsbD (7 - i % 8)

/-- `unpack_lsb` or `unpack_msb`. -/
def unpackBits : BitOrder → List Byte → Nat → List UBit
  | .lsb => unpackLsb
  | .msb => unpackMsb

/-- The byte whose bit `j` is `f j`. -/
def byteOf (f : Nat → UBit) : Byte :=
  BitVec.ofNat 8 ((List.range 8).foldl (fun acc j => acc + (f j).toNat * 2 ^ j) 0)

/-- `pack_lsb(bits)`: unused high bits of the last byte are 0. -/
def packLsb (bits : List UBit) : List Byte :=
  (List.range ((bits.length + 7) / 8)).map fun b => byteOf fun j => bits.getD (8 * b + j) false

/-- `pack_msb(bits)`: unused low bits of the last byte are 0. -/
def packMsb (bits : List UBit) : List Byte :=
  (List.range ((bits.length + 7) / 8)).map fun b =>
    byteOf fun j => bits.getD (8 * b + (7 - j)) false

/-- `pack_lsb` or `pack_msb`. -/
def packBits : BitOrder → List UBit → List Byte
  | .lsb => packLsb
  | .msb => packMsb

/-! ### Pattern matcher (R165) -/

/-- `dist` of a soft observation. -/
def softDist : List UBit → List SBit → Nat
  | p :: ps, x :: xs => ((SBit.soft p).toInt - x.toInt).natAbs + softDist ps xs
  | _, _ => 0

/-- `dist` of a hard observation: the Hamming distance. -/
def hardDist : List UBit → List UBit → Nat
  | p :: ps, x :: xs => (if p ≠ x then 1 else 0) + hardDist ps xs
  | _, _ => 0

/-- The smallest index that attains the minimum of the distances from index `i` on, against the best
so far. -/
def nearestFrom : Nat → List Nat → Nat × Nat → Nat × Nat
  | _, [], best => best
  | i, d :: ds, best => nearestFrom (i + 1) ds (if d < best.2 then (i, d) else best)

/-- `(idx, dist(idx))` (R165), from the list of distances; the matcher is not used on an empty
table. -/
def nearest : List Nat → Nat × Nat
  | [] => (0, 0)
  | d :: ds => nearestFrom 1 ds (0, d)

/-- `match(table, x)` on a soft observation. -/
def matchSoft (table : List (List UBit)) (x : List SBit) : Nat × Nat :=
  nearest (table.map fun p => softDist p x)

/-- `match(table, x)` on a hard observation. -/
def matchHard (table : List (List UBit)) (x : List UBit) : Nat × Nat :=
  nearest (table.map fun p => hardDist p x)

/-! ### Burst formats (47_scheduler.md R272, R276, R283 to R285) -/

/-- Three zero tail positions. -/
def tail3 : List UBit := [false, false, false]

/-- `wrap(e, t)` (R283). -/
def wrap (e : List UBit) (t : List UBit) : List UBit :=
  tail3 ++ slice e 0 58 ++ t ++ slice e 58 58 ++ tail3

/-- The synchronisation burst (R284). -/
def wrapSch (c : List UBit) (train : List UBit) : List UBit :=
  tail3 ++ slice c 0 39 ++ train ++ slice c 39 39 ++ tail3

/-- The payload of a received two-level burst (R271 (b), R272). -/
def unwrap (bits : List SBit) : List SBit := slice bits 3 58 ++ slice bits 87 58

/-- The coded bits of a received access burst (R276). -/
def accessBits (bits : List SBit) : List SBit := slice bits 49 36

end Sys2Proof.Machine
end

