-- ==== Sys2Proof/Machine/Puncture.lean ====
section
/-! DEFINITION. The puncture unit's functions (42_puncture_unit.md R140). -/

namespace Sys2Proof.Machine

/-- `full` (R140). -/
def Mask.full (m : Mask) : Nat := m.keep.length

/-- `kept` (R140). -/
def Mask.kept (m : Mask) : Nat := m.keep.countP id

/-- `punct` over the list of keep flags (R140). -/
def punctKeep {α : Type} : List Bool → List α → List α
  | k :: ks, x :: xs => if k then x :: punctKeep ks xs else punctKeep ks xs
  | _, _ => []

/-- `punct(mask, c)` (R140): the kept positions in ascending order. -/
def punct {α : Type} (m : Mask) (c : List α) : List α := punctKeep m.keep c

/-- `depunct` over the list of keep flags (R140). -/
def depunctKeep : List Bool → List SBit → List SBit
  | [], _ => []
  | true :: ks, x :: xs => x :: depunctKeep ks xs
  | true :: ks, [] => SBit.zero :: depunctKeep ks []
  | false :: ks, xs => SBit.zero :: depunctKeep ks xs

/-- `depunct(mask, s)` (R140): an erasure at each removed position. -/
def depunct (m : Mask) (s : List SBit) : List SBit := depunctKeep m.keep s

end Sys2Proof.Machine
end

