-- ==== Sys2Proof/Machine/Trellis.lean ====
section
/-! DEFINITION. The trellis engine's functions (41_trellis_engine.md R120 to R127): the convolutional
encoder, the cost of a candidate, the maximum-likelihood decoder and the error estimate.

The register is held as a number whose bit `i` is `r[k-1-i]`; `2 * reg + r[k]` then has `r[k-j]` at bit
`j`, for every delay `j`. -/

namespace Sys2Proof.Machine

/-- `N`, the coded bits per step (R120). -/
def Code.n (c : Code) : Nat := c.gens.length

/-- `m = K - 1`, the memory (R120). -/
def Code.m (c : Code) : Nat := c.k - 1

/-- The exclusive or of the taps of `w` (R122). -/
def tapXor (taps : List Nat) (w : Nat) : UBit := taps.foldl (fun acc j => acc ^^ w.testBit j) false

/-- `f[k]` (R122): delay 0 contributes nothing, since bit 0 of `2 * reg` is 0. -/
def Code.feedback (c : Code) (reg : Nat) : UBit := tapXor c.fb (2 * reg)

/-- The coded bits of one step with window `w = 2 * reg + r[k]` (R122). -/
def Code.outputs (c : Code) (w : Nat) : List UBit := c.gens.map fun g => tapXor g w

/-- The register after a step with window `w`. -/
def Code.shift (c : Code) (w : Nat) : Nat := w % 2 ^ c.m

/-- The window of a step whose input is `u[k]` (R122): `r[k] = u[k] ^ f[k]`. -/
def Code.window (c : Code) (reg : Nat) (x : UBit) : Nat := 2 * reg + (x ^^ c.feedback reg).toNat

/-- The register after the inputs `u`, from register `reg`. -/
def Code.regAfter (c : Code) : Nat → List UBit → Nat
  | reg, [] => reg
  | reg, x :: xs => c.regAfter (c.shift (c.window reg x)) xs

/-- The coded bits of the inputs `u`, from register `reg`. -/
def Code.encodeFrom (c : Code) : Nat → List UBit → List UBit
  | _, [] => []
  | reg, x :: xs =>
    c.outputs (c.window reg x) ++ c.encodeFrom (c.shift (c.window reg x)) xs

/-- The coded bits of `steps` flush steps, whose `r[k]` is 0 (R122). -/
def Code.flushFrom (c : Code) : Nat → Nat → List UBit
  | 0, _ => []
  | steps + 1, reg => c.outputs (2 * reg) ++ c.flushFrom steps (c.shift (2 * reg))

/-- `T`, the number of steps for an input of length `len` (R122). -/
def Code.steps (c : Code) (len : Nat) : Nat :=
  match c.term with
  | .none => len
  | .flush => len + c.m

/-- `conv_enc(code, u)` (R122). -/
def convEnc (c : Code) (u : List UBit) : List UBit :=
  match c.term with
  | .none => c.encodeFrom 0 u
  | .flush => c.encodeFrom 0 u ++ c.flushFrom c.m (c.regAfter 0 u)

/-! ### Decoding -/

/-- The length condition of the decoding problem (R125) for `len` soft bits and `kd` free bits. -/
def decodeLenOk (c : Code) (len kd : Nat) : Bool :=
  match c.term with
  | .none => decide (0 < c.n ∧ len % c.n = 0 ∧ kd ≤ len / c.n)
  | .flush => decide (len = c.n * (kd + c.m))

/-- `T` of the decoding problem (R125). -/
def decodeSteps (c : Code) (len kd : Nat) : Nat :=
  match c.term with
  | .none => len / c.n
  | .flush => kd + c.m

/-- The codeword a candidate with free bits `u` is compared by (R125, R127): the tail of a `NONE` code
is known to be zero. -/
def candidateWord (c : Code) (len : Nat) (u : List UBit) : List UBit :=
  match c.term with
  | .none => convEnc c (u ++ List.replicate (len / c.n - u.length) false)
  | .flush => convEnc c u

/-- The cost of one position (R125): an erasure costs nothing either way. -/
def bitCost (s : SBit) (b : UBit) : Nat := if s.hard ≠ b then s.mag else 0

/-- The cost of a codeword (R125). -/
def wordCost : List SBit → List UBit → Nat
  | s :: ss, b :: bs => bitCost s b + wordCost ss bs
  | _, _ => 0

/-- `cost(u)` of the candidate with free bits `u` (R125). -/
def candidateCost (c : Code) (s : List SBit) (u : List UBit) : Nat :=
  wordCost s (candidateWord c s.length u)

/-- The kinds of trellis step: the input is free, is a known zero of a `NONE` tail, or is the flush
input that makes `r[k]` zero. -/
inductive StepKind where
  | free | zero | flush
  deriving DecidableEq, Repr, Inhabited

/-- A survivor: the cost so far and the free bits so far, last first. -/
abbrev Survivor := Option (Nat × List UBit)

/-- The survivor that reaches a register through window `w`, before the competing one is seen. The
input of the step is `b ^ f[k]`, where `b` is bit 0 of the window. -/
def extend (c : Code) (kind : StepKind) (chunk : List SBit) (survivors : List Survivor) (w : Nat) :
    Survivor :=
  let reg := w / 2
  let b := w.testBit 0
  let x := b ^^ c.feedback reg
  match survivors.getD reg none with
  | none => none
  | some (cost, path) =>
    let cost' := cost + wordCost chunk (c.outputs w)
    match kind with
    | .free => some (cost', x :: path)
    | .zero => if x then none else some (cost', path)
    | .flush => if b then none else some (cost', path)

/-- The better of two survivors; at equal cost `tie` picks the second. -/
def better (tie : Bool) : Survivor → Survivor → Survivor
  | none, y => y
  | some x, none => some x
  | some x, some y =>
    if x.1 < y.1 then some x else if y.1 < x.1 then some y else if tie then some y else some x

/-- One step of add, compare and select over the `2^m` registers (R126). The two windows that lead to
register `reg` are `reg` and `reg + 2^m`. -/
def selectStep (c : Code) (tie : Nat → Bool) (kind : StepKind) (chunk : List SBit)
    (survivors : List Survivor) : List Survivor :=
  (List.range (2 ^ c.m)).map fun reg =>
    better (tie reg) (extend c kind chunk survivors reg)
      (extend c kind chunk survivors (reg + 2 ^ c.m))

/-- The steps `k, k+1, ...` of the trellis, `kinds` one a step (R126). -/
def trellis (c : Code) (tie : Nat → Nat → Bool) : List StepKind → Nat → List SBit →
    List Survivor → List Survivor
  | [], _, _, survivors => survivors
  | kind :: kinds, k, s, survivors =>
    trellis c tie kinds (k + 1) (s.drop c.n)
      (selectStep c (tie k) kind (s.take c.n) survivors)

/-- The best of the survivors of registers `reg, reg+1, ...`; `tie` decides between equals. -/
def bestOf (tie : Nat → Bool) : Nat → List Survivor → Survivor → Survivor
  | _, [], best => best
  | reg, x :: xs, best => bestOf tie (reg + 1) xs (better (tie reg) best x)

/-- The kinds of the steps of a decoding problem (R125). -/
def stepKinds (c : Code) (len kd : Nat) : List StepKind :=
  match c.term with
  | .none => List.replicate kd .free ++ List.replicate (decodeSteps c len kd - kd) .zero
  | .flush => List.replicate kd .free ++ List.replicate c.m .flush

/-- The search starts from the zero register (R130). -/
def startSurvivors (c : Code) : List Survivor :=
  some (0, []) :: List.replicate (2 ^ c.m - 1) none

/-- `conv_dec(code, s, kd)` (R126): the first `kd` bits of a candidate of minimal cost. `tie k reg`
is the choice among equally good survivors of register `reg` after step `k`; the last index of `k` is
the choice among the final registers (log 3). -/
def convDec (tie : Nat → Nat → Bool) (c : Code) (s : List SBit) (kd : Nat) : List UBit :=
  let survivors := trellis c tie (stepKinds c s.length kd) 0 s (startSurvivors c)
  match bestOf (tie (decodeSteps c s.length kd)) 0 survivors none with
  | some (_, path) => path.reverse
  | none => List.replicate kd false

/-- `NBITS` (R127): the positions that are no erasures. -/
def convNbits (s : List SBit) : Nat := s.countP fun x => decide (x.toInt ≠ 0)

/-- The compared positions at which soft bits and codeword differ. -/
def disagreements : List SBit → List UBit → Nat
  | s :: ss, b :: bs =>
    (if s.toInt ≠ 0 ∧ s.hard ≠ b then 1 else 0) + disagreements ss bs
  | _, _ => 0

/-- `NERR` (R127), by re-encoding the decoded bits. -/
def convNerr (c : Code) (s : List SBit) (u : List UBit) : Nat :=
  disagreements s (candidateWord c s.length u)

/-- `ber10k(NERR, NBITS)` (R127). -/
def ber10k (nerr nbits : Nat) : Nat := if 0 < nbits then (10000 * nerr) / nbits else 0

end Sys2Proof.Machine
end

