-- ==== Sys2Proof/Machine/Params.lean ====
section
/-! DEFINITION. The OPEN parameters of a CCSB instance (00_scope.md R7, 92_eei_decisions.md section 2) as
one record, the table lookups that go through it, and the shapes its tables must have
(60_exceptions.md R306 (5), 10_state.md R41). Every rule that names an OPEN parameter takes the record
as an argument; the machine uses `Config.inst`. -/

namespace Sys2Proof.Machine

/-- The OPEN parameters (R7). -/
structure Params where
  /-- `LAYOUT[1 ..]` (R41): entry `i` is `LAYOUT[i+1]`, so `NPCHAN` is one more than the length. -/
  layouts : List Layout
  /-- `RTS_ADVANCE` (R279). -/
  rtsAdvance : Nat
  /-- `FILLER(ch, mode)` (R281). -/
  filler : Chan → Mode → Option QElem
  /-- `SCHINFO(fn, bsic)` (R284): the 25 bits that are used, bit 0 first. -/
  schinfo : Fn → BitVec 6 → BitVec 25
  /-- `TSC_TABLE` (R283). -/
  tscTable : BitVec 3 → Vector UBit 26
  /-- `SCH_TRAIN` (R283). -/
  schTrain : Vector UBit 64
  /-- `QDEPTH` (R44). -/
  qdepth : Nat
  /-- `W_IC`, `N_IC`, `AFS_IC` (R238). -/
  afsIc : AfsIc
  /-- Whether the instance defines `AFS_IC`, which `MATCH T_AFSIC` asks (R168); where it does not, the
  patterns of `afsIc` are any of their shape (log 16). -/
  definesAfsIc : Bool
  /-- `AFS_CODE` (R237), by mode. -/
  afsCode : BitVec 3 → AfsCode
  /-- `CODES[1..15]` (R121). -/
  codes : Fin 16 → Option Code
  /-- `PUNCS[2..15]` (R141). -/
  puncs : Fin 16 → Option Mask
  /-- `AMR_PHASE(fn)` (R238). -/
  amrPhase : Fn → Phase
  /-- `FR_ORDER` (R225). -/
  frOrder : List Nat
  /-- `EFR_MAP` (R225). -/
  efrMap : EfrMap
  /-- `VIT_TIE(code, s, kd, ·)` (R126): the choice at step `k`, register `reg` (log 3). -/
  vitTie : Code → List SBit → Nat → Nat → Nat → Bool
  /-- `ALLOC_OK` (R270): the oracle's answer to its n-th consultation (log 4). -/
  allocOk : Nat → Bool
  /-- `WINBASE` (20_memory.md R71): the platform's address of the data window. No rule depends on it: an
  access names its offset in the window (R74). -/
  winBase : Nat

/-! ### Table lookups -/

/-- `NPCHAN` (R43). -/
def npchan (P : Params) : Nat := P.layouts.length + 1

/-- `LAYOUT[p]` (R41); code 0 is none (R43). -/
def layoutOf (P : Params) (p : BitVec 4) : Option Layout :=
  if p = 0 then none else P.layouts[p.toNat - 1]?

/-- `CODES[codesel]` (R121), none for an entry the instance does not define. -/
def codeOf (P : Params) (sel : Fin 16) : Option Code :=
  if sel.val = 0 then some xcchCode else P.codes sel

/-- `PUNCS[puncsel]` (R141), none for an entry the instance does not define. -/
def maskOf (P : Params) (sel : Fin 16) : Option Mask :=
  if sel.val = 0 then some cs2Mask else if sel.val = 1 then some cs3Mask else P.puncs sel

/-- `conv_dec` with the instance's `VIT_TIE` (R126). -/
def convDecP (P : Params) (c : Code) (s : List SBit) (kd : Nat) : List UBit :=
  convDec (P.vitTie c s kd) c s kd

/-- The code and the mask, if any, of an AMR mode (R237). In a well-formed instance the entries named are
defined (`Params.WF.afsDefined`). -/
def afsCodeOf (P : Params) (m : BitVec 3) : Code × Option Mask :=
  ((codeOf P (P.afsCode m).codesel).getD xcchCode, (P.afsCode m).puncsel.bind (maskOf P))

/-- The punctured encoding of an AMR mode (R239): `cm`. -/
def afsEncode (code : Code) (mask : Option Mask) (u : List UBit) : List UBit :=
  match mask with
  | none => convEnc code u
  | some m => punct m (convEnc code u)

/-! ### Shapes -/

/-- W3 (R41) for one direction: the `bid`s of the slots tagged with one channel, read cyclically, run
0, 1, ..., nb-1, 0, 1, ... -/
def cyclicBids (nb : Nat) (bids : List Nat) : Bool :=
  (List.range bids.length).all fun i =>
    bids.getD ((i + 1) % bids.length) 0 = (bids.getD i 0 + 1) % nb

/-- W2 and W4 (R41) for one tag of a slot: IDLE with `bid` 0, or a channel of a family with bursts and
a `bid` below their number. -/
def tagOk (ch : Chan) (bid nb : Nat) : Bool :=
  if ch = chIdle then bid = 0 else bid < nb

/-- W1 to W4 of R41. -/
def Layout.wf (l : Layout) : Bool :=
  decide (1 ≤ l.period) && decide (HYPER % l.period = 0) &&
  (l.slots.all fun x => tagOk x.dlChan x.dlBid.val (nbDl x.dlChan) &&
    tagOk x.ulChan x.ulBid.val (nbUl x.ulChan)) &&
  (l.slots.all fun x =>
    (x.dlChan = chIdle || cyclicBids (nbDl x.dlChan)
      ((l.slots.filter fun y => y.dlChan = x.dlChan).map fun y => y.dlBid.val)) &&
    (x.ulChan = chIdle || cyclicBids (nbUl x.ulChan)
      ((l.slots.filter fun y => y.ulChan = x.ulChan).map fun y => y.ulBid.val)))

/-- The shape of a code (R120): `N` 1..5, `K` 2..7, non-empty generators and `fb` within `0..K-1`,
without repetition, and 0 in `fb`. -/
def Code.wf (c : Code) : Bool :=
  decide (1 ≤ c.n ∧ c.n ≤ 5 ∧ 2 ≤ c.k ∧ c.k ≤ 7) &&
  (c.gens.all fun g => !g.isEmpty && (g.all fun j => j < c.k) && decide g.Nodup) &&
  (c.fb.all fun j => j < c.k) && decide (0 ∈ c.fb) && decide c.fb.Nodup

/-- The shape of the in-band patterns (R238). -/
def AfsIc.wf (a : AfsIc) : Bool :=
  decide (1 ≤ a.wIc ∧ a.wIc ≤ 16 ∧ 1 ≤ a.rows.length ∧ a.rows.length ≤ 8) &&
  (a.rows.all fun r => r.length = a.wIc) && decide a.rows.Nodup

/-- The shape of `EFR_MAP` (R225). -/
def EfrMap.wf (e : EfrMap) : Bool :=
  decide (e.prot.length = 65 ∧ e.rep.length = 4) && (e.prot.all fun j => j < 244) &&
  (e.rep.all fun j => j < 244) && decide e.prot.Nodup && decide e.rep.Nodup &&
  decide (e.order.Perm (List.range 260))

/-- What R237 requires of the code and mask of a mode: the encoder's output fits the mask, the block is
filled exactly, and the punctured code is injective on inputs of the mode's length. -/
def afsShape (wIc : Nat) (m : BitVec 3) (code : Code) (mask : Option Mask) : Prop :=
  (∀ u : List UBit, u.length = (afsMode m).bits + 6 →
    (∀ k, mask = some k → (convEnc code u).length = k.full) ∧
    (afsEncode code mask u).length = 456 - wIc) ∧
  (∀ u v : List UBit, u.length = (afsMode m).bits + 6 → v.length = (afsMode m).bits + 6 →
    afsEncode code mask u = afsEncode code mask v → u = v)

/-- A model instance that keeps the shapes its tables' rules give (R306 (5), U13): layouts W1 to W4,
at most 15 of them; `RTS_ADVANCE` below `HYPER`; a positive `QDEPTH`; codes, patterns and speech tables
of their shapes; and every AMR mode as R237 requires, over entries that are defined. -/
structure Params.WF (P : Params) : Prop where
  layouts : ∀ l ∈ P.layouts, l.wf = true
  npchan : P.layouts.length ≤ 15
  rts : P.rtsAdvance < HYPER
  qdepth : 0 < P.qdepth
  codes : ∀ e c, P.codes e = some c → c.wf = true
  afsIc : P.afsIc.wf = true
  frOrder : P.frOrder.Perm (List.range 260)
  efrMap : P.efrMap.wf = true
  afsDefined : ∀ m, (codeOf P (P.afsCode m).codesel).isSome = true ∧
    ∀ p, (P.afsCode m).puncsel = some p → (maskOf P p).isSome = true
  afsCode : ∀ m, afsShape P.afsIc.wIc m (afsCodeOf P m).1 (afsCodeOf P m).2

/-! ### The type of instances is not empty -/

/-- A repetition code: five copies of every bit. -/
def repCode : Code := { k := 2, gens := List.replicate 5 [0], fb := [0], term := .none }

/-- A mask for `len` repeated bits that keeps the first copy of every bit and as many others as make
448. -/
def repMask (len : Nat) : Mask :=
  { keep := (List.range (5 * len)).map fun j =>
      decide (j % 5 = 0 ∨ 4 * (j / 5) + (j % 5 - 1) < 448 - len) }

/-- An instance with no timeslot configuration and the repetition code for every AMR mode. It stands
nowhere but as the witness that well-formed instances exist. -/
def Params.least : Params where
  layouts := []
  rtsAdvance := 0
  filler := fun _ _ => none
  schinfo := fun _ _ => 0
  tscTable := fun _ => Vector.replicate 26 false
  schTrain := Vector.replicate 64 false
  qdepth := 1
  afsIc := { wIc := 8, rows := [List.replicate 8 false] }
  definesAfsIc := true
  afsCode := fun m => { codesel := 1, puncsel := some ⟨m.toNat + 2, by omega⟩ }
  codes := fun e => if e = 1 then some repCode else none
  puncs := fun e => some (repMask ((afsMode (BitVec.ofNat 3 (e.val - 2))).bits + 6))
  amrPhase := fun _ => .cmi
  frOrder := List.range 260
  efrMap := { prot := List.range 65, rep := [0, 1, 2, 3], order := List.range 260 }
  vitTie := fun _ _ _ _ _ => false
  allocOk := fun _ => true
  winBase := 0

/-- The repetition code repeats. -/
theorem encodeFrom_repCode (u : List UBit) (reg : Nat) :
    repCode.encodeFrom reg u = u.flatMap fun x => List.replicate 5 x := by
  induction u generalizing reg with
  | nil => rfl
  | cons x xs ih =>
    have h : ∀ b : Bool, tapXor [0] (2 * reg + b.toNat) = b := by
      intro b; cases b <;> simp [tapXor, Nat.testBit_zero]
    have hf : repCode.feedback reg = false := by simp [Code.feedback, repCode, tapXor]
    rw [Code.encodeFrom, ih, List.flatMap_cons]
    congr 1
    have hg : repCode.gens = List.replicate 5 [0] := rfl
    simp [Code.window, hf, Code.outputs, hg, h]

/-- The length of a punctured word. -/
theorem punctKeep_length {α : Type} (ks : List Bool) (xs : List α) (h : ks.length = xs.length) :
    (punctKeep ks xs).length = ks.countP id := by
  induction ks generalizing xs with
  | nil => rfl
  | cons k ks ih =>
    cases xs with
    | nil => simp at h
    | cons x xs =>
      have := ih xs (by simpa using h)
      cases k <;> simp [punctKeep, this]

/-- Words with equal punctured words agree where the mask keeps. -/
theorem punctKeep_inj {α : Type} (ks : List Bool) (xs ys : List α) (hx : ks.length = xs.length)
    (hy : ks.length = ys.length) (h : punctKeep ks xs = punctKeep ks ys) (j : Nat)
    (hj : ks[j]? = some true) : xs[j]? = ys[j]? := by
  induction ks generalizing xs ys j with
  | nil => simp at hj
  | cons k ks ih =>
    cases xs with
    | nil => simp at hx
    | cons x xs =>
      cases ys with
      | nil => simp at hy
      | cons y ys =>
        have hx' : ks.length = xs.length := by simpa using hx
        have hy' : ks.length = ys.length := by simpa using hy
        cases k with
        | false =>
          cases j with
          | zero => simp at hj
          | succ j => simpa using ih xs ys hx' hy' (by simpa [punctKeep] using h) j (by simpa using hj)
        | true =>
          simp only [punctKeep, if_true, List.cons.injEq] at h
          cases j with
          | zero => simp [h.1]
          | succ j => simpa using ih xs ys hx' hy' h.2 j (by simpa using hj)

/-- Every fifth position of a repeated word is the word. -/
theorem flatMap_replicate_getElem? (u : List UBit) (k : Nat) :
    (u.flatMap fun x => List.replicate 5 x)[5 * k]? = u[k]? := by
  induction u generalizing k with
  | nil => simp
  | cons x xs ih =>
    cases k with
    | zero => simp [List.replicate]
    | succ k => simpa [List.flatMap_cons, Nat.mul_add, List.getElem?_append_right] using ih k

/-- The mask keeps 448 bits of every AMR mode. -/
theorem repMask_kept : ∀ m : BitVec 3, (repMask ((afsMode m).bits + 6)).kept = 448 := by
  decide +kernel

/-- The repetition code with its mask is as R237 requires. -/
theorem repMask_shape (m : BitVec 3) :
    afsShape 8 m repCode (some (repMask ((afsMode m).bits + 6))) := by
  have hlen : ∀ u : List UBit, (convEnc repCode u).length = 5 * u.length := by
    intro u
    show (repCode.encodeFrom 0 u).length = _
    rw [encodeFrom_repCode]
    induction u with
    | nil => rfl
    | cons x xs ih => simp [List.flatMap_cons] at ih ⊢; omega
  have hfull : (repMask ((afsMode m).bits + 6)).keep.length = 5 * ((afsMode m).bits + 6) := by
    simp [repMask]
  constructor
  · intro u hu
    refine ⟨?_, ?_⟩
    · intro k hk
      cases hk
      rw [hlen, hu, Mask.full, hfull]
    · show (punctKeep _ _).length = _
      rw [punctKeep_length _ _ (by rw [hfull, hlen, hu])]
      exact repMask_kept m
  · intro u v hu hv h
    apply List.ext_getElem?
    intro k
    rw [← flatMap_replicate_getElem? u k, ← flatMap_replicate_getElem? v k,
      ← encodeFrom_repCode u 0, ← encodeFrom_repCode v 0]
    by_cases hk : k < (afsMode m).bits + 6
    · refine punctKeep_inj (repMask ((afsMode m).bits + 6)).keep _ _ (hfull.trans ?_)
        (hfull.trans ?_) h (5 * k) ?_
      · rw [← hu]; exact (hlen u).symm
      · rw [← hv]; exact (hlen v).symm
      · rw [repMask, List.getElem?_map, List.getElem?_range (by omega)]
        simp
    · rw [encodeFrom_repCode, encodeFrom_repCode, flatMap_replicate_getElem?,
        flatMap_replicate_getElem?, List.getElem?_eq_none (by omega), List.getElem?_eq_none (by omega)]

/-- When speech tables of the least instance's form have their shape. -/
theorem EfrMap.wf_of (prot order : List Nat) (h1 : prot.length = 65) (h2 : ∀ j ∈ prot, j < 244)
    (h3 : prot.Nodup) (h4 : order.Perm (List.range 260)) :
    EfrMap.wf { prot := prot, rep := [0, 1, 2, 3], order := order } = true := by
  simp only [EfrMap.wf, Bool.and_eq_true, decide_eq_true_eq, List.all_eq_true]
  exact ⟨⟨⟨⟨⟨⟨h1, rfl⟩, h2⟩, by simp⟩, h3⟩, by simp⟩, h4⟩

/-- The AMR code of the least instance. -/
theorem Params.least_afsCodeOf : ∀ m : BitVec 3,
    afsCodeOf Params.least m = (repCode, some (repMask ((afsMode m).bits + 6))) := by
  decide +kernel

/-- The least instance has the shapes. -/
theorem Params.least_wf : Params.least.WF where
  layouts := by simp [Params.least]
  npchan := by simp [Params.least]
  rts := by simp [Params.least, HYPER]
  qdepth := by simp [Params.least]
  codes := by
    intro e c h
    by_cases he : e = 1
    · simp [Params.least, he] at h; rw [← h]; decide
    · simp [Params.least, he] at h
  afsIc := by decide
  frOrder := by simp only [Params.least, List.Perm.refl]
  efrMap := by
    have h : ∀ n, n ≤ 244 → ∀ j ∈ List.range n, j < 244 := fun n hn j hj =>
      Nat.lt_of_lt_of_le (List.mem_range.mp hj) hn
    simp only [Params.least]
    exact EfrMap.wf_of (List.range 65) _ List.length_range (h 65 (by omega)) List.nodup_range
      (List.Perm.refl _)
  afsDefined := by
    intro m
    refine ⟨rfl, ?_⟩
    intro p _
    simp only [maskOf, Params.least]
    split
    · rfl
    · split <;> rfl
  afsCode := by
    intro m
    rw [Params.least_afsCodeOf]
    exact repMask_shape m

end Sys2Proof.Machine
end

