-- ==== Sys2Proof/Config.lean ====
section
/-! DEFINITION. What an implementation fixes and what the spec leaves free, as constants with no body:
nothing in Lean can evaluate them, so a claim about them holds for every value they could have. -/

namespace Sys2Proof

open Sys2Proof.Machine

/-- A model instance: the OPEN parameters of R7, with the shapes R306 (5) asks for. An instance that
breaks them is excluded by this type (log 2). -/
structure Instance where
  params : Params := Params.least
  wf : params.WF := by exact Params.least_wf
  deriving Inhabited

/-- The model instance: any well-formed one (log 2). -/
opaque Config.model : Instance

/-- The OPEN parameters of the model instance. -/
abbrev Config.inst : Params := Config.model.params

/-- The value of element `idx` of a byte buffer whose value was lost at event `tag` (log 5). -/
opaque Config.freeByte : Nat → Nat → Byte

/-- The value of element `idx` of a hard-bit buffer whose value was lost at event `tag` (log 5). -/
opaque Config.freeBit : Nat → Nat → UBit

/-- The byte behind `Config.freeSoft`. -/
opaque Config.freeSoftByte : Nat → Nat → Byte

/-- The value of element `idx` of a soft-bit buffer whose value was lost at event `tag`: any legal soft
bit (log 5). -/
def Config.freeSoft (tag idx : Nat) : SBit := SBit.clamp (Config.freeSoftByte tag idx)

/-- A length register after `TICK` or `RX.BURST`, before it is brought below the capacity (log 6). -/
opaque Config.freeLen : Nat → Nat

/-- `RES` after `TICK` or `RX.BURST` (log 6). -/
opaque Config.freeRes : Nat → Res

/-- `WAMR` after `TICK` or `RX.BURST`, before `N` is brought into 0..8 (log 6). -/
opaque Config.freeWamr : Nat → Wamr

/-- Measurement sum `which` (0 `RSSI_SUM`, 1 `TOA_SUM`, 2 `CI_SUM`) that left its 32 bits at event
`tag` (log 13). -/
opaque Config.freeSum : Nat → Nat → BitVec 32

/-- Burst count `which` (0 `RSSI_NUM`, 1 `TOA_NUM`, 2 `CI_NUM`) that left its 8 bits at event `tag`
(log 13). -/
opaque Config.freeCount : Nat → Nat → Byte

/-- The fields of the event-head word at offset `off` that the head event does not have, at read number
`tag` (log 9). -/
opaque Config.freeHead : Nat → Nat → Word

/-- Element `idx` of `EVH.DATA` that the head event does not have, at read number `tag` (log 9). -/
opaque Config.freeHeadData : Nat → Nat → Byte

/-- The queue fill field of `CSV.FLAGS` for a fill of more than 65535, at read number `tag` (log 20). -/
opaque Config.freeFill : Nat → BitVec 16

end Sys2Proof
end

