-- ==== Sys2Proof/WellFormed.lean ====
section
/-! DEFINITION. The value sets of 30_encoding.md R93 and of the operation rules that the operand types
do not already enforce and that do not depend on the model instance. -/

namespace Sys2Proof

/-- The static legality of a command's operands (R93, R96): `n` of the CRC, pack and unpack commands
and `kd` are at most 512 (R113, R114, R128, R160, R161); `PAR.LD` has a width 1..40 (R117); a 4-burst
`H.SET` has no pattern bit above 7 (R158); a frame number is below `HYPER` (R278). -/
def Instr.wellFormed : Instr → Bool
  | .crcGen _ n | .crcChk _ n | .unpack _ n | .pack _ n => decide (n.toNat ≤ 512)
  | .convDec _ kd => decide (kd.toNat ≤ 512)
  | .parLd r _ => decide (1 ≤ r.toNat ∧ r.toNat ≤ 40)
  | .hSet .four pattern => decide (pattern.toNat < 256)
  | .hSet .eight _ => true
  | .tick fn => decide (fn.toNat < HYPER)
  | .uappPar | .uappZero _ | .convEnc _ | .punc _ | .depunc _ | .intlv _ | .deintlv _ | .map _
  | .unmap _ | .matchPat _ | .xcchEnc | .xcchDec | .rachEnc _ | .rachDec _ | .schEnc | .schDec
  | .pdtchEnc | .pdtchDec | .amrCfg | .tchfrEnc _ | .tchfrDec _ | .tchafsEnc _ | .tchafsDec _
  | .schedInit | .setPchan _ _ _ | .chAct _ _ _ | .chDeact _ _ _ | .setMode _ _
  | .setCipher _ _ _ | .pduEnq _ _ _ | .setAtt _ _ | .rxBurst | .setBsic _ => true

/-- A command the encoding can carry. -/
abbrev Instr.WellFormed (i : Instr) : Prop := i.wellFormed = true

end Sys2Proof
end

