-- ==== Sys2Proof/Decode.lean ====
section
/-! DEFINITION. The command word (30_encoding.md R90 to R97): its fields, the decoder, the encoder and
the table form of the decoder that the host asks. The decoder is total and rejects by name. -/

namespace Sys2Proof

/-- Why a word is no legal command (R96): (a) the opcode is not in the map, (b) a bit the format must
keep 0 is 1, (c) an operand is outside its value set. -/
inductive Illegal where
  | unknownOpcode
  | reservedBits
  | operand
  deriving DecidableEq, Repr

/-! ### Fields (R91) -/

/-- `op = w[31:24]`. -/
def Word.op (w : Word) : Byte := w.extractLsb' 24 8
/-- `a = w[23:16]`. -/
def Word.a (w : Word) : Byte := w.extractLsb' 16 8
/-- `b = w[15:8]`. -/
def Word.b (w : Word) : Byte := w.extractLsb' 8 8
/-- `c = w[7:0]`. -/
def Word.c (w : Word) : Byte := w.extractLsb' 0 8
/-- `n = w[15:0]`. -/
def Word.n (w : Word) : BitVec 16 := w.extractLsb' 0 16
/-- `fn = w[21:0]`. -/
def Word.fn (w : Word) : Fn := w.extractLsb' 0 22
/-- `w[31:16]`, the `AUX` of an illegal command (R96). -/
def Word.high (w : Word) : BitVec 16 := w.extractLsb' 16 16

/-! ### Selector codes (R93) -/

/-- The number of a `crcsel`. -/
def CrcSel.code : CrcSel → Byte
  | .fire40 => 0 | .crc16 => 1 | .crc10 => 2 | .crc6 => 3 | .crc3 => 4 | .crc8 => 5
/-- The number of an `isel`. -/
def ISel.code : ISel → Byte
  | .x4 => 0 | .t8 => 1
/-- The number of an `nb`. -/
def NBursts.code : NBursts → Byte
  | .four => 4 | .eight => 8
/-- The number of a `tsel`. -/
def TSel.code : TSel → Byte
  | .cs => 0 | .usf6 => 1 | .usf12 => 2 | .afsic => 3
/-- The number of an `order`. -/
def BitOrder.code : BitOrder → Byte
  | .lsb => 0 | .msb => 1
/-- The number of an `efr`. -/
def Efr.code : Efr → Byte
  | .fr => 0 | .efr => 1
/-- The number of a `phase`. -/
def Phase.code : Phase → Byte
  | .cmi => 0 | .cmr => 1
/-- The number of a `linksel`. -/
def LinkSel.code : LinkSel → Byte
  | .all => 0 | .main => 1 | .sacch => 2
/-- The number of a `dir`. -/
def Dir.code : Dir → Byte
  | .ul => 0 | .dl => 1

/-- `crcsel` from field `a`. -/
def CrcSel.ofCode (v : Byte) : Except Illegal CrcSel :=
  if v = 0 then .ok .fire40 else if v = 1 then .ok .crc16 else if v = 2 then .ok .crc10
  else if v = 3 then .ok .crc6 else if v = 4 then .ok .crc3 else if v = 5 then .ok .crc8
  else .error .operand
/-- `isel` from field `a`. -/
def ISel.ofCode (v : Byte) : Except Illegal ISel :=
  if v = 0 then .ok .x4 else if v = 1 then .ok .t8 else .error .operand
/-- `nb` from field `a`. -/
def NBursts.ofCode (v : Byte) : Except Illegal NBursts :=
  if v = 4 then .ok .four else if v = 8 then .ok .eight else .error .operand
/-- `tsel` from field `a`. -/
def TSel.ofCode (v : Byte) : Except Illegal TSel :=
  if v = 0 then .ok .cs else if v = 1 then .ok .usf6 else if v = 2 then .ok .usf12
  else if v = 3 then .ok .afsic else .error .operand
/-- `order` from field `a`. -/
def BitOrder.ofCode (v : Byte) : Except Illegal BitOrder :=
  if v = 0 then .ok .lsb else if v = 1 then .ok .msb else .error .operand
/-- `efr` from field `a`. -/
def Efr.ofCode (v : Byte) : Except Illegal Efr :=
  if v = 0 then .ok .fr else if v = 1 then .ok .efr else .error .operand
/-- `phase` from field `a`. -/
def Phase.ofCode (v : Byte) : Except Illegal Phase :=
  if v = 0 then .ok .cmi else if v = 1 then .ok .cmr else .error .operand
/-- `linksel` from field `c`. -/
def LinkSel.ofCode (v : Byte) : Except Illegal LinkSel :=
  if v = 0 then .ok .all else if v = 1 then .ok .main else if v = 2 then .ok .sacch
  else .error .operand
/-- `dir` from field `c`. -/
def Dir.ofCode (v : Byte) : Except Illegal Dir :=
  if v = 0 then .ok .ul else if v = 1 then .ok .dl else .error .operand

/-- A table entry number 0..15, `codesel` or `puncsel`. Whether the instance defines the entry is the
meaning's check. -/
def entryOf (v : Byte) : Except Illegal (Fin 16) :=
  if h : v.toNat < 16 then .ok ⟨v.toNat, h⟩ else .error .operand

/-- A `bsic` 0..63. -/
def bsicOf (v : Byte) : Except Illegal (BitVec 6) :=
  if v.toNat < 64 then .ok (v.extractLsb' 0 6) else .error .operand

/-! ### Formats (R92): each checks its must-be-zero bits before the operands are read -/

/-- Format Z: `w[23:0]` must be 0. -/
def formatZ (w : Word) (i : Instr) : Except Illegal Instr :=
  if w.extractLsb' 0 24 = 0 then .ok i else .error .reservedBits

/-- Format A: `w[15:0]` must be 0. -/
def formatA {α : Type} (w : Word) (sel : Byte → Except Illegal α) (mk : α → Instr) :
    Except Illegal Instr :=
  if w.n ≠ 0 then .error .reservedBits else (sel w.a).map mk

/-- Format N: every bit is used. -/
def formatN {α : Type} (w : Word) (sel : Byte → Except Illegal α) (mk : α → BitVec 16 → Instr) :
    Except Illegal Instr :=
  (sel w.a).map fun a => mk a w.n

/-- The timeslot of formats T, P and V: `a[2:0]`. -/
def tnOf (w : Word) : Tn := (w.a.extractLsb' 0 3).toFin

/-- The channel of format T: `b[5:0]`, legal up to 38. -/
def chanOf (w : Word) : Except Illegal Chan :=
  if h : (w.b.extractLsb' 0 6).toNat < 39 then .ok ⟨(w.b.extractLsb' 0 6).toNat, h⟩
  else .error .operand

/-- Format T: `a[7:3]` and `b[7:6]` must be 0. -/
def formatT {α : Type} (w : Word) (sel : Byte → Except Illegal α) (mk : Tn → Chan → α → Instr) :
    Except Illegal Instr :=
  if w.a.extractLsb' 3 5 ≠ 0 ∨ w.b.extractLsb' 6 2 ≠ 0 then .error .reservedBits
  else match chanOf w with
    | .error e => .error e
    | .ok ch => (sel w.c).map fun c => mk (tnOf w) ch c

/-- Format P: `a[7:3]`, `b[7:4]` and `c[7:3]` must be 0. -/
def formatP (w : Word) (mk : Tn → BitVec 4 → BitVec 3 → Instr) : Except Illegal Instr :=
  if w.a.extractLsb' 3 5 ≠ 0 ∨ w.b.extractLsb' 4 4 ≠ 0 ∨ w.c.extractLsb' 3 5 ≠ 0 then
    .error .reservedBits
  else .ok (mk (tnOf w) (w.b.extractLsb' 0 4) (w.c.extractLsb' 0 3))

/-- Format V: `a[7:3]` and `c` must be 0. -/
def formatV (w : Word) (mk : Tn → Byte → Instr) : Except Illegal Instr :=
  if w.a.extractLsb' 3 5 ≠ 0 ∨ w.c ≠ 0 then .error .reservedBits
  else .ok (mk (tnOf w) w.b)

/-- Format F: `w[23:22]` must be 0. -/
def formatF (w : Word) (mk : Fn → Instr) : Except Illegal Instr :=
  if w.extractLsb' 22 2 ≠ 0 then .error .reservedBits else .ok (mk w.fn)

/-- A field with no value set of its own. -/
def anyField (v : Byte) : Except Illegal Byte := .ok v

/-- A field that must be 0 by its value set (`UAPP.ZERO`'s `a`, `SET.MODE`'s `c`). -/
def zeroField (v : Byte) : Except Illegal Unit := if v = 0 then .ok () else .error .operand

/-- The opcode map and the formats (R94), before the value sets that `Instr.wellFormed` checks. -/
def decodeFormat (w : Word) : Except Illegal Instr :=
  match w.op with
  | 0x01#8 => formatN w CrcSel.ofCode .crcGen
  | 0x02#8 => formatN w CrcSel.ofCode .crcChk
  | 0x03#8 => formatZ w .uappPar
  | 0x04#8 => formatN w zeroField fun _ n => .uappZero n
  | 0x05#8 => formatN w anyField .parLd
  | 0x08#8 => formatA w entryOf .convEnc
  | 0x09#8 => formatN w entryOf .convDec
  | 0x0C#8 => formatA w entryOf .punc
  | 0x0D#8 => formatA w entryOf .depunc
  | 0x10#8 => formatA w ISel.ofCode .intlv
  | 0x11#8 => formatA w ISel.ofCode .deintlv
  | 0x12#8 => formatA w NBursts.ofCode .map
  | 0x13#8 => formatA w NBursts.ofCode .unmap
  | 0x15#8 => formatN w NBursts.ofCode .hSet
  | 0x18#8 => formatN w BitOrder.ofCode .unpack
  | 0x19#8 => formatN w BitOrder.ofCode .pack
  | 0x1A#8 => formatA w TSel.ofCode .matchPat
  | 0x20#8 => formatZ w .xcchEnc
  | 0x21#8 => formatZ w .xcchDec
  | 0x22#8 => formatA w bsicOf .rachEnc
  | 0x23#8 => formatA w bsicOf .rachDec
  | 0x24#8 => formatZ w .schEnc
  | 0x25#8 => formatZ w .schDec
  | 0x28#8 => formatZ w .pdtchEnc
  | 0x29#8 => formatZ w .pdtchDec
  | 0x2A#8 => formatZ w .amrCfg
  | 0x2C#8 => formatA w Efr.ofCode .tchfrEnc
  | 0x2D#8 => formatA w Efr.ofCode .tchfrDec
  | 0x2E#8 => formatA w Phase.ofCode .tchafsEnc
  | 0x2F#8 => formatA w Phase.ofCode .tchafsDec
  | 0x40#8 => formatZ w .schedInit
  | 0x41#8 => formatP w .setPchan
  | 0x42#8 => formatT w LinkSel.ofCode .chAct
  | 0x43#8 => formatT w LinkSel.ofCode .chDeact
  | 0x44#8 => formatT w zeroField fun tn ch _ => .setMode tn ch
  | 0x45#8 => formatT w Dir.ofCode .setCipher
  | 0x46#8 => formatT w anyField .pduEnq
  | 0x47#8 => formatV w .setAtt
  | 0x48#8 => formatF w .tick
  | 0x49#8 => formatZ w .rxBurst
  | 0x4A#8 => formatA w bsicOf .setBsic
  | _ => .error .unknownOpcode

/-- The decoder: every word is a command with legal operands or is illegal (R96). -/
def decode (w : Word) : Except Illegal Instr :=
  match decodeFormat w with
  | .error e => .error e
  | .ok i => if i.wellFormed then .ok i else .error .operand

/-! ### The encoder (R91, R92, R98): `op << 24 | a << 16 | b << 8 | c`, or `op << 24 | fn` -/

/-- A word of format Z, A, T, P or V. -/
def wordABC (op a b c : Byte) : Word := op ++ a ++ b ++ c

/-- A word of format N. -/
def wordN (op a : Byte) (n : BitVec 16) : Word := op ++ a ++ n

/-- A timeslot in field `a`. -/
def tnByte (tn : Tn) : Byte := BitVec.ofNat 8 tn.val

/-- A channel code in field `b`. -/
def chanByte (ch : Chan) : Byte := BitVec.ofNat 8 ch.val

/-- A table entry number in field `a`. -/
def entryByte (e : Fin 16) : Byte := BitVec.ofNat 8 e.val

/-- The word of a command. -/
def encode : Instr → Word
  | .crcGen crcsel n => wordN 0x01 crcsel.code n
  | .crcChk crcsel n => wordN 0x02 crcsel.code n
  | .uappPar => wordABC 0x03 0 0 0
  | .uappZero n => wordN 0x04 0 n
  | .parLd r n => wordN 0x05 r n
  | .convEnc codesel => wordABC 0x08 (entryByte codesel) 0 0
  | .convDec codesel kd => wordN 0x09 (entryByte codesel) kd
  | .punc puncsel => wordABC 0x0C (entryByte puncsel) 0 0
  | .depunc puncsel => wordABC 0x0D (entryByte puncsel) 0 0
  | .intlv isel => wordABC 0x10 isel.code 0 0
  | .deintlv isel => wordABC 0x11 isel.code 0 0
  | .map nb => wordABC 0x12 nb.code 0 0
  | .unmap nb => wordABC 0x13 nb.code 0 0
  | .hSet nb pattern => wordN 0x15 nb.code pattern
  | .unpack order n => wordN 0x18 order.code n
  | .pack order n => wordN 0x19 order.code n
  | .matchPat tsel => wordABC 0x1A tsel.code 0 0
  | .xcchEnc => wordABC 0x20 0 0 0
  | .xcchDec => wordABC 0x21 0 0 0
  | .rachEnc bsic => wordABC 0x22 (bsic.zeroExtend 8) 0 0
  | .rachDec bsic => wordABC 0x23 (bsic.zeroExtend 8) 0 0
  | .schEnc => wordABC 0x24 0 0 0
  | .schDec => wordABC 0x25 0 0 0
  | .pdtchEnc => wordABC 0x28 0 0 0
  | .pdtchDec => wordABC 0x29 0 0 0
  | .amrCfg => wordABC 0x2A 0 0 0
  | .tchfrEnc speech => wordABC 0x2C speech.code 0 0
  | .tchfrDec speech => wordABC 0x2D speech.code 0 0
  | .tchafsEnc phase => wordABC 0x2E phase.code 0 0
  | .tchafsDec phase => wordABC 0x2F phase.code 0 0
  | .schedInit => wordABC 0x40 0 0 0
  | .setPchan tn pchan tsc => wordABC 0x41 (tnByte tn) (pchan.zeroExtend 8) (tsc.zeroExtend 8)
  | .chAct tn ch linksel => wordABC 0x42 (tnByte tn) (chanByte ch) linksel.code
  | .chDeact tn ch linksel => wordABC 0x43 (tnByte tn) (chanByte ch) linksel.code
  | .setMode tn ch => wordABC 0x44 (tnByte tn) (chanByte ch) 0
  | .setCipher tn ch dir => wordABC 0x45 (tnByte tn) (chanByte ch) dir.code
  | .pduEnq tn ch aux => wordABC 0x46 (tnByte tn) (chanByte ch) aux
  | .setAtt tn att => wordABC 0x47 (tnByte tn) att 0
  | .tick fn => (0x48#8 ++ 0#2) ++ fn
  | .rxBurst => wordABC 0x49 0 0 0
  | .setBsic bsic => wordABC 0x4A (bsic.zeroExtend 8) 0 0

/-- What the decoder reads from a row's word, for the host: CCSB's commands are one 32-bit word. -/
def decodeTableWord (nbits w : Nat) : Option Instr :=
  (decode (BitVec.ofNat 32 (w % 2 ^ nbits))).toOption

end Sys2Proof
end

