-- ==== Sys2Proof/Machine/State.lean ====
section
/-! DEFINITION. The state of one CCSB instance (10_state.md R20), the reasons a step can stop, and the
state after the hardware reset (10_state.md R66, 70_reset_and_hazards.md R331). -/

namespace Sys2Proof.Machine

/-- Why the machine stops with a fault. Both are host accesses to which the spec gives no meaning. -/
inductive Fault where
  /-- A host access that is misaligned, of a width other than 1, 2 or 4, across two rows of the map, or
  a write of `CMD` that is not 4 bytes wide (60_exceptions.md R306 (3), 20_memory.md R74, R75). Raised
  by the data window. Safe: the model stops where the spec says nothing. -/
  | badAccess
  /-- A host write of a value outside the element type or of a length above the capacity
  (60_exceptions.md R306 (4), 20_memory.md R73, R76). Raised by the data window. Safe, for the same
  reason. -/
  | badValue
  deriving DecidableEq, Repr

/-- Why the machine has no meaning for a command. -/
inductive Refusal where
  /-- The command of that mnemonic is not modelled. No arm answers so. Safe. -/
  | notModelled (mnemonic : String)
  /-- `refuse("clock")` (47_scheduler.md R278, 70_reset_and_hazards.md R336): a `TICK` that does not
  carry the successor of `FN`. Raised by `TICK`. Safe: "the spec gives it no meaning". -/
  | clock
  deriving DecidableEq, Repr

/-- The architectural state, and after it the model's own fields. -/
structure State where
  /-- `FN` (R21). -/
  fn : Fn
  /-- `FNVALID` (R21). -/
  fnValid : Bool
  /-- `BSIC` (R23). -/
  bsic : BitVec 6
  /-- `STAT` (R24). -/
  stat : Stat
  /-- `RES` (R25). -/
  res : Res
  /-- `WAMR` (R26). -/
  wamr : Wamr
  /-- `TS[tn]` (R30). -/
  ts : Vector TsRegs 8
  /-- `CS[tn][ch]` (R31). -/
  cs : Vector (Vector ChanState 39) 8
  /-- `Q[tn][ch]` (R44), head first. -/
  q : Vector (Vector (List QElem) 39) 8
  /-- The working buffers and their length registers (R50, R51). -/
  mem : Memory
  /-- `PRM[0..15]` (R55). -/
  prm : Vector Byte 16
  /-- `RXIND` (R56). -/
  rxind : RxInd
  /-- `EVQ` (R58), head first. -/
  evq : List Event
  /-- `CSSEL` bits 2:0 (20_memory.md R75). -/
  csselTn : BitVec 3
  /-- `CSSEL` bits 13:8 (20_memory.md R75). -/
  csselCh : BitVec 6
  /-- MODEL: the accesses the host is going to make, in order (log 1). -/
  host : List HostAccess
  /-- MODEL: what the last host read returned (log 1). -/
  hostRead : Word
  /-- MODEL: the number of the next loss of value (log 5). -/
  free : Nat
  /-- MODEL: how many times `ALLOC_OK` has been consulted (log 4). -/
  allocs : Nat
  deriving DecidableEq, Repr

/-- A channel mode after reset: every field 0, so `TCH_MODE` is `SIGN` (70_reset_and_hazards.md
R332). -/
def Mode.zero : Mode :=
  { rslCmode := 0, tchMode := .sign, amrN := 0, amrList := Vector.replicate 8 0 }

/-- A cipher record after reset. -/
def Cipher.zero : Cipher := { algo := 0, key := Vector.replicate 8 0 }

/-- A channel state after reset, `SCHED.INIT`, `SET.PCHAN` or `CH.DEACT`: every field 0 (R31). -/
def ChanState.zero : ChanState where
  active := false
  ulAlloc := false
  ulBuf := []
  ulMask := 0
  ulFirstFn := 0
  ulSync := false
  dlAlloc := false
  dlBuf := []
  dlMod := false
  rssiSum := 0
  rssiNum := 0
  toaSum := 0
  toaNum := 0
  ciSum := 0
  ciNum := 0
  nproc := 0
  nlost := 0
  lastFn := 0
  lastValid := false
  modeP := Mode.zero
  modeUl := Mode.zero
  modeDl := Mode.zero
  ulFt := 0
  ulCmr := 0
  dlFt := 0
  dlCmr := 0
  ciphUlP := Cipher.zero
  ciphUl := Cipher.zero
  ciphDlP := Cipher.zero
  ciphDl := Cipher.zero

/-- A timeslot after reset: unconfigured. -/
def TsRegs.zero : TsRegs := { pchan := 0, tsc := 0, att := 0 }

/-- The result registers after reset. -/
def Res.zero : Res :=
  { nerr := 0, nbits := 0, usf := 0, cs := 0, ft := 0, cmr := 0, idx := 0, dist := 0, steal := false }

/-- The working AMR configuration after reset. -/
def Wamr.zero : Wamr := { n := 0, list := Vector.replicate 8 0, ft := 0, cmr := 0 }

/-- The burst-indication mailbox after reset. -/
def RxInd.zero : RxInd where
  fn := 0
  tn := 0
  toa256 := 0
  rssi := 0
  present := 0
  mod := false
  tscinfo := 0
  ci := 0
  nbits := 0
  bits := Vector.replicate 444 SBit.zero

/-- Every channel state of one timeslot at reset. -/
def chanStatesZero : Vector ChanState 39 := Vector.replicate 39 ChanState.zero

/-- Every queue of one timeslot at reset. -/
def queuesEmpty : Vector (List QElem) 39 := Vector.replicate 39 []

/-- A working buffer at reset: length 0, no element listed, every element a free value of its own
(R50: contents unspecified; log 5). -/
def Buf.unset {α : Type} (tag : Nat) : Buf α := { len := 0, elems := [], rest := tag }

/-- The working buffers at reset: eleven losses of value, numbered 0 to 10. -/
def Memory.unset : Memory where
  pdu := Buf.unset 0
  u := Buf.unset 1
  par := Buf.unset 2
  c := Buf.unset 3
  cs := Buf.unset 4
  i := Buf.unset 5
  is := Buf.unset 6
  e := Buf.unset 7
  es := Buf.unset 8
  h := Buf.unset 9
  hs := Buf.unset 10

/-- The machine right after the hardware reset (R66, R331). No host access is pending. -/
def State.reset : State where
  fn := 0
  fnValid := false
  bsic := 0
  stat := { code := 0, aux := 0 }
  res := Res.zero
  wamr := Wamr.zero
  ts := Vector.replicate 8 TsRegs.zero
  cs := Vector.replicate 8 chanStatesZero
  q := Vector.replicate 8 queuesEmpty
  mem := Memory.unset
  prm := Vector.replicate 16 0
  rxind := RxInd.zero
  evq := []
  csselTn := 0
  csselCh := 0
  host := []
  hostRead := 0
  free := 11
  allocs := 0

end Sys2Proof.Machine
end

