-- ==== Sys2Proof/Machine/Ops.lean ====
section
/-! DEFINITION. The named operations over the state: the working buffers (10_state.md R50, R51, R53, R76
of 20_memory.md), the records indexed by timeslot and channel, the event queue, the allocation oracle,
and the end of a command: completion or the raising of an error (60_exceptions.md R300). -/

namespace Sys2Proof.Machine

/-! ### One working buffer -/

/-- The value of a slot at index `idx`: its value, or the free value of its loss. -/
def Elem.read {α : Type} (free : Nat → Nat → α) (idx : Nat) : Elem α → α
  | .val v => v
  | .any tag => free tag idx

/-- Elements `idx, idx+1, ...`, `n` of them. Beyond the list every element reads as the free value
`rest`. -/
def readFrom {α : Type} (free : Nat → Nat → α) (rest : Nat) : Nat → Nat → List (Elem α) → List α
  | 0, _, _ => []
  | n + 1, idx, [] => free rest idx :: readFrom free rest n (idx + 1) []
  | n + 1, idx, e :: es => e.read free idx :: readFrom free rest n (idx + 1) es

/-- Elements `0 .. len-1` of a buffer (R50). -/
def Buf.read {α : Type} (free : Nat → Nat → α) (b : Buf α) : List α :=
  readFrom free b.rest b.len 0 b.elems

/-- Element `idx` of a buffer, whatever the length. -/
def Buf.get {α : Type} (free : Nat → Nat → α) (b : Buf α) (idx : Nat) : α :=
  match b.elems[idx]? with
  | some e => e.read free idx
  | none => free b.rest idx

/-- A rule writes a buffer (R50): the elements, then the length; what lies beyond loses its value, as
loss number `tag`. -/
def Buf.load {α : Type} (tag : Nat) (xs : List α) : Buf α :=
  { len := xs.length, elems := xs.map Elem.val, rest := tag }

/-- The slots after element `idx` is given the value `v`; skipped slots stay what they were. -/
def putElem {α : Type} (rest : Nat) : List (Elem α) → Nat → α → List (Elem α)
  | [], 0, v => [.val v]
  | [], idx + 1, v => .any rest :: putElem rest [] idx v
  | _ :: es, 0, v => .val v :: es
  | e :: es, idx + 1, v => e :: putElem rest es idx v

/-- The host writes one element (20_memory.md R76): also above the length, where it shows once the
length is raised past it. -/
def Buf.put {α : Type} (b : Buf α) (idx : Nat) (v : α) : Buf α :=
  { b with elems := putElem b.rest b.elems idx v }

/-- The host writes a length register (R50, R76, log 7): the elements between the new and the old length
lose their value, as loss number `tag`; a raised length shows what was written above the old one. -/
def Buf.setLen {α : Type} (b : Buf α) (tag n : Nat) : Buf α :=
  if n < b.len then
    { len := n
      elems := b.elems.take n ++ List.replicate (n - b.elems.length) (.any b.rest) ++
        List.replicate (b.len - n) (.any tag) ++ b.elems.drop b.len
      rest := b.rest }
  else { b with len := n }

/-- A buffer after `TICK` or `RX.BURST` (R53): some length within the capacity and no value (log 6). -/
def Buf.scratch {α : Type} (cap tag : Nat) : Buf α :=
  { len := Config.freeLen tag % (cap + 1), elems := [], rest := tag }

/-- The slot says what an unlisted element says anyway. -/
def Elem.isAny {α : Type} (rest : Nat) : Elem α → Bool
  | .val _ => false
  | .any tag => tag == rest

/-- The canonical form of a buffer of capacity `cap` when `free` losses have been numbered: length and
listed elements within the capacity, every loss an earlier one, and no last slot that an unlisted
element would say as well. -/
def Buf.wf {α : Type} (cap free : Nat) (b : Buf α) : Bool :=
  decide (b.len ≤ cap) && decide (b.elems.length ≤ cap) && decide (b.rest < free) &&
  (b.elems.all fun e => match e with
    | .val _ => true
    | .any tag => decide (tag < free)) &&
  match b.elems.getLast? with
  | none => true
  | some e => !e.isAny b.rest

/-! ### Capacities (R51) -/

/-- The capacity of `PDU`. -/
def capPdu : Nat := 64
/-- The capacity of `U`. -/
def capU : Nat := 512
/-- The capacity of `PAR`. -/
def capPar : Nat := 40
/-- The capacity of `C` and of `CS_`. -/
def capC : Nat := 1024
/-- The capacity of `I` and of `IS`. -/
def capI : Nat := 912
/-- The capacity of `E` and of `ES`. -/
def capE : Nat := 928
/-- The capacity of `H` and of `HS`. -/
def capH : Nat := 16

/-- Every working buffer is in canonical form. -/
def Memory.wf (free : Nat) (m : Memory) : Bool :=
  m.pdu.wf capPdu free && m.u.wf capU free && m.par.wf capPar free && m.c.wf capC free &&
  m.cs.wf capC free && m.i.wf capI free && m.is.wf capI free && m.e.wf capE free &&
  m.es.wf capE free && m.h.wf capH free && m.hs.wf capH free

/-! ### Reading the working buffers: the elements below the length -/

/-- `PDU[0..PDULEN-1]`. -/
def State.pdu (s : State) : List Byte := s.mem.pdu.read Config.freeByte
/-- `U[0..ULEN-1]`. -/
def State.u (s : State) : List UBit := s.mem.u.read Config.freeBit
/-- `PAR[0..PARLEN-1]`. -/
def State.par (s : State) : List UBit := s.mem.par.read Config.freeBit
/-- `C[0..CLEN-1]`. -/
def State.c (s : State) : List UBit := s.mem.c.read Config.freeBit
/-- `CS_[0..CSLEN-1]`. -/
def State.softC (s : State) : List SBit := s.mem.cs.read Config.freeSoft
/-- `I[0..ILEN-1]`. -/
def State.i (s : State) : List UBit := s.mem.i.read Config.freeBit
/-- `IS[0..ISLEN-1]`. -/
def State.softI (s : State) : List SBit := s.mem.is.read Config.freeSoft
/-- `E[0..ELEN-1]`. -/
def State.e (s : State) : List UBit := s.mem.e.read Config.freeBit
/-- `ES[0..ESLEN-1]`. -/
def State.softE (s : State) : List SBit := s.mem.es.read Config.freeSoft
/-- `H[0..HLEN-1]`. -/
def State.h (s : State) : List UBit := s.mem.h.read Config.freeBit
/-- `HS[0..HSLEN-1]`. -/
def State.softH (s : State) : List SBit := s.mem.hs.read Config.freeSoft

/-! ### Writing the working buffers: the elements, then the length -/

/-- Write `PDU` and `PDULEN`. -/
def State.setPdu (s : State) (xs : List Byte) : State :=
  { s with mem := { s.mem with pdu := Buf.load s.free xs }, free := s.free + 1 }
/-- Write `U` and `ULEN`. -/
def State.setU (s : State) (xs : List UBit) : State :=
  { s with mem := { s.mem with u := Buf.load s.free xs }, free := s.free + 1 }
/-- Write `PAR` and `PARLEN`. -/
def State.setPar (s : State) (xs : List UBit) : State :=
  { s with mem := { s.mem with par := Buf.load s.free xs }, free := s.free + 1 }
/-- Write `C` and `CLEN`. -/
def State.setC (s : State) (xs : List UBit) : State :=
  { s with mem := { s.mem with c := Buf.load s.free xs }, free := s.free + 1 }
/-- Write `CS_` and `CSLEN`. -/
def State.setSoftC (s : State) (xs : List SBit) : State :=
  { s with mem := { s.mem with cs := Buf.load s.free xs }, free := s.free + 1 }
/-- Write `I` and `ILEN`. -/
def State.setI (s : State) (xs : List UBit) : State :=
  { s with mem := { s.mem with i := Buf.load s.free xs }, free := s.free + 1 }
/-- Write `IS` and `ISLEN`. -/
def State.setSoftI (s : State) (xs : List SBit) : State :=
  { s with mem := { s.mem with is := Buf.load s.free xs }, free := s.free + 1 }
/-- Write `E` and `ELEN`. -/
def State.setE (s : State) (xs : List UBit) : State :=
  { s with mem := { s.mem with e := Buf.load s.free xs }, free := s.free + 1 }
/-- Write `ES` and `ESLEN`. -/
def State.setSoftE (s : State) (xs : List SBit) : State :=
  { s with mem := { s.mem with es := Buf.load s.free xs }, free := s.free + 1 }
/-- Write `H` and `HLEN`. -/
def State.setH (s : State) (xs : List UBit) : State :=
  { s with mem := { s.mem with h := Buf.load s.free xs }, free := s.free + 1 }
/-- Write `HS` and `HSLEN`. -/
def State.setSoftH (s : State) (xs : List SBit) : State :=
  { s with mem := { s.mem with hs := Buf.load s.free xs }, free := s.free + 1 }

/-! ### Timeslots, channel states, queues, events -/

/-- `TS[tn]` is written. -/
def State.setTs (s : State) (tn : Tn) (r : TsRegs) : State := { s with ts := s.ts.set tn r }

/-- `CS[tn][ch]`. -/
def State.chan (s : State) (tn : Tn) (ch : Chan) : ChanState := (s.cs.get tn).get ch

/-- `CS[tn][ch]` is written. -/
def State.setChan (s : State) (tn : Tn) (ch : Chan) (x : ChanState) : State :=
  { s with cs := s.cs.set tn ((s.cs.get tn).set ch x) }

/-- `Q[tn][ch]`, head first. -/
def State.queue (s : State) (tn : Tn) (ch : Chan) : List QElem := (s.q.get tn).get ch

/-- `Q[tn][ch]` is written. -/
def State.setQueue (s : State) (tn : Tn) (ch : Chan) (x : List QElem) : State :=
  { s with q := s.q.set tn ((s.q.get tn).set ch x) }

/-- Every channel state and every queue of a timeslot returns to the created state (R31, 47_scheduler.md
R258). -/
def State.clearSlot (s : State) (tn : Tn) : State :=
  { s with cs := s.cs.set tn chanStatesZero, q := s.q.set tn queuesEmpty }

/-- One channel state and its queue return to the created state (47_scheduler.md R263). -/
def State.clearChan (s : State) (tn : Tn) (ch : Chan) : State :=
  (s.setChan tn ch ChanState.zero).setQueue tn ch []

/-- `emit` (00_scope.md R13): append one event to `EVQ`. -/
def State.emit (s : State) (e : Event) : State := { s with evq := s.evq ++ [e] }

/-- One consultation of `ALLOC_OK` (47_scheduler.md R270, R280, log 4): the oracle's answer and the state
that has counted it. -/
def State.alloc (P : Params) (s : State) : Bool × State :=
  (P.allocOk s.allocs, { s with allocs := s.allocs + 1 })

/-! ### Measurement accumulators (10_state.md R35, 47_scheduler.md R271, R273) -/

/-- A signed 32-bit sum and one more input. A sum that leaves the format is the free value of event
`tag` (log 13). -/
def addSum (tag which : Nat) (sum : BitVec 32) (x : Int) : BitVec 32 :=
  if -2147483648 ≤ sum.toInt + x ∧ sum.toInt + x < 2147483648 then BitVec.ofInt 32 (sum.toInt + x)
  else Config.freeSum tag which

/-- An 8-bit count and one more burst; a count that leaves the format is free (log 13). -/
def addCount (tag which : Nat) (num : Byte) : Byte :=
  if num.toNat + 1 < 256 then num + 1 else Config.freeCount tag which

/-- `avg(s, n)` (R273): division truncated toward zero, 0 when nothing was counted. -/
def avg (sum : BitVec 32) (num : Byte) : Int :=
  if 0 < num.toNat then Int.tdiv sum.toInt num.toNat else 0

/-! ### The scratch rule (10_state.md R53, 70_reset_and_hazards.md R340) -/

/-- `RES`, `WAMR`, every working buffer and every length register after `TICK` or `RX.BURST`: free values,
each within its value set (log 6). -/
def State.scratch (s : State) : State :=
  { s with
    res := Config.freeRes s.free
    wamr := { Config.freeWamr s.free with
      n := BitVec.ofNat 4 ((Config.freeWamr s.free).n.toNat % 9) }
    mem :=
      { pdu := Buf.scratch capPdu s.free
        u := Buf.scratch capU (s.free + 1)
        par := Buf.scratch capPar (s.free + 2)
        c := Buf.scratch capC (s.free + 3)
        cs := Buf.scratch capC (s.free + 4)
        i := Buf.scratch capI (s.free + 5)
        is := Buf.scratch capI (s.free + 6)
        e := Buf.scratch capE (s.free + 7)
        es := Buf.scratch capE (s.free + 8)
        h := Buf.scratch capH (s.free + 9)
        hs := Buf.scratch capH (s.free + 10) }
    free := s.free + 11 }

/-! ### The end of a command -/

/-- `raise E_X(info)` (60_exceptions.md R300), the block's whole exception entry: `STAT.CODE` and
`STAT.AUX`, the latter truncated to 16 bits. No state is saved and no control is transferred; there is no
return operation (R310). -/
def State.raise (s : State) (e : ErrCode) (info : Nat) : State :=
  { s with stat := { code := e.code, aux := BitVec.ofNat 16 info } }

/-- What the body of a command comes to (00_scope.md R14): it ran through, it raised an error after the
writes of its rule, or it met a `refuse`. -/
inductive Cmd where
  | done (s : State)
  | raised (e : ErrCode) (info : Nat) (s : State)
  | refused (r : Refusal)
  deriving DecidableEq, Repr

/-- The end of a command (R24, R300): `STAT` is written in every case but a `refuse`. -/
def Cmd.finish : Cmd → Host.Outcome State Fault Refusal
  | .done s => .next (s.raise .none 0)
  | .raised e info s => .next (s.raise e info)
  | .refused r => .refused r

/-- An illegal command (30_encoding.md R96): nothing but `STAT`, whose `AUX` is `w[31:16]`. -/
def illegal (i : Instr) (s : State) : Cmd := .raised .illegal (encode i).high.toNat s

end Sys2Proof.Machine
end

