-- ==== Sys2Proof/Machine/Operands.lean ====
section
/-! DEFINITION. The operand forms: what a selector operand names (30_encoding.md R93), the parameter
mailbox (10_state.md R55), the burst indication (10_state.md R56) and the slot of a timeslot
(47_scheduler.md R251, R261). -/

namespace Sys2Proof.Machine

/-! ### Selectors -/

/-- The table of a `tsel` (43_interleaver_mapper.md R166). -/
def patternTable (P : Params) : TSel → List (List UBit)
  | .cs => tCs
  | .usf6 => tUsf6
  | .usf12 => tUsf12
  | .afsic => P.afsIc.rows

/-- `W_IC`, the width of an in-band indicator (46_codec_tch.md R238). -/
def wIc (P : Params) : Nat := P.afsIc.wIc

/-- `N_IC`, the number of in-band patterns (R238). -/
def nIc (P : Params) : Nat := P.afsIc.rows.length

/-- The index an in-band indicator carries in a phase (46_codec_tch.md R240). -/
def phaseIndex (phase : Phase) (w : Wamr) : BitVec 3 :=
  match phase with
  | .cmi => w.ft
  | .cmr => w.cmr

/-- `LIST[idx]` of a codec list of eight entries. -/
def listAt (list : Vector (BitVec 3) 8) (idx : Nat) : BitVec 3 := list.toList.getD idx 0

/-- `targets(ch, linksel)` (R261). -/
def targets (ch : Chan) : LinkSel → List Chan
  | .all => ch :: (chAssoc ch).toList
  | .main => [ch]
  | .sacch => (chAssoc ch).toList

/-- A channel with a family `UNSUPP` in either direction (R262). -/
def unsupported (ch : Chan) : Bool :=
  dlFamily ch == .unsupp || ulFamily ch == .unsupp

/-- A channel that `SET.MODE` and `SET.CIPHER` reject (R265, R267). -/
def noModeChannel (ch : Chan) : Bool := ch == chIdle || unsupported ch

/-! ### The parameter mailbox -/

/-- `PRM[k]`. -/
def State.prmAt (s : State) (k : Nat) : Byte := s.prm.toList.getD k 0

/-- The eight codec-list entries at `PRM[first]`.. are mode numbers 0..7. -/
def listLegal (s : State) (first : Nat) : Bool :=
  (List.range 8).all fun k => (s.prmAt (first + k)).toNat ≤ 7

/-- The codec list at `PRM[first .. first+7]`. -/
def listOf (s : State) (first : Nat) : Vector (BitVec 3) 8 :=
  #v[(s.prmAt first).setWidth 3, (s.prmAt (first + 1)).setWidth 3,
    (s.prmAt (first + 2)).setWidth 3, (s.prmAt (first + 3)).setWidth 3,
    (s.prmAt (first + 4)).setWidth 3, (s.prmAt (first + 5)).setWidth 3,
    (s.prmAt (first + 6)).setWidth 3, (s.prmAt (first + 7)).setWidth 3]

/-- The key at `PRM[1..8]` (R267). -/
def keyOf (s : State) : Vector Byte 8 :=
  #v[s.prmAt 1, s.prmAt 2, s.prmAt 3, s.prmAt 4, s.prmAt 5, s.prmAt 6, s.prmAt 7, s.prmAt 8]

/-! ### The timeslot's layout -/

/-- `LAYOUT[TS[tn].PCHAN]` (10_state.md R41, R43): none while the timeslot is unconfigured. In a state
that the commands have built a configuration code is below `NPCHAN`. -/
def State.layout (P : Params) (s : State) (tn : Tn) : Option Layout := layoutOf P (s.ts.get tn).pchan

/-! ### The burst indication -/

/-- `PRESENT` bit 0 and `MOD` (R56): the indication says it is eight-level. -/
def RxInd.eightLevel (r : RxInd) : Bool := r.present.getLsbD 0 && r.mod

/-- `PRESENT` bit 2: the carrier-to-interference value is there. -/
def RxInd.hasCi (r : RxInd) : Bool := r.present.getLsbD 2

/-- The timeslot of the indication. -/
def RxInd.slot (r : RxInd) : Tn := r.tn.toFin

end Sys2Proof.Machine
end

