-- ==== Sys2Proof/Machine/Flags.lean ====
section
/-! DEFINITION. The flags of the block (10_state.md R62) that are computed: the active test (R32), the
sub-state of a channel (R40), the reception mask (R33, 47_scheduler.md R273), and the block-boundary test
(47_scheduler.md R271). -/

namespace Sys2Proof.Machine

/-- `is_active(tn, ch)` (R32). -/
def State.isActive (s : State) (tn : Tn) (ch : Chan) : Bool := chAuto ch || (s.chan tn ch).active

/-- The sub-states of the document's state machine (R40). COMPLETE/DECODE is never observed between
commands. -/
inductive SubState where
  | inactive | awaitingFirstBurst | accumulating
  deriving DecidableEq, Repr, Inhabited

/-- The sub-state of a channel, a function of the fields (R40). -/
def State.subState (s : State) (tn : Tn) (ch : Chan) : SubState :=
  if s.isActive tn ch = false then .inactive
  else if (s.chan tn ch).ulMask = 0 then .awaitingFirstBurst
  else .accumulating

/-- `popcount` of a reception mask (00_scope.md R9). -/
def popcount (v : Byte) : Nat := (List.range 8).countP fun i => v.getLsbD i

/-- `full = 2^nb - 1` (R273). -/
def fullMask (nb : Nat) : Byte := BitVec.ofNat 8 (2 ^ nb - 1)

/-- Bit `bid` of a reception mask (R271). -/
def bidBit (bid : Fin 8) : Byte := (1 : Byte) <<< bid.val

/-- The block-start test of R271 (a). -/
def blockStarts (x : ChanState) (bid : Fin 8) (f0 : Fn) : Bool :=
  bid == 0 || x.ulMask == 0 || x.ulFirstFn != f0

end Sys2Proof.Machine
end

