-- ==== Sys2Proof/Machine/Control.lean ====
section
/-! DEFINITION. The scheduler's configuration commands and the PDU queue (47_scheduler.md R255 to
R269). -/

namespace Sys2Proof.Machine

/-- `SCHED.INIT` (R255, 10_state.md R66): the scheduler state as after reset. `BSIC`, `RES`, `WAMR`, the
mailboxes, `CSSEL` and the working buffers are kept. -/
def schedInitBody (s : State) : Cmd :=
  .done { s with
    fn := 0
    fnValid := false
    ts := Vector.replicate 8 TsRegs.zero
    cs := Vector.replicate 8 chanStatesZero
    q := Vector.replicate 8 queuesEmpty
    evq := [] }

/-- `SCHED.INIT`. -/
def execSchedInit (s : State) : Host.Outcome State Fault Refusal := (schedInitBody s).finish

/-- `SET.BSIC bsic` (R257). -/
def setBsicBody (bsic : BitVec 6) (s : State) : Cmd := .done { s with bsic := bsic }

/-- `SET.BSIC`. -/
def execSetBsic (bsic : BitVec 6) (s : State) : Host.Outcome State Fault Refusal :=
  (setBsicBody bsic s).finish

/-- `SET.PCHAN tn, pchan, tsc` (R258): `ATT` is kept; the timeslot's channel states and queues return to
the created state. `pchan >= NPCHAN` is illegal (30_encoding.md R96). -/
def setPchanBody (P : Params) (tn : Tn) (pchan : BitVec 4) (tsc : BitVec 3) (s : State) : Cmd :=
  if pchan ≠ 0 ∧ npchan P ≤ pchan.toNat then illegal (.setPchan tn pchan tsc) s
  else .done ((s.setTs tn { (s.ts.get tn) with pchan := pchan, tsc := tsc }).clearSlot tn)

/-- `SET.PCHAN`. -/
def execSetPchan (tn : Tn) (pchan : BitVec 4) (tsc : BitVec 3) (s : State) :
    Host.Outcome State Fault Refusal :=
  (setPchanBody Config.inst tn pchan tsc s).finish

/-- `SET.ATT tn, att` (R259). -/
def setAttBody (tn : Tn) (att : Byte) (s : State) : Cmd :=
  .done (s.setTs tn { (s.ts.get tn) with att := att })

/-- `SET.ATT`. -/
def execSetAtt (tn : Tn) (att : Byte) (s : State) : Host.Outcome State Fault Refusal :=
  (setAttBody tn att s).finish

/-- Why `CH.ACT` rejects (R262): no layout, no target, a target without a codec or outside the layout, or
the idle channel. -/
def actRejected (P : Params) (tn : Tn) (ch : Chan) (linksel : LinkSel) (s : State) : Bool :=
  match s.layout P tn with
  | none => true
  | some l =>
    (targets ch linksel).isEmpty || ((targets ch linksel).any fun t => unsupported t) ||
      ((targets ch linksel).any fun t => !l.mentions t) || ch == chIdle

/-- `CS[tn][t].ACTIVE <- 1`. -/
def State.activate (s : State) (tn : Tn) (t : Chan) : State :=
  s.setChan tn t { s.chan tn t with active := true }

/-- `CH.ACT tn, ch, linksel` (R262). -/
def chActBody (P : Params) (tn : Tn) (ch : Chan) (linksel : LinkSel) (s : State) : Cmd :=
  if actRejected P tn ch linksel s then .raised .badChan ch.val s
  else .done ((targets ch linksel).foldl (fun t x => t.activate tn x) s)

/-- `CH.ACT`. -/
def execChAct (tn : Tn) (ch : Chan) (linksel : LinkSel) (s : State) :
    Host.Outcome State Fault Refusal :=
  (chActBody Config.inst tn ch linksel s).finish

/-- `CH.DEACT tn, ch, linksel` (R263). -/
def chDeactBody (tn : Tn) (ch : Chan) (linksel : LinkSel) (s : State) : Cmd :=
  if (targets ch linksel).isEmpty then .raised .badChan ch.val s
  else .done ((targets ch linksel).foldl (fun t x => t.clearChan tn x) s)

/-- `CH.DEACT`. -/
def execChDeact (tn : Tn) (ch : Chan) (linksel : LinkSel) (s : State) :
    Host.Outcome State Fault Refusal :=
  (chDeactBody tn ch linksel s).finish

/-- The mode record in the mailbox (R265): none if a value is out of range. -/
def prmMode (s : State) : Option Mode :=
  match TchMode.ofCode? (s.prmAt 1) with
  | none => none
  | some m =>
    if 8 < (s.prmAt 2).toNat ∨ listLegal s 3 = false ∨ 7 < (s.prmAt 11).toNat ∨ 7 < (s.prmAt 12).toNat then
      none
    else some { rslCmode := s.prmAt 0, tchMode := m, amrN := (s.prmAt 2).setWidth 4,
                amrList := listOf s 3 }

/-- `SET.MODE tn, ch, 0` (R265): the mode goes to the pending copy, the four indices are written at
once. -/
def setModeBody (tn : Tn) (ch : Chan) (s : State) : Cmd :=
  match prmMode s with
  | none => .raised .param 0 s
  | some mode =>
    if noModeChannel ch then .raised .badChan ch.val s
    else .done (s.setChan tn ch { s.chan tn ch with
      modeP := mode
      ulFt := (s.prmAt 11).setWidth 3
      dlFt := (s.prmAt 11).setWidth 3
      ulCmr := (s.prmAt 12).setWidth 3
      dlCmr := (s.prmAt 12).setWidth 3 })

/-- `SET.MODE`. -/
def execSetMode (tn : Tn) (ch : Chan) (s : State) : Host.Outcome State Fault Refusal :=
  (setModeBody tn ch s).finish

/-- The cipher record in the mailbox (R267). -/
def prmCipher (s : State) : Cipher := { algo := (s.prmAt 0).setWidth 4, key := keyOf s }

/-- The pending cipher record of a direction is written. -/
def ChanState.setCipherP (x : ChanState) (dir : Dir) (c : Cipher) : ChanState :=
  match dir with
  | .ul => { x with ciphUlP := c }
  | .dl => { x with ciphDlP := c }

/-- `SET.CIPHER tn, ch, dir` (R267). -/
def setCipherBody (tn : Tn) (ch : Chan) (dir : Dir) (s : State) : Cmd :=
  if 15 < (s.prmAt 0).toNat then .raised .param 0 s
  else if noModeChannel ch then .raised .badChan ch.val s
  else .done (s.setChan tn ch ((s.chan tn ch).setCipherP dir (prmCipher s)))

/-- `SET.CIPHER`. -/
def execSetCipher (tn : Tn) (ch : Chan) (dir : Dir) (s : State) : Host.Outcome State Fault Refusal :=
  (setCipherBody tn ch dir s).finish

/-- `PDU.ENQ tn, ch, aux` (R269). The length is not checked here. -/
def pduEnqBody (P : Params) (tn : Tn) (ch : Chan) (aux : Byte) (s : State) : Cmd :=
  if (s.ts.get tn).pchan = 0 ∨ (dlFamily ch).queued = false then .raised .badChan ch.val s
  else if P.qdepth ≤ (s.queue tn ch).length then .raised .nomem ch.val s
  else .done (s.setQueue tn ch (s.queue tn ch ++ [{ bytes := s.pdu, aux := aux }]))

/-- `PDU.ENQ`. -/
def execPduEnq (tn : Tn) (ch : Chan) (aux : Byte) (s : State) : Host.Outcome State Fault Refusal :=
  (pduEnqBody Config.inst tn ch aux s).finish

end Sys2Proof.Machine
end

