-- ==== Sys2Proof/Machine/PunctureUnit.lean ====
section
/-! DEFINITION. The puncture unit's commands (42_puncture_unit.md R143 to R145). -/

namespace Sys2Proof.Machine

/-- `PUNC puncsel` (R143): the kept bits, in place. -/
def puncBody (P : Params) (puncsel : Fin 16) (s : State) : Cmd :=
  match maskOf P puncsel with
  | none => illegal (.punc puncsel) s
  | some mask =>
    if s.mem.c.len ≠ mask.full then .raised .len s.mem.c.len s
    else .done (s.setC (punct mask s.c))

/-- `PUNC`. -/
def execPunc (puncsel : Fin 16) (s : State) : Host.Outcome State Fault Refusal :=
  (puncBody Config.inst puncsel s).finish

/-- `DEPUNC puncsel` (R144): erasures at the removed positions. A result that would exceed the buffer is
`E_LEN` by the code's own definition (60_exceptions.md R301, log 21). -/
def depuncBody (P : Params) (puncsel : Fin 16) (s : State) : Cmd :=
  match maskOf P puncsel with
  | none => illegal (.depunc puncsel) s
  | some mask =>
    if s.mem.cs.len ≠ mask.kept then .raised .len s.mem.cs.len s
    else if capC < mask.full then .raised .len mask.full s
    else .done (s.setSoftC (depunct mask s.softC))

/-- `DEPUNC`. -/
def execDepunc (puncsel : Fin 16) (s : State) : Host.Outcome State Fault Refusal :=
  (depuncBody Config.inst puncsel s).finish

end Sys2Proof.Machine
end

