-- ==== Sys2Proof/Machine/Crc.lean ====
section
/-! DEFINITION. The checksum function of 40_crc_unit.md R110, in its shift-register form. -/

namespace Sys2Proof.Machine

/-- One clock of the shift register (R110): shift `x` in, and reduce by `g(D)` when a 1 falls out. -/
def crcShift {r : Nat} (poly reg : BitVec r) (x : UBit) : BitVec r :=
  let t := (reg <<< 1) ||| BitVec.ofNat r x.toNat
  if reg.msb then t ^^^ poly else t

/-- The register after the message and `r` zeros have been shifted through it (R110). -/
def crcRegister (c : CrcSel) (d : List UBit) : BitVec (crcWidth c) :=
  (d ++ List.replicate (crcWidth c) false).foldl
    (crcShift (BitVec.ofNat (crcWidth c) (crcPoly c))) 0

/-- `crc_gen(cfg, d)` (R110): `p[i] = q[i] ^ rem[i]` with `q[i] = reg[r-1-i]`. -/
def crcGen (c : CrcSel) (d : List UBit) : List UBit :=
  let reg := crcRegister c d
  (List.range (crcWidth c)).map fun i => reg.getMsbD i ^^ crcRem c

/-- `crc_chk(cfg, d, p)` (R110). -/
def crcChk (c : CrcSel) (d p : List UBit) : Bool := decide (crcGen c d = p)

end Sys2Proof.Machine
end

