-- ==== Sys2Proof/Machine/CrcUnit.lean ====
section
/-! DEFINITION. The CRC unit's commands (40_crc_unit.md R113 to R118). -/

namespace Sys2Proof.Machine

/-- `CRC.GEN crcsel, n` (R113): the parity of the first `n` info bits. -/
def crcGenBody (crcsel : CrcSel) (n : Nat) (s : State) : Cmd :=
  if s.mem.u.len < n then .raised .len n s
  else .done (s.setPar (crcGen crcsel (s.u.take n)))

/-- `CRC.GEN`. -/
def execCrcGen (crcsel : CrcSel) (n : BitVec 16) (s : State) : Host.Outcome State Fault Refusal :=
  (crcGenBody crcsel n.toNat s).finish

/-- `CRC.CHK crcsel, n` (R114): the length checks, then the comparison with `PAR`. -/
def crcChkBody (crcsel : CrcSel) (n : Nat) (s : State) : Cmd :=
  if s.mem.u.len < n ∨ s.mem.par.len ≠ crcWidth crcsel then .raised .len n s
  else if crcChk crcsel (s.u.take n) s.par then .done s
  else .raised .badBlock crcsel.code.toNat s

/-- `CRC.CHK`. -/
def execCrcChk (crcsel : CrcSel) (n : BitVec 16) (s : State) : Host.Outcome State Fault Refusal :=
  (crcChkBody crcsel n.toNat s).finish

/-- `UAPP.PAR` (R115): append the parity bits. An empty `PAR` changes nothing. -/
def uappParBody (s : State) : Cmd :=
  if capU < s.mem.u.len + s.mem.par.len then .raised .len (s.mem.u.len + s.mem.par.len) s
  else if s.mem.par.len = 0 then .done s
  else .done (s.setU (s.u ++ s.par))

/-- `UAPP.PAR`. -/
def execUappPar (s : State) : Host.Outcome State Fault Refusal := (uappParBody s).finish

/-- `UAPP.ZERO 0, n` (R116): append `n` zeros. -/
def uappZeroBody (n : Nat) (s : State) : Cmd :=
  if capU < s.mem.u.len + n then .raised .len (s.mem.u.len + n) s
  else .done (s.setU (s.u ++ List.replicate n false))

/-- `UAPP.ZERO`. -/
def execUappZero (n : BitVec 16) (s : State) : Host.Outcome State Fault Refusal :=
  (uappZeroBody n.toNat s).finish

/-- `PAR.LD r, n` (R117): the parity register from `U[n .. n+r-1]`. -/
def parLdBody (r n : Nat) (s : State) : Cmd :=
  if s.mem.u.len < n + r then .raised .len (n + r) s
  else .done (s.setPar (slice s.u n r))

/-- `PAR.LD`. -/
def execParLd (r : Byte) (n : BitVec 16) (s : State) : Host.Outcome State Fault Refusal :=
  (parLdBody r.toNat n.toNat s).finish

end Sys2Proof.Machine
end

