-- ==== Sys2Proof/Machine/MapperUnit.lean ====
section
/-! DEFINITION. The commands of the interleaver, the burst mapper, the bit packer and the pattern matcher
(43_interleaver_mapper.md R153 to R169). -/

namespace Sys2Proof.Machine

/-- `INTLV isel` (R153). -/
def intlvBody (isel : ISel) (s : State) : Cmd :=
  if s.mem.c.len ≠ 456 then .raised .len s.mem.c.len s
  else .done (s.setI (interleave isel s.c))

/-- `INTLV`. -/
def execIntlv (isel : ISel) (s : State) : Host.Outcome State Fault Refusal :=
  (intlvBody isel s).finish

/-- `DEINTLV isel` (R154). -/
def deintlvBody (isel : ISel) (s : State) : Cmd :=
  if s.mem.is.len ≠ 114 * nbiOf isel then .raised .len s.mem.is.len s
  else .done (s.setSoftC (deinterleave isel s.softI))

/-- `DEINTLV`. -/
def execDeintlv (isel : ISel) (s : State) : Host.Outcome State Fault Refusal :=
  (deintlvBody isel s).finish

/-- `MAP nb` (R156). -/
def mapBody (nb : Nat) (s : State) : Cmd :=
  if s.mem.i.len ≠ 114 * nb ∨ s.mem.h.len ≠ 2 * nb then .raised .len s.mem.i.len s
  else .done (s.setE (mapBlock nb s.i s.h))

/-- `MAP`. -/
def execMap (nb : NBursts) (s : State) : Host.Outcome State Fault Refusal := (mapBody (nbOf nb) s).finish

/-- `(IS, HS) <- unmap(nb, es)` with both lengths (R157). -/
def State.setUnmapped (s : State) (nb : Nat) (es : List SBit) : State :=
  (s.setSoftI (unmapBits nb es)).setSoftH (unmapFlags nb es)

/-- `UNMAP nb` (R157). -/
def unmapBody (nb : Nat) (s : State) : Cmd :=
  if s.mem.es.len ≠ 116 * nb then .raised .len s.mem.es.len s
  else .done (s.setUnmapped nb s.softE)

/-- `UNMAP`. -/
def execUnmap (nb : NBursts) (s : State) : Host.Outcome State Fault Refusal :=
  (unmapBody (nbOf nb) s).finish

/-- `H.SET nb, pattern` (R158): it needs no input. -/
def hSetBody (nb pattern : Nat) (s : State) : Cmd := .done (s.setH (hPattern nb pattern))

/-- `H.SET`. -/
def execHSet (nb : NBursts) (pattern : BitVec 16) (s : State) : Host.Outcome State Fault Refusal :=
  (hSetBody (nbOf nb) pattern.toNat s).finish

/-- `UNPACK order, n` (R160). -/
def unpackBody (order : BitOrder) (n : Nat) (s : State) : Cmd :=
  if 8 * s.mem.pdu.len < n then .raised .len n s
  else .done (s.setU (unpackBits order s.pdu n))

/-- `UNPACK`. -/
def execUnpack (order : BitOrder) (n : BitVec 16) (s : State) : Host.Outcome State Fault Refusal :=
  (unpackBody order n.toNat s).finish

/-- `PACK order, n` (R161). -/
def packBody (order : BitOrder) (n : Nat) (s : State) : Cmd :=
  if s.mem.u.len < n then .raised .len n s
  else .done (s.setPdu (packBits order (s.u.take n)))

/-- `PACK`. -/
def execPack (order : BitOrder) (n : BitVec 16) (s : State) : Host.Outcome State Fault Refusal :=
  (packBody order n.toNat s).finish

/-- `(RES.IDX, RES.DIST)` (R168). -/
def State.setMatch (s : State) (m : Nat × Nat) : State :=
  { s with res := { s.res with idx := BitVec.ofNat 8 m.1, dist := BitVec.ofNat 16 m.2 } }

/-- The observation of a table and the length it needs (R166, R168): `(idx, dist)`, or none if the
length register is short. -/
def observe (P : Params) (tsel : TSel) (s : State) : Option (Nat × Nat) :=
  match tsel with
  | .cs => if 8 ≤ s.mem.hs.len then some (matchSoft (patternTable P .cs) (s.softH.take 8)) else none
  | .usf6 => if 6 ≤ s.mem.u.len then some (matchHard (patternTable P .usf6) (s.u.take 6)) else none
  | .usf12 =>
    if 12 ≤ s.mem.u.len then some (matchHard (patternTable P .usf12) (s.u.take 12)) else none
  | .afsic =>
    if wIc P ≤ s.mem.cs.len then some (matchSoft (patternTable P .afsic) (s.softC.take (wIc P)))
    else none

/-- `MATCH tsel` (R168): it never fails but for the length; `T_AFSIC` is illegal where the instance
defines no `AFS_IC`. -/
def matchBody (P : Params) (tsel : TSel) (s : State) : Cmd :=
  if tsel = .afsic ∧ P.definesAfsIc = false then illegal (.matchPat tsel) s
  else match observe P tsel s with
    | none => .raised .len tsel.code.toNat s
    | some m => .done (s.setMatch m)

/-- `MATCH`. -/
def execMatch (tsel : TSel) (s : State) : Host.Outcome State Fault Refusal :=
  (matchBody Config.inst tsel s).finish

end Sys2Proof.Machine
end

