-- ==== Sys2Proof/Machine/TrellisUnit.lean ====
section
/-! DEFINITION. The trellis engine's commands (41_trellis_engine.md R124, R128) and the decode step every
codec shares (R126, R127). -/

namespace Sys2Proof.Machine

/-- `CONV.ENC codesel` (R124). An entry the instance does not define is illegal (30_encoding.md R96). -/
def convEncBody (P : Params) (codesel : Fin 16) (s : State) : Cmd :=
  match codeOf P codesel with
  | none => illegal (.convEnc codesel) s
  | some code =>
    if capC < code.n * code.steps s.mem.u.len then .raised .len s.mem.u.len s
    else .done (s.setC (convEnc code s.u))

/-- `CONV.ENC`. -/
def execConvEnc (codesel : Fin 16) (s : State) : Host.Outcome State Fault Refusal :=
  (convEncBody Config.inst codesel s).finish

/-- `RES.NERR` and `RES.NBITS` (R127). -/
def State.setErrors (s : State) (nerr nbits : Nat) : State :=
  { s with res := { s.res with nerr := BitVec.ofNat 16 nerr, nbits := BitVec.ofNat 16 nbits } }

/-- One decode: `U <- conv_dec(code, soft, kd)`, `ULEN <- kd`, then `RES.NERR` and `RES.NBITS` (R126,
R127). -/
def State.trellis (P : Params) (s : State) (code : Code) (soft : List SBit) (kd : Nat) : State :=
  (s.setU (convDecP P code soft kd)).setErrors (convNerr code soft (convDecP P code soft kd))
    (convNbits soft)

/-- `CONV.DEC codesel, kd` (R128). -/
def convDecBody (P : Params) (codesel : Fin 16) (kd : Nat) (s : State) : Cmd :=
  match codeOf P codesel with
  | none => illegal (.convDec codesel (BitVec.ofNat 16 kd)) s
  | some code =>
    if decodeLenOk code s.mem.cs.len kd then .done (s.trellis P code s.softC kd)
    else .raised .len s.mem.cs.len s

/-- `CONV.DEC`. -/
def execConvDec (codesel : Fin 16) (kd : BitVec 16) (s : State) :
    Host.Outcome State Fault Refusal :=
  (convDecBody Config.inst codesel kd.toNat s).finish

end Sys2Proof.Machine
end

