-- ==== Sys2Proof/Machine/ControlCodec.lean ====
section
/-! DEFINITION. The control, random-access and synchronisation codecs (44_codec_control.md R175 to R194)
and the stages the other codecs share with them (46_codec_tch.md R226, R229). -/

namespace Sys2Proof.Machine

/-! ### Shared stages -/

/-- The info word of a block with a tail of four zeros: `d ++ p ++ zeros(4)`. -/
def infoWord (d p : List UBit) : List UBit := d ++ p ++ List.replicate 4 false

/-- `U`, `PAR`, `C` and their lengths after encoding the payload `d` with parity `p` by code `XCCH`
(R177, R184, R191). -/
def State.codeBlock (s : State) (d p : List UBit) : State :=
  ((s.setPar p).setU (infoWord d p)).setC (convEnc xcchCode (infoWord d p))

/-- The payload bits of a 23-byte block (R176). -/
def controlBits (pdu : List Byte) : List UBit := unpackLsb pdu 184

/-- The coded bits of a 23-byte block: the first four stages of `xcch_encode` (R176, R226). -/
def controlCoded (pdu : List Byte) : List UBit :=
  convEnc xcchCode (infoWord (controlBits pdu) (crcGen .fire40 (controlBits pdu)))

/-- The first stages of `XCCH.ENC`, up to `CLEN <- 456` (R177). -/
def State.codeControl (s : State) (pdu : List Byte) : State :=
  s.codeBlock (controlBits pdu) (crcGen .fire40 (controlBits pdu))

/-- The last stages of every block encoder: `I`, `H`, `E` from the coded bits `c` and the flags `h`. -/
def State.spread (s : State) (isel : ISel) (c h : List UBit) : State :=
  ((s.setI (interleave isel c)).setH h).setE (mapBlock (nbiOf isel) (interleave isel c) h)

/-- The coded soft bits of a received block: `deinterleave(isel, is)` with `(is, hs) = unmap(nb, es)`. -/
def softCoded (isel : ISel) (es : List SBit) : List SBit :=
  deinterleave isel (unmapBits (nbiOf isel) es)

/-- The first stages of every block decoder: `IS`, `HS`, `CS_` from the burst payloads `es`. -/
def State.gather (s : State) (isel : ISel) (es : List SBit) : State :=
  (s.setUnmapped (nbiOf isel) es).setSoftC (softCoded isel es)

/-- The last stages of a decoder: `PAR <- p`, the checksum of `d`, and on success `PDU`; a mismatch is
`E_BAD_BLOCK` with the selector (R175 (c)). -/
def State.checkBlock (s : State) (crcsel : CrcSel) (d p : List UBit) (pdu : List Byte) : Cmd :=
  if crcChk crcsel d p then .done ((s.setPar p).setPdu pdu)
  else .raised .badBlock crcsel.code.toNat (s.setPar p)

/-- `XCCH.DEC` from its `conv_dec` step on (R178, R179): also a stolen traffic block and packet-data
scheme 1. -/
def State.decodeControl (P : Params) (s : State) (cs : List SBit) : Cmd :=
  (s.trellis P xcchCode cs 224).checkBlock .fire40 ((convDecP P xcchCode cs 224).take 184)
    (slice (convDecP P xcchCode cs 224) 184 40)
    (packLsb ((convDecP P xcchCode cs 224).take 184))

/-! ### Control channel -/

/-- `XCCH.ENC` (R177). -/
def xcchEncBody (s : State) : Cmd :=
  if s.mem.pdu.len ≠ 23 then .raised .pduLen s.mem.pdu.len s
  else .done ((s.codeControl s.pdu).spread .x4 (controlCoded s.pdu) (List.replicate 8 true))

/-- `XCCH.ENC`. -/
def execXcchEnc (s : State) : Host.Outcome State Fault Refusal := (xcchEncBody s).finish

/-- `XCCH.DEC` (R179). -/
def xcchDecBody (P : Params) (s : State) : Cmd :=
  if s.mem.es.len ≠ 464 then .raised .len s.mem.es.len s
  else (s.gather .x4 s.softE).decodeControl P (softCoded .x4 s.softE)

/-- `XCCH.DEC`. -/
def execXcchDec (s : State) : Host.Outcome State Fault Refusal := (xcchDecBody Config.inst s).finish

/-! ### Random access -/

/-- The identity code's exclusive-or on the parity, most significant bit first (R183). -/
def xorBsic (bsic : BitVec 6) (p : List UBit) : List UBit :=
  (List.range 6).map fun k => p.getD k false ^^ bsic.getLsbD (5 - k)

/-- `RACH.ENC bsic` (R184): the identity code enters after the checksum. -/
def rachEncBody (bsic : BitVec 6) (s : State) : Cmd :=
  if s.mem.pdu.len ≠ 1 then .raised .pduLen s.mem.pdu.len s
  else .done (s.codeBlock (unpackLsb s.pdu 8) (xorBsic bsic (crcGen .crc6 (unpackLsb s.pdu 8))))

/-- `RACH.ENC`. -/
def execRachEnc (bsic : BitVec 6) (s : State) : Host.Outcome State Fault Refusal :=
  (rachEncBody bsic s).finish

/-- `RACH.DEC bsic` (R186): the identity code leaves before the checksum. -/
def rachDecBody (P : Params) (bsic : BitVec 6) (s : State) : Cmd :=
  if s.mem.cs.len ≠ 36 then .raised .len s.mem.cs.len s
  else (s.trellis P xcchCode s.softC 14).checkBlock .crc6
    ((convDecP P xcchCode s.softC 14).take 8)
    (xorBsic bsic (slice (convDecP P xcchCode s.softC 14) 8 6))
    (packLsb ((convDecP P xcchCode s.softC 14).take 8))

/-- `RACH.DEC`. -/
def execRachDec (bsic : BitVec 6) (s : State) : Host.Outcome State Fault Refusal :=
  (rachDecBody Config.inst bsic s).finish

/-! ### Synchronisation -/

/-- `SCH.ENC` (R191). -/
def schEncBody (s : State) : Cmd :=
  if s.mem.pdu.len ≠ 4 then .raised .pduLen s.mem.pdu.len s
  else .done (s.codeBlock (unpackLsb s.pdu 25) (crcGen .crc10 (unpackLsb s.pdu 25)))

/-- `SCH.ENC`. -/
def execSchEnc (s : State) : Host.Outcome State Fault Refusal := (schEncBody s).finish

/-- `SCH.DEC` (R193). -/
def schDecBody (P : Params) (s : State) : Cmd :=
  if s.mem.cs.len ≠ 78 then .raised .len s.mem.cs.len s
  else (s.trellis P xcchCode s.softC 35).checkBlock .crc10
    ((convDecP P xcchCode s.softC 35).take 25) (slice (convDecP P xcchCode s.softC 35) 25 10)
    (packLsb ((convDecP P xcchCode s.softC 35).take 25))

/-- `SCH.DEC`. -/
def execSchDec (s : State) : Host.Outcome State Fault Refusal := (schDecBody Config.inst s).finish

end Sys2Proof.Machine
end

