-- ==== Sys2Proof/Machine/PacketCodec.lean ====
section
/-! DEFINITION. The packet-data codec (45_codec_pdtch.md R200 to R213). -/

namespace Sys2Proof.Machine

/-- `usf = pdu[0] & 7` (R202). -/
def usfOf (pdu : List Byte) : BitVec 3 := (pdu.getD 0 0).setWidth 3

/-- `RES.CS` and `RES.USF` (R206, R210). -/
def State.setScheme (s : State) (scheme : Scheme) (usf : BitVec 3) : State :=
  { s with res := { s.res with cs := BitVec.ofNat 3 scheme.num, usf := usf } }

/-- The payload bits of a block of a scheme (R204, R205). -/
def packetBits (scheme : Scheme) (pdu : List Byte) : List UBit := unpackLsb pdu scheme.np

/-- The flag table of schemes 2 to 4 (R200). Scheme 1 has none. -/
def Scheme.flagTable : Scheme → List (List UBit)
  | .cs1 => []
  | .cs2 | .cs3 => tUsf6
  | .cs4 => tUsf12

/-- The payload offset `o` of a scheme (R200): where the three plain flag bits stand. -/
def Scheme.offset : Scheme → Nat
  | .cs1 => 0
  | .cs2 | .cs3 => 3
  | .cs4 => 9

/-- The tail of a scheme (R200). -/
def Scheme.tail : Scheme → Nat
  | .cs1 | .cs2 | .cs3 => 4
  | .cs4 => 0

/-- The info word of schemes 2 to 4 (R204, R205): the flag pattern, the payload without its plain flag
bits, the parity and the tail. -/
def packetWord (scheme : Scheme) (pdu : List Byte) : List UBit :=
  scheme.flagTable.getD (usfOf pdu).toNat [] ++ (packetBits scheme pdu).drop 3 ++
    crcGen .crc16 (packetBits scheme pdu) ++ List.replicate scheme.tail false

/-- The 456 coded bits of schemes 2 to 4 (R204, R205): scheme 4 is not coded. -/
def packetCoded (scheme : Scheme) (pdu : List Byte) : List UBit :=
  match scheme with
  | .cs1 => controlCoded pdu
  | .cs2 => punct cs2Mask (convEnc xcchCode (packetWord .cs2 pdu))
  | .cs3 => punct cs3Mask (convEnc xcchCode (packetWord .cs3 pdu))
  | .cs4 => packetWord .cs4 pdu

/-- `U`, `PAR` and `C` by scheme (R206). -/
def State.codePacket (s : State) (scheme : Scheme) (pdu : List Byte) : State :=
  match scheme with
  | .cs1 => s.codeControl pdu
  | .cs2 | .cs3 | .cs4 =>
    ((s.setU (packetWord scheme pdu)).setPar (crcGen .crc16 (packetBits scheme pdu))).setC
      (packetCoded scheme pdu)

/-- `PDTCH.ENC` (R206). -/
def pdtchEncBody (s : State) : Cmd :=
  match schemeOfLen s.mem.pdu.len with
  | none => .raised .pduLen s.mem.pdu.len s
  | some scheme =>
    .done (((s.setScheme scheme (usfOf s.pdu)).codePacket scheme s.pdu).spread .x4
      (packetCoded scheme s.pdu) scheme.header)

/-- `PDTCH.ENC`. -/
def execPdtchEnc (s : State) : Host.Outcome State Fault Refusal := (pdtchEncBody s).finish

/-- `RES.USF` (R210). -/
def State.setUsf (s : State) (usf : BitVec 3) : State := { s with res := { s.res with usf := usf } }

/-- Flag restoration (R209): the three info positions at `o` get the plain flag bits. -/
def restoreFlags (o usf : Nat) (u : List UBit) : List UBit :=
  ((u.set o (usf.testBit 0)).set (o + 1) (usf.testBit 1)).set (o + 2) (usf.testBit 2)

/-- The stages of schemes 2 to 4 after the info word `u` is known (R208 to R210): the flag by nearest
pattern over the first `wd` bits, its restoration, and the checksum. -/
def State.finishPacket (s : State) (scheme : Scheme) (wd : Nat) (u : List UBit) : Cmd :=
  let usf := (matchHard scheme.flagTable (u.take wd)).1
  let v := restoreFlags scheme.offset usf u
  ((s.setUsf (BitVec.ofNat 3 usf)).setU v).checkBlock .crc16 (slice v scheme.offset scheme.np)
    (slice v (scheme.offset + scheme.np) 16) (packLsb (slice v scheme.offset scheme.np))

/-- Schemes 2 and 3 (R210): de-puncture, decode `np + 19` bits, finish. -/
def State.decodeCoded (P : Params) (s : State) (scheme : Scheme) (mask : Mask) (cs : List SBit) : Cmd :=
  ((s.setSoftC (depunct mask cs)).trellis P xcchCode (depunct mask cs)
    (scheme.np + 19)).finishPacket scheme 6 (convDecP P xcchCode (depunct mask cs) (scheme.np + 19))

/-- Scheme 4 (R210): the bits are sliced, not decoded, and `RES.NERR` is 0. -/
def State.decodePlain (s : State) (cs : List SBit) : Cmd :=
  ((s.setU (cs.map SBit.hard)).setErrors 0 (convNbits cs)).finishPacket .cs4 12 (cs.map SBit.hard)

/-- Scheme 1 (R208, R210): the control-channel stages; `RES.USF` from the payload on success, 0 on a bad
block. -/
def State.decodeScheme1 (P : Params) (s : State) (cs : List SBit) : Cmd :=
  match s.decodeControl P cs with
  | .done t => .done (t.setUsf (usfOf t.pdu))
  | .raised e info t => .raised e info (t.setUsf 0)
  | .refused r => .refused r

/-- `RES.CS` alone (R210). -/
def State.setCs (s : State) (scheme : Scheme) : State :=
  { s with res := { s.res with cs := BitVec.ofNat 3 scheme.num } }

/-- `PDTCH.DEC` (R210): the scheme by nearest header pattern, then by scheme. -/
def pdtchDecBody (P : Params) (s : State) : Cmd :=
  if s.mem.es.len ≠ 464 then .raised .len s.mem.es.len s
  else
    let es := s.softE
    let cs := softCoded .x4 es
    let header := matchSoft tCs ((unmapFlags 4 es).take 8)
    let t := ((s.gather .x4 es).setMatch header).setCs (schemeOfIdx header.1)
    match schemeOfIdx header.1 with
    | .cs1 => t.decodeScheme1 P cs
    | .cs2 => t.decodeCoded P .cs2 cs2Mask cs
    | .cs3 => t.decodeCoded P .cs3 cs3Mask cs
    | .cs4 => t.decodePlain cs

/-- `PDTCH.DEC`. -/
def execPdtchDec (s : State) : Host.Outcome State Fault Refusal := (pdtchDecBody Config.inst s).finish

end Sys2Proof.Machine
end

