-- ==== Sys2Proof/Machine/TrafficCodec.lean ====
section
/-! DEFINITION. The traffic codecs (46_codec_tch.md R220 to R243): full rate, enhanced full rate, AMR full
rate, and the stolen block every one of them carries. -/

namespace Sys2Proof.Machine

/-! ### The stolen block (R226) -/

/-- The last stages of every traffic encoder: 8 bursts and the flag `h` (R227, R240). -/
def State.spreadTraffic (s : State) (c : List UBit) (h : UBit) : State := s.spread .t8 c (tchFlags h)

/-- The FACCH path of every traffic encoder (R226, R227). -/
def State.codeStolen (s : State) (pdu : List Byte) : State :=
  (s.codeControl pdu).spreadTraffic (controlCoded pdu) true

/-- `RES.STEAL` (R229, R242). -/
def State.setSteal (s : State) (b : Bool) : State := { s with res := { s.res with steal := b } }

/-! ### Full rate and enhanced full rate (R223 to R228) -/

/-- The elements of `xs` at the listed indices. -/
def pick (xs : List UBit) (idx : List Nat) : List UBit := idx.map fun j => xs.getD j false

/-- The vector `b` of length `n` with `b[idx[k]] = xs[k]`. -/
def scatter (n : Nat) (idx : List Nat) (xs : List UBit) : List UBit :=
  (idx.zip xs).foldl (fun b p => b.set p.1 p.2) (List.replicate n false)

/-- The EFR expansion of 244 codec bits to 260 (R225): `w`. -/
def efrExpand (P : Params) (b : List UBit) : List UBit :=
  b ++ (P.efrMap.rep.flatMap fun j => [b.getD j false, b.getD j false]) ++
    crcGen .crc8 (pick b P.efrMap.prot)

/-- The 260 bits `d` of a speech PDU (R224, R225). -/
def speechBits (P : Params) (speech : Efr) (pdu : List Byte) : List UBit :=
  match speech with
  | .fr => pick ((unpackMsb pdu 264).drop 4) P.frOrder
  | .efr => pick (efrExpand P ((unpackMsb pdu 248).drop 4)) P.efrMap.order

/-- The class-1 info word `u` of 189 bits (R223): even bits up, the parity, odd bits down, the tail. -/
def class1Word (d p : List UBit) : List UBit :=
  ((List.range 91).map fun k => d.getD (2 * k) false) ++ p ++
    ((List.range 91).map fun k => d.getD (2 * (90 - k) + 1) false) ++ List.replicate 4 false

/-- The 456 coded bits of a speech frame (R223): class 1 coded, class 2 as it is. -/
def speechCoded (d p : List UBit) : List UBit := convEnc xcchCode (class1Word d p) ++ slice d 182 78

/-- The PDU length of a speech frame (R224). -/
def speechLen : Efr → Nat
  | .fr => 33
  | .efr => 31

/-- `TCHFR.ENC efr` (R227). -/
def tchfrEncBody (P : Params) (speech : Efr) (s : State) : Cmd :=
  if s.mem.pdu.len = 23 then .done (s.codeStolen s.pdu)
  else if s.mem.pdu.len = speechLen speech then
    let d := speechBits P speech s.pdu
    let p := crcGen .crc3 (d.take 50)
    .done ((((s.setPar p).setU (class1Word d p)).setC (speechCoded d p)).spreadTraffic
      (speechCoded d p) false)
  else .raised .pduLen s.mem.pdu.len s

/-- `TCHFR.ENC`. -/
def execTchfrEnc (speech : Efr) (s : State) : Host.Outcome State Fault Refusal :=
  (tchfrEncBody Config.inst speech s).finish

/-- The class-1 bits `d[0..181]` of a decoded word (R228). -/
def class1Bits (u : List UBit) : List UBit :=
  (List.range 182).map fun t => u.getD (if t % 2 = 0 then t / 2 else 184 - t / 2) false

/-- The vote on the `r`-th bit that is sent three times (R228). -/
def voteBit (w : List UBit) (j r : Nat) : UBit :=
  decide (2 ≤ (w.getD j false).toNat + (w.getD (244 + 2 * r) false).toNat +
    (w.getD (245 + 2 * r) false).toNat)

/-- The 244 codec bits after the majority vote (R228). -/
def vote (rep : List Nat) (w : List UBit) : List UBit :=
  (List.range 4).foldl
    (fun b r => b.set (rep.getD r 0) (voteBit w (rep.getD r 0) r)) (w.take 244)

/-- The checks of R228 after the class-1 checksum, and the PDU: none if the 8-bit checksum of EFR
fails. -/
def speechPdu (P : Params) (speech : Efr) (d : List UBit) : Option (List Byte) :=
  match speech with
  | .fr => some (packMsb ([true, true, false, true] ++ scatter 260 P.frOrder d))
  | .efr =>
    let w := scatter 260 P.efrMap.order d
    let b := vote P.efrMap.rep w
    if crcChk .crc8 (pick b P.efrMap.prot) (slice w 252 8) then
      some (packMsb ([true, true, false, false] ++ b))
    else none

/-- The branch of `TCHFR.DEC` for a block that is not stolen (R228, R229): the 3-bit checksum, then the
8-bit one. -/
def State.decodeSpeech (P : Params) (s : State) (speech : Efr) (cs : List SBit) : Cmd :=
  let u := convDecP P xcchCode (cs.take 378) 185
  let d := class1Bits u ++ (slice cs 378 78).map SBit.hard
  let p := slice u 91 3
  let t := (s.trellis P xcchCode (cs.take 378) 185).setPar p
  if crcChk .crc3 (d.take 50) p then
    match speechPdu P speech d with
    | some pdu => .done (t.setPdu pdu)
    | none => .raised .badBlock CrcSel.crc8.code.toNat t
  else .raised .badBlock CrcSel.crc3.code.toNat t

/-- `TCHFR.DEC efr` (R229). -/
def tchfrDecBody (P : Params) (speech : Efr) (s : State) : Cmd :=
  if s.mem.es.len ≠ 928 then .raised .len s.mem.es.len s
  else
    let es := s.softE
    let cs := softCoded .t8 es
    let st := stolen (unmapFlags 8 es)
    let t := (s.gather .t8 es).setSteal st
    if st then t.decodeControl P cs else t.decodeSpeech P speech cs

/-- `TCHFR.DEC`. -/
def execTchfrDec (speech : Efr) (s : State) : Host.Outcome State Fault Refusal :=
  (tchfrDecBody Config.inst speech s).finish

/-! ### AMR full rate (R233 to R243) -/

/-- `AMR.CFG` (R234). -/
def amrCfgBody (s : State) : Cmd :=
  if 8 < (s.prmAt 0).toNat ∨ listLegal s 1 = false ∨ 7 < (s.prmAt 9).toNat ∨ 7 < (s.prmAt 10).toNat then
    .raised .param 0 s
  else .done { s with
    wamr := { n := (s.prmAt 0).setWidth 4, list := listOf s 1, ft := (s.prmAt 9).setWidth 3,
              cmr := (s.prmAt 10).setWidth 3 } }

/-- `AMR.CFG`. -/
def execAmrCfg (s : State) : Host.Outcome State Fault Refusal := (amrCfgBody s).finish

/-- The merged word `u` of a speech frame `d` in mode `m` (R239). -/
def afsWord (m : BitVec 3) (d : List UBit) : List UBit :=
  d.take (afsMode m).n1a ++ crcGen .crc6 (d.take (afsMode m).n1a) ++ d.drop (afsMode m).n1a

/-- The coded block of a speech frame (R239): the in-band pattern, then the punctured code. -/
def afsCoded (P : Params) (m : BitVec 3) (idx : Nat) (d : List UBit) : List UBit :=
  P.afsIc.rows.getD idx [] ++ afsEncode (afsCodeOf P m).1 (afsCodeOf P m).2 (afsWord m d)

/-- Why `TCHAFS.ENC` rejects a block that is no FACCH block (R240): the codec indices first, then the
length of the mode in use; none if it does not. -/
def afsReject (P : Params) (phase : Phase) (w : Wamr) (len : Nat) : Option (ErrCode × Nat) :=
  if w.n.toNat ≤ w.ft.toNat then some (.modeRange, w.ft.toNat)
  else if w.n.toNat ≤ (phaseIndex phase w).toNat ∨ nIc P ≤ (phaseIndex phase w).toNat then
    some (.modeRange, (phaseIndex phase w).toNat)
  else if len ≠ (afsMode (listAt w.list w.ft.toNat)).bytes then some (.pduLen, len)
  else none

/-- `TCHAFS.ENC phase` (R240). -/
def tchafsEncBody (P : Params) (phase : Phase) (s : State) : Cmd :=
  if s.mem.pdu.len = 23 then .done (s.codeStolen s.pdu)
  else match afsReject P phase s.wamr s.mem.pdu.len with
    | some (e, info) => .raised e info s
    | none =>
      let m := listAt s.wamr.list s.wamr.ft.toNat
      let d := unpackMsb s.pdu (afsMode m).bits
      let c := afsCoded P m (phaseIndex phase s.wamr).toNat d
      .done ((((s.setPar (crcGen .crc6 (d.take (afsMode m).n1a))).setU (afsWord m d)).setC
        c).spreadTraffic c false)

/-- `TCHAFS.ENC`. -/
def execTchafsEnc (phase : Phase) (s : State) : Host.Outcome State Fault Refusal :=
  (tchafsEncBody Config.inst phase s).finish

/-- `RES.FT` and `RES.CMR` (R242). -/
def State.setIndices (s : State) (ft cmr : BitVec 3) : State :=
  { s with res := { s.res with ft := ft, cmr := cmr } }

/-- The update of the indices on a good block (R241, R242): the one the indicator carries. -/
def State.takeIndex (s : State) (phase : Phase) (idx : Nat) : State :=
  match phase with
  | .cmi => s.setIndices (BitVec.ofNat 3 idx) s.res.cmr
  | .cmr => s.setIndices s.res.ft (BitVec.ofNat 3 idx)

/-- The soft bits the code of a mode sees (R241): the block after the indicator, de-punctured. -/
def afsSoft (P : Params) (m : BitVec 3) (cs : List SBit) : List SBit :=
  match (afsCodeOf P m).2 with
  | none => cs.drop (wIc P)
  | some mask => depunct mask (cs.drop (wIc P))

/-- The codec index that is outside the list of `w` for a block whose indicator carries `idx`, the
indicator's own before the held frame type (R241, R242); none if the block has a mode. -/
def afsOutside (phase : Phase) (w : Wamr) (idx : Nat) : Option Nat :=
  if w.n.toNat ≤ idx then some idx
  else if phase = .cmr ∧ w.n.toNat ≤ w.ft.toNat then some w.ft.toNat
  else none

/-- The mode of such a block (R241): in phase `CMR` the held frame type's. -/
def afsHeldMode (phase : Phase) (w : Wamr) (idx : Nat) : BitVec 3 :=
  match phase with
  | .cmr => listAt w.list w.ft.toNat
  | .cmi => listAt w.list idx

/-- The decoding of an AMR block whose mode is known, from its de-punctured bits (R241, R242). -/
def State.decodeAfs (P : Params) (s : State) (phase : Phase) (m : BitVec 3) (idx : Nat)
    (soft : List SBit) : Cmd :=
  let code := (afsCodeOf P m).1
  let u := convDecP P code soft ((afsMode m).bits + 6)
  let n1a := (afsMode m).n1a
  match ((s.setSoftC soft).trellis P code soft ((afsMode m).bits + 6)).checkBlock .crc6
      (u.take n1a) (slice u n1a 6) (packMsb (u.take n1a ++ u.drop (n1a + 6))) with
  | .done t => .done (t.takeIndex phase idx)
  | .raised e info t => .raised e info t
  | .refused r => .refused r

/-- `TCHAFS.DEC phase` (R242). De-punctured bits that would exceed `CS_` are `E_LEN`, checked like the
input's length before anything is written (60_exceptions.md R308, log 21). -/
def tchafsDecBody (P : Params) (phase : Phase) (s : State) : Cmd :=
  if s.mem.es.len ≠ 928 then .raised .len s.mem.es.len s
  else
    let es := s.softE
    let cs := softCoded .t8 es
    let st := stolen (unmapFlags 8 es)
    let t := ((s.gather .t8 es).setSteal st).setIndices s.wamr.ft s.wamr.cmr
    if st then t.decodeControl P cs
    else
      let ind := matchSoft P.afsIc.rows (cs.take (wIc P))
      match afsOutside phase s.wamr ind.1 with
      | some idx => .raised .modeRange idx (t.setMatch ind)
      | none =>
        let m := afsHeldMode phase s.wamr ind.1
        let soft := afsSoft P m cs
        if capC < soft.length then .raised .len soft.length s
        else (t.setMatch ind).decodeAfs P phase m ind.1 soft

/-- `TCHAFS.DEC`. -/
def execTchafsDec (phase : Phase) (s : State) : Host.Outcome State Fault Refusal :=
  (tchafsDecBody Config.inst phase s).finish

end Sys2Proof.Machine
end

