-- ==== Sys2Proof/Machine/Receive.lean ====
section
/-! DEFINITION. The receive path, `RX.BURST` (47_scheduler.md R270 to R276). -/

namespace Sys2Proof.Machine

/-! ### Block assembly (R271) -/

/-- The latching of an uplink block start (R266). -/
def ChanState.latchUl (x : ChanState) : ChanState :=
  { x with modeUl := x.modeP, ciphUl := x.ciphUlP }

/-- Allocation writes every element of the buffer to 0 (10_state.md R33, R270 (7)). -/
def ChanState.allocUl (x : ChanState) : ChanState :=
  { x with ulAlloc := true, ulBuf := List.replicate 928 SBit.zero, ulMask := 0 }

/-- R271 (a): the block start, with the accounting of an abandoned block. -/
def ChanState.startUl (x : ChanState) (nb : Nat) (bid : Fin 8) (f0 : Fn) : ChanState :=
  ChanState.latchUl { x with
    nlost := if x.ulMask = 0 then x.nlost else x.nlost + BitVec.ofNat 32 nb
    ulBuf := List.replicate (116 * nb) SBit.zero ++ x.ulBuf.drop (116 * nb)
    ulMask := 0
    rssiSum := 0
    rssiNum := 0
    toaSum := 0
    toaNum := 0
    ciSum := 0
    ciNum := 0
    ulFirstFn := f0
    ulSync := x.ulSync || bid == 0 }

/-- `NPROC`, `LAST_FN`, `LAST_VALID` of an accepted burst (R271 (b), R276). -/
def ChanState.count (x : ChanState) (fn : Fn) : ChanState :=
  { x with nproc := x.nproc + 1, lastFn := fn, lastValid := true }

/-- R271 (b): the payload of the burst, its mask bit and its measurements; `tag` numbers the event at
which a sum or count may leave its format (log 13). -/
def ChanState.storeUl (x : ChanState) (r : RxInd) (bid : Fin 8) (tag : Nat) : ChanState :=
  ChanState.count { x with
    ulBuf := x.ulBuf.take (116 * bid.val) ++ unwrap r.bits.toList ++
      x.ulBuf.drop (116 * bid.val + 116)
    ulMask := x.ulMask ||| bidBit bid
    rssiSum := addSum tag 0 x.rssiSum r.rssi.toInt
    rssiNum := addCount tag 0 x.rssiNum
    toaSum := addSum tag 1 x.toaSum r.toa256.toInt
    toaNum := addCount tag 1 x.toaNum
    ciSum := if r.hasCi then addSum tag 2 x.ciSum r.ci.toInt else x.ciSum
    ciNum := if r.hasCi then addCount tag 2 x.ciNum else x.ciNum } r.fn

/-- `NLOST <- NLOST + n` (R289). -/
def ChanState.lose (x : ChanState) (n : Nat) : ChanState :=
  { x with nlost := x.nlost + BitVec.ofNat 32 n }

/-! ### Block completion (R273, R274) -/

/-- The AMR configuration a handler loads (R273, R282). -/
def wamrOf (mode : Mode) (ft cmr : BitVec 3) : Wamr :=
  { n := mode.amrN, list := mode.amrList, ft := ft, cmr := cmr }

/-- The decoder of the channel's family and mode (R273). A block in mode `SIGN` that is not stolen counts
as failed without regard to its checksum. -/
def runDecoder (P : Params) (ch : Chan) (x : ChanState) (s : State) : Cmd :=
  match ulFamily ch with
  | .xcch => xcchDecBody P s
  | .pdtch => pdtchDecBody P s
  | .tch =>
    match x.modeUl.tchMode with
    | .fr => tchfrDecBody P .fr s
    | .efr => tchfrDecBody P .efr s
    | .sign =>
      match tchfrDecBody P .fr s with
      | .done t => if t.res.steal then .done t else .raised .badBlock CrcSel.crc3.code.toNat t
      | .raised e info t => .raised e info t
      | .refused r => .refused r
    | .amr =>
      tchafsDecBody P (P.amrPhase x.ulFirstFn)
        { s with wamr := wamrOf x.modeUl x.ulFt x.ulCmr }
  | .none | .fcch | .sch | .rach | .unsupp => .done s

/-- The block was decoded as AMR speech (R274). -/
def amrSpeech (ch : Chan) (x : ChanState) (t : State) : Bool :=
  ulFamily ch == .tch && x.modeUl.tchMode == .amr && !t.res.steal

/-- `aux` of a `DATAIND` (R274): `USF | CS << 4` for packet data, `FT | CMR << 3` for AMR speech. -/
def dataAux (ch : Chan) (r : Res) (amr : Bool) : Byte :=
  if ulFamily ch == .pdtch then r.usf.setWidth 8 ||| (r.cs.setWidth 8 <<< 4)
  else if amr then r.ft.setWidth 8 ||| (r.cmr.setWidth 8 <<< 3)
  else 0

/-- The `DATAIND` of a completed block (R274), from the decoder's state `t`. -/
def dataIndOf (tn : Tn) (ch : Chan) (x : ChanState) (t : State) : Event :=
  .dataInd tn ch x.ulFirstFn t.pdu (BitVec.ofInt 8 (avg x.rssiSum x.rssiNum))
    (BitVec.ofInt 16 (avg x.toaSum x.toaNum)) (BitVec.ofInt 16 (avg x.ciSum x.ciNum))
    (decide (0 < x.ciNum.toNat)) (BitVec.ofNat 16 (ber10k t.res.nerr.toNat t.res.nbits.toNat))
    (dataAux ch t.res (amrSpeech ch x t))

/-- The indices of an AMR speech block become the channel's (R274). -/
def ChanState.takeUlIndices (x : ChanState) (amr : Bool) (r : Res) : ChanState :=
  if amr then { x with ulFt := r.ft, ulCmr := r.cmr } else x

/-- R273 and R274 for a block of `nb` bursts whose last burst has been stored; `x` is the channel state
with that burst. -/
def completeUl (P : Params) (tn : Tn) (ch : Chan) (nb : Nat) (x : ChanState) (s : State) : Cmd :=
  let got := popcount x.ulMask
  let part := x.ulMask != fullMask nb
  let x1 := if part then x.lose (nb - got) else x
  let s1 := if part then s.emit (.log .incomplete tn ch x.ulFirstFn) else s
  match runDecoder P ch x1 (s1.setSoftE (x1.ulBuf.take (116 * nb))) with
  | .done t =>
    .done ((t.emit (dataIndOf tn ch x1 t)).setChan tn ch
      { x1.takeUlIndices (amrSpeech ch x1 t) t.res with ulMask := 0 })
  | .raised .modeRange _ t =>
    .done ((t.emit (.modeInd tn ch x1.ulFirstFn t.res.idx)).setChan tn ch
      { x1.lose got with ulMask := 0 })
  | .raised _ _ t => .done (t.setChan tn ch { x1.lose got with ulMask := 0 })
  | .refused r => .refused r

/-- R271 for an indication that was routed to burst `bid` of channel `ch`, whose block began at `f0`. -/
def assembleUl (P : Params) (tn : Tn) (ch : Chan) (bid : Fin 8) (f0 : Fn) (s : State) : Cmd :=
  let nb := nbUl ch
  let x := s.chan tn ch
  let start := blockStarts x bid f0
  let s1 := if start && x.ulMask != 0 then s.emit (.log .abandoned tn ch x.ulFirstFn) else s
  let x1 := (if start then x.startUl nb bid f0 else x).storeUl s.rxind bid s.free
  let s2 := { s1.setChan tn ch x1 with free := s.free + 1 }
  if bid.val + 1 = nb then completeUl P tn ch nb x1 s2 else .done s2

/-! ### Random access (R276) -/

/-- The `DATAIND` of an access burst. -/
def accessInd (tn : Tn) (ch : Chan) (t : State) : Event :=
  .dataInd tn ch t.rxind.fn t.pdu t.rxind.rssi t.rxind.toa256
    (if t.rxind.hasCi then t.rxind.ci else 0) t.rxind.hasCi
    (BitVec.ofNat 16 (ber10k t.res.nerr.toNat t.res.nbits.toNat)) 0

/-- The random-access handler (R276). -/
def accessUl (P : Params) (tn : Tn) (ch : Chan) (s : State) : Cmd :=
  let s1 := (s.setSoftC (accessBits s.rxind.bits.toList)).setChan tn ch
    ((s.chan tn ch).count s.rxind.fn)
  match rachDecBody P s.bsic s1 with
  | .done t => .done (t.emit (accessInd tn ch t))
  | .raised _ _ t => .done (t.setChan tn ch ((t.chan tn ch).lose 1))
  | .refused r => .refused r

/-! ### RX.BURST (R270) -/

/-- R270 (1): what is wrong with an indication, checked in this order (60_exceptions.md R308). -/
def badInd (r : RxInd) : Option Nat :=
  if HYPER ≤ r.fn.toNat then some 1
  else if r.nbits.toNat ≠ 148 ∧ r.nbits.toNat ≠ 444 then some 2
  else if r.nbits.toNat = 444 ∨ r.eightLevel = true then some 3
  else none

/-- The end of a command that used the working buffers as scratch (10_state.md R53). An allocation that
failed is "no state change". -/
def Cmd.scratched : Cmd → Cmd
  | .done s => .done s.scratch
  | .raised e info s => .raised e info s
  | .refused r => .refused r

/-- R270 (7) and (8): allocation on the first burst, then block assembly. -/
def allocAssemble (P : Params) (tn : Tn) (ch : Chan) (bid : Fin 8) (f0 : Fn) (s : State) : Cmd :=
  if (s.chan tn ch).ulAlloc then assembleUl P tn ch bid f0 s
  else
    match s.alloc P with
    | (true, t) => assembleUl P tn ch bid f0 (t.setChan tn ch (s.chan tn ch).allocUl)
    | (false, t) => .raised .nomem ch.val t

/-- R270 (3) to (8): routing by the uplink slot of the layout `l`. -/
def routeUl (P : Params) (l : Layout) (tn : Tn) (s : State) : Cmd :=
  let slot := l.slot s.rxind.fn.toNat
  let ch := slot.ulChan
  if ulFamily ch = .none ∨ s.isActive tn ch = false then .done s
  else if ulFamily ch = .rach then (accessUl P tn ch s).scratched
  else if (s.chan tn ch).ulSync = false ∧ slot.ulBid ≠ 0 then .done s
  else (allocAssemble P tn ch slot.ulBid (toFn (ulFirstFn l s.rxind.fn.toNat)) s).scratched

/-- `RX.BURST` (R270). -/
def rxBurstBody (P : Params) (s : State) : Cmd :=
  match badInd s.rxind with
  | some k => .raised .badInd k s
  | none =>
    match s.layout P s.rxind.slot with
    | none => .done s
    | some l => routeUl P l s.rxind.slot s

/-- `RX.BURST`. -/
def execRxBurst (s : State) : Host.Outcome State Fault Refusal := (rxBurstBody Config.inst s).finish

end Sys2Proof.Machine
end

