-- ==== Sys2Proof/Machine/Transmit.lean ====
section
/-! DEFINITION. The transmit path, `TICK` (47_scheduler.md R278 to R285). -/

namespace Sys2Proof.Machine

/-- The timeslots in ascending order. -/
def allTn : List Tn := [0, 1, 2, 3, 4, 5, 6, 7]

/-! ### Ready-to-send (R279) -/

/-- The ready-to-send signal of one timeslot in frame `fn`, if its block starts `RTS_ADVANCE` frames
later. -/
def rtsSlot (P : Params) (fn : Nat) (s : State) (tn : Tn) : State :=
  match s.layout P tn with
  | none => s
  | some l =>
    let fr := fnAdd fn P.rtsAdvance
    let slot := l.slot fr
    if slot.dlBid = 0 ∧ (dlFamily slot.dlChan).queued = true ∧ s.isActive tn slot.dlChan = true then
      s.emit (.rtsInd tn slot.dlChan (toFn fr))
    else s

/-! ### Lengths and encoders (R282) -/

/-- The frame-type index of a queue element (10_state.md R44). -/
def QElem.ft (x : QElem) : BitVec 3 := x.aux.extractLsb' 0 3

/-- The mode-request index of a queue element (10_state.md R44). -/
def QElem.cmr (x : QElem) : BitVec 3 := x.aux.extractLsb' 3 3

/-- `len_ok(ch, mode, x)` (R282) for the block that begins in frame `fn`; an AMR speech PDU is tested by
the checks of `TCHAFS.ENC` itself (log 15). -/
def lenOk (P : Params) (ch : Chan) (mode : Mode) (fn : Fn) (x : QElem) : Bool :=
  match dlFamily ch with
  | .xcch => x.bytes.length == 23
  | .pdtch => (schemeOfLen x.bytes.length).isSome
  | .tch =>
    x.bytes.length == 23 ||
    match mode.tchMode with
    | .sign => false
    | .fr => x.bytes.length == 33
    | .efr => x.bytes.length == 31
    | .amr => (afsReject P (P.amrPhase fn) (wamrOf mode x.ft x.cmr) x.bytes.length).isNone
  | .none | .fcch | .sch | .rach | .unsupp => false

/-- The indices of the channel for the queue element being sent (R282): an AMR speech PDU brings its
own. -/
def ChanState.takeDlIndices (y : ChanState) (ch : Chan) (x : QElem) : ChanState :=
  if dlFamily ch == .tch && y.modeDl.tchMode == .amr && x.bytes.length != 23 then
    { y with dlFt := x.ft, dlCmr := x.cmr }
  else y

/-- The encoder of the channel's family and mode (R282); `PDU` holds the block. -/
def runEncoder (P : Params) (ch : Chan) (y : ChanState) (fn : Fn) (s : State) : Cmd :=
  match dlFamily ch with
  | .xcch => xcchEncBody s
  | .pdtch => pdtchEncBody s
  | .tch =>
    match y.modeDl.tchMode with
    | .sign => tchfrEncBody P .fr s
    | .fr => tchfrEncBody P .fr s
    | .efr => tchfrEncBody P .efr s
    | .amr =>
      tchafsEncBody P (P.amrPhase fn) { s with wamr := wamrOf y.modeDl y.dlFt y.dlCmr }
  | .none | .fcch | .sch | .rach | .unsupp => .done s

/-! ### The downlink handler (R280) -/

/-- The latching of a downlink block start (R266), with the buffer released. -/
def ChanState.startDl (y : ChanState) : ChanState :=
  { y with dlAlloc := false, dlBuf := [], modeDl := y.modeP, ciphDl := y.ciphDlP }

/-- The head of the channel's queue is removed; with an empty queue, the filler (R280, R281). -/
def dequeue (P : Params) (tn : Tn) (ch : Chan) (mode : Mode) (s : State) : Option QElem × State :=
  match s.queue tn ch with
  | [] => (P.filler ch mode, s)
  | x :: xs => (some x, s.setQueue tn ch xs)

/-- The element whose length is right, or none (R280): a bad one is logged and replaced by the filler if
that is right. -/
def usable (P : Params) (tn : Tn) (ch : Chan) (mode : Mode) (fn : Fn) (x : Option QElem) (s : State) :
    Option QElem × State :=
  match x with
  | none => (none, s)
  | some e =>
    if lenOk P ch mode fn e then (some e, s)
    else ((P.filler ch mode).filter fun f => lenOk P ch mode fn f,
      s.emit (.log .badPduLen tn ch fn))

/-- The block start of a downlink channel (R280 (a)). The answer's flag says that the allocation failed
and the timeslot ends here. -/
def startBlock (P : Params) (tn : Tn) (ch : Chan) (fn : Fn) (s : State) : Bool × State :=
  let y := (s.chan tn ch).startDl
  let d := dequeue P tn ch y.modeDl (s.setChan tn ch y)
  match usable P tn ch y.modeDl fn d.1 d.2 with
  | (none, t) => (false, t)
  | (some x, t) =>
    match t.alloc P with
    | (false, t1) => (true, t1.emit (.log .nomem tn ch fn))
    | (true, t1) =>
      let z := y.takeDlIndices ch x
      match runEncoder P ch z fn (t1.setPdu x.bytes) with
      | .done t2 =>
        (false, t2.setChan tn ch
          { z with dlAlloc := true, dlMod := false, dlBuf := t2.e.take (116 * nbDl ch) })
      | .raised _ _ t2 => (false, t2.setChan tn ch z)
      | .refused _ => (false, t1)

/-- The burst request of burst `bid` (R280 (b), R283). -/
def burstReq (P : Params) (tn : Tn) (bid : Fin 8) (fn : Fn) (y : ChanState) (s : State) : Event :=
  .txReq fn tn (s.ts.get tn).att
    (wrap (slice y.dlBuf (116 * bid.val) 116) (P.tscTable (s.ts.get tn).tsc).toList)

/-- R280 (b) and (c): the burst request while the buffer exists, and its release after the last burst. -/
def sendBurst (P : Params) (tn : Tn) (ch : Chan) (bid : Fin 8) (fn : Fn) (s : State) : State :=
  let y := s.chan tn ch
  let t := if y.dlAlloc then s.emit (burstReq P tn bid fn y s) else s
  if bid.val + 1 = nbDl ch then t.setChan tn ch { y with dlAlloc := false, dlBuf := [] } else t

/-- R280 for the families whose blocks carry PDUs. The flag says that the allocation failed. -/
def blockDl (P : Params) (tn : Tn) (ch : Chan) (bid : Fin 8) (fn : Fn) (s : State) : Bool × State :=
  if s.isActive tn ch = false then (false, s)
  else
    match (if bid = 0 then startBlock P tn ch fn s else (false, s)) with
    | (true, t) => (true, t)
    | (false, t) => (false, sendBurst P tn ch bid fn t)

/-- The frequency-correction handler (R285). -/
def fcchDl (tn : Tn) (fn : Fn) (s : State) : State :=
  s.emit (.txReq fn tn (s.ts.get tn).att (List.replicate 148 false))

/-- The four bytes of `SCHINFO(fn, BSIC)`: bits above 25 are zero (R284). -/
def schPdu (P : Params) (fn : Fn) (bsic : BitVec 6) : List Byte :=
  packLsb ((List.range 25).map fun k => (P.schinfo fn bsic).getLsbD k)

/-- The synchronisation handler (R284). -/
def schDl (P : Params) (tn : Tn) (fn : Fn) (s : State) : State :=
  match schEncBody (s.setPdu (schPdu P fn s.bsic)) with
  | .done t => t.emit (.txReq fn tn (t.ts.get tn).att (wrapSch t.c P.schTrain.toList))
  | .raised _ _ t => t
  | .refused _ => s

/-- The downlink handler of one timeslot in frame `fn` (R280), by the family of its downlink slot. -/
def dlSlot (P : Params) (fn : Nat) (s : State) (tn : Tn) : Bool × State :=
  match s.layout P tn with
  | none => (false, s)
  | some l =>
    let slot := l.slot fn
    match dlFamily slot.dlChan with
    | .fcch => (false, fcchDl tn (toFn fn) s)
    | .sch => (false, schDl P tn (toFn fn) s)
    | .xcch | .pdtch | .tch => blockDl P tn slot.dlChan slot.dlBid (toFn fn) s
    | .none | .rach | .unsupp => (false, s)

/-! ### TICK (R278) -/

/-- Step (4) of R278: the transmit phase over the timeslots, with the set of failed ones. -/
def transmit (P : Params) (fn : Nat) : List Tn → Nat → State → Nat × State
  | [], failed, s => (failed, s)
  | tn :: tns, failed, s =>
    match dlSlot P fn s tn with
    | (true, t) => transmit P fn tns (failed + 2 ^ tn.val) t
    | (false, t) => transmit P fn tns failed t

/-- Steps (2) to (4) of R278: the failed timeslots and the state before the scratch rule. -/
def runTick (P : Params) (fn : Fn) (s : State) : Nat × State :=
  transmit P fn.toNat allTn 0
    (allTn.foldl (rtsSlot P fn.toNat) { s with fn := fn, fnValid := true })

/-- `TICK fn` (R278). -/
def tickBody (P : Params) (fn : Fn) (s : State) : Cmd :=
  if s.fnValid = true ∧ fn.toNat ≠ fnAdd s.fn.toNat 1 then .refused .clock
  else
    match runTick P fn s with
    | (0, t) => .done t.scratch
    | (failed + 1, t) => .raised .nomem (failed + 1) t.scratch

/-- `TICK`. -/
def execTick (fn : Fn) (s : State) : Host.Outcome State Fault Refusal := (tickBody Config.inst fn s).finish

end Sys2Proof.Machine
end

