-- ==== Sys2Proof/Machine/Dispatch.lean ====
section
/-! DEFINITION. The dispatch: one arm per command of 30_encoding.md R94, each one call of its meaning. -/

namespace Sys2Proof.Machine

/-- The meaning of a command. -/
def exec (i : Instr) (s : State) : Host.Outcome State Fault Refusal :=
  match i with
  | .crcGen crcsel n => Sys2Proof.Machine.execCrcGen crcsel n s
  | .crcChk crcsel n => Sys2Proof.Machine.execCrcChk crcsel n s
  | .uappPar => Sys2Proof.Machine.execUappPar s
  | .uappZero n => Sys2Proof.Machine.execUappZero n s
  | .parLd r n => Sys2Proof.Machine.execParLd r n s
  | .convEnc codesel => Sys2Proof.Machine.execConvEnc codesel s
  | .convDec codesel kd => Sys2Proof.Machine.execConvDec codesel kd s
  | .punc puncsel => Sys2Proof.Machine.execPunc puncsel s
  | .depunc puncsel => Sys2Proof.Machine.execDepunc puncsel s
  | .intlv isel => Sys2Proof.Machine.execIntlv isel s
  | .deintlv isel => Sys2Proof.Machine.execDeintlv isel s
  | .map nb => Sys2Proof.Machine.execMap nb s
  | .unmap nb => Sys2Proof.Machine.execUnmap nb s
  | .hSet nb pattern => Sys2Proof.Machine.execHSet nb pattern s
  | .unpack order n => Sys2Proof.Machine.execUnpack order n s
  | .pack order n => Sys2Proof.Machine.execPack order n s
  | .matchPat tsel => Sys2Proof.Machine.execMatch tsel s
  | .xcchEnc => Sys2Proof.Machine.execXcchEnc s
  | .xcchDec => Sys2Proof.Machine.execXcchDec s
  | .rachEnc bsic => Sys2Proof.Machine.execRachEnc bsic s
  | .rachDec bsic => Sys2Proof.Machine.execRachDec bsic s
  | .schEnc => Sys2Proof.Machine.execSchEnc s
  | .schDec => Sys2Proof.Machine.execSchDec s
  | .pdtchEnc => Sys2Proof.Machine.execPdtchEnc s
  | .pdtchDec => Sys2Proof.Machine.execPdtchDec s
  | .amrCfg => Sys2Proof.Machine.execAmrCfg s
  | .tchfrEnc speech => Sys2Proof.Machine.execTchfrEnc speech s
  | .tchfrDec speech => Sys2Proof.Machine.execTchfrDec speech s
  | .tchafsEnc phase => Sys2Proof.Machine.execTchafsEnc phase s
  | .tchafsDec phase => Sys2Proof.Machine.execTchafsDec phase s
  | .schedInit => Sys2Proof.Machine.execSchedInit s
  | .setPchan tn pchan tsc => Sys2Proof.Machine.execSetPchan tn pchan tsc s
  | .chAct tn ch linksel => Sys2Proof.Machine.execChAct tn ch linksel s
  | .chDeact tn ch linksel => Sys2Proof.Machine.execChDeact tn ch linksel s
  | .setMode tn ch => Sys2Proof.Machine.execSetMode tn ch s
  | .setCipher tn ch dir => Sys2Proof.Machine.execSetCipher tn ch dir s
  | .pduEnq tn ch aux => Sys2Proof.Machine.execPduEnq tn ch aux s
  | .setAtt tn att => Sys2Proof.Machine.execSetAtt tn att s
  | .tick fn => Sys2Proof.Machine.execTick fn s
  | .rxBurst => Sys2Proof.Machine.execRxBurst s
  | .setBsic bsic => Sys2Proof.Machine.execSetBsic bsic s

end Sys2Proof.Machine
end

