-- ==== Sys2Proof/Machine/Window.lean ====
section
/-! DEFINITION. The data window (20_memory.md R71 to R76): what a host read returns and what a host write
does, but for a write of `CMD`, which `Port.lean` runs. -/

namespace Sys2Proof.Machine

/-! ### Places (R75) -/

/-- What an offset of the window is a byte of: an element of an array row, or a byte of the 4-byte word
at `base`. A word that no row lists is reserved. -/
inductive Place where
  | word (base : Nat)
  | prm (idx : Nat)
  | pdu (idx : Nat)
  | par (idx : Nat)
  | h (idx : Nat)
  | hs (idx : Nat)
  | u (idx : Nat)
  | c (idx : Nat)
  | cs (idx : Nat)
  | i (idx : Nat)
  | is (idx : Nat)
  | e (idx : Nat)
  | es (idx : Nat)
  | rxBits (idx : Nat)
  | headData (idx : Nat)
  | cipher (idx : Nat)
  | ulBuf (idx : Nat)
  | dlBuf (idx : Nat)
  deriving DecidableEq, Repr

/-- `off` lies in the `n` bytes from `base`. -/
def within (off base n : Nat) : Bool := decide (base ≤ off ∧ off < base + n)

/-- The place of an offset (R75). -/
def placeOf (off : Nat) : Place :=
  if within off 0x0040 16 then .prm (off - 0x0040)
  else if within off 0x0080 64 then .pdu (off - 0x0080)
  else if within off 0x00C0 40 then .par (off - 0x00C0)
  else if within off 0x00F0 16 then .h (off - 0x00F0)
  else if within off 0x0100 16 then .hs (off - 0x0100)
  else if within off 0x0200 512 then .u (off - 0x0200)
  else if within off 0x0400 1024 then .c (off - 0x0400)
  else if within off 0x0800 1024 then .cs (off - 0x0800)
  else if within off 0x0C00 912 then .i (off - 0x0C00)
  else if within off 0x1000 912 then .is (off - 0x1000)
  else if within off 0x1400 928 then .e (off - 0x1400)
  else if within off 0x1800 928 then .es (off - 0x1800)
  else if within off 0x1C40 444 then .rxBits (off - 0x1C40)
  else if within off 0x2040 444 then .headData (off - 0x2040)
  else if within off 0x8050 36 then .cipher (off - 0x8050)
  else if within off 0x8400 928 then .ulBuf (off - 0x8400)
  else if within off 0x8800 928 then .dlBuf (off - 0x8800)
  else .word (off - off % 4)

/-! ### Words (R75): a field at its bits, every other bit 0 (log 8) -/

/-- A field of `k` bits at bit `lo` of a word. -/
def field {k : Nat} (v : BitVec k) (lo : Nat) : Word := v.setWidth 32 <<< lo

/-- A flag at bit `lo` of a word. -/
def flag (b : Bool) (lo : Nat) : Word := field (BitVec.ofBool b) lo

/-- A length at bit `lo` of a word. -/
def lenField (n lo : Nat) : Word := BitVec.ofNat 32 n <<< lo

/-- Eight 3-bit entries, entry `k` at bits `4k+2 : 4k`. -/
def listWord (list : Vector (BitVec 3) 8) : Word :=
  (List.range 8).foldl (fun w k => w ||| field (list.toList.getD k 0) (4 * k)) 0

/-- A mode register: `RSL_CMODE`, `TCH_MODE`, `AMR_N`. -/
def modeWord (m : Mode) : Word := field m.rslCmode 0 ||| field m.tchMode.code 8 ||| field m.amrN 16

/-- The kind number of an event (R75 `EVH.A`). -/
def Event.kind : Event → Byte
  | .txReq _ _ _ _ => 1
  | .dataInd _ _ _ _ _ _ _ _ _ _ => 2
  | .rtsInd _ _ _ => 3
  | .log _ _ _ _ => 4
  | .modeInd _ _ _ _ => 5

/-- The timeslot of an event. -/
def Event.tn : Event → Tn
  | .txReq _ tn _ _ => tn
  | .dataInd tn _ _ _ _ _ _ _ _ _ => tn
  | .rtsInd tn _ _ => tn
  | .log _ tn _ _ => tn
  | .modeInd tn _ _ _ => tn

/-- The channel of an event; a `TXREQ` has none. -/
def Event.chan? : Event → Option Chan
  | .txReq _ _ _ _ => none
  | .dataInd _ ch _ _ _ _ _ _ _ _ => some ch
  | .rtsInd _ ch _ => some ch
  | .log _ _ ch _ => some ch
  | .modeInd _ ch _ _ => some ch

/-- The frame number of an event. -/
def Event.fn : Event → Fn
  | .txReq fn _ _ _ => fn
  | .dataInd _ _ fn _ _ _ _ _ _ _ => fn
  | .rtsInd _ _ fn => fn
  | .log _ _ _ fn => fn
  | .modeInd _ _ fn _ => fn

/-- A field that the head event may not have: its value, or those bits of the free word (log 9). -/
def fieldOr {k : Nat} (v : Option (BitVec k)) (free : Word) (lo : Nat) : Word :=
  field (v.getD (free.extractLsb' lo k)) lo

/-- `EVH.A`. -/
def headA (e : Option Event) (free : Word) : Word :=
  fieldOr (some ((e.map Event.kind).getD 0)) free 0 |||
  fieldOr (e.map fun x => BitVec.ofNat 3 x.tn.val) free 8 |||
  fieldOr ((e.bind Event.chan?).map fun ch => BitVec.ofNat 6 ch.val) free 16 |||
  fieldOr (match e with
    | some (.log code _ _ _) => some code.code
    | _ => none) free 24

/-- `EVH.FN`. -/
def headFn (e : Option Event) (free : Word) : Word := fieldOr (e.map Event.fn) free 0

/-- `EVH.B`: `len` or `nbits`, and `att`, `aux` or `idx`. -/
def headB (e : Option Event) (free : Word) : Word :=
  match e with
  | some (.txReq _ _ att bits) => field (BitVec.ofNat 16 bits.length) 0 ||| field att 16
  | some (.dataInd _ _ _ bytes _ _ _ _ _ aux) => field (BitVec.ofNat 16 bytes.length) 0 ||| field aux 16
  | some (.modeInd _ _ _ idx) => fieldOr (none : Option (BitVec 16)) free 0 ||| field idx 16
  | _ => fieldOr (none : Option (BitVec 16)) free 0 ||| fieldOr (none : Option (BitVec 8)) free 16

/-- `EVH.C`: `rssi` and `toa256` of a `DATAIND`. -/
def headC (e : Option Event) (free : Word) : Word :=
  match e with
  | some (.dataInd _ _ _ _ rssi toa256 _ _ _ _) => field rssi 0 ||| field toa256 16
  | _ => fieldOr (none : Option (BitVec 8)) free 0 ||| fieldOr (none : Option (BitVec 16)) free 16

/-- `EVH.D`: `lqual_cb` and `lqual_valid` of a `DATAIND`. -/
def headD (e : Option Event) (free : Word) : Word :=
  match e with
  | some (.dataInd _ _ _ _ _ _ lq lqv _ _) => field lq 0 ||| flag lqv 16
  | _ => fieldOr (none : Option (BitVec 16)) free 0 ||| fieldOr (none : Option (BitVec 1)) free 16

/-- `EVH.E`: `ber10k` of a `DATAIND`. -/
def headE (e : Option Event) (free : Word) : Word :=
  match e with
  | some (.dataInd _ _ _ _ _ _ _ _ ber _) => field ber 0
  | _ => fieldOr (none : Option (BitVec 16)) free 0

/-- The channel state that `CSSEL` selects; none for a `ch` above 38. -/
def State.selected (s : State) : Option (Tn × Chan) :=
  if h : s.csselCh.toNat < 39 then some (s.csselTn.toFin, ⟨s.csselCh.toNat, h⟩) else none

/-- The queue fill field of `CSV.FLAGS` (log 20). -/
def fillField (tag : Nat) (n : Nat) : BitVec 16 :=
  if n < 65536 then BitVec.ofNat 16 n else Config.freeFill tag

/-- `CSV.FLAGS`. -/
def csvFlags (tag : Nat) (x : ChanState) (q : List QElem) : Word :=
  flag x.active 0 ||| flag x.ulAlloc 1 ||| flag x.dlAlloc 2 ||| flag x.ulSync 3 |||
  flag x.lastValid 4 ||| flag x.dlMod 5 ||| field x.ulMask 8 ||| field (fillField tag q.length) 16

/-- A word of the selected channel state. -/
def csvWord (tag : Nat) (x : ChanState) (q : List QElem) (base : Nat) : Word :=
  match base with
  | 0x8004 => csvFlags tag x q
  | 0x8008 => field x.ulFirstFn 0
  | 0x800C => field x.lastFn 0
  | 0x8010 => x.nproc
  | 0x8014 => x.nlost
  | 0x8018 => x.rssiSum
  | 0x801C => field x.rssiNum 0
  | 0x8020 => x.toaSum
  | 0x8024 => field x.toaNum 0
  | 0x8028 => x.ciSum
  | 0x802C => field x.ciNum 0
  | 0x8030 => modeWord x.modeP
  | 0x8034 => modeWord x.modeUl
  | 0x8038 => modeWord x.modeDl
  | 0x803C => listWord x.modeP.amrList
  | 0x8040 => listWord x.modeUl.amrList
  | 0x8044 => listWord x.modeDl.amrList
  | 0x8048 => field x.ulFt 0 ||| field x.ulCmr 4 ||| field x.dlFt 8 ||| field x.dlCmr 12
  | _ => 0

/-- `CSSEL`. -/
def csselWord (s : State) : Word := field s.csselTn 0 ||| field s.csselCh 8

/-- The word at `base`. `CMD` and `EVQ_POP` are write-only and read 0; a word of no row reads 0. -/
def wordAt (s : State) (base : Nat) : Word :=
  if within base 0x4000 32 then
    let r := s.ts.toList.getD ((base - 0x4000) / 4) TsRegs.zero
    field r.pchan 0 ||| field r.tsc 4 ||| field r.att 8
  else if within base 0x8004 0x0FFC then
    match s.selected with
    | none => 0
    | some (tn, ch) => csvWord s.free (s.chan tn ch) (s.queue tn ch) base
  else
    let e := s.evq.head?
    let free := Config.freeHead s.free base
    match base with
    | 0x0004 => field s.stat.code 0 ||| field s.stat.aux 8
    | 0x0008 => field s.fn 0 ||| flag s.fnValid 31
    | 0x000C => field s.bsic 0
    | 0x0010 => field s.res.nerr 0 ||| field s.res.nbits 16
    | 0x0014 => field s.res.usf 0 ||| field s.res.cs 4 ||| field s.res.ft 8 ||| field s.res.cmr 12 |||
        flag s.res.steal 16
    | 0x0018 => field s.res.idx 0 ||| field s.res.dist 16
    | 0x001C => field s.wamr.n 0 ||| field s.wamr.ft 4 ||| field s.wamr.cmr 8
    | 0x0020 => listWord s.wamr.list
    | 0x0024 => lenField s.mem.pdu.len 0 ||| lenField s.mem.par.len 8 ||| lenField s.mem.h.len 16 |||
        lenField s.mem.hs.len 24
    | 0x0028 => lenField s.mem.u.len 0 ||| lenField s.mem.c.len 16
    | 0x002C => lenField s.mem.cs.len 0 ||| lenField s.mem.i.len 16
    | 0x0030 => lenField s.mem.is.len 0 ||| lenField s.mem.e.len 16
    | 0x0034 => lenField s.mem.es.len 0
    | 0x0050 => BitVec.ofNat 32 (min s.evq.length 4294967295)
    | 0x1C00 => field s.rxind.fn 0
    | 0x1C04 => field s.rxind.tn 0 ||| field s.rxind.present 4 ||| flag s.rxind.mod 8 |||
        field s.rxind.tscinfo 16
    | 0x1C08 => field s.rxind.toa256 0 ||| field s.rxind.rssi 16
    | 0x1C0C => field s.rxind.ci 0 ||| field s.rxind.nbits 16
    | 0x2000 => headA e free
    | 0x2004 => headFn e free
    | 0x2008 => headB e free
    | 0x200C => headC e free
    | 0x2010 => headD e free
    | 0x2014 => headE e free
    | 0x8000 => csselWord s
    | _ => 0

/-! ### Reads -/

/-- A hard bit as the byte of its element (R73). -/
def bitByte (b : UBit) : Byte := BitVec.ofNat 8 b.toNat

/-- Element `idx` of a buffer as the host reads it: below the length its value, otherwise any value of the
type (U4 of 93_implementation_defined.md, log 11). -/
def Buf.hostGet {α : Type} (free : Nat → Nat → α) (tag : Nat) (b : Buf α) (idx : Nat) : α :=
  if idx < b.len then b.get free idx else free tag idx

/-- Byte `k` of the four cipher records of 9 bytes (R75 `CSV.CIPH`). -/
def cipherByte (x : ChanState) (k : Nat) : Byte :=
  let r := match k / 9 with
    | 0 => x.ciphUlP
    | 1 => x.ciphUl
    | 2 => x.ciphDlP
    | _ => x.ciphDl
  if k % 9 = 0 then r.algo.setWidth 8 else r.key.toList.getD (k % 9 - 1) 0

/-- Element `idx` of `EVH.DATA`. -/
def headDataByte (tag : Nat) (e : Option Event) (idx : Nat) : Byte :=
  match e with
  | some (.txReq _ _ _ bits) =>
    match bits[idx]? with
    | some b => bitByte b
    | none => Config.freeHeadData tag idx
  | some (.dataInd _ _ _ bytes _ _ _ _ _ _) =>
    match bytes[idx]? with
    | some b => b
    | none => Config.freeHeadData tag idx
  | _ => Config.freeHeadData tag idx

/-- Element `idx` of `CSV.UL_BUF`. -/
def ulBufByte (x : ChanState) (idx : Nat) : Byte :=
  if x.ulAlloc then (x.ulBuf.getD idx SBit.zero).val else 0

/-- Element `idx` of `CSV.DL_BUF`: while the buffer exists, an element that no burst uses has no value
(log 19). -/
def dlBufByte (tag : Nat) (x : ChanState) (idx : Nat) : Byte :=
  if x.dlAlloc then bitByte (x.dlBuf.getD idx (Config.freeBit tag idx)) else 0

/-- What a function of the selected channel state reads as; 0 for a `ch` above 38. -/
def State.viewed (s : State) (f : ChanState → Byte) : Byte :=
  match s.selected with
  | none => 0
  | some (tn, ch) => f (s.chan tn ch)

/-- The byte at an offset (R73: the byte at the lowest offset holds bits 7:0). `RXIND.BITS[k]` reads as what
was last written there, 0 after reset, for every `k`: 10_state.md R56 gives a value to the first `NBITS`
only, so for the others this is the model's choice (DESIGN CHOICE, unsafe, log 26). -/
def byteAt (s : State) (off : Nat) : Byte :=
  match placeOf off with
  | .word base => (wordAt s base).extractLsb' (8 * (off % 4)) 8
  | .prm idx => s.prmAt idx
  | .pdu idx => s.mem.pdu.hostGet Config.freeByte s.free idx
  | .par idx => bitByte (s.mem.par.hostGet Config.freeBit s.free idx)
  | .h idx => bitByte (s.mem.h.hostGet Config.freeBit s.free idx)
  | .hs idx => (s.mem.hs.hostGet Config.freeSoft s.free idx).val
  | .u idx => bitByte (s.mem.u.hostGet Config.freeBit s.free idx)
  | .c idx => bitByte (s.mem.c.hostGet Config.freeBit s.free idx)
  | .cs idx => (s.mem.cs.hostGet Config.freeSoft s.free idx).val
  | .i idx => bitByte (s.mem.i.hostGet Config.freeBit s.free idx)
  | .is idx => (s.mem.is.hostGet Config.freeSoft s.free idx).val
  | .e idx => bitByte (s.mem.e.hostGet Config.freeBit s.free idx)
  | .es idx => (s.mem.es.hostGet Config.freeSoft s.free idx).val
  | .rxBits idx => (s.rxind.bits.toList.getD idx SBit.zero).val
  | .headData idx => headDataByte s.free s.evq.head? idx
  | .cipher idx => s.viewed fun x => cipherByte x idx
  | .ulBuf idx => s.viewed fun x => ulBufByte x idx
  | .dlBuf idx => s.viewed fun x => dlBufByte s.free x idx

/-- The bytes `off .. off+n-1`, the lowest in bits 7:0, the others of the word 0. -/
def readWord (s : State) (off : Nat) : Nat → Word
  | 0 => 0
  | n + 1 => readWord s off n ||| field (byteAt s (off + n)) (8 * n)

/-- A host read (R74, R75): no side effect on the block's state. -/
def hostReadAt (s : State) (off n : Nat) : State :=
  { s with hostRead := readWord s off n, free := s.free + 1 }

/-! ### Writes -/

/-- The hard bit a byte stands for, none above 1 (R73). -/
def ubitOf? (b : Byte) : Option UBit :=
  if b = 0 then some false else if b = 1 then some true else none

/-- The bytes of a value that is `n` bytes wide, lowest first. -/
def bytesOf (v : Word) (n : Nat) : List Byte := (List.range n).map fun k => v.extractLsb' (8 * k) 8

/-- A word with the bytes from `at_` on replaced (R73, log 10). -/
def mergeWord (old : Word) (at_ : Nat) : List Byte → Word
  | [] => old
  | b :: bs =>
    mergeWord ((old &&& ~~~(field (0xFF : Byte) (8 * at_))) ||| field b (8 * at_)) (at_ + 1) bs

/-- The bytes are written to the elements from `idx` on; none if one of them stands for no value of the
element type. -/
def putBytes {α : Type} (conv : Byte → Option α) (b : Buf α) (idx : Nat) : List Byte → Option (Buf α)
  | [] => some b
  | x :: xs =>
    match conv x with
    | none => none
    | some v => putBytes conv (b.put idx v) (idx + 1) xs

/-- The bytes are written to the soft bits of `RXIND.BITS` from `idx` on. -/
def putBits (v : Vector SBit 444) (idx : Nat) : List Byte → Option (Vector SBit 444)
  | [] => some v
  | x :: xs =>
    match SBit.ofByte? x with
    | none => none
    | some b => putBits (v.setIfInBounds idx b) (idx + 1) xs

/-- The bytes are written to the mailbox from `idx` on. -/
def putPrm (v : Vector Byte 16) (idx : Nat) : List Byte → Vector Byte 16
  | [] => v
  | x :: xs => putPrm (v.setIfInBounds idx x) (idx + 1) xs

/-- A field of a word as a number. -/
def natField (w : Word) (lo k : Nat) : Nat := (w.extractLsb' lo k).toNat

/-- A length row is written (R75, R76): none if a length is above its capacity. -/
def setLens (s : State) (base : Nat) (w : Word) : Option State :=
  let m := s.mem
  let t := s.free
  match base with
  | 0x0024 =>
    if natField w 0 7 ≤ capPdu ∧ natField w 8 6 ≤ capPar ∧ natField w 16 5 ≤ capH ∧
        natField w 24 5 ≤ capH then
      some { s with
        mem := { m with pdu := m.pdu.setLen t (natField w 0 7), par := m.par.setLen (t + 1) (natField w 8 6),
                        h := m.h.setLen (t + 2) (natField w 16 5),
                        hs := m.hs.setLen (t + 3) (natField w 24 5) }
        free := t + 4 }
    else none
  | 0x0028 =>
    if natField w 0 10 ≤ capU ∧ natField w 16 11 ≤ capC then
      some { s with
        mem := { m with u := m.u.setLen t (natField w 0 10), c := m.c.setLen (t + 1) (natField w 16 11) }
        free := t + 4 }
    else none
  | 0x002C =>
    if natField w 0 11 ≤ capC ∧ natField w 16 10 ≤ capI then
      some { s with
        mem := { m with cs := m.cs.setLen t (natField w 0 11), i := m.i.setLen (t + 1) (natField w 16 10) }
        free := t + 4 }
    else none
  | 0x0030 =>
    if natField w 0 10 ≤ capI ∧ natField w 16 10 ≤ capE then
      some { s with
        mem := { m with is := m.is.setLen t (natField w 0 10), e := m.e.setLen (t + 1) (natField w 16 10) }
        free := t + 4 }
    else none
  | _ =>
    if natField w 0 10 ≤ capE then
      some { s with mem := { m with es := m.es.setLen t (natField w 0 10) }, free := t + 4 }
    else none

/-- A word row is written with the merged word `w` (R75, R76): the length registers, `RXIND`, `CSSEL` and
`EVQ_POP`. A read-only or reserved word ignores the write. -/
def writeWord (s : State) (base : Nat) (w : Word) : Option State :=
  match base with
  | 0x0024 => setLens s 0x0024 w
  | 0x0028 => setLens s 0x0028 w
  | 0x002C => setLens s 0x002C w
  | 0x0030 => setLens s 0x0030 w
  | 0x0034 => setLens s 0x0034 w
  | 0x0054 => some { s with evq := s.evq.tail }
  | 0x1C00 => some { s with rxind := { s.rxind with fn := w.extractLsb' 0 22 } }
  | 0x1C04 => some { s with rxind := { s.rxind with
      tn := w.extractLsb' 0 3
      present := w.extractLsb' 4 3
      mod := w.getLsbD 8
      tscinfo := w.extractLsb' 16 8 } }
  | 0x1C08 => some { s with rxind := { s.rxind with
      toa256 := w.extractLsb' 0 16
      rssi := w.extractLsb' 16 8 } }
  | 0x1C0C => some { s with rxind := { s.rxind with
      ci := w.extractLsb' 0 16
      nbits := w.extractLsb' 16 9 } }
  | 0x8000 => some { s with csselTn := w.extractLsb' 0 3, csselCh := w.extractLsb' 8 6 }
  | _ => some s

/-- A host write of `bytes` from `off` on, but for `CMD` (R73 to R76): none if a byte or a length is
outside its type or capacity. Writes of read-only rows are ignored. -/
def writeBytes (s : State) (off : Nat) (bytes : List Byte) : Option State :=
  match placeOf off with
  | .word base => writeWord s base (mergeWord (wordAt s base) (off % 4) bytes)
  | .prm idx => some { s with prm := putPrm s.prm idx bytes }
  | .pdu idx => (putBytes some s.mem.pdu idx bytes).map fun b => { s with mem := { s.mem with pdu := b } }
  | .par idx =>
    (putBytes ubitOf? s.mem.par idx bytes).map fun b => { s with mem := { s.mem with par := b } }
  | .h idx => (putBytes ubitOf? s.mem.h idx bytes).map fun b => { s with mem := { s.mem with h := b } }
  | .hs idx =>
    (putBytes SBit.ofByte? s.mem.hs idx bytes).map fun b => { s with mem := { s.mem with hs := b } }
  | .u idx => (putBytes ubitOf? s.mem.u idx bytes).map fun b => { s with mem := { s.mem with u := b } }
  | .c idx => (putBytes ubitOf? s.mem.c idx bytes).map fun b => { s with mem := { s.mem with c := b } }
  | .cs idx =>
    (putBytes SBit.ofByte? s.mem.cs idx bytes).map fun b => { s with mem := { s.mem with cs := b } }
  | .i idx => (putBytes ubitOf? s.mem.i idx bytes).map fun b => { s with mem := { s.mem with i := b } }
  | .is idx =>
    (putBytes SBit.ofByte? s.mem.is idx bytes).map fun b => { s with mem := { s.mem with is := b } }
  | .e idx => (putBytes ubitOf? s.mem.e idx bytes).map fun b => { s with mem := { s.mem with e := b } }
  | .es idx =>
    (putBytes SBit.ofByte? s.mem.es idx bytes).map fun b => { s with mem := { s.mem with es := b } }
  | .rxBits idx =>
    (putBits s.rxind.bits idx bytes).map fun v => { s with rxind := { s.rxind with bits := v } }
  | .headData _ | .cipher _ | .ulBuf _ | .dlBuf _ => some s

/-- A well-formed access (R74): 1, 2 or 4 bytes, aligned. Every row of R75 begins and ends at a multiple
of 4, so such an access crosses no row. -/
def accessOk (off n : Nat) : Bool := (n == 1 || n == 2 || n == 4) && off % n == 0

/-- The access touches `CMD`. -/
def touchesCmd (off : Nat) : Bool := decide (off < 4)

/-- A host write that is no command (R74 to R76). A narrower write of `CMD` is no access of that row. -/
def hostWriteAt (s : State) (off n : Nat) (v : Word) : Host.Outcome State Fault Refusal :=
  if touchesCmd off then .fault .badAccess
  else match writeBytes s off (bytesOf v n) with
    | none => .fault .badValue
    | some t => .next t

end Sys2Proof.Machine
end

