-- ==== Sys2Proof/Machine/Port.lean ====
section
/-! DEFINITION. The command port and the host's accesses (30_encoding.md R90, 20_memory.md R74, R75, R78):
one access is atomic, and a write of `CMD` is one command run to completion. -/

namespace Sys2Proof.Machine

/-- A command word (R90, R95, R96): an illegal one changes nothing but `STAT`, a legal one is executed. -/
def command (w : Word) (s : State) : Host.Outcome State Fault Refusal :=
  match decode w with
  | .error _ => .next (s.raise .illegal w.high.toNat)
  | .ok i => exec i s

/-- One access of the host (R74). -/
def access (a : HostAccess) (s : State) : Host.Outcome State Fault Refusal :=
  match a with
  | .read off n =>
    if accessOk off.toNat n then .next (hostReadAt s off.toNat n) else .fault .badAccess
  | .write off n v =>
    if accessOk off.toNat n = false then .fault .badAccess
    else if off = 0 ∧ n = 4 then command v s
    else hostWriteAt s off.toNat n v

/-- The block idles while the host makes no access; otherwise the oldest pending access is performed
(log 1). -/
def runNext (s : State) : Host.Outcome State Fault Refusal :=
  match s.host with
  | [] => .next s
  | a :: rest => access a { s with host := rest }

/-- The host is about to write the command word `w` to `CMD`. -/
def State.pushCommand (s : State) (w : Word) : State := { s with host := .write 0 4 w :: s.host }

end Sys2Proof.Machine
end

