-- ==== Sys2Proof/Safety.lean ====
section
/-! DEFINITION. The terms that claims use: the meaning of a command in any model instance, the invariants
of the memory and of the scheduler, and the spec's own wording of functions that the machine computes in
another form (41_trellis_engine.md R122, 40_crc_unit.md R112, 43_interleaver_mapper.md R165). -/

namespace Sys2Proof.Machine

/-! ### Outcomes -/

/-- The `STAT` of a command that completed (60_exceptions.md R300). -/
def Stat.ok : Stat := { code := 0, aux := 0 }

/-- The `STAT` an error leaves (R300). -/
def Stat.error (e : ErrCode) (info : Nat) : Stat := { code := e.code, aux := BitVec.ofNat 16 info }

/-- The body of a command in the instance `P`. `exec` is this in the instance `Config.inst`. -/
def bodyIn (P : Params) (i : Instr) (s : State) : Cmd :=
  match i with
  | .crcGen crcsel n => crcGenBody crcsel n.toNat s
  | .crcChk crcsel n => crcChkBody crcsel n.toNat s
  | .uappPar => uappParBody s
  | .uappZero n => uappZeroBody n.toNat s
  | .parLd r n => parLdBody r.toNat n.toNat s
  | .convEnc codesel => convEncBody P codesel s
  | .convDec codesel kd => convDecBody P codesel kd.toNat s
  | .punc puncsel => puncBody P puncsel s
  | .depunc puncsel => depuncBody P puncsel s
  | .intlv isel => intlvBody isel s
  | .deintlv isel => deintlvBody isel s
  | .map nb => mapBody (nbOf nb) s
  | .unmap nb => unmapBody (nbOf nb) s
  | .hSet nb pattern => hSetBody (nbOf nb) pattern.toNat s
  | .unpack order n => unpackBody order n.toNat s
  | .pack order n => packBody order n.toNat s
  | .matchPat tsel => matchBody P tsel s
  | .xcchEnc => xcchEncBody s
  | .xcchDec => xcchDecBody P s
  | .rachEnc bsic => rachEncBody bsic s
  | .rachDec bsic => rachDecBody P bsic s
  | .schEnc => schEncBody s
  | .schDec => schDecBody P s
  | .pdtchEnc => pdtchEncBody s
  | .pdtchDec => pdtchDecBody P s
  | .amrCfg => amrCfgBody s
  | .tchfrEnc speech => tchfrEncBody P speech s
  | .tchfrDec speech => tchfrDecBody P speech s
  | .tchafsEnc phase => tchafsEncBody P phase s
  | .tchafsDec phase => tchafsDecBody P phase s
  | .schedInit => schedInitBody s
  | .setPchan tn pchan tsc => setPchanBody P tn pchan tsc s
  | .chAct tn ch linksel => chActBody P tn ch linksel s
  | .chDeact tn ch linksel => chDeactBody tn ch linksel s
  | .setMode tn ch => setModeBody tn ch s
  | .setCipher tn ch dir => setCipherBody tn ch dir s
  | .pduEnq tn ch aux => pduEnqBody P tn ch aux s
  | .setAtt tn att => setAttBody tn att s
  | .tick fn => tickBody P fn s
  | .rxBurst => rxBurstBody P s
  | .setBsic bsic => setBsicBody bsic s

/-- The meaning of a command in the instance `P`. -/
def execIn (P : Params) (i : Instr) (s : State) : Host.Outcome State Fault Refusal :=
  (bodyIn P i s).finish

/-! ### Invariants -/

/-- The memory keeps its canonical form (10_state.md R50, R51): lengths and contents within the
capacities, one form for one content, and every free value numbered. -/
def State.MemInv (s : State) : Prop := s.mem.wf s.free = true

/-- A channel state that the commands can build: received bursts only in an allocated buffer (10_state.md R33,
R270), `DL_MOD` 0 (47_scheduler.md R275), frame numbers below `HYPER` (R21) and codec lists of at most eight
modes (R37). The sizes of the two buffers are the model's choice (DESIGN CHOICE, log 19): 928 elements
uplink exactly while `UL_ALLOC` is set, the `116*nb_dl` elements that R34 calls used exactly while `DL_ALLOC`
is set, and the empty list otherwise. -/
def ChanState.wf (ch : Chan) (x : ChanState) : Bool :=
  decide (x.ulBuf.length = if x.ulAlloc then 928 else 0) &&
  decide (x.ulMask = 0 ∨ x.ulAlloc = true) &&
  decide (x.dlBuf.length = if x.dlAlloc then 116 * nbDl ch else 0) &&
  !x.dlMod &&
  decide (x.ulFirstFn.toNat < HYPER ∧ x.lastFn.toNat < HYPER) &&
  decide (x.modeP.amrN.toNat ≤ 8 ∧ x.modeUl.amrN.toNat ≤ 8 ∧ x.modeDl.amrN.toNat ≤ 8)

/-- A queue that the commands can build (10_state.md R44): at most `QDEPTH` elements of at most 64
bytes. -/
def queueWf (P : Params) (q : List QElem) : Bool :=
  decide (q.length ≤ P.qdepth) && q.all fun x => decide (x.bytes.length ≤ 64)

/-- The scheduler state that the commands can build in the instance `P`: `FN` below `HYPER` (R21), `WAMR.N`
at most 8 (R26), every configuration code legal (R43), every channel state and every queue of its
shape. -/
structure State.SchedInv (P : Params) (s : State) : Prop where
  fn : s.fn.toNat < HYPER
  wamr : s.wamr.n.toNat ≤ 8
  pchan : ∀ tn : Tn, (s.ts.get tn).pchan = 0 ∨ (s.ts.get tn).pchan.toNat < npchan P
  chan : ∀ (tn : Tn) (ch : Chan), (s.chan tn ch).wf ch = true
  queue : ∀ (tn : Tn) (ch : Chan), queueWf P (s.queue tn ch) = true

/-! ### The spec's wording -/

/-- `r[k-j]` of a register sequence, 0 before its beginning (41_trellis_engine.md R122). -/
def past (r : Nat → Bool) (k j : Nat) : Bool := if j ≤ k then r (k - j) else false

/-- The exclusive or, over the delays `taps`, of the register sequence at step `k` (R122). -/
def tapsAt (taps : List Nat) (r : Nat → Bool) (k : Nat) : Bool :=
  taps.foldl (fun acc j => acc ^^ past r k j) false

/-- R122 word for word: `out` is the encoding of `u` by the register sequence `r`. -/
structure EncodesBy (c : Code) (u out : List UBit) (r : Nat → Bool) : Prop where
  input : ∀ k, k < u.length → r k = (u.getD k false ^^ tapsAt (c.fb.filter fun j => j ≠ 0) r k)
  flush : ∀ k, u.length ≤ k → r k = false
  length : out.length = c.n * c.steps u.length
  output : ∀ k i, k < c.steps u.length → i < c.n →
    out[c.n * k + i]? = some (tapsAt (c.gens.getD i []) r k)

/-- Position by position exclusive or of two vectors (R123 (b)). -/
def xorBits (x y : List UBit) : List UBit := List.zipWith (· ^^ ·) x y

/-- The vectors have one length and differ in exactly position `j` (40_crc_unit.md R112 (b)). -/
def DifferAt (j : Nat) (x y : List UBit) : Prop := j < x.length ∧ y = x.set j (!x.getD j false)

/-- A soft vector of full confidence, `soft(v)` element by element (00_scope.md R10). -/
def softAll (v : List UBit) : List SBit := v.map SBit.soft

/-- The result of the matcher in the words of 43_interleaver_mapper.md R165: the smallest index that
attains the minimum of the distances, and that minimum. -/
structure NearestIs (dists : List Nat) (m : Nat × Nat) : Prop where
  attained : dists[m.1]? = some m.2
  least : ∀ d ∈ dists, m.2 ≤ d
  first : ∀ i d, i < m.1 → dists[i]? = some d → m.2 < d

/-- `E` of a payload with coded bits `c`, flags `h` and interleaver `isel`: the last stages of every block
encoder (44_codec_control.md R176, 45_codec_pdtch.md R204, 46_codec_tch.md R226). -/
def blockBursts (isel : ISel) (c h : List UBit) : List UBit :=
  mapBlock (nbiOf isel) (interleave isel c) h

/-- The indications that `RX.BURST` accepts (47_scheduler.md R270 (1)): frame number in range, 148
positions, two-level. -/
def RxInd.Accepted (r : RxInd) : Prop :=
  r.fn.toNat < HYPER ∧ r.nbits.toNat = 148 ∧ r.eightLevel = false

/-- Bit `j` of the bytes in a bit order (20_memory.md R72). -/
def bitAt : BitOrder → List Byte → Nat → UBit
  | .lsb, bytes, j => (bytes.getD (j / 8) 0).getLsbD (j % 8)
  | .msb, bytes, j => (bytes.getD (j / 8) 0).getLsbD (7 - j % 8)

/-- `rach_encode` on payload bits `d` (44_codec_control.md R183). -/
def rachCoded (bsic : BitVec 6) (d : List UBit) : List UBit :=
  convEnc xcchCode (infoWord d (xorBsic bsic (crcGen .crc6 d)))

/-- `sch_encode` on payload bits `d` (R190). -/
def schCoded (d : List UBit) : List UBit := convEnc xcchCode (infoWord d (crcGen .crc10 d))

/-- The 25 payload bits of the synchronisation burst of frame `fn` (47_scheduler.md R284). -/
def schBits (P : Params) (fn : Fn) (bsic : BitVec 6) : List UBit :=
  (List.range 25).map fun k => (P.schinfo fn bsic).getLsbD k

/-- The stand-alone unit and codec commands (30_encoding.md R95): opcodes 0x01 to 0x2F. -/
def isCodecCommand : Instr → Bool
  | .crcGen _ _ | .crcChk _ _ | .uappPar | .uappZero _ | .parLd _ _ | .convEnc _ | .convDec _ _
  | .punc _ | .depunc _ | .intlv _ | .deintlv _ | .map _ | .unmap _ | .hSet _ _ | .unpack _ _
  | .pack _ _ | .matchPat _ | .xcchEnc | .xcchDec | .rachEnc _ | .rachDec _ | .schEnc | .schDec
  | .pdtchEnc | .pdtchDec | .amrCfg | .tchfrEnc _ | .tchfrDec _ | .tchafsEnc _ | .tchafsDec _ => true
  | .schedInit | .setPchan _ _ _ | .chAct _ _ _ | .chDeact _ _ _ | .setMode _ _ | .setCipher _ _ _
  | .pduEnq _ _ _ | .setAtt _ _ | .tick _ | .rxBurst | .setBsic _ => false

/-- The timeslot a control command names (47_scheduler.md R290). -/
def namedSlot : Instr → Option Tn
  | .setPchan tn _ _ | .chAct tn _ _ | .chDeact tn _ _ | .setMode tn _ | .setCipher tn _ _
  | .pduEnq tn _ _ | .setAtt tn _ => some tn
  | .crcGen _ _ | .crcChk _ _ | .uappPar | .uappZero _ | .parLd _ _ | .convEnc _ | .convDec _ _
  | .punc _ | .depunc _ | .intlv _ | .deintlv _ | .map _ | .unmap _ | .hSet _ _ | .unpack _ _
  | .pack _ _ | .matchPat _ | .xcchEnc | .xcchDec | .rachEnc _ | .rachDec _ | .schEnc | .schDec
  | .pdtchEnc | .pdtchDec | .amrCfg | .tchfrEnc _ | .tchfrDec _ | .tchafsEnc _ | .tchafsDec _
  | .schedInit | .tick _ | .rxBurst | .setBsic _ => none

/-- The decoders of the channel codecs (30_encoding.md R95). -/
def isDecoder : Instr → Bool
  | .xcchDec | .rachDec _ | .schDec | .pdtchDec | .tchfrDec _ | .tchafsDec _ => true
  | .crcGen _ _ | .crcChk _ _ | .uappPar | .uappZero _ | .parLd _ _ | .convEnc _ | .convDec _ _
  | .punc _ | .depunc _ | .intlv _ | .deintlv _ | .map _ | .unmap _ | .hSet _ _ | .unpack _ _
  | .pack _ _ | .matchPat _ | .xcchEnc | .rachEnc _ | .schEnc | .pdtchEnc | .amrCfg | .tchfrEnc _
  | .tchafsEnc _ | .schedInit | .setPchan _ _ _ | .chAct _ _ _ | .chDeact _ _ _ | .setMode _ _
  | .setCipher _ _ _ | .pduEnq _ _ _ | .setAtt _ _ | .tick _ | .rxBurst | .setBsic _ => false

/-- The clock contract holds for `TICK fn` (47_scheduler.md R278 (1)). -/
def State.ClockOk (s : State) (fn : Fn) : Prop := s.fnValid = false ∨ fn.toNat = fnAdd s.fn.toNat 1

/-- No timeslot but `tn` is configured. -/
def State.OnlySlot (s : State) (tn : Tn) : Prop := ∀ k : Tn, k ≠ tn → (s.ts.get k).pchan = 0

/-- R279 in its own words: the ready-to-send signal of timeslot `tn` in the `TICK` of frame `fn`. -/
def rtsFor (P : Params) (fn : Fn) (s : State) (tn : Tn) : Option Event :=
  (s.layout P tn).bind fun l =>
    let fr := fnAdd fn.toNat P.rtsAdvance
    if (l.slot fr).dlBid = 0 ∧ dlFamily (l.slot fr).dlChan ∈ [.xcch, .pdtch, .tch] ∧
        s.isActive tn (l.slot fr).dlChan = true then
      some (.rtsInd tn (l.slot fr).dlChan (toFn fr))
    else none

/-- The event is a ready-to-send signal. -/
def Event.isRts : Event → Bool
  | .rtsInd _ _ _ => true
  | .txReq _ _ _ _ | .dataInd _ _ _ _ _ _ _ _ _ _ | .log _ _ _ _ | .modeInd _ _ _ _ => false

/-- R283 position by position, from the burst payload `e` and the training sequence `t`. -/
def burstOf (e t : List UBit) : List UBit :=
  [false, false, false] ++ e.take 58 ++ t ++ e.drop 58 ++ [false, false, false]

/-- An indication that `RX.BURST` routes to burst `bid` of channel `ch` in the instance `P` (R270 (1) to
(3)). -/
structure State.RoutedTo (P : Params) (s : State) (l : Layout) (ch : Chan) (bid : Fin 8) : Prop where
  accepted : s.rxind.Accepted
  layout : s.layout P s.rxind.slot = some l
  chan : (l.slot s.rxind.fn.toNat).ulChan = ch
  bid : (l.slot s.rxind.fn.toNat).ulBid = bid

/-- The first frame of the block the indication belongs to (47_scheduler.md R252, R271). -/
def State.rxFirst (s : State) (l : Layout) : Fn := toFn (ulFirstFn l s.rxind.fn.toNat)

/-! ### Downlink block starts in the words of 47_scheduler.md R280 and R282 -/

/-- The index that the in-band indicator of an AMR speech PDU carries (46_codec_tch.md R240): in the phase of
the block's first frame `fn`, one of the two that its `aux` holds (10_state.md R44). -/
def dlIndex (P : Params) (fn : Fn) (x : QElem) : BitVec 3 :=
  if P.amrPhase fn = .cmr then x.aux.extractLsb' 3 3 else x.aux.extractLsb' 0 3

/-- The element is an AMR speech PDU for the mode (R282). -/
def isAmrSpeech (ch : Chan) (mode : Mode) (x : QElem) : Bool :=
  decide (dlFamily ch = .tch ∧ mode.tchMode = .amr ∧ x.bytes.length ≠ 23)

/-- `len_ok(ch, mode, x)` as R282 writes it out, for a block that begins in frame `fn`. -/
def PduFits (P : Params) (ch : Chan) (mode : Mode) (fn : Fn) (x : QElem) : Prop :=
  match dlFamily ch with
  | .xcch => x.bytes.length = 23
  | .pdtch => x.bytes.length ∈ [23, 34, 40, 54]
  | .tch =>
    x.bytes.length = 23 ∨ (mode.tchMode = .fr ∧ x.bytes.length = 33) ∨
    (mode.tchMode = .efr ∧ x.bytes.length = 31) ∨
    (mode.tchMode = .amr ∧ (x.aux.extractLsb' 0 3).toNat < mode.amrN.toNat ∧
      (dlIndex P fn x).toNat < mode.amrN.toNat ∧ (dlIndex P fn x).toNat < nIc P ∧
      x.bytes.length = (afsMode (listAt mode.amrList (x.aux.extractLsb' 0 3).toNat)).bytes)
  | .none | .fcch | .sch | .rach | .unsupp => False

/-- What a downlink block start has to send in frame `fn` (R280 (a), R281): the element, if any, whether
`L_BAD_PDU_LEN` is logged, and the queue it leaves. -/
inductive State.Offered (P : Params) (s : State) (tn : Tn) (ch : Chan) (fn : Fn) :
    Option QElem → Bool → List QElem → Prop
  /-- The head of the queue fits. -/
  | queued (x : QElem) (xs : List QElem) : s.queue tn ch = x :: xs →
      PduFits P ch (s.chan tn ch).modeP fn x → s.Offered P tn ch fn (some x) false xs
  /-- The queue is empty and the filler fits. -/
  | filler (x : QElem) : s.queue tn ch = [] → P.filler ch (s.chan tn ch).modeP = some x →
      PduFits P ch (s.chan tn ch).modeP fn x → s.Offered P tn ch fn (some x) false []
  /-- The queue is empty and there is no filler. -/
  | nothing : s.queue tn ch = [] → P.filler ch (s.chan tn ch).modeP = none →
      s.Offered P tn ch fn none false []
  /-- The head of the queue does not fit and the filler, which fits, is sent in its place. -/
  | replaced (x y : QElem) (xs : List QElem) : s.queue tn ch = x :: xs →
      ¬PduFits P ch (s.chan tn ch).modeP fn x → P.filler ch (s.chan tn ch).modeP = some y →
      PduFits P ch (s.chan tn ch).modeP fn y → s.Offered P tn ch fn (some y) true xs
  /-- The head of the queue does not fit and no filler does. -/
  | dropped (x : QElem) (xs : List QElem) : s.queue tn ch = x :: xs →
      ¬PduFits P ch (s.chan tn ch).modeP fn x →
      (∀ y, P.filler ch (s.chan tn ch).modeP = some y → ¬PduFits P ch (s.chan tn ch).modeP fn y) →
      s.Offered P tn ch fn none true xs
  /-- The queue is empty and the filler does not fit. -/
  | unfit (x : QElem) : s.queue tn ch = [] → P.filler ch (s.chan tn ch).modeP = some x →
      ¬PduFits P ch (s.chan tn ch).modeP fn x → s.Offered P tn ch fn none true []

/-- The burst payloads of a speech PDU (46_codec_tch.md R223 to R227). -/
def speechBlock (P : Params) (speech : Efr) (pdu : List Byte) : List UBit :=
  blockBursts .t8
    (speechCoded (speechBits P speech pdu) (crcGen .crc3 ((speechBits P speech pdu).take 50)))
    (tchFlags false)

/-- `E` after the encoder of the channel's family and mode has coded an element that fits (R282). -/
def dlBlock (P : Params) (ch : Chan) (mode : Mode) (fn : Fn) (x : QElem) : List UBit :=
  match dlFamily ch with
  | .pdtch =>
    match schemeOfLen x.bytes.length with
    | some scheme => blockBursts .x4 (packetCoded scheme x.bytes) scheme.header
    | none => []
  | .tch =>
    if x.bytes.length = 23 then blockBursts .t8 (controlCoded x.bytes) (tchFlags true)
    else
      match mode.tchMode with
      | .sign | .fr => speechBlock P .fr x.bytes
      | .efr => speechBlock P .efr x.bytes
      | .amr =>
        let m := listAt mode.amrList (x.aux.extractLsb' 0 3).toNat
        blockBursts .t8 (afsCoded P m (dlIndex P fn x).toNat (unpackMsb x.bytes (afsMode m).bits))
          (tchFlags false)
  | .xcch | .none | .fcch | .sch | .rach | .unsupp =>
    blockBursts .x4 (controlCoded x.bytes) (List.replicate 8 true)

/-- Timeslot `tn` consults the allocation oracle in `TICK fn` (R280 (a)): a block of an active channel begins
there and there is an element to send. -/
def State.Asks (P : Params) (s : State) (fn : Fn) (tn : Tn) : Prop :=
  ∃ l x bad xs, s.layout P tn = some l ∧ (l.slot fn.toNat).dlBid = 0 ∧
    dlFamily (l.slot fn.toNat).dlChan ∈ [.xcch, .pdtch, .tch] ∧
    s.isActive tn (l.slot fn.toNat).dlChan = true ∧
    s.Offered P tn (l.slot fn.toNat).dlChan fn (some x) bad xs

/-- What `TICK fn` from `s` to `t` does for timeslot `tn` and all its channels but `ch`, whatever the other
timeslots do (R278 (3) to (5)). `evs` are the events of its transmit phase, and `failed` says whether its
allocation failed. -/
structure Served (P : Params) (fn : Fn) (s t : State) (tn : Tn) (ch : Chan) (evs : List Event)
    (failed : Bool) : Prop where
  /-- The timeslot's events stand after the ready-to-send signals and the events of the lower timeslots and
  before those of the higher ones. -/
  events : ∃ below above, t.evq = s.evq ++ allTn.filterMap (rtsFor P fn s) ++ below ++ evs ++ above ∧
    (∀ e ∈ below, e.tn.val < tn.val) ∧ ∀ e ∈ above, tn.val < e.tn.val
  /-- `STAT.AUX` is the set of the failed timeslots, and `STAT.CODE` says whether there is one. -/
  status : t.stat.aux.getLsbD tn.val = failed ∧ t.stat.aux.toNat < 256 ∧
    t.stat.code = if t.stat.aux = 0 then ErrCode.none.code else ErrCode.nomem.code
  /-- No other channel of the timeslot changes. -/
  others : ∀ c : Chan, c ≠ ch → t.chan tn c = s.chan tn c ∧ t.queue tn c = s.queue tn c
  /-- With no other timeslot configured, nothing else happens. -/
  alone : s.OnlySlot tn → t.evq = s.evq ++ (rtsFor P fn s tn).toList ++ evs ∧
    t.stat = (if failed then Stat.error .nomem (2 ^ tn.val) else Stat.ok) ∧
    ∀ (k : Tn) (c : Chan), k ≠ tn → t.chan k c = s.chan k c ∧ t.queue k c = s.queue k c

/-! ### What a decoder leaves on any input, in the words of 44_codec_control.md R175 -/

/-- De-mapping and de-interleaving of a received block: `IS`, `HS`, and the coded soft bits `cs` (R178,
45_codec_pdtch.md R210, 46_codec_tch.md R228, R241). -/
structure Gathered (sel : ISel) (s t : State) (cs : List SBit) : Prop where
  positions : t.softI = unmapBits (nbiOf sel) s.softE
  flags : t.softH = unmapFlags (nbiOf sel) s.softE
  coded : cs = deinterleave sel t.softI

/-- `u = conv_dec(c, soft, kd)` with its error estimate in `r` (41_trellis_engine.md R126, R127). -/
structure Decoded (P : Params) (c : Code) (soft : List SBit) (kd : Nat) (u : List UBit) (r : Res) :
    Prop where
  word : u = convDecP P c soft kd
  nerr : r.nerr = BitVec.ofNat 16 (disagreements soft (candidateWord c soft.length u))
  nbits : r.nbits = BitVec.ofNat 16 (soft.countP fun x => decide (x.toInt ≠ 0))

/-- The end of a decoder from `s` to `t` (R175 (c)): the PDU when the parity `p` of `d` checks, otherwise
`E_BAD_BLOCK` with the selector and the old `PDU`. -/
structure Verdict (s t : State) (crcsel : CrcSel) (d p : List UBit) (pdu : List Byte) : Prop where
  good : crcChk crcsel d p = true → t.stat = Stat.ok ∧ t.pdu = pdu
  bad : crcChk crcsel d p = false →
    t.stat = Stat.error .badBlock crcsel.code.toNat ∧ t.mem.pdu = s.mem.pdu

/-- `XCCH.DEC` from its `conv_dec` step on (R179), also of a stolen traffic block (46_codec_tch.md R229) and of
packet data of scheme 1 (45_codec_pdtch.md R210). -/
structure ControlDecoded (P : Params) (s t : State) (cs : List SBit) : Prop where
  word : Decoded P xcchCode cs 224 t.u t.res
  parity : t.par = (t.u.drop 184).take 40
  verdict : Verdict s t .fire40 (t.u.take 184) t.par (packLsb (t.u.take 184))

/-- Flag detection, flag restoration and checksum of packet-data schemes 2 to 4 on the info word `u`
(45_codec_pdtch.md R208 to R210). -/
structure PacketFinished (s t : State) (scheme : Scheme) (u : List UBit) : Prop where
  flag : ∃ dist, NearestIs (scheme.flagTable.map fun p => hardDist p (u.take (scheme.offset + 3)))
    (t.res.usf.toNat, dist)
  restored : ∀ k : Nat, t.u[k]? = if scheme.offset ≤ k ∧ k < scheme.offset + 3 then
    some (t.res.usf.getLsbD (k - scheme.offset)) else u[k]?
  parity : t.par = (t.u.drop (scheme.offset + scheme.np)).take 16
  verdict : Verdict s t .crc16 ((t.u.drop scheme.offset).take scheme.np) t.par
    (packLsb ((t.u.drop scheme.offset).take scheme.np))

/-- `stolen(hs)` (46_codec_tch.md R222). -/
def StolenFlags (hs : List SBit) : Prop :=
  ([1, 3, 5, 7, 8, 10, 12, 14].map fun k => (hs.getD k SBit.zero).toInt).sum < 0

/-- A speech block of full rate or enhanced full rate (46_codec_tch.md R228, R229), with its 260 bits `d`. -/
structure SpeechDecoded (P : Params) (s t : State) (speech : Efr) (cs : List SBit) (d : List UBit) :
    Prop where
  word : Decoded P xcchCode (cs.take 378) 185 t.u t.res
  parity : t.par = (t.u.drop 91).take 3
  length : d.length = 260
  class1 : ∀ k, k < 91 → d[2 * k]? = t.u[k]? ∧ d[2 * k + 1]? = t.u[184 - k]?
  class2 : ∀ k, k < 78 → d[182 + k]? = cs[378 + k]?.map SBit.hard
  bad : crcChk .crc3 (d.take 50) t.par = false →
    t.stat = Stat.error .badBlock 4 ∧ t.mem.pdu = s.mem.pdu
  fr : crcChk .crc3 (d.take 50) t.par = true → speech = .fr → ∃ b : List UBit, b.length = 260 ∧
    (∀ k j : Nat, P.frOrder[k]? = some j → b[j]? = d[k]?) ∧ t.stat = Stat.ok ∧
    t.pdu = packMsb ([true, true, false, true] ++ b)
  efr : crcChk .crc3 (d.take 50) t.par = true → speech = .efr → ∃ w b : List UBit, w.length = 260 ∧
    (∀ k j : Nat, P.efrMap.order[k]? = some j → w[j]? = d[k]?) ∧ b.length = 244 ∧
    (∀ j, j < 244 → j ∉ P.efrMap.rep → b[j]? = w[j]?) ∧
    (∀ r j : Nat, P.efrMap.rep[r]? = some j → b[j]? = some (decide (2 ≤ (w.getD j false).toNat +
      (w.getD (244 + 2 * r) false).toNat + (w.getD (245 + 2 * r) false).toNat))) ∧
    Verdict s t .crc8 (P.efrMap.prot.map fun j => b.getD j false) ((w.drop 252).take 8)
      (packMsb ([true, true, false, false] ++ b))

/-- An AMR speech block of mode `m` whose indicator carries `idx`, from its de-punctured bits
(46_codec_tch.md R241, R242): the index carried becomes the phase's index only on a good block. -/
structure AfsDecoded (P : Params) (s t : State) (phase : Phase) (m idx : BitVec 3) (soft : List SBit) :
    Prop where
  word : Decoded P (afsCodeOf P m).1 soft ((afsMode m).bits + 6) t.u t.res
  parity : t.par = (t.u.drop (afsMode m).n1a).take 6
  verdict : Verdict s t .crc6 (t.u.take (afsMode m).n1a) t.par
    (packMsb (t.u.take (afsMode m).n1a ++ t.u.drop ((afsMode m).n1a + 6)))
  ft : t.res.ft = if phase = .cmi ∧ t.stat = Stat.ok then idx else s.wamr.ft
  cmr : t.res.cmr = if phase = .cmr ∧ t.stat = Stat.ok then idx else s.wamr.cmr

/-! ### Uplink block completion in the words of 47_scheduler.md R273 and R274 -/

/-- The decoder command that R273 names for a block of channel `ch` in mode `mode` that began in `f0`. -/
def ulCommand (P : Params) (ch : Chan) (mode : Mode) (f0 : Fn) : Instr :=
  match ulFamily ch with
  | .pdtch => .pdtchDec
  | .tch =>
    match mode.tchMode with
    | .sign | .fr => .tchfrDec .fr
    | .efr => .tchfrDec .efr
    | .amr => .tchafsDec (P.amrPhase f0)
  | .xcch | .none | .fcch | .sch | .rach | .unsupp => .xcchDec

/-- The decoder's outcome `u` is a success (R274): `E_NONE`, and on a signalling-only traffic channel a stolen
block (R273). -/
def Delivered (ch : Chan) (mode : Mode) (u : State) : Prop :=
  u.stat = Stat.ok ∧ (ulFamily ch = .tch → mode.tchMode = .sign → u.res.steal = true)

/-- The decoder's outcome `u` is an AMR speech block (R274). -/
def AmrSpeech (ch : Chan) (mode : Mode) (u : State) : Prop :=
  ulFamily ch = .tch ∧ mode.tchMode = .amr ∧ u.res.steal = false

/-! ### Rows of the data window (20_memory.md R75) -/

/-- The working buffers of hard bits. -/
inductive HardBuf where
  | par | h | u | c | i | e
  deriving DecidableEq, Repr

/-- The first offset of the buffer's row. -/
def HardBuf.base : HardBuf → Nat
  | .par => 0x00C0 | .h => 0x00F0 | .u => 0x0200 | .c => 0x0400 | .i => 0x0C00 | .e => 0x1400

/-- The elements of the buffer's row, its capacity (10_state.md R51). -/
def HardBuf.cap : HardBuf → Nat
  | .par => 40 | .h => 16 | .u => 512 | .c => 1024 | .i => 912 | .e => 928

/-- The buffer. -/
def HardBuf.of (m : Memory) : HardBuf → Buf UBit
  | .par => m.par | .h => m.h | .u => m.u | .c => m.c | .i => m.i | .e => m.e

/-- The memory with another content of the buffer. -/
def HardBuf.into (m : Memory) (x : Buf UBit) : HardBuf → Memory
  | .par => { m with par := x }
  | .h => { m with h := x }
  | .u => { m with u := x }
  | .c => { m with c := x }
  | .i => { m with i := x }
  | .e => { m with e := x }

/-- The working buffers of soft bits. -/
inductive SoftBuf where
  | hs | cs | is | es
  deriving DecidableEq, Repr

/-- The first offset of the buffer's row. -/
def SoftBuf.base : SoftBuf → Nat
  | .hs => 0x0100 | .cs => 0x0800 | .is => 0x1000 | .es => 0x1800

/-- The elements of the buffer's row, its capacity (10_state.md R51). -/
def SoftBuf.cap : SoftBuf → Nat
  | .hs => 16 | .cs => 1024 | .is => 912 | .es => 928

/-- The buffer. -/
def SoftBuf.of (m : Memory) : SoftBuf → Buf SBit
  | .hs => m.hs | .cs => m.cs | .is => m.is | .es => m.es

/-- The memory with another content of the buffer. -/
def SoftBuf.into (m : Memory) (x : Buf SBit) : SoftBuf → Memory
  | .hs => { m with hs := x }
  | .cs => { m with cs := x }
  | .is => { m with is := x }
  | .es => { m with es := x }

/-- The length register of the buffer `b` was written with `n` (10_state.md R50, 20_memory.md R76): elements below
both lengths stay, and where the length is not lowered every element does, so that what the host wrote above
the old length shows. -/
structure LenSet {α : Type} (free : Nat → Nat → α) (b b' : Buf α) (n : Nat) : Prop where
  len : b'.len = n
  kept : ∀ k, k < b.len → k < n → b'.get free k = b.get free k
  shown : b.len ≤ n → ∀ k, b'.get free k = b.get free k

/-- The rows that the host can write (R75, R76), each by its first offset and its number of bytes. -/
def writableRows : List (Nat × Nat) :=
  [(0x0000, 4), (0x0024, 20), (0x0040, 16), (0x0054, 4), (0x0080, 64), (0x00C0, 40), (0x00F0, 16),
    (0x0100, 16), (0x0200, 512), (0x0400, 1024), (0x0800, 1024), (0x0C00, 912), (0x1000, 912),
    (0x1400, 928), (0x1800, 928), (0x1C00, 16), (0x1C40, 444), (0x8000, 4)]

/-- The rows that the host can only read (R75). -/
def readOnlyRows : List (Nat × Nat) :=
  [(0x0004, 32), (0x0050, 4), (0x2000, 24), (0x2040, 444), (0x4000, 32), (0x8004, 72), (0x8050, 36),
    (0x8400, 928), (0x8800, 928)]

/-- The offset lies in a row of the list. -/
def inRows (rows : List (Nat × Nat)) (off : Nat) : Prop := ∃ r ∈ rows, r.1 ≤ off ∧ off < r.1 + r.2

/-- The offset of element or byte `k` of the row at `base` lies at byte `j` of a 4-byte access at `off`. -/
def ByteOfRow (off : BitVec 16) (j base k : Nat) : Prop := j < 4 ∧ off.toNat + j = base + k

end Sys2Proof.Machine
end

