-- ==== Sys2Proof/Certificates/Slice0/Obligations.lean ====
section
/-! DEFINITION. The statements about CCSB. Every statement of a command's effect gives the next state whole:
the fields a clause names hold the values it gives, and a record equation says that every other field is
that of the state before. `free` in such an equation is the model's own numbering of lost values (log 5);
no statement rests on its value. -/

open Sys2Proof Sys2Proof.Machine

/-! ### Encoding -/

/-- Decoding the word of a well-formed command gives the command back, with every operand at every value
(30_encoding.md R91, R92, R94, R98). -/
def Obligations.DecodeOfEncode : Prop :=
  ∀ i : Instr, i.WellFormed → decode (encode i) = .ok i

/-- A word that decodes is the word of the command it decodes to, and that command is well-formed: no bit
of a legal word is dropped and no illegal operand passes (R92, R93, R96). -/
def Obligations.EncodeOfDecode : Prop :=
  ∀ (w : Word) (i : Instr), decode w = .ok i → i.WellFormed ∧ encode i = w

/-- Words that the spec spells out stand for the commands it spells (R98, 47_scheduler.md R257 to R278),
and a word of each kind that R96 lists is illegal. -/
def Obligations.DecodedWords : Prop :=
  decode 0x010000B8#32 = .ok (.crcGen .fire40 184) ∧
  decode 0x48296FFF#32 = .ok (.tick 2715647) ∧
  decode 0x41020305#32 = .ok (.setPchan 2 3 5) ∧
  decode 0x42010600#32 = .ok (.chAct 1 6 .all) ∧
  decode 0x44010600#32 = .ok (.setMode 1 6) ∧
  decode 0x45010601#32 = .ok (.setCipher 1 6 .dl) ∧
  decode 0x46000D00#32 = .ok (.pduEnq 0 13 0) ∧
  decode 0x4A150000#32 = .ok (.setBsic 0x15) ∧
  decode 0x06000000#32 = .error .unknownOpcode ∧
  decode 0x03000001#32 = .error .reservedBits ∧
  decode 0x01060000#32 = .error .operand ∧
  decode 0x48297000#32 = .error .operand

/-- An illegal command changes no state except `STAT`, which becomes `E_ILLEGAL` with bits 31:16 of the
word: for words that no instance decodes, and, in every instance, for table entries and configuration
codes that the instance does not define (R96). For table entries the check is made in the meaning (log
14). -/
def Obligations.IllegalCommands : Prop :=
  (∀ (w : Word) (e : Illegal) (s : State), decode w = .error e →
    command w s = .next { s with stat := { code := 1, aux := w.high } }) ∧
  (∀ (P : Params) (e : Fin 16) (s : State), codeOf P e = none →
    execIn P (.convEnc e) s =
      .next { s with stat := { code := 1, aux := (encode (.convEnc e)).high } }) ∧
  (∀ (P : Params) (e : Fin 16) (kd : BitVec 16) (s : State), codeOf P e = none →
    execIn P (.convDec e kd) s =
      .next { s with stat := { code := 1, aux := (encode (.convDec e kd)).high } }) ∧
  (∀ (P : Params) (e : Fin 16) (s : State), maskOf P e = none →
    execIn P (.punc e) s = .next { s with stat := { code := 1, aux := (encode (.punc e)).high } } ∧
    execIn P (.depunc e) s =
      .next { s with stat := { code := 1, aux := (encode (.depunc e)).high } }) ∧
  (∀ (P : Params) (s : State), P.definesAfsIc = false →
    execIn P (.matchPat .afsic) s =
      .next { s with stat := { code := 1, aux := (encode (.matchPat .afsic)).high } }) ∧
  (∀ (P : Params) (tn : Tn) (pchan : BitVec 4) (tsc : BitVec 3) (s : State),
    pchan ≠ 0 → npchan P ≤ pchan.toNat →
    execIn P (.setPchan tn pchan tsc) s =
      .next { s with stat := { code := 1, aux := (encode (.setPchan tn pchan tsc)).high } })

/-! ### The step -/

/-- A step whose next host access is the write of a word to `CMD` runs the decoded command on the state
without that access; `withFetchWord` sets up such a step; without an access the block idles; and the
machine's commands are those of the instance `Config.inst` (R90, 20_memory.md R78; log 1, log 2). -/
def Obligations.StepRunsCommand : Prop :=
  (∀ (s : State) (rest : List HostAccess) (w : Word) (i : Instr),
    s.host = .write 0 4 w :: rest → decode w = .ok i → step s = exec i { s with host := rest }) ∧
  (∀ (s : State) (nbits w : Nat) (i : Instr), decode (BitVec.ofNat 32 (w % 2 ^ nbits)) = .ok i →
    step (s.withFetchWord nbits w) = exec i s) ∧
  (∀ s : State, s.host = [] → step s = .next s) ∧
  (∀ (i : Instr) (s : State), exec i s = execIn Config.inst i s)

/-- A command completes, with `E_NONE` or an error code of R301, or it is a `TICK` that breaks the clock
contract and is refused; no command faults (00_scope.md R14, 60_exceptions.md R301, R302, R306). -/
def Obligations.CommandOutcomes : Prop :=
  ∀ (i : Instr) (s : State),
    (∃ t, exec i s = .next t ∧ t.stat.code.toNat ≤ 9) ∨
    (∃ fn, i = .tick fn ∧ s.fnValid = true ∧ fn.toNat ≠ fnAdd s.fn.toNat 1 ∧
      exec i s = .refused .clock)

/-- Errors are precise (60_exceptions.md R300, R308, R309, 44_codec_control.md R175): a command that is no
decoder and no `TICK` or `RX.BURST` and ends with an error has changed nothing but `STAT`; a decoder that
ends with an error leaves `PDU` and its length; a decoder, in every instance, that ends with `E_LEN` has
changed nothing but `STAT`; and a decoder whose input length is wrong ends with `E_LEN` of that length. The
spec marks R308 and R309 as its own inferences from R300 and R301. -/
def Obligations.ErrorPrecision : Prop :=
  (∀ (i : Instr) (s t : State), isDecoder i = false → (∀ fn, i ≠ .tick fn) → i ≠ .rxBurst →
    exec i s = .next t → t.stat.code ≠ 0 → t = { s with stat := t.stat }) ∧
  (∀ (i : Instr) (s t : State), isDecoder i = true → exec i s = .next t → t.stat.code ≠ 0 →
    t.mem.pdu = s.mem.pdu) ∧
  (∀ (P : Params) (i : Instr) (s t : State), isDecoder i = true → execIn P i s = .next t →
    t.stat.code = ErrCode.len.code → t = { s with stat := t.stat }) ∧
  (∀ s : State, s.mem.es.len ≠ 464 →
    exec .xcchDec s = .next { s with stat := Stat.error .len s.mem.es.len } ∧
    exec .pdtchDec s = .next { s with stat := Stat.error .len s.mem.es.len }) ∧
  (∀ s : State, s.mem.es.len ≠ 928 →
    (∀ e, exec (.tchfrDec e) s = .next { s with stat := Stat.error .len s.mem.es.len }) ∧
    (∀ p, exec (.tchafsDec p) s = .next { s with stat := Stat.error .len s.mem.es.len })) ∧
  (∀ s : State, s.mem.cs.len ≠ 36 → ∀ b,
    exec (.rachDec b) s = .next { s with stat := Stat.error .len s.mem.cs.len }) ∧
  (∀ s : State, s.mem.cs.len ≠ 78 →
    exec .schDec s = .next { s with stat := Stat.error .len s.mem.cs.len })

/-! ### CRC unit -/

/-- `CRC.GEN` (40_crc_unit.md R113): the parity of the first `n` info bits, `PARLEN` the width, `U` and the
rest unchanged; `E_LEN(n)` with no other write when `n > ULEN`. `CRC.CHK` (R114): `E_LEN(n)` when `n > ULEN`
or `PARLEN` is not the width; otherwise `E_NONE` exactly when the parity agrees, else `E_BAD_BLOCK` with the
selector; nothing but `STAT` is written. -/
def Obligations.CrcGenAndCheck : Prop :=
  ∀ (c : CrcSel) (n : BitVec 16) (s : State),
    (n.toNat ≤ s.mem.u.len → ∃ t, exec (.crcGen c n) s = .next t ∧
      t.par = crcGen c (s.u.take n.toNat) ∧ t.mem.par.len = crcWidth c ∧
      t = { s with mem := { s.mem with par := t.mem.par }, free := t.free, stat := Stat.ok }) ∧
    (s.mem.u.len < n.toNat →
      exec (.crcGen c n) s = .next { s with stat := Stat.error .len n.toNat }) ∧
    (n.toNat ≤ s.mem.u.len → s.mem.par.len = crcWidth c → crcGen c (s.u.take n.toNat) = s.par →
      exec (.crcChk c n) s = .next { s with stat := Stat.ok }) ∧
    (n.toNat ≤ s.mem.u.len → s.mem.par.len = crcWidth c → crcGen c (s.u.take n.toNat) ≠ s.par →
      exec (.crcChk c n) s = .next { s with stat := Stat.error .badBlock c.code.toNat }) ∧
    (s.mem.u.len < n.toNat ∨ s.mem.par.len ≠ crcWidth c →
      exec (.crcChk c n) s = .next { s with stat := Stat.error .len n.toNat })

/-- `UAPP.PAR` appends the parity to the info bits (R115) and `PAR.LD` loads it from them (R117); each ends
with `E_LEN` of the length it would need, with no other write, when that is too long. -/
def Obligations.ParityMoves : Prop :=
  (∀ s : State, s.mem.u.len + s.mem.par.len ≤ 512 → ∃ t, exec .uappPar s = .next t ∧
    t.u = s.u ++ s.par ∧ t.mem.u.len = s.mem.u.len + s.mem.par.len ∧
    t = { s with mem := { s.mem with u := t.mem.u }, free := t.free, stat := Stat.ok }) ∧
  (∀ s : State, 512 < s.mem.u.len + s.mem.par.len →
    exec .uappPar s = .next { s with stat := Stat.error .len (s.mem.u.len + s.mem.par.len) }) ∧
  (∀ (r : Byte) (n : BitVec 16) (s : State), n.toNat + r.toNat ≤ s.mem.u.len →
    ∃ t, exec (.parLd r n) s = .next t ∧ t.mem.par.len = r.toNat ∧
      (∀ k, k < r.toNat → t.par[k]? = s.u[n.toNat + k]?) ∧
      t = { s with mem := { s.mem with par := t.mem.par }, free := t.free, stat := Stat.ok }) ∧
  (∀ (r : Byte) (n : BitVec 16) (s : State), s.mem.u.len < n.toNat + r.toNat →
    exec (.parLd r n) s = .next { s with stat := Stat.error .len (n.toNat + r.toNat) })

/-- `UAPP.ZERO 0, n` (R116): its word, the `n` zeros it appends, `E_LEN` of the length when that exceeds
512, and `E_ILLEGAL` for `a != 0`. -/
def Obligations.UappZeroAppends : Prop :=
  (∀ n : BitVec 16, encode (.uappZero n) = (0x04#8 ++ 0#8) ++ n) ∧
  (∀ (w : Word) (s : State), w.op = 0x04 → w.a ≠ 0 →
    command w s = .next { s with stat := { code := 1, aux := w.high } }) ∧
  (∀ (n : BitVec 16) (s : State), s.mem.u.len + n.toNat ≤ 512 → ∃ t, exec (.uappZero n) s = .next t ∧
    t.u = s.u ++ List.replicate n.toNat false ∧ t.mem.u.len = s.mem.u.len + n.toNat ∧
    t = { s with mem := { s.mem with u := t.mem.u }, free := t.free, stat := Stat.ok }) ∧
  (∀ (n : BitVec 16) (s : State), 512 < s.mem.u.len + n.toNat → ∃ t, exec (.uappZero n) s = .next t ∧
    t = { s with stat := t.stat } ∧ t.stat.code = ErrCode.len.code ∧
    (s.mem.u.len + n.toNat < 65536 → t.stat.aux.toNat = s.mem.u.len + n.toNat))

/-- The laws of the checksum function for every configuration (R112): (a) what is generated checks; (b) a
difference in exactly one position, of the message or of the parity, is detected; (c), (d) the parity of
the empty and of an all-zero message is the remainder pattern. The spec marks clause (b) as its own
inference from R110. -/
def Obligations.CrcLaws : Prop :=
  (∀ (c : CrcSel) (d : List UBit), crcChk c d (crcGen c d) = true) ∧
  (∀ (c : CrcSel) (d d' p : List UBit) (j : Nat), crcChk c d p = true → DifferAt j d d' →
    crcChk c d' p = false) ∧
  (∀ (c : CrcSel) (d p p' : List UBit) (j : Nat), crcChk c d p = true → DifferAt j p p' →
    crcChk c d p' = false) ∧
  (∀ c : CrcSel, crcGen c [] = List.replicate (crcWidth c) (crcRem c)) ∧
  (∀ (c : CrcSel) (k : Nat),
    crcGen c (List.replicate k false) = List.replicate (crcWidth c) (crcRem c))

/-! ### Trellis engine -/

/-- R122: `conv_enc` is the encoding by the register sequence the rule defines, for every code of R120 and
every input; for a non-recursive code the register is the input; the exclusive or over `fb` is the
systematic bit; and for `XCCH` the two formulas the rule gives. -/
def Obligations.EncoderRule : Prop :=
  (∀ (c : Code) (u : List UBit), c.wf = true → ∃ r, EncodesBy c u (convEnc c u) r ∧
    (c.fb = [0] → ∀ k, k < u.length → r k = u.getD k false) ∧
    (∀ k, k < u.length → tapsAt c.fb r k = u.getD k false)) ∧
  (∀ (u : List UBit) (k : Nat), k < u.length →
    (convEnc xcchCode u)[2 * k]? = some
      ((u.getD k false ^^ past (fun j => u.getD j false) k 3) ^^ past (fun j => u.getD j false) k 4) ∧
    (convEnc xcchCode u)[2 * k + 1]? = some
      (((u.getD k false ^^ past (fun j => u.getD j false) k 1) ^^
        past (fun j => u.getD j false) k 3) ^^ past (fun j => u.getD j false) k 4))

/-- The laws of the encoder (R123): (a) length, (b) linearity, (c) injectivity when some generator
contains 0, (d) four zeros return the `XCCH` register to zero, (e) zeros give zeros, (f) the minimum
weight of `XCCH` with its tail is 7, attained by `[1]`. The spec marks (c) and (f) as its own inferences
from R122. -/
def Obligations.EncoderLaws : Prop :=
  (∀ (c : Code) (u : List UBit), (convEnc c u).length = c.n * c.steps u.length) ∧
  (∀ (c : Code) (u v : List UBit), c.wf = true → u.length = v.length →
    convEnc c (xorBits u v) = xorBits (convEnc c u) (convEnc c v)) ∧
  (∀ (c : Code) (u v : List UBit), c.wf = true → (∃ g ∈ c.gens, 0 ∈ g) → u.length = v.length →
    convEnc c u = convEnc c v → u = v) ∧
  (∀ u : List UBit, xcchCode.regAfter 0 (u ++ List.replicate 4 false) = 0) ∧
  (∀ (c : Code) (n : Nat), c.wf = true →
    convEnc c (List.replicate n false) = List.replicate (c.n * c.steps n) false) ∧
  (∀ u : List UBit, true ∈ u → 7 ≤ (convEnc xcchCode (u ++ List.replicate 4 false)).count true) ∧
  convEnc xcchCode ([true] ++ List.replicate 4 false) =
    [true, true, false, true, false, false, true, true, true, true]

/-- `CONV.ENC codesel` for a defined entry (R124): `C` is the encoding of `U`, `CLEN` is `N*T`, and nothing
else changes; `E_LEN(ULEN)` with no other write when that exceeds 1024. -/
def Obligations.ConvEncResult : Prop :=
  ∀ (e : Fin 16) (code : Code) (s : State), codeOf Config.inst e = some code →
    (code.n * code.steps s.mem.u.len ≤ 1024 → ∃ t, exec (.convEnc e) s = .next t ∧
      t.c = convEnc code s.u ∧ t.mem.c.len = code.n * code.steps s.mem.u.len ∧
      t = { s with mem := { s.mem with c := t.mem.c }, free := t.free, stat := Stat.ok }) ∧
    (1024 < code.n * code.steps s.mem.u.len →
      exec (.convEnc e) s = .next { s with stat := Stat.error .len s.mem.u.len })

/-- R126, for every choice among equally good candidates: the decoder returns the free bits of a candidate of
minimal cost (R125), and when exactly one candidate is minimal, that one. -/
def Obligations.DecoderMinimal : Prop :=
  ∀ (tie : Nat → Nat → Bool) (c : Code) (s : List SBit) (kd : Nat), c.wf = true →
    decodeLenOk c s.length kd = true →
    (convDec tie c s kd).length = kd ∧
    (∀ u : List UBit, u.length = kd →
      candidateCost c s (convDec tie c s kd) ≤ candidateCost c s u) ∧
    (∀ v : List UBit, v.length = kd →
      (∀ u : List UBit, u.length = kd → u ≠ v → candidateCost c s v < candidateCost c s u) →
      convDec tie c s kd = v)

/-- R129 (a) and (b), for every choice among equally good candidates: a clean codeword of an injective
code decodes to its input with `NERR` 0; and for `XCCH` with a tail of at least four zeros and full
confidence, up to three wrong signs are corrected and counted. The spec marks R129 as its own inference
from R123, R125 and R126. -/
def Obligations.DecoderCorrects : Prop :=
  (∀ (tie : Nat → Nat → Bool) (c : Code) (v : List UBit) (len kd : Nat), c.wf = true →
    (∃ g ∈ c.gens, 0 ∈ g) → decodeLenOk c len kd = true → v.length = kd →
    convDec tie c (softAll (candidateWord c len v)) kd = v ∧
    convNerr c (softAll (candidateWord c len v)) v = 0) ∧
  (∀ (tie : Nat → Nat → Bool) (v : List UBit) (s : List SBit) (kd : Nat),
    decodeLenOk xcchCode s.length kd = true → 2 * (kd + 4) ≤ s.length → v.length = kd →
    (∀ x ∈ s, x.mag = 127) → disagreements s (candidateWord xcchCode s.length v) ≤ 3 →
    convDec tie xcchCode s kd = v ∧
    convNerr xcchCode s (convDec tie xcchCode s kd) =
      disagreements s (candidateWord xcchCode s.length v))

/-- `CONV.DEC codesel, kd` for a defined entry (R127, R128): `U` is the decoder's answer, `ULEN` is `kd`,
`RES.NERR` and `RES.NBITS` are the error estimate, and nothing else changes; `E_LEN(CSLEN)` with no other
write when the length condition of R125 fails. -/
def Obligations.ConvDecResult : Prop :=
  ∀ (e : Fin 16) (code : Code) (kd : BitVec 16) (s : State), codeOf Config.inst e = some code →
    (decodeLenOk code s.mem.cs.len kd.toNat = true → ∃ t, exec (.convDec e kd) s = .next t ∧
      t.u = convDecP Config.inst code s.softC kd.toNat ∧ t.mem.u.len = kd.toNat ∧
      t = { s with
        mem := { s.mem with u := t.mem.u }, free := t.free, stat := Stat.ok
        res := { s.res with
          nerr := BitVec.ofNat 16 (disagreements s.softC (candidateWord code s.mem.cs.len t.u))
          nbits := BitVec.ofNat 16 (s.softC.countP fun x => decide (x.toInt ≠ 0)) } }) ∧
    (decodeLenOk code s.mem.cs.len kd.toNat = false →
      exec (.convDec e kd) s = .next { s with stat := Stat.error .len s.mem.cs.len })

/-! ### Puncture unit -/

/-- The laws of the puncture unit (42_puncture_unit.md R142): (a), (b) for every mask, (c) the injectivity
of `XCCH` under `CS2` and `CS3` with its tail of four zeros. The spec marks (c) as its own inference from
R141 and R122. -/
def Obligations.PunctureLaws : Prop :=
  (∀ (m : Mask) (s : List SBit), s.length = m.kept → punct m (depunct m s) = s) ∧
  (∀ (m : Mask) (c : List UBit), c.length = m.full → ∀ (j : Nat) (k : Bool), m.keep[j]? = some k →
    (depunct m (softAll (punct m c)))[j]? =
      some (if k then SBit.soft (c.getD j false) else SBit.zero)) ∧
  (∀ u v : List UBit, u.length = 290 → v.length = 290 →
    punct cs2Mask (convEnc xcchCode (u ++ List.replicate 4 false)) =
      punct cs2Mask (convEnc xcchCode (v ++ List.replicate 4 false)) → u = v) ∧
  (∀ u v : List UBit, u.length = 334 → v.length = 334 →
    punct cs3Mask (convEnc xcchCode (u ++ List.replicate 4 false)) =
      punct cs3Mask (convEnc xcchCode (v ++ List.replicate 4 false)) → u = v)

/-- `PUNC` and `DEPUNC` for a defined mask (R143, R144, R145): the kept bits, and the erasures, in place;
`E_LEN` of the length register when it is wrong. A de-punctured result of more than 1024 elements ends with
`E_LEN` of its length, in every instance that has such a mask: that clause is the model's reading of
60_exceptions.md R301 (log 21). -/
def Obligations.PuncDepuncResult : Prop :=
  (∀ (e : Fin 16) (m : Mask) (s : State), maskOf Config.inst e = some m →
    (s.mem.c.len = m.full → ∃ t, exec (.punc e) s = .next t ∧
      t.c = punct m s.c ∧ t.mem.c.len = m.kept ∧
      t = { s with mem := { s.mem with c := t.mem.c }, free := t.free, stat := Stat.ok }) ∧
    (s.mem.c.len ≠ m.full →
      exec (.punc e) s = .next { s with stat := Stat.error .len s.mem.c.len }) ∧
    (s.mem.cs.len = m.kept → m.full ≤ 1024 → ∃ t, exec (.depunc e) s = .next t ∧
      t.softC = depunct m s.softC ∧ t.mem.cs.len = m.full ∧
      t = { s with mem := { s.mem with cs := t.mem.cs }, free := t.free, stat := Stat.ok }) ∧
    (s.mem.cs.len ≠ m.kept →
      exec (.depunc e) s = .next { s with stat := Stat.error .len s.mem.cs.len })) ∧
  (∀ (P : Params) (e : Fin 16) (m : Mask) (s : State), maskOf P e = some m → s.mem.cs.len = m.kept →
    1024 < m.full → execIn P (.depunc e) s = .next { s with stat := Stat.error .len m.full })

/-! ### Interleaver, mapper, packer, matcher -/

/-- The laws of the interleaver maps (43_interleaver_mapper.md R152): (a) `X4` is a bijection onto the
pairs of a burst 0..3 and a position 0..113; (b) `T8` is injective, and its image is the even positions of
bursts 0 to 3 and the odd ones of bursts 4 to 7; (c) de-interleaving undoes interleaving. The spec marks
R152 as its own inference from R150. -/
def Obligations.InterleaverLaws : Prop :=
  (∀ k, k < 456 → ilvPos k < 114) ∧
  (∀ b j, b < 4 → j < 114 → ∃ k, k < 456 ∧ k % 4 = b ∧ ilvPos k = j ∧
    ∀ k', k' < 456 → k' % 4 = b → ilvPos k' = j → k' = k) ∧
  (∀ k k', k < 456 → k' < 456 → k % 8 = k' % 8 → ilvPos k = ilvPos k' → k = k') ∧
  (∀ b j, b < 8 → j < 114 → ((∃ k, k < 456 ∧ k % 8 = b ∧ ilvPos k = j) ↔
    (if b < 4 then j % 2 = 0 else j % 2 = 1))) ∧
  (∀ (sel : ISel) (c : List UBit), c.length = 456 →
    deinterleave sel (softAll (interleave sel c)) = softAll c)

/-- `INTLV` and `DEINTLV` element by element (R150, R153, R154): coded bit `k` goes to, and comes from,
position `114*B(k) + j(k)`, and every other position of the block is 0; `E_LEN` of the length register when
it is wrong. -/
def Obligations.InterleaveResult : Prop :=
  (∀ (sel : ISel) (s : State), s.mem.c.len = 456 → ∃ t, exec (.intlv sel) s = .next t ∧
    t.mem.i.len = 114 * nbiOf sel ∧
    (∀ k, k < 456 → t.i[114 * (k % nbiOf sel) + ilvPos k]? = s.c[k]?) ∧
    (∀ p, p < 114 * nbiOf sel → (∀ k, k < 456 → 114 * (k % nbiOf sel) + ilvPos k ≠ p) →
      t.i[p]? = some false) ∧
    t = { s with mem := { s.mem with i := t.mem.i }, free := t.free, stat := Stat.ok }) ∧
  (∀ (sel : ISel) (s : State), s.mem.c.len ≠ 456 →
    exec (.intlv sel) s = .next { s with stat := Stat.error .len s.mem.c.len }) ∧
  (∀ (sel : ISel) (s : State), s.mem.is.len = 114 * nbiOf sel →
    ∃ t, exec (.deintlv sel) s = .next t ∧ t.mem.cs.len = 456 ∧
    (∀ k, k < 456 → t.softC[k]? = s.softI[114 * (k % nbiOf sel) + ilvPos k]?) ∧
    t = { s with mem := { s.mem with cs := t.mem.cs }, free := t.free, stat := Stat.ok }) ∧
  (∀ (sel : ISel) (s : State), s.mem.is.len ≠ 114 * nbiOf sel →
    exec (.deintlv sel) s = .next { s with stat := Stat.error .len s.mem.is.len })

/-- `MAP`, `UNMAP` and `H.SET` element by element (R155 to R158), with the law of R157 that splitting a
mapped block returns what was mapped. -/
def Obligations.MapperResult : Prop :=
  (∀ (nb : NBursts) (s : State), s.mem.i.len = 114 * nbOf nb → s.mem.h.len = 2 * nbOf nb →
    ∃ t, exec (.map nb) s = .next t ∧ t.mem.e.len = 116 * nbOf nb ∧
    (∀ b, b < nbOf nb →
      (∀ k, k < 57 → t.e[116 * b + k]? = s.i[114 * b + k]? ∧
        t.e[116 * b + 59 + k]? = s.i[114 * b + 57 + k]?) ∧
      t.e[116 * b + 57]? = s.h[2 * b]? ∧ t.e[116 * b + 58]? = s.h[2 * b + 1]?) ∧
    t = { s with mem := { s.mem with e := t.mem.e }, free := t.free, stat := Stat.ok }) ∧
  (∀ (nb : NBursts) (s : State), s.mem.i.len ≠ 114 * nbOf nb ∨ s.mem.h.len ≠ 2 * nbOf nb →
    exec (.map nb) s = .next { s with stat := Stat.error .len s.mem.i.len }) ∧
  (∀ (nb : NBursts) (s : State), s.mem.es.len = 116 * nbOf nb →
    ∃ t, exec (.unmap nb) s = .next t ∧ t.mem.is.len = 114 * nbOf nb ∧ t.mem.hs.len = 2 * nbOf nb ∧
    (∀ b, b < nbOf nb →
      (∀ k, k < 57 → t.softI[114 * b + k]? = s.softE[116 * b + k]? ∧
        t.softI[114 * b + 57 + k]? = s.softE[116 * b + 59 + k]?) ∧
      t.softH[2 * b]? = s.softE[116 * b + 57]? ∧ t.softH[2 * b + 1]? = s.softE[116 * b + 58]?) ∧
    t = { s with
      mem := { s.mem with is := t.mem.is, hs := t.mem.hs }, free := t.free, stat := Stat.ok }) ∧
  (∀ (nb : NBursts) (s : State), s.mem.es.len ≠ 116 * nbOf nb →
    exec (.unmap nb) s = .next { s with stat := Stat.error .len s.mem.es.len }) ∧
  (∀ (nb : NBursts) (pattern : BitVec 16) (s : State), ∃ t, exec (.hSet nb pattern) s = .next t ∧
    t.mem.h.len = 2 * nbOf nb ∧
    (∀ k, k < 2 * nbOf nb → t.h[k]? = some (pattern.getLsbD k)) ∧
    t = { s with mem := { s.mem with h := t.mem.h }, free := t.free, stat := Stat.ok }) ∧
  (∀ (nb : Nat) (i h : List UBit), i.length = 114 * nb → h.length = 2 * nb →
    unmapBits nb (softAll (mapBlock nb i h)) = softAll i ∧
    unmapFlags nb (softAll (mapBlock nb i h)) = softAll h)

/-- `UNPACK` and `PACK` bit by bit in both orders (20_memory.md R72, 43_interleaver_mapper.md R160, R161),
with the law of R161: `PACK` after `UNPACK` restores the first `n` bits and zeroes the rest of the last
byte. -/
def Obligations.UnpackPackResult : Prop :=
  (∀ (o : BitOrder) (n : BitVec 16) (s : State), n.toNat ≤ 8 * s.mem.pdu.len →
    ∃ t, exec (.unpack o n) s = .next t ∧ t.mem.u.len = n.toNat ∧
    (∀ j, j < n.toNat → t.u[j]? = some (bitAt o s.pdu j)) ∧
    t = { s with mem := { s.mem with u := t.mem.u }, free := t.free, stat := Stat.ok }) ∧
  (∀ (o : BitOrder) (n : BitVec 16) (s : State), 8 * s.mem.pdu.len < n.toNat →
    exec (.unpack o n) s = .next { s with stat := Stat.error .len n.toNat }) ∧
  (∀ (o : BitOrder) (n : BitVec 16) (s : State), n.toNat ≤ s.mem.u.len →
    ∃ t, exec (.pack o n) s = .next t ∧ t.mem.pdu.len = (n.toNat + 7) / 8 ∧
    (∀ j, j < 8 * ((n.toNat + 7) / 8) →
      bitAt o t.pdu j = if j < n.toNat then s.u.getD j false else false) ∧
    t = { s with mem := { s.mem with pdu := t.mem.pdu }, free := t.free, stat := Stat.ok }) ∧
  (∀ (o : BitOrder) (n : BitVec 16) (s : State), s.mem.u.len < n.toNat →
    exec (.pack o n) s = .next { s with stat := Stat.error .len n.toNat }) ∧
  (∀ (o : BitOrder) (n : BitVec 16) (s : State), n.toNat ≤ 8 * s.mem.pdu.len →
    ∃ t t', exec (.unpack o n) s = .next t ∧ exec (.pack o n) t = .next t' ∧
    t'.mem.pdu.len = (n.toNat + 7) / 8 ∧
    ∀ j, j < 8 * ((n.toNat + 7) / 8) →
      bitAt o t'.pdu j = if j < n.toNat then bitAt o s.pdu j else false)

/-- R165 for every table and observation: the soft and the hard distance are the sums the rule gives, each
soft term is at most 254, and the matcher answers the smallest index that attains the minimum, with that
minimum. -/
def Obligations.MatcherRule : Prop :=
  (∀ (p : List UBit) (x : List SBit), p.length = x.length →
    softDist p x = ((List.range p.length).map fun k =>
      ((SBit.soft (p.getD k false)).toInt - (x.getD k SBit.zero).toInt).natAbs).sum) ∧
  (∀ (b : UBit) (x : SBit), ((SBit.soft b).toInt - x.toInt).natAbs ≤ 254) ∧
  (∀ p x : List UBit, p.length = x.length →
    hardDist p x = (List.range p.length).countP fun k => p.getD k false != x.getD k false) ∧
  (∀ (table : List (List UBit)) (x : List SBit), table ≠ [] →
    NearestIs (table.map fun p => softDist p x) (matchSoft table x)) ∧
  (∀ (table : List (List UBit)) (x : List UBit), table ≠ [] →
    NearestIs (table.map fun p => hardDist p x) (matchHard table x))

/-- `MATCH tsel` (R166, R168): `RES.IDX` and `RES.DIST` are the matcher's answer on the observation the table
names, and nothing else changes; `E_LEN(tsel)` when the length register is short; `T_AFSIC` in every instance
that defines it. -/
def Obligations.MatchResult : Prop :=
  (∀ s : State, 8 ≤ s.mem.hs.len → exec (.matchPat .cs) s = .next { s with
    res := { s.res with
      idx := BitVec.ofNat 8 (matchSoft tCs (s.softH.take 8)).1
      dist := BitVec.ofNat 16 (matchSoft tCs (s.softH.take 8)).2 }
    stat := Stat.ok }) ∧
  (∀ s : State, 6 ≤ s.mem.u.len → exec (.matchPat .usf6) s = .next { s with
    res := { s.res with
      idx := BitVec.ofNat 8 (matchHard tUsf6 (s.u.take 6)).1
      dist := BitVec.ofNat 16 (matchHard tUsf6 (s.u.take 6)).2 }
    stat := Stat.ok }) ∧
  (∀ s : State, 12 ≤ s.mem.u.len → exec (.matchPat .usf12) s = .next { s with
    res := { s.res with
      idx := BitVec.ofNat 8 (matchHard tUsf12 (s.u.take 12)).1
      dist := BitVec.ofNat 16 (matchHard tUsf12 (s.u.take 12)).2 }
    stat := Stat.ok }) ∧
  (∀ (P : Params) (s : State), P.definesAfsIc = true → wIc P ≤ s.mem.cs.len →
    execIn P (.matchPat .afsic) s = .next { s with
      res := { s.res with
        idx := BitVec.ofNat 8 (matchSoft P.afsIc.rows (s.softC.take (wIc P))).1
        dist := BitVec.ofNat 16 (matchSoft P.afsIc.rows (s.softC.take (wIc P))).2 }
      stat := Stat.ok }) ∧
  (∀ s : State, s.mem.hs.len < 8 →
    exec (.matchPat .cs) s = .next { s with stat := Stat.error .len 0 }) ∧
  (∀ s : State, s.mem.u.len < 6 →
    exec (.matchPat .usf6) s = .next { s with stat := Stat.error .len 1 }) ∧
  (∀ s : State, s.mem.u.len < 12 →
    exec (.matchPat .usf12) s = .next { s with stat := Stat.error .len 2 }) ∧
  (∀ (P : Params) (s : State), P.definesAfsIc = true → s.mem.cs.len < wIc P →
    execIn P (.matchPat .afsic) s = .next { s with stat := Stat.error .len 3 })

/-! ### Codecs -/

/-- `XCCH.ENC`, `RACH.ENC` and `SCH.ENC` (44_codec_control.md R177, R184, R191): every buffer the rule names,
with the length its content has, and nothing else; `E_PDU_LEN(PDULEN)` with no other write for a length the
family does not accept. -/
def Obligations.ControlEncoders : Prop :=
  (∀ s : State, s.mem.pdu.len = 23 → ∃ t, exec .xcchEnc s = .next t ∧
    t.par = crcGen .fire40 (unpackLsb s.pdu 184) ∧
    t.u = unpackLsb s.pdu 184 ++ t.par ++ List.replicate 4 false ∧
    t.c = convEnc xcchCode t.u ∧ t.i = interleave .x4 t.c ∧ t.h = List.replicate 8 true ∧
    t.e = mapBlock 4 t.i t.h ∧
    t = { s with
      mem := { s.mem with
        u := t.mem.u, par := t.mem.par, c := t.mem.c, i := t.mem.i, h := t.mem.h, e := t.mem.e }
      free := t.free, stat := Stat.ok }) ∧
  (∀ s : State, s.mem.pdu.len ≠ 23 →
    exec .xcchEnc s = .next { s with stat := Stat.error .pduLen s.mem.pdu.len }) ∧
  (∀ (bsic : BitVec 6) (s : State), s.mem.pdu.len = 1 → ∃ t, exec (.rachEnc bsic) s = .next t ∧
    t.mem.par.len = 6 ∧
    (∀ k, k < 6 → t.par[k]? =
      some ((crcGen .crc6 (unpackLsb s.pdu 8)).getD k false ^^ bsic.getLsbD (5 - k))) ∧
    t.u = unpackLsb s.pdu 8 ++ t.par ++ List.replicate 4 false ∧ t.c = convEnc xcchCode t.u ∧
    t = { s with
      mem := { s.mem with u := t.mem.u, par := t.mem.par, c := t.mem.c }
      free := t.free, stat := Stat.ok }) ∧
  (∀ (bsic : BitVec 6) (s : State), s.mem.pdu.len ≠ 1 →
    exec (.rachEnc bsic) s = .next { s with stat := Stat.error .pduLen s.mem.pdu.len }) ∧
  (∀ s : State, s.mem.pdu.len = 4 → ∃ t, exec .schEnc s = .next t ∧
    t.par = crcGen .crc10 (unpackLsb s.pdu 25) ∧
    t.u = unpackLsb s.pdu 25 ++ t.par ++ List.replicate 4 false ∧ t.c = convEnc xcchCode t.u ∧
    t = { s with
      mem := { s.mem with u := t.mem.u, par := t.mem.par, c := t.mem.c }
      free := t.free, stat := Stat.ok }) ∧
  (∀ s : State, s.mem.pdu.len ≠ 4 →
    exec .schEnc s = .next { s with stat := Stat.error .pduLen s.mem.pdu.len })

/-- `XCCH.DEC` (R175 (c), R178, R179, R180 (a), (b)), whatever the tie-break is. On a clean block of any
23-byte PDU, with any stealing flags, it completes with that PDU, `NERR` 0, `NBITS` 456, and the intermediate
buffers of the rule. On any 464 soft bits, erasures and errors among them, it leaves in the buffers, `PAR` and
`RES` what the rule computes from them, and the checksum decides between the PDU and `E_BAD_BLOCK(0)`. Up to
three wrong signs at full confidence are corrected and counted. Nothing else changes. The spec marks R180 as
its own inference. -/
def Obligations.XcchRoundTrip : Prop :=
  (∀ (pdu : List Byte) (h : List UBit) (s : State), pdu.length = 23 → h.length = 8 →
    s.softE = softAll (blockBursts .x4 (controlCoded pdu) h) →
    ∃ t, exec .xcchDec s = .next t ∧ t.pdu = pdu ∧
    t.softI = softAll (interleave .x4 (controlCoded pdu)) ∧ t.softH = softAll h ∧
    t.softC = softAll (controlCoded pdu) ∧
    t.u = unpackLsb pdu 184 ++ crcGen .fire40 (unpackLsb pdu 184) ∧
    t.par = crcGen .fire40 (unpackLsb pdu 184) ∧
    t = { s with
      mem := { s.mem with
        is := t.mem.is, hs := t.mem.hs, cs := t.mem.cs, u := t.mem.u, par := t.mem.par,
        pdu := t.mem.pdu }
      free := t.free, stat := Stat.ok, res := { s.res with nerr := 0, nbits := 456 } }) ∧
  (∀ s : State, s.mem.es.len = 464 → ∃ t cs, exec .xcchDec s = .next t ∧ Gathered .x4 s t cs ∧
    t.softC = cs ∧ ControlDecoded Config.inst s t cs ∧
    t = { s with
      mem := { s.mem with
        is := t.mem.is, hs := t.mem.hs, cs := t.mem.cs, u := t.mem.u, par := t.mem.par,
        pdu := t.mem.pdu }
      free := t.free, stat := t.stat
      res := { s.res with nerr := t.res.nerr, nbits := t.res.nbits } }) ∧
  (∀ (pdu : List Byte) (h : List UBit) (s : State) (flips : Nat), pdu.length = 23 → h.length = 8 →
    s.mem.es.len = 464 → (∀ x ∈ s.softE, x.mag = 127) → unmapFlags 4 s.softE = softAll h →
    flips = disagreements s.softE (blockBursts .x4 (controlCoded pdu) h) → flips ≤ 3 →
    ∃ t, exec .xcchDec s = .next t ∧ t.stat = Stat.ok ∧ t.pdu = pdu ∧ t.res.nbits = 456 ∧
    t.res.nerr = BitVec.ofNat 16 flips)

/-- The laws of the random-access codec (R187), whatever the tie-break is: (a) decoding a clean request
with the identity code it was encoded with completes with the byte (R186), and nothing but the buffers and
`RES` fields of the rule changes; (b) decoding it with any other identity code ends with `E_BAD_BLOCK(3)`
and no PDU. On any 36 soft bits, whatever the channel did to them, `RACH.DEC` leaves in `U`, `PAR` and `RES`
what R186 computes, and the checksum decides between the byte and `E_BAD_BLOCK(3)` (R175 (c)). The spec marks
(b) as its own inference from R183. -/
def Obligations.RachRoundTrip : Prop :=
  (∀ (ra : Byte) (bsic : BitVec 6) (s : State),
    s.softC = softAll (rachCoded bsic (unpackLsb [ra] 8)) →
    (∃ t, exec (.rachDec bsic) s = .next t ∧ t.pdu = [ra] ∧
      t = { s with
        mem := { s.mem with u := t.mem.u, par := t.mem.par, pdu := t.mem.pdu }
        free := t.free, stat := Stat.ok, res := { s.res with nerr := 0, nbits := 36 } }) ∧
    (∀ bsic' : BitVec 6, bsic' ≠ bsic → ∃ t, exec (.rachDec bsic') s = .next t ∧
      t = { s with
        mem := { s.mem with u := t.mem.u, par := t.mem.par }
        free := t.free, stat := Stat.error .badBlock 3
        res := { s.res with nerr := 0, nbits := 36 } })) ∧
  (∀ (bsic : BitVec 6) (s : State), s.mem.cs.len = 36 → ∃ t, exec (.rachDec bsic) s = .next t ∧
    Decoded Config.inst xcchCode s.softC 14 t.u t.res ∧ t.mem.par.len = 6 ∧
    (∀ k, k < 6 → t.par[k]? = some (t.u.getD (8 + k) false ^^ bsic.getLsbD (5 - k))) ∧
    Verdict s t .crc6 (t.u.take 8) t.par (packLsb (t.u.take 8)) ∧
    t = { s with
      mem := { s.mem with u := t.mem.u, par := t.mem.par, pdu := t.mem.pdu }
      free := t.free, stat := t.stat
      res := { s.res with nerr := t.res.nerr, nbits := t.res.nbits } })

/-- The law of the synchronisation codec (R194), whatever the tie-break is: `SCH.DEC` on the clean block
of four bytes completes with those bytes, the bits 1 to 7 of the last one cleared; nothing but the buffers
and `RES` fields of R193 changes. On any 78 soft bits, whatever the channel did to them, it leaves in `U`,
`PAR` and `RES` what R193 computes, and the checksum decides between the bytes and `E_BAD_BLOCK(2)` (R175 (c)).
The spec marks R194 as its own inference from R190 and R192. -/
def Obligations.SchRoundTrip : Prop :=
  (∀ (a b c d : Byte) (s : State), s.softC = softAll (schCoded (unpackLsb [a, b, c, d] 25)) →
    ∃ t, exec .schDec s = .next t ∧ t.pdu = [a, b, c, d &&& 1] ∧
    (d &&& 0xFE = 0 → t.pdu = [a, b, c, d]) ∧
    t = { s with
      mem := { s.mem with u := t.mem.u, par := t.mem.par, pdu := t.mem.pdu }
      free := t.free, stat := Stat.ok, res := { s.res with nerr := 0, nbits := 78 } }) ∧
  (∀ s : State, s.mem.cs.len = 78 → ∃ t, exec .schDec s = .next t ∧
    Decoded Config.inst xcchCode s.softC 35 t.u t.res ∧ t.par = (t.u.drop 25).take 10 ∧
    Verdict s t .crc10 (t.u.take 25) t.par (packLsb (t.u.take 25)) ∧
    t = { s with
      mem := { s.mem with u := t.mem.u, par := t.mem.par, pdu := t.mem.pdu }
      free := t.free, stat := t.stat
      res := { s.res with nerr := t.res.nerr, nbits := t.res.nbits } })

/-- A payload bit that its family's checksum covers, flipped before the encoder, with the old parity, fails
that checksum in every codec (44_codec_control.md R181, 46_codec_tch.md R230 (c), R243 (c)): `E_BAD_BLOCK` with
the selector, and `PDU` is kept. Control, random access and synchronisation: any payload bit. Packet data:
any bit of scheme 1, any but the three flag bits of schemes 2 to 4. Full-rate speech: one of the first 50
bits; for EFR also a protected bit outside that span which is not sent three times, against the 8-bit
checksum. AMR, in every instance with a code for every mode (log 16), for a decoder whose list holds the
index: one of the first `n1a` bits of every mode; the premise on the length excludes a block that does not
fit `CS_` (log 21). The spec marks R230 and R243 as its own inferences. -/
def Obligations.FlippedPayloadRejected : Prop :=
  (∀ (d d' h : List UBit) (j : Nat) (s : State), d.length = 184 → h.length = 8 → DifferAt j d d' →
    s.softE = softAll (blockBursts .x4 (convEnc xcchCode (infoWord d' (crcGen .fire40 d))) h) →
    ∃ t, exec .xcchDec s = .next t ∧ t.stat = Stat.error .badBlock 0 ∧ t.mem.pdu = s.mem.pdu) ∧
  (∀ (d d' : List UBit) (j : Nat) (bsic : BitVec 6) (s : State), d.length = 8 → DifferAt j d d' →
    s.softC = softAll (convEnc xcchCode (infoWord d' (xorBsic bsic (crcGen .crc6 d)))) →
    ∃ t, exec (.rachDec bsic) s = .next t ∧ t.stat = Stat.error .badBlock 3 ∧
      t.mem.pdu = s.mem.pdu) ∧
  (∀ (d d' : List UBit) (j : Nat) (s : State), d.length = 25 → DifferAt j d d' →
    s.softC = softAll (convEnc xcchCode (infoWord d' (crcGen .crc10 d))) →
    ∃ t, exec .schDec s = .next t ∧ t.stat = Stat.error .badBlock 2 ∧ t.mem.pdu = s.mem.pdu) ∧
  (∀ (d d' : List UBit) (j : Nat) (s : State), d.length = 184 → DifferAt j d d' →
    s.softE = softAll (blockBursts .x4 (convEnc xcchCode (infoWord d' (crcGen .fire40 d)))
      Scheme.cs1.header) →
    ∃ t, exec .pdtchDec s = .next t ∧ t.stat = Stat.error .badBlock 0 ∧ t.res.cs = 1 ∧
      t.res.usf = 0 ∧ t.mem.pdu = s.mem.pdu) ∧
  (∀ (scheme : Scheme) (d d' c u : List UBit) (usf : BitVec 3) (j : Nat) (s : State), scheme ≠ .cs1 →
    d.length = scheme.np → DifferAt j d d' → 3 ≤ j →
    d.take 3 = [usf.getLsbD 0, usf.getLsbD 1, usf.getLsbD 2] →
    u = scheme.flagTable.getD usf.toNat [] ++ d'.drop 3 ++ crcGen .crc16 d ++
      List.replicate scheme.tail false →
    (scheme = .cs2 → c = punct cs2Mask (convEnc xcchCode u)) →
    (scheme = .cs3 → c = punct cs3Mask (convEnc xcchCode u)) → (scheme = .cs4 → c = u) →
    s.softE = softAll (blockBursts .x4 c scheme.header) →
    ∃ t, exec .pdtchDec s = .next t ∧ t.stat = Stat.error .badBlock 1 ∧
      t.res.cs = BitVec.ofNat 3 scheme.num ∧ t.res.usf = usf ∧ t.mem.pdu = s.mem.pdu) ∧
  (∀ (speech : Efr) (d d' : List UBit) (j : Nat) (s : State), d.length = 260 → DifferAt j d d' →
    j < 50 →
    s.softE = softAll (blockBursts .t8 (speechCoded d' (crcGen .crc3 (d.take 50)))
      (tchFlags false)) →
    ∃ t, exec (.tchfrDec speech) s = .next t ∧ t.stat = Stat.error .badBlock 4 ∧
      t.res.steal = false ∧ t.mem.pdu = s.mem.pdu) ∧
  (∀ (pdu : List Byte) (d' : List UBit) (j k : Nat) (s : State), pdu.length = 31 →
    DifferAt j (speechBits Config.inst .efr pdu) d' → 50 ≤ j →
    Config.inst.efrMap.order[j]? = some k → k ∈ Config.inst.efrMap.prot →
    k ∉ Config.inst.efrMap.rep →
    s.softE = softAll (blockBursts .t8
      (speechCoded d' (crcGen .crc3 ((speechBits Config.inst .efr pdu).take 50)))
      (tchFlags false)) →
    ∃ t, exec (.tchfrDec .efr) s = .next t ∧ t.stat = Stat.error .badBlock 5 ∧
      t.res.steal = false ∧ t.mem.pdu = s.mem.pdu) ∧
  (∀ (P : Params) (phase : Phase) (m idx : BitVec 3) (d d' c : List UBit) (j : Nat) (s : State),
    P.WF → idx.toNat < nIc P → s.wamr.ft.toNat < s.wamr.n.toNat → idx.toNat < s.wamr.n.toNat →
    m = listAt s.wamr.list (match phase with
      | .cmi => idx.toNat
      | .cmr => s.wamr.ft.toNat) →
    d.length = (afsMode m).bits → DifferAt j d d' → j < (afsMode m).n1a →
    c = P.afsIc.rows.getD idx.toNat [] ++ afsEncode (afsCodeOf P m).1 (afsCodeOf P m).2
      (d'.take (afsMode m).n1a ++ crcGen .crc6 (d.take (afsMode m).n1a) ++
        d'.drop (afsMode m).n1a) →
    (afsSoft P m (softAll c)).length ≤ 1024 →
    s.softE = softAll (blockBursts .t8 c (tchFlags false)) →
    ∃ t, execIn P (.tchafsDec phase) s = .next t ∧
      (P = Config.inst → exec (.tchafsDec phase) s = .next t) ∧
      t.stat = Stat.error .badBlock 3 ∧ t.res.steal = false ∧
      t.res.idx = BitVec.ofNat 8 idx.toNat ∧ t.mem.pdu = s.mem.pdu)

/-- `PDTCH.ENC` (45_codec_pdtch.md R201 to R206): the scheme by length, `RES.CS` and `RES.USF`, the info word
with its flag pattern, the parity, the coded and punctured bits, and the bursts with the scheme's header;
`E_PDU_LEN(PDULEN)` with no other write for another length. -/
def Obligations.PdtchEncResult : Prop :=
  (∀ (s : State) (scheme : Scheme), schemeOfLen s.mem.pdu.len = some scheme →
    ∃ t, exec .pdtchEnc s = .next t ∧
    (scheme = .cs1 → t.par = crcGen .fire40 (unpackLsb s.pdu 184) ∧
      t.u = unpackLsb s.pdu 184 ++ t.par ++ List.replicate 4 false ∧ t.c = convEnc xcchCode t.u) ∧
    (scheme = .cs2 → t.par = crcGen .crc16 (unpackLsb s.pdu 271) ∧
      t.u = tUsf6.getD (usfOf s.pdu).toNat [] ++ (unpackLsb s.pdu 271).drop 3 ++ t.par ++
        List.replicate 4 false ∧ t.c = punct cs2Mask (convEnc xcchCode t.u)) ∧
    (scheme = .cs3 → t.par = crcGen .crc16 (unpackLsb s.pdu 315) ∧
      t.u = tUsf6.getD (usfOf s.pdu).toNat [] ++ (unpackLsb s.pdu 315).drop 3 ++ t.par ++
        List.replicate 4 false ∧ t.c = punct cs3Mask (convEnc xcchCode t.u)) ∧
    (scheme = .cs4 → t.par = crcGen .crc16 (unpackLsb s.pdu 431) ∧
      t.u = tUsf12.getD (usfOf s.pdu).toNat [] ++ (unpackLsb s.pdu 431).drop 3 ++ t.par ∧
      t.c = t.u) ∧
    t.i = interleave .x4 t.c ∧ t.h = tCs.getD (scheme.num - 1) [] ∧ t.e = mapBlock 4 t.i t.h ∧
    t = { s with
      mem := { s.mem with
        u := t.mem.u, par := t.mem.par, c := t.mem.c, i := t.mem.i, h := t.mem.h, e := t.mem.e }
      free := t.free, stat := Stat.ok
      res := { s.res with cs := BitVec.ofNat 3 scheme.num, usf := usfOf s.pdu } }) ∧
  (∀ s : State, s.mem.pdu.len ∉ [23, 34, 40, 54] →
    exec .pdtchEnc s = .next { s with stat := Stat.error .pduLen s.mem.pdu.len })

/-- Round trip and blind detection of packet data (R207 to R213), for all four schemes and whatever the
tie-break is: `PDTCH.DEC` on the clean block of a PDU of an accepted length completes with the PDU, its
spare bits cleared, the scheme and the flag, `NERR` 0 and `NBITS` 456; nothing but the buffers and `RES`
fields of R210 changes. On any 464 soft bits, errors and erasures among them, the header pattern nearest to
the flags gives the scheme, and the buffers, `PAR` and `RES` are what R210 computes for it, the flag and its
restoration (R209) included; the checksum decides between the PDU and `E_BAD_BLOCK` (R175 (c)). The spec marks
R212 as its own inference from R203 to R210. -/
def Obligations.PdtchRoundTrip : Prop :=
  (∀ (scheme : Scheme) (pdu : List Byte) (s : State), schemeOfLen pdu.length = some scheme →
    s.softE = softAll (blockBursts .x4 (packetCoded scheme pdu) scheme.header) →
    ∃ t, exec .pdtchDec s = .next t ∧ t.pdu.length = pdu.length ∧
    (∀ j, j < 8 * pdu.length →
      bitAt .lsb t.pdu j = if j < scheme.np then bitAt .lsb pdu j else false) ∧
    ((∀ j, scheme.np ≤ j → j < 8 * pdu.length → bitAt .lsb pdu j = false) → t.pdu = pdu) ∧
    t = { s with
      mem := { s.mem with
        is := t.mem.is, hs := t.mem.hs, cs := t.mem.cs, u := t.mem.u, par := t.mem.par,
        pdu := t.mem.pdu }
      free := t.free, stat := Stat.ok
      res := { s.res with
        nerr := 0, nbits := 456, cs := BitVec.ofNat 3 scheme.num, usf := usfOf pdu,
        idx := BitVec.ofNat 8 (scheme.num - 1), dist := 0 } }) ∧
  (∀ s : State, s.mem.es.len = 464 → ∃ t cs scheme dist, exec .pdtchDec s = .next t ∧
    Gathered .x4 s t cs ∧
    NearestIs (tCs.map fun p => softDist p t.softH) (scheme.num - 1, dist) ∧
    t.res.idx = BitVec.ofNat 8 (scheme.num - 1) ∧ t.res.dist = BitVec.ofNat 16 dist ∧
    t.res.cs = BitVec.ofNat 3 scheme.num ∧
    (scheme = .cs1 → t.softC = cs ∧ ControlDecoded Config.inst s t cs ∧
      t.res.usf = if t.stat = Stat.ok then usfOf t.pdu else 0) ∧
    (scheme = .cs2 → t.softC = depunct cs2Mask cs) ∧ (scheme = .cs3 → t.softC = depunct cs3Mask cs) ∧
    (scheme = .cs2 ∨ scheme = .cs3 → ∃ u,
      Decoded Config.inst xcchCode t.softC (scheme.np + 19) u t.res ∧ PacketFinished s t scheme u) ∧
    (scheme = .cs4 → t.softC = cs ∧ t.res.nerr = 0 ∧
      t.res.nbits = BitVec.ofNat 16 (cs.countP fun x => decide (x.toInt ≠ 0)) ∧
      PacketFinished s t scheme (cs.map SBit.hard)) ∧
    t = { s with
      mem := { s.mem with
        is := t.mem.is, hs := t.mem.hs, cs := t.mem.cs, u := t.mem.u, par := t.mem.par,
        pdu := t.mem.pdu }
      free := t.free, stat := t.stat
      res := { s.res with
        nerr := t.res.nerr, nbits := t.res.nbits, cs := t.res.cs, usf := t.res.usf,
        idx := t.res.idx, dist := t.res.dist } })

/-- The commands that load a parameter record (46_codec_tch.md R234, 47_scheduler.md R265, R267): the fields
each writes from `PRM`; `E_PARAM(0)` for a malformed record, before `E_BAD_CHAN` for a channel without modes;
nothing else changes, and neither error writes anything but `STAT`. -/
def Obligations.MailboxCommands : Prop :=
  (∀ s : State, (s.prmAt 0).toNat ≤ 8 → (∀ k, k < 8 → (s.prmAt (1 + k)).toNat ≤ 7) →
    (s.prmAt 9).toNat ≤ 7 → (s.prmAt 10).toNat ≤ 7 → ∃ t, exec .amrCfg s = .next t ∧
    t.wamr.n.toNat = (s.prmAt 0).toNat ∧
    (∀ k, k < 8 → (listAt t.wamr.list k).toNat = (s.prmAt (1 + k)).toNat) ∧
    t.wamr.ft.toNat = (s.prmAt 9).toNat ∧ t.wamr.cmr.toNat = (s.prmAt 10).toNat ∧
    t = { s with wamr := t.wamr, stat := Stat.ok }) ∧
  (∀ s : State, 8 < (s.prmAt 0).toNat ∨ (∃ k, k < 8 ∧ 7 < (s.prmAt (1 + k)).toNat) ∨
    7 < (s.prmAt 9).toNat ∨ 7 < (s.prmAt 10).toNat →
    exec .amrCfg s = .next { s with stat := Stat.error .param 0 }) ∧
  (∀ (tn : Tn) (ch : Chan) (s : State), (s.prmAt 1).toNat ≤ 3 → (s.prmAt 2).toNat ≤ 8 →
    (∀ k, k < 8 → (s.prmAt (3 + k)).toNat ≤ 7) → (s.prmAt 11).toNat ≤ 7 → (s.prmAt 12).toNat ≤ 7 →
    (ch ≠ chIdle → dlFamily ch ≠ .unsupp → ulFamily ch ≠ .unsupp →
      ∃ t m, exec (.setMode tn ch) s = .next t ∧
      m.rslCmode = s.prmAt 0 ∧ m.tchMode.code = s.prmAt 1 ∧ m.amrN.toNat = (s.prmAt 2).toNat ∧
      (∀ k, k < 8 → (listAt m.amrList k).toNat = (s.prmAt (3 + k)).toNat) ∧
      t = { s.setChan tn ch { s.chan tn ch with
        modeP := m
        ulFt := (s.prmAt 11).setWidth 3, dlFt := (s.prmAt 11).setWidth 3
        ulCmr := (s.prmAt 12).setWidth 3, dlCmr := (s.prmAt 12).setWidth 3 } with
        stat := Stat.ok }) ∧
    (ch = chIdle ∨ dlFamily ch = .unsupp ∨ ulFamily ch = .unsupp →
      exec (.setMode tn ch) s = .next { s with stat := Stat.error .badChan ch.val })) ∧
  (∀ (tn : Tn) (ch : Chan) (s : State), 3 < (s.prmAt 1).toNat ∨ 8 < (s.prmAt 2).toNat ∨
    (∃ k, k < 8 ∧ 7 < (s.prmAt (3 + k)).toNat) ∨ 7 < (s.prmAt 11).toNat ∨ 7 < (s.prmAt 12).toNat →
    exec (.setMode tn ch) s = .next { s with stat := Stat.error .param 0 }) ∧
  (∀ (tn : Tn) (ch : Chan) (dir : Dir) (s : State), (s.prmAt 0).toNat ≤ 15 →
    (ch ≠ chIdle → dlFamily ch ≠ .unsupp → ulFamily ch ≠ .unsupp →
      ∃ t r, exec (.setCipher tn ch dir) s = .next t ∧ r.algo.toNat = (s.prmAt 0).toNat ∧
      (∀ k, k < 8 → r.key[k]? = some (s.prmAt (1 + k))) ∧
      t = { s.setChan tn ch (match dir with
        | .ul => { s.chan tn ch with ciphUlP := r }
        | .dl => { s.chan tn ch with ciphDlP := r }) with stat := Stat.ok }) ∧
    (ch = chIdle ∨ dlFamily ch = .unsupp ∨ ulFamily ch = .unsupp →
      exec (.setCipher tn ch dir) s = .next { s with stat := Stat.error .badChan ch.val })) ∧
  (∀ (tn : Tn) (ch : Chan) (dir : Dir) (s : State), 15 < (s.prmAt 0).toNat →
    exec (.setCipher tn ch dir) s = .next { s with stat := Stat.error .param 0 })

/-- `TCHFR.ENC efr` (46_codec_tch.md R222 to R227): a 23-byte PDU is coded as a stolen block, a speech PDU of
the variant's length as a speech block, in every buffer the rule names and nothing else;
`E_PDU_LEN(PDULEN)` with no other write for another length. -/
def Obligations.TchfrEncResult : Prop :=
  (∀ (speech : Efr) (s : State), s.mem.pdu.len = 23 ∨ s.mem.pdu.len = speechLen speech →
    ∃ t, exec (.tchfrEnc speech) s = .next t ∧
    (s.mem.pdu.len = 23 →
      t.par = crcGen .fire40 (unpackLsb s.pdu 184) ∧
      t.u = unpackLsb s.pdu 184 ++ t.par ++ List.replicate 4 false ∧
      t.c = convEnc xcchCode t.u ∧ t.h = tchFlags true) ∧
    (s.mem.pdu.len = speechLen speech →
      t.par = crcGen .crc3 ((speechBits Config.inst speech s.pdu).take 50) ∧
      t.u = class1Word (speechBits Config.inst speech s.pdu) t.par ∧
      t.c = convEnc xcchCode t.u ++ ((speechBits Config.inst speech s.pdu).drop 182).take 78 ∧
      t.h = tchFlags false) ∧
    t.i = interleave .t8 t.c ∧ t.e = mapBlock 8 t.i t.h ∧
    t = { s with
      mem := { s.mem with
        u := t.mem.u, par := t.mem.par, c := t.mem.c, i := t.mem.i, h := t.mem.h, e := t.mem.e }
      free := t.free, stat := Stat.ok }) ∧
  (∀ (speech : Efr) (s : State), s.mem.pdu.len ≠ 23 → s.mem.pdu.len ≠ speechLen speech →
    exec (.tchfrEnc speech) s = .next { s with stat := Stat.error .pduLen s.mem.pdu.len })

/-- The speech round trip of full rate and enhanced full rate (R228 to R230 (a)), for every well-formed
instance's reorder tables and whatever the tie-break is: a PDU with its signature comes back from its
clean block, `RES.STEAL` 0, `NERR` 0, `NBITS` 378; nothing but the buffers and `RES` fields of R229
changes. On any 928 soft bits, errors and erasures among them, the majority of the flags (R222) decides
between a stolen block and speech, the buffers, `PAR` and `RES` are what R228 and R229 compute, and the
checksums decide between the PDU and `E_BAD_BLOCK` 0, 4 or 5 (R175 (c)). The spec marks R230 as its own
inference from R223 to R228. -/
def Obligations.TchfrRoundTrip : Prop :=
  (∀ (speech : Efr) (pdu : List Byte) (s : State), pdu.length = speechLen speech →
    (pdu.getD 0 0).extractLsb' 4 4 = (match speech with
      | .fr => 0xD#4
      | .efr => 0xC#4) →
    s.softE = softAll (blockBursts .t8 (speechCoded (speechBits Config.inst speech pdu)
      (crcGen .crc3 ((speechBits Config.inst speech pdu).take 50))) (tchFlags false)) →
    ∃ t, exec (.tchfrDec speech) s = .next t ∧ t.pdu = pdu ∧
    t = { s with
      mem := { s.mem with
        is := t.mem.is, hs := t.mem.hs, cs := t.mem.cs, u := t.mem.u, par := t.mem.par,
        pdu := t.mem.pdu }
      free := t.free, stat := Stat.ok
      res := { s.res with nerr := 0, nbits := 378, steal := false } }) ∧
  (∀ (speech : Efr) (s : State), s.mem.es.len = 928 → ∃ t cs, exec (.tchfrDec speech) s = .next t ∧
    Gathered .t8 s t cs ∧ t.softC = cs ∧ (t.res.steal = true ↔ StolenFlags t.softH) ∧
    (t.res.steal = true → ControlDecoded Config.inst s t cs) ∧
    (t.res.steal = false → ∃ d, SpeechDecoded Config.inst s t speech cs d) ∧
    t = { s with
      mem := { s.mem with
        is := t.mem.is, hs := t.mem.hs, cs := t.mem.cs, u := t.mem.u, par := t.mem.par,
        pdu := t.mem.pdu }
      free := t.free, stat := t.stat
      res := { s.res with nerr := t.res.nerr, nbits := t.res.nbits, steal := t.res.steal } })

/-- A stolen block comes back from every traffic decoder with its 23 bytes and `RES.STEAL` 1, whatever the
codec mode and the tie-break are (R226, R229, R242); nothing but the buffers and `RES` fields of the rules
changes. -/
def Obligations.StolenRoundTrip : Prop :=
  ∀ (pdu : List Byte) (s : State), pdu.length = 23 →
    s.softE = softAll (blockBursts .t8 (controlCoded pdu) (tchFlags true)) →
    (∀ speech, ∃ t, exec (.tchfrDec speech) s = .next t ∧ t.pdu = pdu ∧
      t = { s with
        mem := { s.mem with
          is := t.mem.is, hs := t.mem.hs, cs := t.mem.cs, u := t.mem.u, par := t.mem.par,
          pdu := t.mem.pdu }
        free := t.free, stat := Stat.ok
        res := { s.res with nerr := 0, nbits := 456, steal := true } }) ∧
    (∀ phase, ∃ t, exec (.tchafsDec phase) s = .next t ∧ t.pdu = pdu ∧
      t = { s with
        mem := { s.mem with
          is := t.mem.is, hs := t.mem.hs, cs := t.mem.cs, u := t.mem.u, par := t.mem.par,
          pdu := t.mem.pdu }
        free := t.free, stat := Stat.ok
        res := { s.res with
          nerr := 0, nbits := 456, steal := true, ft := s.wamr.ft, cmr := s.wamr.cmr } })

/-- `TCHAFS.ENC phase` (R239, R240): a 23-byte PDU as a stolen block whatever `WAMR` is; a speech PDU of
the mode's length in every buffer the rule names; `E_MODE_RANGE` before `E_PDU_LEN`, neither with any
other write. The model's instances have a code for every mode (log 16). -/
def Obligations.TchafsEncResult : Prop :=
  (∀ (phase : Phase) (s : State), s.mem.pdu.len = 23 → ∃ t, exec (.tchafsEnc phase) s = .next t ∧
    t.par = crcGen .fire40 (unpackLsb s.pdu 184) ∧
    t.u = unpackLsb s.pdu 184 ++ t.par ++ List.replicate 4 false ∧ t.c = convEnc xcchCode t.u ∧
    t.i = interleave .t8 t.c ∧ t.h = tchFlags true ∧ t.e = mapBlock 8 t.i t.h ∧
    t = { s with
      mem := { s.mem with
        u := t.mem.u, par := t.mem.par, c := t.mem.c, i := t.mem.i, h := t.mem.h, e := t.mem.e }
      free := t.free, stat := Stat.ok }) ∧
  (∀ (phase : Phase) (s : State) (m : BitVec 3) (idx : BitVec 3), s.mem.pdu.len ≠ 23 →
    idx = (match phase with
      | .cmi => s.wamr.ft
      | .cmr => s.wamr.cmr) →
    m = listAt s.wamr.list s.wamr.ft.toNat →
    (s.wamr.ft.toNat < s.wamr.n.toNat → idx.toNat < s.wamr.n.toNat → idx.toNat < nIc Config.inst →
      s.mem.pdu.len = (afsMode m).bytes → ∃ t, exec (.tchafsEnc phase) s = .next t ∧
      t.par = crcGen .crc6 ((unpackMsb s.pdu (afsMode m).bits).take (afsMode m).n1a) ∧
      t.u = (unpackMsb s.pdu (afsMode m).bits).take (afsMode m).n1a ++ t.par ++
        (unpackMsb s.pdu (afsMode m).bits).drop (afsMode m).n1a ∧
      t.c = Config.inst.afsIc.rows.getD idx.toNat [] ++
        afsEncode (afsCodeOf Config.inst m).1 (afsCodeOf Config.inst m).2 t.u ∧
      t.c.length = 456 ∧
      t.i = interleave .t8 t.c ∧ t.h = tchFlags false ∧ t.e = mapBlock 8 t.i t.h ∧
      t = { s with
        mem := { s.mem with
          u := t.mem.u, par := t.mem.par, c := t.mem.c, i := t.mem.i, h := t.mem.h, e := t.mem.e }
        free := t.free, stat := Stat.ok }) ∧
    (s.wamr.n.toNat ≤ s.wamr.ft.toNat →
      exec (.tchafsEnc phase) s = .next { s with stat := Stat.error .modeRange s.wamr.ft.toNat }) ∧
    (s.wamr.ft.toNat < s.wamr.n.toNat →
      s.wamr.n.toNat ≤ idx.toNat ∨ nIc Config.inst ≤ idx.toNat →
      exec (.tchafsEnc phase) s = .next { s with stat := Stat.error .modeRange idx.toNat }) ∧
    (s.wamr.ft.toNat < s.wamr.n.toNat → idx.toNat < s.wamr.n.toNat → idx.toNat < nIc Config.inst →
      s.mem.pdu.len ≠ (afsMode m).bytes →
      exec (.tchafsEnc phase) s = .next { s with stat := Stat.error .pduLen s.mem.pdu.len }))

/-- `TCHAFS.DEC` (R241 to R243) in every well-formed instance and whatever the tie-break is. First clause: the
clean block of a PDU in the mode that the decoder's own `WAMR` and the index carried give comes back with its
speech bits, `NERR` 0, every compared position one of the code, and the index carried in `RES.FT` or
`RES.CMR`, whichever index was held; an index outside the decoder's list ends with `E_MODE_RANGE` and no PDU. Second clause, on any 928 soft bits, errors and erasures among them: a
stolen block is decoded as control; an index outside the list ends with `E_MODE_RANGE` of it, and in phase
`CMR` a held frame type outside the list with `E_MODE_RANGE` of that, neither with a PDU; any other block
leaves in the buffers, `PAR` and `RES` what R242 computes, and the checksum decides between the PDU, with the
phase's index updated, and `E_BAD_BLOCK(3)` (R175 (c)). A de-punctured block that does not fit `CS_` ends with
`E_LEN` of its length and no other write: that is the model's choice (log 21). The spec marks R243 as its own
inference from R239 to R242. The model's instances have a code for every mode (log 16). -/
def Obligations.TchafsRoundTrip : Prop :=
  (∀ (P : Params) (phase : Phase) (m idx : BitVec 3) (pdu : List Byte) (s : State) (n : Nat), P.WF →
    idx.toNat < nIc P →
    s.softE = softAll (blockBursts .t8
      (afsCoded P m idx.toNat (unpackMsb pdu (afsMode m).bits)) (tchFlags false)) →
    n = (afsSoft P m
      (softAll (afsCoded P m idx.toNat (unpackMsb pdu (afsMode m).bits)))).length →
    (s.wamr.n.toNat ≤ idx.toNat →
      ∃ t, execIn P (.tchafsDec phase) s = .next t ∧
      (P = Config.inst → exec (.tchafsDec phase) s = .next t) ∧
      t.stat = Stat.error .modeRange idx.toNat ∧ t.res.idx = BitVec.ofNat 8 idx.toNat ∧
      t.mem.pdu = s.mem.pdu) ∧
    (idx.toNat < s.wamr.n.toNat → (phase = .cmr → s.wamr.ft.toNat < s.wamr.n.toNat) →
      m = listAt s.wamr.list (match phase with
        | .cmi => idx.toNat
        | .cmr => s.wamr.ft.toNat) →
      (1024 < n →
        execIn P (.tchafsDec phase) s = .next { s with stat := Stat.error .len n } ∧
        (P = Config.inst →
          exec (.tchafsDec phase) s = .next { s with stat := Stat.error .len n })) ∧
      (n ≤ 1024 → pdu.length = (afsMode m).bytes →
        ∃ t, execIn P (.tchafsDec phase) s = .next t ∧
        (P = Config.inst → exec (.tchafsDec phase) s = .next t) ∧
        t.pdu.length = pdu.length ∧
        (∀ j, j < 8 * pdu.length →
          bitAt .msb t.pdu j = if j < (afsMode m).bits then bitAt .msb pdu j else false) ∧
        t = { s with
          mem := { s.mem with
            is := t.mem.is, hs := t.mem.hs, cs := t.mem.cs, u := t.mem.u, par := t.mem.par,
            pdu := t.mem.pdu }
          free := t.free, stat := Stat.ok
          res := { s.res with
            nerr := 0, nbits := BitVec.ofNat 16 (456 - wIc P), steal := false,
            idx := BitVec.ofNat 8 idx.toNat, dist := 0
            ft := if phase = .cmi then idx else s.wamr.ft
            cmr := if phase = .cmr then idx else s.wamr.cmr } }))) ∧
  (∀ (P : Params) (phase : Phase) (m idx : BitVec 3) (dist : Nat) (cs soft : List SBit) (s : State),
    P.WF → s.mem.es.len = 928 → cs = deinterleave .t8 (unmapBits 8 s.softE) →
    NearestIs (P.afsIc.rows.map fun p => softDist p (cs.take (wIc P))) (idx.toNat, dist) →
    m = listAt s.wamr.list (match phase with
      | .cmi => idx.toNat
      | .cmr => s.wamr.ft.toNat) →
    soft = afsSoft P m cs →
    (¬StolenFlags (unmapFlags 8 s.softE) → idx.toNat < s.wamr.n.toNat →
      (phase = .cmr → s.wamr.ft.toNat < s.wamr.n.toNat) → 1024 < soft.length →
      execIn P (.tchafsDec phase) s = .next { s with stat := Stat.error .len soft.length } ∧
      (P = Config.inst →
        exec (.tchafsDec phase) s = .next { s with stat := Stat.error .len soft.length })) ∧
    (StolenFlags (unmapFlags 8 s.softE) ∨ s.wamr.n.toNat ≤ idx.toNat ∨
        (phase = .cmr ∧ s.wamr.n.toNat ≤ s.wamr.ft.toNat) ∨ soft.length ≤ 1024 →
      ∃ t, execIn P (.tchafsDec phase) s = .next t ∧
      (P = Config.inst → exec (.tchafsDec phase) s = .next t) ∧ Gathered .t8 s t cs ∧
      (StolenFlags (unmapFlags 8 s.softE) → t.softC = cs ∧ ControlDecoded P s t cs ∧
        t = { s with
          mem := { s.mem with
            is := t.mem.is, hs := t.mem.hs, cs := t.mem.cs, u := t.mem.u, par := t.mem.par,
            pdu := t.mem.pdu }
          free := t.free, stat := t.stat
          res := { s.res with
            nerr := t.res.nerr, nbits := t.res.nbits, steal := true
            ft := s.wamr.ft, cmr := s.wamr.cmr } }) ∧
      (¬StolenFlags (unmapFlags 8 s.softE) →
        (s.wamr.n.toNat ≤ idx.toNat ∨ (phase = .cmr ∧ s.wamr.n.toNat ≤ s.wamr.ft.toNat) →
          t.softC = cs ∧
          t = { s with
            mem := { s.mem with is := t.mem.is, hs := t.mem.hs, cs := t.mem.cs }
            free := t.free
            stat := Stat.error .modeRange
              (if s.wamr.n.toNat ≤ idx.toNat then idx.toNat else s.wamr.ft.toNat)
            res := { s.res with
              steal := false, idx := BitVec.ofNat 8 idx.toNat, dist := BitVec.ofNat 16 dist
              ft := s.wamr.ft, cmr := s.wamr.cmr } }) ∧
        (idx.toNat < s.wamr.n.toNat → (phase = .cmr → s.wamr.ft.toNat < s.wamr.n.toNat) →
          t.softC = soft ∧ AfsDecoded P s t phase m idx soft ∧
          t = { s with
            mem := { s.mem with
              is := t.mem.is, hs := t.mem.hs, cs := t.mem.cs, u := t.mem.u, par := t.mem.par,
              pdu := t.mem.pdu }
            free := t.free, stat := t.stat
            res := { s.res with
              nerr := t.res.nerr, nbits := t.res.nbits, steal := false
              idx := BitVec.ofNat 8 idx.toNat, dist := BitVec.ofNat 16 dist
              ft := t.res.ft, cmr := t.res.cmr } }))))

/-! ### Scheduler: configuration -/

/-- `SCHED.INIT` gives the scheduler state of R66 and writes nothing else (47_scheduler.md R255), and the
hardware reset gives that scheduler state and the other reset values (10_state.md R66,
70_reset_and_hazards.md R331). What the buffers hold after reset is unspecified and not stated. -/
def Obligations.InitialValues : Prop :=
  (∀ s : State, ∃ t, exec .schedInit s = .next t ∧ t.fn = 0 ∧ t.fnValid = false ∧ t.evq = [] ∧
    (∀ tn : Tn, t.ts.get tn = { pchan := 0, tsc := 0, att := 0 }) ∧
    (∀ (tn : Tn) (ch : Chan), t.chan tn ch = ChanState.zero ∧ t.queue tn ch = []) ∧
    t = { s with
      fn := t.fn, fnValid := t.fnValid, ts := t.ts, cs := t.cs, q := t.q, evq := t.evq
      stat := Stat.ok }) ∧
  State.reset.fn = 0 ∧ State.reset.fnValid = false ∧ State.reset.evq = [] ∧
  (∀ tn : Tn, State.reset.ts.get tn = { pchan := 0, tsc := 0, att := 0 }) ∧
  (∀ (tn : Tn) (ch : Chan),
    State.reset.chan tn ch = ChanState.zero ∧ State.reset.queue tn ch = []) ∧
  State.reset.bsic = 0 ∧ State.reset.stat = { code := 0, aux := 0 } ∧ State.reset.res = Res.zero ∧
  State.reset.wamr = Wamr.zero ∧ (∀ k, k < 16 → State.reset.prm[k]? = some 0) ∧
  State.reset.rxind = RxInd.zero ∧ State.reset.csselTn = 0 ∧ State.reset.csselCh = 0 ∧
  [State.reset.mem.pdu.len, State.reset.mem.u.len, State.reset.mem.par.len, State.reset.mem.c.len,
    State.reset.mem.cs.len, State.reset.mem.i.len, State.reset.mem.is.len, State.reset.mem.e.len,
    State.reset.mem.es.len, State.reset.mem.h.len, State.reset.mem.hs.len] = List.replicate 11 0

/-- `SET.BSIC` (R257) and `SET.ATT` (R259): their words, the one field each writes, and `E_ILLEGAL` for an
identity code above 63 and for reserved bits. -/
def Obligations.BsicAndAttenuation : Prop :=
  (∀ bsic : BitVec 6, (encode (.setBsic bsic)).toNat = 0x4A000000 + bsic.toNat * 65536) ∧
  (∀ (bsic : BitVec 6) (s : State),
    exec (.setBsic bsic) s = .next { s with bsic := bsic, stat := Stat.ok }) ∧
  (∀ (w : Word) (s : State), w.op = 0x4A → 63 < w.a.toNat ∨ w.n ≠ 0 →
    command w s = .next { s with stat := { code := 1, aux := w.high } }) ∧
  (∀ (tn : Tn) (att : Byte),
    (encode (.setAtt tn att)).toNat = 0x47000000 + tn.val * 65536 + att.toNat * 256) ∧
  (∀ (tn : Tn) (att : Byte) (s : State), ∃ t, exec (.setAtt tn att) s = .next t ∧
    t.ts.get tn = { s.ts.get tn with att := att } ∧
    (∀ k : Tn, k ≠ tn → t.ts.get k = s.ts.get k) ∧
    t = { s with ts := t.ts, stat := Stat.ok }) ∧
  (∀ (w : Word) (s : State), w.op = 0x47 → 7 < w.a.toNat ∨ w.c ≠ 0 →
    command w s = .next { s with stat := { code := 1, aux := w.high } })

/-- `SET.PCHAN` with a legal configuration code (R258): `PCHAN` and `TSC` are written and `ATT` kept, every
channel state and queue of the timeslot returns to the created state, and nothing else changes. -/
def Obligations.SetPchanResult : Prop :=
  ∀ (tn : Tn) (pchan : BitVec 4) (tsc : BitVec 3) (s : State),
    pchan = 0 ∨ pchan.toNat < npchan Config.inst →
    ∃ t, exec (.setPchan tn pchan tsc) s = .next t ∧
    t.ts.get tn = { pchan := pchan, tsc := tsc, att := (s.ts.get tn).att } ∧
    (∀ ch : Chan, t.chan tn ch = ChanState.zero ∧ t.queue tn ch = []) ∧
    (∀ k : Tn, k ≠ tn → t.ts.get k = s.ts.get k ∧
      ∀ ch : Chan, t.chan k ch = s.chan k ch ∧ t.queue k ch = s.queue k ch) ∧
    t = { s with ts := t.ts, cs := t.cs, q := t.q, stat := Stat.ok }

/-- `CH.ACT` in every instance (R261, R262): with a layout that mentions every target, the targets' `ACTIVE`
flags are set and nothing else changes; otherwise `E_BAD_CHAN(ch)` with no other write. `exec` is this in the
machine's own instance. -/
def Obligations.ChActResult : Prop :=
  (∀ (P : Params) (tn : Tn) (ch : Chan) (linksel : LinkSel) (s : State) (l : Layout),
    s.layout P tn = some l → targets ch linksel ≠ [] → ch ≠ chIdle →
    (∀ x ∈ targets ch linksel, dlFamily x ≠ .unsupp ∧ ulFamily x ≠ .unsupp ∧
      ∃ y ∈ l.slots, y.dlChan = x ∨ y.ulChan = x) →
    ∃ t, execIn P (.chAct tn ch linksel) s = .next t ∧
    (P = Config.inst → exec (.chAct tn ch linksel) s = .next t) ∧
    (∀ x ∈ targets ch linksel, t.chan tn x = { s.chan tn x with active := true }) ∧
    (∀ (k : Tn) (x : Chan), ¬(k = tn ∧ x ∈ targets ch linksel) → t.chan k x = s.chan k x) ∧
    t = { s with cs := t.cs, stat := Stat.ok }) ∧
  (∀ (P : Params) (tn : Tn) (ch : Chan) (linksel : LinkSel) (s : State),
    ((s.ts.get tn).pchan = 0 ∨ targets ch linksel = [] ∨ ch = chIdle ∨
      ∃ x ∈ targets ch linksel, dlFamily x = .unsupp ∨ ulFamily x = .unsupp ∨
        ∀ l, s.layout P tn = some l → ∀ y ∈ l.slots, y.dlChan ≠ x ∧ y.ulChan ≠ x) →
    execIn P (.chAct tn ch linksel) s = .next { s with stat := Stat.error .badChan ch.val }) ∧
  (∀ ch : Chan, targets ch .main = [ch] ∧ targets ch .all = ch :: targets ch .sacch ∧
    targets ch .sacch = (match chAssoc ch with
      | some a => [a]
      | none => []))

/-- `CH.DEACT` (R261, R263): every field of every target's channel state returns to 0, its buffers are
released and its queue emptied, and nothing else changes; `E_BAD_CHAN(ch)` with no other write when there is
no target. -/
def Obligations.ChDeactResult : Prop :=
  (∀ (tn : Tn) (ch : Chan) (linksel : LinkSel) (s : State), targets ch linksel ≠ [] →
    ∃ t, exec (.chDeact tn ch linksel) s = .next t ∧
    (∀ x ∈ targets ch linksel, t.chan tn x = ChanState.zero ∧ t.queue tn x = []) ∧
    (∀ (k : Tn) (x : Chan), ¬(k = tn ∧ x ∈ targets ch linksel) →
      t.chan k x = s.chan k x ∧ t.queue k x = s.queue k x) ∧
    t = { s with cs := t.cs, q := t.q, stat := Stat.ok }) ∧
  (∀ (tn : Tn) (ch : Chan) (linksel : LinkSel) (s : State), targets ch linksel = [] →
    exec (.chDeact tn ch linksel) s = .next { s with stat := Stat.error .badChan ch.val })

/-- `PDU.ENQ` (R269): the PDU is appended at the tail of the one queue and nothing else changes;
`E_BAD_CHAN(ch)` for an unconfigured timeslot or a channel without a downlink queue, then `E_NOMEM(ch)` for a
full queue, neither with any other write. -/
def Obligations.PduEnqResult : Prop :=
  ∀ (tn : Tn) (ch : Chan) (aux : Byte) (s : State),
    ((s.ts.get tn).pchan ≠ 0 → dlFamily ch ∈ [.xcch, .pdtch, .tch] →
      (s.queue tn ch).length < Config.inst.qdepth → ∃ t, exec (.pduEnq tn ch aux) s = .next t ∧
      t.queue tn ch = s.queue tn ch ++ [{ bytes := s.pdu, aux := aux }] ∧
      (∀ (k : Tn) (x : Chan), ¬(k = tn ∧ x = ch) → t.queue k x = s.queue k x) ∧
      t = { s with q := t.q, stat := Stat.ok }) ∧
    ((s.ts.get tn).pchan = 0 ∨ dlFamily ch ∉ [.xcch, .pdtch, .tch] →
      exec (.pduEnq tn ch aux) s = .next { s with stat := Stat.error .badChan ch.val }) ∧
    ((s.ts.get tn).pchan ≠ 0 → dlFamily ch ∈ [.xcch, .pdtch, .tch] →
      Config.inst.qdepth ≤ (s.queue tn ch).length →
      exec (.pduEnq tn ch aux) s = .next { s with stat := Stat.error .nomem ch.val })

/-! ### Scheduler: transmit -/

/-- `TICK fn` and the clock (R278, R287 (c), R332, R336): a `TICK` that keeps the contract completes with
`FN` and `FNVALID` written, events only appended, and the fields of no timeslot's registers, mailboxes or
selectors changed; with no timeslot configured it emits nothing and changes no channel or queue; one that
breaks it is refused; and the next frame's `TICK` is never refused. The spec marks R287 as its own
inference. -/
def Obligations.TickClock : Prop :=
  (∀ (fn : Fn) (s : State), s.ClockOk fn → ∃ t, exec (.tick fn) s = .next t ∧
    t.fn = fn ∧ t.fnValid = true ∧ s.evq <+: t.evq ∧
    (t.stat = Stat.ok ∨ ∃ failed, 0 < failed ∧ failed < 256 ∧ t.stat = Stat.error .nomem failed) ∧
    t.bsic = s.bsic ∧ t.ts = s.ts ∧ t.prm = s.prm ∧ t.rxind = s.rxind ∧ t.csselTn = s.csselTn ∧
    t.csselCh = s.csselCh ∧ t.host = s.host ∧ t.hostRead = s.hostRead ∧
    ((∀ tn : Tn, (s.ts.get tn).pchan = 0) →
      t.stat = Stat.ok ∧ t.evq = s.evq ∧ t.cs = s.cs ∧ t.q = s.q ∧ t.allocs = s.allocs)) ∧
  (∀ (fn : Fn) (s : State), ¬s.ClockOk fn → exec (.tick fn) s = .refused .clock) ∧
  (∀ (fn : Fn) (s t : State), exec (.tick fn) s = .next t →
    ∃ t', exec (.tick (toFn (fnAdd fn.toNat 1))) t = .next t')

/-- The order of a `TICK`'s events in every instance (R278, R279): the ready-to-send signals of R279 by
ascending timeslot, each for the block that starts `RTS_ADVANCE` frames later, before every other event of
the command. -/
def Obligations.TickReadyToSend : Prop :=
  ∀ (P : Params) (fn : Fn) (s t : State), execIn P (.tick fn) s = .next t →
    ∃ sent, t.evq = s.evq ++ allTn.filterMap (rtsFor P fn s) ++ sent ∧
      ∀ e ∈ sent, e.isRts = false

/-- The bursts of one timeslot in every instance, whatever the other timeslots are (R278 (3) to (5), R280 (b),
(c), R283 to R285): a frequency-correction slot sends 148 zeros, a synchronisation slot the coded `SCHINFO`
around its training sequence, and a later burst of a block that is being sent its portion of the buffer around
the timeslot's training sequence, the buffer being released after the last one. A timeslot that is not
configured, a slot without a downlink handler, an inactive channel and a later burst of a block whose start was
missed send nothing. `Served` says where the timeslot's events stand among those of the other timeslots, and
that `STAT.AUX` is the set of failed timeslots. For the block's content the statement is for `ALGO = 0` (R268;
log 17); the premises on the buffer's length are the invariant `State.SchedInv` (log 19). -/
def Obligations.TickBursts : Prop :=
  (∀ (P : Params) (fn : Fn) (s : State) (tn : Tn) (l : Layout) (ch : Chan) (bid : Fin 8),
    s.ClockOk fn → s.layout P tn = some l → (l.slot fn.toNat).dlChan = ch →
    (l.slot fn.toNat).dlBid = bid →
    (dlFamily ch = .fcch → ∃ t, execIn P (.tick fn) s = .next t ∧
      (P = Config.inst → exec (.tick fn) s = .next t) ∧
      (s.OnlySlot tn → t.cs = s.cs ∧ t.q = s.q) ∧
      ∀ c, Served P fn s t tn c
        [.txReq fn tn (s.ts.get tn).att (List.replicate 148 false)] false) ∧
    (dlFamily ch = .sch → ∃ t, execIn P (.tick fn) s = .next t ∧
      (P = Config.inst → exec (.tick fn) s = .next t) ∧
      (s.OnlySlot tn → t.cs = s.cs ∧ t.q = s.q) ∧
      ∀ c, Served P fn s t tn c
        [.txReq fn tn (s.ts.get tn).att ([false, false, false] ++
          (schCoded (schBits P fn s.bsic)).take 39 ++ P.schTrain.toList ++
          (schCoded (schBits P fn s.bsic)).drop 39 ++ [false, false, false])] false) ∧
    (dlFamily ch ∈ [.xcch, .pdtch, .tch] → s.isActive tn ch = true → bid ≠ 0 →
      ((s.chan tn ch).dlAlloc = true → (s.chan tn ch).ciphDl.algo = 0 →
        (s.chan tn ch).dlBuf.length = 116 * nbDl ch → bid.val < nbDl ch →
        ∃ t, execIn P (.tick fn) s = .next t ∧
        (P = Config.inst → exec (.tick fn) s = .next t) ∧
        t.queue tn ch = s.queue tn ch ∧
        t.chan tn ch = (if bid.val + 1 = nbDl ch then
          { s.chan tn ch with dlAlloc := false, dlBuf := [] } else s.chan tn ch) ∧
        Served P fn s t tn ch
          [.txReq fn tn (s.ts.get tn).att
            (burstOf (((s.chan tn ch).dlBuf.drop (116 * bid.val)).take 116)
              (P.tscTable (s.ts.get tn).tsc).toList)] false) ∧
      ((s.chan tn ch).dlAlloc = false → (s.chan tn ch).dlBuf = [] →
        ∃ t, execIn P (.tick fn) s = .next t ∧
        (P = Config.inst → exec (.tick fn) s = .next t) ∧
        ∀ c, Served P fn s t tn c [] false)) ∧
    (dlFamily ch ∈ [.none, .rach, .unsupp] ∨
        (dlFamily ch ∈ [.xcch, .pdtch, .tch] ∧ s.isActive tn ch = false) →
      ∃ t, execIn P (.tick fn) s = .next t ∧ (P = Config.inst → exec (.tick fn) s = .next t) ∧
      ∀ c, Served P fn s t tn c [] false)) ∧
  (∀ (P : Params) (fn : Fn) (s : State) (tn : Tn), s.ClockOk fn → (s.ts.get tn).pchan = 0 →
    ∃ t, execIn P (.tick fn) s = .next t ∧ (P = Config.inst → exec (.tick fn) s = .next t) ∧
    ∀ c, Served P fn s t tn c [] false)

/-- A downlink block start of a control, packet-data or traffic channel in every instance, whatever the other
timeslots are (R266, R278 (3) to (5), R280 (a), R281, R282). Whatever `State.Offered` says there is to send, the head of the
queue is removed, mode and cipher are latched, and a length that does not fit is logged. An element to send
is coded by the encoder of its family and mode and its first burst is sent, an AMR speech PDU giving its
indices to the channel; if the allocation fails, `L_NOMEM` is logged, the timeslot's bit of `STAT.AUX` is set
and nothing is sent; the oracle has been consulted once for each lower timeslot that `State.Asks` (log 4); without an element nothing is sent. `Served` says where the timeslot's events stand among those of the others. For `ALGO = 0` (R268; log 17). That the head stays
removed when the allocation fails is the model's reading (log 25), as is that an AMR PDU fits exactly when
`TCHAFS.ENC` accepts it (log 15). -/
def Obligations.TickBlockStart : Prop :=
  ∀ (P : Params) (fn : Fn) (s : State) (tn : Tn) (l : Layout) (ch : Chan) (x : Option QElem)
    (bad : Bool) (xs : List QElem) (before : List Tn) (logged : List Event) (idle : ChanState),
    s.ClockOk fn → s.layout P tn = some l → (l.slot fn.toNat).dlChan = ch →
    (l.slot fn.toNat).dlBid = 0 → dlFamily ch ∈ [.xcch, .pdtch, .tch] → s.isActive tn ch = true →
    (s.chan tn ch).ciphDlP.algo = 0 → s.Offered P tn ch fn x bad xs →
    before.Nodup → (∀ k, k ∈ before ↔ k.val < tn.val ∧ s.Asks P fn k) →
    logged = (if bad then [.log .badPduLen tn ch fn] else []) →
    idle = { s.chan tn ch with
      dlAlloc := false, dlBuf := []
      modeDl := (s.chan tn ch).modeP, ciphDl := (s.chan tn ch).ciphDlP } →
    ∃ t, execIn P (.tick fn) s = .next t ∧ (P = Config.inst → exec (.tick fn) s = .next t) ∧
    t.queue tn ch = xs ∧
    (x = none → t.chan tn ch = idle ∧ Served P fn s t tn ch logged false) ∧
    (∀ e, x = some e → P.allocOk (s.allocs + before.length) = false →
      t.chan tn ch = idle ∧ Served P fn s t tn ch (logged ++ [.log .nomem tn ch fn]) true) ∧
    (∀ e, x = some e → P.allocOk (s.allocs + before.length) = true →
      t.chan tn ch = { idle with
        dlAlloc := true, dlMod := false, dlBuf := dlBlock P ch (s.chan tn ch).modeP fn e
        dlFt := if isAmrSpeech ch (s.chan tn ch).modeP e then e.aux.extractLsb' 0 3
          else (s.chan tn ch).dlFt
        dlCmr := if isAmrSpeech ch (s.chan tn ch).modeP e then e.aux.extractLsb' 3 3
          else (s.chan tn ch).dlCmr } ∧
      Served P fn s t tn ch (logged ++ [.txReq fn tn (s.ts.get tn).att
        (burstOf ((dlBlock P ch (s.chan tn ch).modeP fn e).take 116)
          (P.tscTable (s.ts.get tn).tsc).toList)]) false)

/-! ### Scheduler: receive -/

/-- What `RX.BURST` turns away (R43, R270 (1) to (7), R275, 60_exceptions.md R308): a malformed indication
with `E_BAD_IND` 1, 2 or 3 in that order; an unconfigured timeslot, a slot without a consumer and a burst
before synchronisation with `E_NONE`; an allocation that fails with `E_NOMEM(ch)`; in each case with no
state change but `STAT` (and the count of consultations of the allocation oracle, log 4). That the working
buffers are kept is the model's reading (log 6). -/
def Obligations.RxTurnedAway : Prop :=
  (∀ s : State, HYPER ≤ s.rxind.fn.toNat →
    exec .rxBurst s = .next { s with stat := Stat.error .badInd 1 }) ∧
  (∀ s : State, s.rxind.fn.toNat < HYPER → s.rxind.nbits.toNat ≠ 148 → s.rxind.nbits.toNat ≠ 444 →
    exec .rxBurst s = .next { s with stat := Stat.error .badInd 2 }) ∧
  (∀ s : State, s.rxind.fn.toNat < HYPER → s.rxind.nbits.toNat = 444 ∨
      (s.rxind.nbits.toNat = 148 ∧ s.rxind.present.getLsbD 0 = true ∧ s.rxind.mod = true) →
    exec .rxBurst s = .next { s with stat := Stat.error .badInd 3 }) ∧
  (∀ s : State, s.rxind.Accepted → (s.ts.get s.rxind.slot).pchan = 0 →
    exec .rxBurst s = .next { s with stat := Stat.ok }) ∧
  (∀ (P : Params) (s : State) (l : Layout) (ch : Chan) (bid : Fin 8), s.RoutedTo P l ch bid →
    (ulFamily ch = .none ∨ s.isActive s.rxind.slot ch = false →
      execIn P .rxBurst s = .next { s with stat := Stat.ok }) ∧
    (ulFamily ch ∈ [.xcch, .pdtch, .tch] → s.isActive s.rxind.slot ch = true →
      (s.chan s.rxind.slot ch).ulSync = false → bid ≠ 0 →
      execIn P .rxBurst s = .next { s with stat := Stat.ok }) ∧
    (ulFamily ch ∈ [.xcch, .pdtch, .tch] → s.isActive s.rxind.slot ch = true →
      (s.chan s.rxind.slot ch).ulSync = true ∨ bid = 0 →
      (s.chan s.rxind.slot ch).ulAlloc = false → P.allocOk s.allocs = false →
      execIn P .rxBurst s =
        .next { s with allocs := s.allocs + 1, stat := Stat.error .nomem ch.val }))

/-- An accepted burst that is not the last of its block, in every instance (R266, R270 (7), (8), R271 (a),
(b), R272): its payload, mask bit, measurements and counters are stored; at a block start the buffer, mask
and sums begin anew, the mode and the cipher are latched, and an abandoned block is counted and logged. The
premise on the mask of an unallocated buffer is the invariant `State.SchedInv`. -/
def Obligations.RxStoresBurst : Prop :=
  ∀ (P : Params) (s : State) (l : Layout) (ch : Chan) (bid : Fin 8) (x : ChanState),
    s.RoutedTo P l ch bid → ulFamily ch ∈ [.xcch, .pdtch, .tch] →
    s.isActive s.rxind.slot ch = true → x = s.chan s.rxind.slot ch → x.ulSync = true ∨ bid = 0 →
    x.ulAlloc = true ∨ (x.ulMask = 0 ∧ P.allocOk s.allocs = true) →
    x.ulBuf.length = (if x.ulAlloc then 928 else 0) → bid.val + 1 < nbUl ch →
    ∃ t y, execIn P .rxBurst s = .next t ∧ (P = Config.inst → exec .rxBurst s = .next t) ∧
    t.stat = Stat.ok ∧ y = t.chan s.rxind.slot ch ∧
    (∀ (k : Tn) (c : Chan), ¬(k = s.rxind.slot ∧ c = ch) → t.chan k c = s.chan k c) ∧
    y.ulAlloc = true ∧ y.ulSync = true ∧ y.active = x.active ∧ y.modeP = x.modeP ∧
    y.nproc = x.nproc + 1 ∧ y.lastFn = s.rxind.fn ∧ y.lastValid = true ∧
    (∀ k, k < 58 → y.ulBuf[116 * bid.val + k]? = s.rxind.bits[3 + k]? ∧
      y.ulBuf[116 * bid.val + 58 + k]? = s.rxind.bits[87 + k]?) ∧
    (bid = 0 ∨ x.ulMask = 0 ∨ x.ulFirstFn ≠ s.rxFirst l →
      y.ulFirstFn = s.rxFirst l ∧ y.ulMask = 1#8 <<< bid.val ∧
      y.modeUl = x.modeP ∧ y.ciphUl = x.ciphUlP ∧
      (∀ k, k < 116 * nbUl ch → k < 116 * bid.val ∨ 116 * bid.val + 116 ≤ k →
        y.ulBuf[k]? = some SBit.zero) ∧
      y.rssiSum = s.rxind.rssi.signExtend 32 ∧ y.rssiNum = 1 ∧
      y.toaSum = s.rxind.toa256.signExtend 32 ∧ y.toaNum = 1 ∧
      y.ciSum = (if s.rxind.hasCi then s.rxind.ci.signExtend 32 else 0) ∧
      y.ciNum = (if s.rxind.hasCi then 1 else 0) ∧
      (x.ulMask = 0 → y.nlost = x.nlost ∧ t.evq = s.evq) ∧
      (x.ulMask ≠ 0 → y.nlost = x.nlost + BitVec.ofNat 32 (nbUl ch) ∧
        t.evq = s.evq ++ [.log .abandoned s.rxind.slot ch x.ulFirstFn])) ∧
    (bid ≠ 0 → x.ulMask ≠ 0 → x.ulFirstFn = s.rxFirst l →
      y.ulFirstFn = x.ulFirstFn ∧ y.ulMask = x.ulMask ||| (1#8 <<< bid.val) ∧
      y.modeUl = x.modeUl ∧ y.ciphUl = x.ciphUl ∧ y.nlost = x.nlost ∧ t.evq = s.evq ∧
      (∀ k, k < 116 * bid.val ∨ 116 * bid.val + 116 ≤ k → y.ulBuf[k]? = x.ulBuf[k]?) ∧
      (-2147483648 ≤ x.rssiSum.toInt + s.rxind.rssi.toInt →
        x.rssiSum.toInt + s.rxind.rssi.toInt < 2147483648 →
        y.rssiSum.toInt = x.rssiSum.toInt + s.rxind.rssi.toInt) ∧
      (x.rssiNum.toNat < 255 → y.rssiNum = x.rssiNum + 1) ∧
      (-2147483648 ≤ x.toaSum.toInt + s.rxind.toa256.toInt →
        x.toaSum.toInt + s.rxind.toa256.toInt < 2147483648 →
        y.toaSum.toInt = x.toaSum.toInt + s.rxind.toa256.toInt) ∧
      (x.toaNum.toNat < 255 → y.toaNum = x.toaNum + 1) ∧
      (s.rxind.hasCi = false → y.ciSum = x.ciSum ∧ y.ciNum = x.ciNum) ∧
      (s.rxind.hasCi = true →
        -2147483648 ≤ x.ciSum.toInt + s.rxind.ci.toInt →
        x.ciSum.toInt + s.rxind.ci.toInt < 2147483648 →
        y.ciSum.toInt = x.ciSum.toInt + s.rxind.ci.toInt) ∧
      (s.rxind.hasCi = true → x.ciNum.toNat < 255 → y.ciNum = x.ciNum + 1))

/-- The last burst of a block, in every instance and whatever the tie-break is (R271, R273, R274, R288,
R289). First clause, for every control, packet-data and traffic block: the burst is stored, also where it
begins a block itself because the mask is 0 or the first frame is another (the buffer, mask and sums begin
anew, mode and cipher are latched, an abandoned block is counted and logged); a block with bursts missing is
logged as incomplete and its missing bursts are lost; the block's decoder command runs on the buffer, on AMR
with the channel's indices; its success is one `DATAIND` with its PDU, the averaged metrics and `aux`, and on
AMR speech its indices become the channel's; its range error is a `MODEIND`; any other outcome, a block
of a signalling-only channel that is not stolen among them, is silent; where no `DATAIND` is sent the
received bursts are lost; and the mask is 0. Second clause: a clean control block is delivered, one with a
flipped payload bit is dropped. For `ALGO = 0` (R268; log 17). Event fields have the widths of the window
(log 12), an `E_LEN` of the decoder counts as a failed block (log 21), and the premise on an unallocated
buffer is the invariant `State.SchedInv` (log 19). The spec marks R288 as its own inference. -/
def Obligations.RxCompletesBlock : Prop :=
  (∀ (P : Params) (s : State) (l : Layout) (ch : Chan) (bid : Fin 8) (x : ChanState) (start : Bool)
    (mask : Byte) (lost : Nat) (logged : List Event),
    s.RoutedTo P l ch bid → ulFamily ch ∈ [.xcch, .pdtch, .tch] →
    s.isActive s.rxind.slot ch = true → x = s.chan s.rxind.slot ch → bid.val + 1 = nbUl ch →
    x.ulSync = true → x.ulAlloc = true ∨ (x.ulMask = 0 ∧ P.allocOk s.allocs = true) →
    x.ulBuf.length = (if x.ulAlloc then 928 else 0) →
    (start = true ↔ x.ulMask = 0 ∨ x.ulFirstFn ≠ s.rxFirst l) →
    (if start then x.ciphUlP else x.ciphUl).algo = 0 →
    mask = (if start then 0 else x.ulMask) ||| (1#8 <<< bid.val) →
    lost = (if start = true ∧ x.ulMask ≠ 0 then nbUl ch else 0) +
      (if mask = fullMask (nbUl ch) then 0 else nbUl ch - popcount mask) →
    logged = (if start = true ∧ x.ulMask ≠ 0 then
        [.log .abandoned s.rxind.slot ch x.ulFirstFn] else []) ++
      (if mask = fullMask (nbUl ch) then [] else
        [.log .incomplete s.rxind.slot ch (s.rxFirst l)]) →
    ∃ t y, execIn P .rxBurst s = .next t ∧ (P = Config.inst → exec .rxBurst s = .next t) ∧
    t.stat = Stat.ok ∧ y = t.chan s.rxind.slot ch ∧
    (∀ (k : Tn) (c : Chan), ¬(k = s.rxind.slot ∧ c = ch) → t.chan k c = s.chan k c) ∧
    y.ulMask = 0 ∧ y.ulAlloc = true ∧ y.ulSync = true ∧ y.ulFirstFn = s.rxFirst l ∧
    y.active = x.active ∧ y.modeP = x.modeP ∧ y.nproc = x.nproc + 1 ∧ y.lastFn = s.rxind.fn ∧
    y.lastValid = true ∧
    y.modeUl = (if start then x.modeP else x.modeUl) ∧
    y.ciphUl = (if start then x.ciphUlP else x.ciphUl) ∧
    (∀ k, k < 58 → y.ulBuf[116 * bid.val + k]? = s.rxind.bits[3 + k]? ∧
      y.ulBuf[116 * bid.val + 58 + k]? = s.rxind.bits[87 + k]?) ∧
    (∀ k, k < 116 * bid.val →
      y.ulBuf[k]? = if start then some SBit.zero else x.ulBuf[k]?) ∧
    (start = true →
      y.rssiSum = s.rxind.rssi.signExtend 32 ∧ y.rssiNum = 1 ∧
      y.toaSum = s.rxind.toa256.signExtend 32 ∧ y.toaNum = 1 ∧
      y.ciSum = (if s.rxind.hasCi then s.rxind.ci.signExtend 32 else 0) ∧
      y.ciNum = (if s.rxind.hasCi then 1 else 0)) ∧
    (start = false →
      (-2147483648 ≤ x.rssiSum.toInt + s.rxind.rssi.toInt →
        x.rssiSum.toInt + s.rxind.rssi.toInt < 2147483648 →
        y.rssiSum.toInt = x.rssiSum.toInt + s.rxind.rssi.toInt) ∧
      (x.rssiNum.toNat < 255 → y.rssiNum = x.rssiNum + 1) ∧
      (-2147483648 ≤ x.toaSum.toInt + s.rxind.toa256.toInt →
        x.toaSum.toInt + s.rxind.toa256.toInt < 2147483648 →
        y.toaSum.toInt = x.toaSum.toInt + s.rxind.toa256.toInt) ∧
      (x.toaNum.toNat < 255 → y.toaNum = x.toaNum + 1) ∧
      (s.rxind.hasCi = false → y.ciSum = x.ciSum ∧ y.ciNum = x.ciNum) ∧
      (s.rxind.hasCi = true →
        -2147483648 ≤ x.ciSum.toInt + s.rxind.ci.toInt →
        x.ciSum.toInt + s.rxind.ci.toInt < 2147483648 →
        y.ciSum.toInt = x.ciSum.toInt + s.rxind.ci.toInt) ∧
      (s.rxind.hasCi = true → x.ciNum.toNat < 255 → y.ciNum = x.ciNum + 1)) ∧
    (∀ d u : State, d.softE = y.ulBuf.take (116 * nbUl ch) →
      (ulFamily ch = .tch → y.modeUl.tchMode = .amr → d.wamr =
        { n := y.modeUl.amrN, list := y.modeUl.amrList, ft := x.ulFt, cmr := x.ulCmr }) →
      execIn P (ulCommand P ch y.modeUl (s.rxFirst l)) d = .next u →
      (Delivered ch y.modeUl u →
        y.nlost = x.nlost + BitVec.ofNat 32 lost ∧
        (∃ aux : Byte, t.evq = s.evq ++ logged ++
            [.dataInd s.rxind.slot ch (s.rxFirst l) u.pdu
              (BitVec.ofInt 8 (avg y.rssiSum y.rssiNum)) (BitVec.ofInt 16 (avg y.toaSum y.toaNum))
              (BitVec.ofInt 16 (avg y.ciSum y.ciNum)) (decide (0 < y.ciNum.toNat))
              (BitVec.ofNat 16 (ber10k u.res.nerr.toNat u.res.nbits.toNat)) aux] ∧
          (ulFamily ch = .pdtch → aux.toNat = u.res.usf.toNat + 16 * u.res.cs.toNat) ∧
          (AmrSpeech ch y.modeUl u → aux.toNat = u.res.ft.toNat + 8 * u.res.cmr.toNat) ∧
          (ulFamily ch ≠ .pdtch → ¬AmrSpeech ch y.modeUl u → aux = 0)) ∧
        (AmrSpeech ch y.modeUl u → y.ulFt = u.res.ft ∧ y.ulCmr = u.res.cmr) ∧
        (¬AmrSpeech ch y.modeUl u → y.ulFt = x.ulFt ∧ y.ulCmr = x.ulCmr)) ∧
      (¬Delivered ch y.modeUl u →
        y.nlost = x.nlost + BitVec.ofNat 32 (lost + popcount mask) ∧
        y.ulFt = x.ulFt ∧ y.ulCmr = x.ulCmr ∧
        t.evq = s.evq ++ logged ++ (if u.stat.code = ErrCode.modeRange.code then
          [.modeInd s.rxind.slot ch (s.rxFirst l) u.res.idx] else [])))) ∧
  (∀ (P : Params) (s : State) (l : Layout) (ch : Chan) (x : ChanState),
    s.RoutedTo P l ch 3 → ulFamily ch = .xcch → s.isActive s.rxind.slot ch = true →
    x = s.chan s.rxind.slot ch → x.ulSync = true → x.ulAlloc = true → x.ulMask ≠ 0 →
    x.ulFirstFn = s.rxFirst l → x.ciphUl.algo = 0 →
    ∃ t y, execIn P .rxBurst s = .next t ∧ (P = Config.inst → exec .rxBurst s = .next t) ∧
    t.stat = Stat.ok ∧ y = t.chan s.rxind.slot ch ∧ y.ulMask = 0 ∧ y.ulAlloc = true ∧
    y.nproc = x.nproc + 1 ∧ y.lastFn = s.rxind.fn ∧
    (∀ (pdu : List Byte) (h : List UBit), x.ulMask = 0x07 → pdu.length = 23 → h.length = 8 →
      x.ulBuf.take 348 ++ unwrap s.rxind.bits.toList =
        softAll (blockBursts .x4 (controlCoded pdu) h) →
      y.nlost = x.nlost ∧
      t.evq = s.evq ++ [.dataInd s.rxind.slot ch x.ulFirstFn pdu
        (BitVec.ofInt 8 (avg y.rssiSum y.rssiNum)) (BitVec.ofInt 16 (avg y.toaSum y.toaNum))
        (BitVec.ofInt 16 (avg y.ciSum y.ciNum)) (decide (0 < y.ciNum.toNat)) 0 0]) ∧
    (∀ (d d' h : List UBit) (j : Nat), x.ulMask = 0x07 → d.length = 184 → h.length = 8 →
      DifferAt j d d' →
      x.ulBuf.take 348 ++ unwrap s.rxind.bits.toList =
        softAll (blockBursts .x4 (convEnc xcchCode (infoWord d' (crcGen .fire40 d))) h) →
      y.nlost = x.nlost + 4 ∧ t.evq = s.evq) ∧
    (x.ulMask ||| 0x08 ≠ 0x0F → ∃ rest, rest.length ≤ 1 ∧
      t.evq = s.evq ++ [.log .incomplete s.rxind.slot ch x.ulFirstFn] ++ rest))

/-- A random-access burst in every instance and whatever the tie-break is (R276). What `RACH.DEC` under the
block's identity code makes of the 36 coded positions decides: a success is one `DATAIND` with its byte, its
error rate and the indication's own metrics, anything else is no event and one lost burst; either counts as
processed, and no other channel state changes. In particular a clean request under the block's identity code is
delivered, and one under another identity code is lost. -/
def Obligations.RxAccessBurst : Prop :=
  ∀ (P : Params) (s : State) (l : Layout) (ch : Chan) (bid : Fin 8) (x seen : ChanState),
    s.RoutedTo P l ch bid → ulFamily ch = .rach → s.isActive s.rxind.slot ch = true →
    x = s.chan s.rxind.slot ch →
    seen = { x with nproc := x.nproc + 1, lastFn := s.rxind.fn, lastValid := true } →
    ∃ t, execIn P .rxBurst s = .next t ∧ (P = Config.inst → exec .rxBurst s = .next t) ∧
    t.stat = Stat.ok ∧
    (∀ (k : Tn) (c : Chan), ¬(k = s.rxind.slot ∧ c = ch) → t.chan k c = s.chan k c) ∧
    (∀ d u : State, d.softC = accessBits s.rxind.bits.toList →
      execIn P (.rachDec s.bsic) d = .next u →
      (u.stat = Stat.ok → u.pdu.length = 1 ∧ t.chan s.rxind.slot ch = seen ∧
        t.evq = s.evq ++ [.dataInd s.rxind.slot ch s.rxind.fn u.pdu s.rxind.rssi s.rxind.toa256
          (if s.rxind.hasCi then s.rxind.ci else 0) s.rxind.hasCi
          (BitVec.ofNat 16 (ber10k u.res.nerr.toNat u.res.nbits.toNat)) 0]) ∧
      (u.stat ≠ Stat.ok → t.chan s.rxind.slot ch = { seen with nlost := x.nlost + 1 } ∧
        t.evq = s.evq)) ∧
    (∀ (ra : Byte) (bsic : BitVec 6),
      accessBits s.rxind.bits.toList = softAll (rachCoded bsic (unpackLsb [ra] 8)) →
      (bsic = s.bsic → t.chan s.rxind.slot ch = seen ∧
        t.evq = s.evq ++ [.dataInd s.rxind.slot ch s.rxind.fn [ra] s.rxind.rssi s.rxind.toa256
          (if s.rxind.hasCi then s.rxind.ci else 0) s.rxind.hasCi 0 0]) ∧
      (bsic ≠ s.bsic → t.chan s.rxind.slot ch = { seen with nlost := x.nlost + 1 } ∧
        t.evq = s.evq))

/-! ### Whole-machine rules -/

/-- The footprints (R290, 20_memory.md R76): no command writes the mailboxes, the window selector or the
host's side; a unit or codec command leaves the whole scheduler state; a control command leaves every
timeslot it does not name; `RX.BURST` writes no channel state but the one it routes to, and no queue,
timeslot register or clock. The spec marks R290 as its own inference from R255 to R285. -/
def Obligations.Footprints : Prop :=
  ∀ (i : Instr) (s t : State), exec i s = .next t →
    (t.prm = s.prm ∧ t.rxind = s.rxind ∧ t.csselTn = s.csselTn ∧ t.csselCh = s.csselCh ∧
      t.host = s.host ∧ t.hostRead = s.hostRead) ∧
    (isCodecCommand i = true → t.fn = s.fn ∧ t.fnValid = s.fnValid ∧ t.bsic = s.bsic ∧ t.ts = s.ts ∧
      t.cs = s.cs ∧ t.q = s.q ∧ t.evq = s.evq ∧ t.allocs = s.allocs) ∧
    (∀ tn : Tn, namedSlot i = some tn → t.fn = s.fn ∧ t.fnValid = s.fnValid ∧ t.bsic = s.bsic ∧
      t.evq = s.evq ∧ t.mem = s.mem ∧ t.res = s.res ∧ t.wamr = s.wamr ∧
      ∀ k : Tn, k ≠ tn → t.ts.get k = s.ts.get k ∧
        ∀ ch : Chan, t.chan k ch = s.chan k ch ∧ t.queue k ch = s.queue k ch) ∧
    (i = .rxBurst → t.fn = s.fn ∧ t.fnValid = s.fnValid ∧ t.bsic = s.bsic ∧ t.ts = s.ts ∧ t.q = s.q ∧
      s.evq <+: t.evq ∧
      ∀ (k : Tn) (ch : Chan),
        (∀ l bid, ¬(s.RoutedTo Config.inst l ch bid ∧ k = s.rxind.slot)) →
        t.chan k ch = s.chan k ch)

/-- The effective mode and cipher copies of a channel in every instance (R266, R339): every command leaves
them, but `RX.BURST` on a burst of the channel that begins an uplink block (R271 (a); also where the buffer
is first allocated, R270 (7)), which loads the uplink ones from the pending copies; `TICK` in the frame of
burst 0 of the active channel, which loads the downlink ones; and the commands that return the whole channel
state to zero. The spec marks R339 as its own inference. -/
def Obligations.EffectiveCopies : Prop :=
  ∀ (P : Params) (i : Instr) (s t : State) (tn : Tn) (ch : Chan),
    (execIn P i s = .next t ∨ (P = Config.inst ∧ exec i s = .next t)) →
    (((t.chan tn ch).modeUl = (s.chan tn ch).modeUl ∧ (t.chan tn ch).ciphUl = (s.chan tn ch).ciphUl) ∨
      (i = .rxBurst ∧ tn = s.rxind.slot ∧ s.isActive tn ch = true ∧
        (∃ l bid, s.RoutedTo P l ch bid ∧ (bid = 0 ∨ (s.chan tn ch).ulAlloc = false ∨
          (s.chan tn ch).ulMask = 0 ∨ (s.chan tn ch).ulFirstFn ≠ s.rxFirst l)) ∧
        (t.chan tn ch).modeUl = (s.chan tn ch).modeP ∧
        (t.chan tn ch).ciphUl = (s.chan tn ch).ciphUlP) ∨
      (t.chan tn ch = ChanState.zero ∧ (i = .schedInit ∨ (∃ p c, i = .setPchan tn p c) ∨
        ∃ c k, i = .chDeact tn c k ∧ ch ∈ targets c k))) ∧
    (((t.chan tn ch).modeDl = (s.chan tn ch).modeDl ∧ (t.chan tn ch).ciphDl = (s.chan tn ch).ciphDl) ∨
      ((∃ fn l, i = .tick fn ∧ s.layout P tn = some l ∧ (l.slot fn.toNat).dlChan = ch ∧
          (l.slot fn.toNat).dlBid = 0 ∧ dlFamily ch ∈ [.xcch, .pdtch, .tch]) ∧
        s.isActive tn ch = true ∧ (t.chan tn ch).modeDl = (s.chan tn ch).modeP ∧
        (t.chan tn ch).ciphDl = (s.chan tn ch).ciphDlP) ∨
      (t.chan tn ch = ChanState.zero ∧ (i = .schedInit ∨ (∃ p c, i = .setPchan tn p c) ∨
        ∃ c k, i = .chDeact tn c k ∧ ch ∈ targets c k)))

/-- Frame numbers in a well-formed layout (R251, R252, R287 (a), (b)): the slot of a frame depends on the
frame number modulo the period, also across the wrap of the hyperframe; and the first frame of an uplink
block is the nearest one, at most `period - 1` frames back, that carries burst 0 of the channel. The spec
marks R287 as its own inference from R251 and R252. -/
def Obligations.FrameNumberLaws : Prop :=
  (∀ (l : Layout) (fn n : Nat), l.wf = true → fn < HYPER →
    fnAdd fn n % l.period = (fn % l.period + n) % l.period ∧
    l.slot (fnAdd fn n) = l.slots.getD ((fn % l.period + n) % l.period) idleSlot) ∧
  (∀ (l : Layout) (fn : Nat), l.wf = true → fn < HYPER → (l.slot fn).ulChan ≠ chIdle →
    ulFirstFn l fn < HYPER ∧ fnSub fn (ulFirstFn l fn) < l.period ∧
    (l.slot (ulFirstFn l fn)).ulChan = (l.slot fn).ulChan ∧ (l.slot (ulFirstFn l fn)).ulBid = 0 ∧
    ∀ k, k < fnSub fn (ulFirstFn l fn) →
      ¬((l.slot (fnSub fn k)).ulChan = (l.slot fn).ulChan ∧ (l.slot (fnSub fn k)).ulBid = 0))

/-- Every step keeps the memory's canonical form, from every state that has it: lengths and contents within
the capacities of 10_state.md R51, one form for one content (log 5). -/
def Obligations.StepKeepsMemory : Prop :=
  ∀ s t : State, s.MemInv → step s = .next t → t.MemInv

/-- Every step keeps the scheduler's shape, from every state that has it and the memory's form: frame numbers
below `HYPER` (R21), legal configuration codes (R43), bursts received only into an allocated buffer (R270),
codec lists of at most eight modes (R26, R37), queues of at most `QDEPTH` elements of at most 64 bytes
(R44). That an uplink buffer has all its 928 elements while allocated, a downlink buffer exactly the
`116*nb_dl` that R34 calls used, and both none otherwise is the model's form of R33 and R34 (DESIGN CHOICE,
log 19). -/
def Obligations.StepKeepsScheduler : Prop :=
  ∀ s t : State, s.MemInv → s.SchedInv Config.inst → step s = .next t → t.SchedInv Config.inst

/-- The reset state has the memory's form and the scheduler's shape (R66). -/
def Obligations.ResetInvariants : Prop :=
  State.reset.MemInv ∧ State.reset.SchedInv Config.inst

/-! ### The data window -/

/-- A host read (20_memory.md R73 to R75) changes nothing but the value it returns. A 4-byte read of every row
of the map returns the fields the map names: the global registers, `RES`, `WAMR`, the lengths, the mailboxes,
the working buffers below their lengths, the head event by its kind, the timeslots, and the channel state
that `CSSEL` selects; write-only rows and reserved offsets read 0. A narrower read returns the bytes at its
offsets; a misaligned read or one of another width faults. The accesses are the model's form of them (log 1);
nothing is said of bits that the map does not name (log 8, log 9), of elements at or above a length (log 11),
of `RXIND.BITS` beyond `NBITS` (log 26) or of a queue fill above 65535 (log 20). Capacities (R51) are a
premise where lengths are read: `State.MemInv`. -/
def Obligations.WindowReads : Prop :=
  (∀ (s : State) (rest : List HostAccess) (off : BitVec 16) (n : Nat),
    s.host = .read off n :: rest → n ∈ [1, 2, 4] → off.toNat % n = 0 → ∃ t, step s = .next t ∧
    t = { s with host := rest, hostRead := t.hostRead, free := t.free } ∧
    (∀ t4, step { s with host := .read (BitVec.ofNat 16 (off.toNat - off.toNat % 4)) 4 :: rest } =
        .next t4 → ∀ j, j < 4 → t.hostRead.extractLsb' (8 * j) 8 =
      if j < n then t4.hostRead.extractLsb' (8 * (off.toNat % 4 + j)) 8 else 0)) ∧
  (∀ (s : State) (rest : List HostAccess) (off : BitVec 16) (n : Nat),
    s.host = .read off n :: rest → (n ∉ [1, 2, 4] ∨ off.toNat % n ≠ 0) →
    step s = .fault .badAccess) ∧
  (∀ (s t : State) (rest : List HostAccess) (off : BitVec 16) (w : Word),
    s.host = .read off 4 :: rest → step s = .next t → w = t.hostRead →
    (off = 0x0000 ∨ off = 0x0054 → w = 0) ∧
    (¬inRows writableRows off.toNat → ¬inRows readOnlyRows off.toNat → w = 0) ∧
    (off = 0x0004 → w.extractLsb' 0 8 = s.stat.code ∧ w.extractLsb' 8 16 = s.stat.aux ∧
      w.extractLsb' 24 8 = 0) ∧
    (off = 0x0008 → w.extractLsb' 0 22 = s.fn ∧ w.getLsbD 31 = s.fnValid) ∧
    (off = 0x000C → w.extractLsb' 0 6 = s.bsic) ∧
    (off = 0x0010 → w.extractLsb' 0 16 = s.res.nerr ∧ w.extractLsb' 16 16 = s.res.nbits) ∧
    (off = 0x0014 → w.extractLsb' 0 3 = s.res.usf ∧ w.extractLsb' 4 3 = s.res.cs ∧
      w.extractLsb' 8 3 = s.res.ft ∧ w.extractLsb' 12 3 = s.res.cmr ∧
      w.getLsbD 16 = s.res.steal) ∧
    (off = 0x0018 → w.extractLsb' 0 8 = s.res.idx ∧ w.extractLsb' 16 16 = s.res.dist) ∧
    (off = 0x001C → w.extractLsb' 0 4 = s.wamr.n ∧ w.extractLsb' 4 3 = s.wamr.ft ∧
      w.extractLsb' 8 3 = s.wamr.cmr) ∧
    (off = 0x0020 → ∀ k, k < 8 → w.extractLsb' (4 * k) 3 = listAt s.wamr.list k) ∧
    (s.MemInv →
      (off = 0x0024 → (w.extractLsb' 0 7).toNat = s.mem.pdu.len ∧
        (w.extractLsb' 8 6).toNat = s.mem.par.len ∧ (w.extractLsb' 16 5).toNat = s.mem.h.len ∧
        (w.extractLsb' 24 5).toNat = s.mem.hs.len) ∧
      (off = 0x0028 → (w.extractLsb' 0 10).toNat = s.mem.u.len ∧
        (w.extractLsb' 16 11).toNat = s.mem.c.len) ∧
      (off = 0x002C → (w.extractLsb' 0 11).toNat = s.mem.cs.len ∧
        (w.extractLsb' 16 10).toNat = s.mem.i.len) ∧
      (off = 0x0030 → (w.extractLsb' 0 10).toNat = s.mem.is.len ∧
        (w.extractLsb' 16 10).toNat = s.mem.e.len) ∧
      (off = 0x0034 → (w.extractLsb' 0 10).toNat = s.mem.es.len)) ∧
    (∀ j k, k < 16 → ByteOfRow off j 0x0040 k → w.extractLsb' (8 * j) 8 = s.prmAt k) ∧
    (off = 0x0050 → w.toNat = min s.evq.length 4294967295) ∧
    (∀ j k, k < 64 → k < s.mem.pdu.len → ByteOfRow off j 0x0080 k →
      w.extractLsb' (8 * j) 8 = s.mem.pdu.get Config.freeByte k) ∧
    (∀ (b : HardBuf) (j k : Nat), k < b.cap → k < (b.of s.mem).len → ByteOfRow off j b.base k →
      w.extractLsb' (8 * j) 8 = BitVec.ofNat 8 ((b.of s.mem).get Config.freeBit k).toNat) ∧
    (∀ (b : SoftBuf) (j k : Nat), k < b.cap → k < (b.of s.mem).len → ByteOfRow off j b.base k →
      w.extractLsb' (8 * j) 8 = ((b.of s.mem).get Config.freeSoft k).val) ∧
    (off = 0x1C00 → w.extractLsb' 0 22 = s.rxind.fn) ∧
    (off = 0x1C04 → w.extractLsb' 0 3 = s.rxind.tn ∧ w.extractLsb' 4 3 = s.rxind.present ∧
      w.getLsbD 8 = s.rxind.mod ∧ w.extractLsb' 16 8 = s.rxind.tscinfo) ∧
    (off = 0x1C08 → w.extractLsb' 0 16 = s.rxind.toa256 ∧ w.extractLsb' 16 8 = s.rxind.rssi) ∧
    (off = 0x1C0C → w.extractLsb' 0 16 = s.rxind.ci ∧ w.extractLsb' 16 9 = s.rxind.nbits) ∧
    (∀ (j k : Nat) (b : SBit), k < s.rxind.nbits.toNat → s.rxind.bits[k]? = some b →
      ByteOfRow off j 0x1C40 k → w.extractLsb' (8 * j) 8 = b.val) ∧
    (s.evq = [] → off = 0x2000 → w.extractLsb' 0 8 = 0) ∧
    (∀ fn tn att bits es, s.evq = .txReq fn tn att bits :: es →
      (off = 0x2000 → w.extractLsb' 0 8 = 1 ∧ w.extractLsb' 8 3 = BitVec.ofNat 3 tn.val) ∧
      (off = 0x2004 → w.extractLsb' 0 22 = fn) ∧
      (off = 0x2008 → w.extractLsb' 0 16 = BitVec.ofNat 16 bits.length ∧
        w.extractLsb' 16 8 = att) ∧
      (∀ (j k : Nat) (b : UBit), k < 444 → bits[k]? = some b → ByteOfRow off j 0x2040 k →
        w.extractLsb' (8 * j) 8 = BitVec.ofNat 8 b.toNat)) ∧
    (∀ tn ch fn bytes rssi toa lq lqv ber aux es,
      s.evq = .dataInd tn ch fn bytes rssi toa lq lqv ber aux :: es →
      (off = 0x2000 → w.extractLsb' 0 8 = 2 ∧ w.extractLsb' 8 3 = BitVec.ofNat 3 tn.val ∧
        w.extractLsb' 16 6 = BitVec.ofNat 6 ch.val) ∧
      (off = 0x2004 → w.extractLsb' 0 22 = fn) ∧
      (off = 0x2008 → w.extractLsb' 0 16 = BitVec.ofNat 16 bytes.length ∧
        w.extractLsb' 16 8 = aux) ∧
      (off = 0x200C → w.extractLsb' 0 8 = rssi ∧ w.extractLsb' 16 16 = toa) ∧
      (off = 0x2010 → w.extractLsb' 0 16 = lq ∧ w.getLsbD 16 = lqv) ∧
      (off = 0x2014 → w.extractLsb' 0 16 = ber) ∧
      (∀ (j k : Nat) (b : Byte), k < 444 → bytes[k]? = some b → ByteOfRow off j 0x2040 k →
        w.extractLsb' (8 * j) 8 = b)) ∧
    (∀ tn ch fn es, s.evq = .rtsInd tn ch fn :: es →
      (off = 0x2000 → w.extractLsb' 0 8 = 3 ∧ w.extractLsb' 8 3 = BitVec.ofNat 3 tn.val ∧
        w.extractLsb' 16 6 = BitVec.ofNat 6 ch.val) ∧
      (off = 0x2004 → w.extractLsb' 0 22 = fn)) ∧
    (∀ code tn ch fn es, s.evq = .log code tn ch fn :: es →
      (off = 0x2000 → w.extractLsb' 0 8 = 4 ∧ w.extractLsb' 8 3 = BitVec.ofNat 3 tn.val ∧
        w.extractLsb' 16 6 = BitVec.ofNat 6 ch.val ∧ w.extractLsb' 24 8 = code.code) ∧
      (off = 0x2004 → w.extractLsb' 0 22 = fn)) ∧
    (∀ tn ch fn idx es, s.evq = .modeInd tn ch fn idx :: es →
      (off = 0x2000 → w.extractLsb' 0 8 = 5 ∧ w.extractLsb' 8 3 = BitVec.ofNat 3 tn.val ∧
        w.extractLsb' 16 6 = BitVec.ofNat 6 ch.val) ∧
      (off = 0x2004 → w.extractLsb' 0 22 = fn) ∧ (off = 0x2008 → w.extractLsb' 16 8 = idx)) ∧
    (∀ tn : Tn, off.toNat = 0x4000 + 4 * tn.val → w.extractLsb' 0 4 = (s.ts.get tn).pchan ∧
      w.extractLsb' 4 3 = (s.ts.get tn).tsc ∧ w.extractLsb' 8 8 = (s.ts.get tn).att) ∧
    (off = 0x8000 → w.extractLsb' 0 3 = s.csselTn ∧ w.extractLsb' 8 6 = s.csselCh) ∧
    (38 < s.csselCh.toNat → 0x8004 ≤ off.toNat → off.toNat < 0x9000 → w = 0) ∧
    (∀ (tn : Tn) (ch : Chan) (x : ChanState), tn.val = s.csselTn.toNat → ch.val = s.csselCh.toNat →
      x = s.chan tn ch →
      (off = 0x8004 → w.getLsbD 0 = x.active ∧ w.getLsbD 1 = x.ulAlloc ∧
        w.getLsbD 2 = x.dlAlloc ∧ w.getLsbD 3 = x.ulSync ∧ w.getLsbD 4 = x.lastValid ∧
        w.getLsbD 5 = x.dlMod ∧ w.extractLsb' 8 8 = x.ulMask ∧
        ((s.queue tn ch).length < 65536 →
          (w.extractLsb' 16 16).toNat = (s.queue tn ch).length)) ∧
      (off = 0x8008 → w.extractLsb' 0 22 = x.ulFirstFn) ∧
      (off = 0x800C → w.extractLsb' 0 22 = x.lastFn) ∧
      (off = 0x8010 → w = x.nproc) ∧ (off = 0x8014 → w = x.nlost) ∧
      (off = 0x8018 → w = x.rssiSum) ∧ (off = 0x801C → w.extractLsb' 0 8 = x.rssiNum) ∧
      (off = 0x8020 → w = x.toaSum) ∧ (off = 0x8024 → w.extractLsb' 0 8 = x.toaNum) ∧
      (off = 0x8028 → w = x.ciSum) ∧ (off = 0x802C → w.extractLsb' 0 8 = x.ciNum) ∧
      (∀ (a : BitVec 16) (m : Mode),
        (a, m) ∈ [(0x8030#16, x.modeP), (0x8034#16, x.modeUl), (0x8038#16, x.modeDl)] →
        (off = a → w.extractLsb' 0 8 = m.rslCmode ∧ w.extractLsb' 8 8 = m.tchMode.code ∧
          w.extractLsb' 16 4 = m.amrN) ∧
        (off = a + 12 → ∀ k, k < 8 → w.extractLsb' (4 * k) 3 = listAt m.amrList k)) ∧
      (off = 0x8048 → w.extractLsb' 0 3 = x.ulFt ∧ w.extractLsb' 4 3 = x.ulCmr ∧
        w.extractLsb' 8 3 = x.dlFt ∧ w.extractLsb' 12 3 = x.dlCmr) ∧
      (∀ (i j : Nat) (c : Cipher), [x.ciphUlP, x.ciphUl, x.ciphDlP, x.ciphDl][i]? = some c →
        (ByteOfRow off j 0x8050 (9 * i) → w.extractLsb' (8 * j) 8 = c.algo.setWidth 8) ∧
        (∀ (k : Nat) (b : Byte), c.key[k]? = some b → ByteOfRow off j 0x8050 (9 * i + 1 + k) →
          w.extractLsb' (8 * j) 8 = b)) ∧
      (∀ j k, k < 928 → ByteOfRow off j 0x8400 k →
        (x.ulAlloc = false → w.extractLsb' (8 * j) 8 = 0) ∧
        (∀ b, x.ulAlloc = true → x.ulBuf[k]? = some b → w.extractLsb' (8 * j) 8 = b.val)) ∧
      (∀ j k, k < 928 → ByteOfRow off j 0x8800 k →
        (x.dlAlloc = false → w.extractLsb' (8 * j) 8 = 0) ∧
        (∀ b, x.dlAlloc = true → x.dlBuf[k]? = some b →
          w.extractLsb' (8 * j) 8 = BitVec.ofNat 8 b.toNat))))

/-- Host writes (R73 to R76), row by row. A write of 1, 2 or 4 bytes to `PDU`, to a buffer of hard bits, to a
buffer of soft bits, to `PRM` or to `RXIND.BITS` gives those elements their values and leaves the other
elements and the length; a `ubit` above 1 and the `sbit` -128 fault. A 4-byte write of `LEN0` to `LEN4` sets
the lengths, keeping every element below both the old and the new length and, where a length is raised,
every element, and a length above its capacity faults; one of `RXIND` or `CSSEL` sets the fields. A narrower
write of these registers is the 4-byte write that keeps the row's other bytes. Any write of `EVQ_POP` removes
the head event. A write of any other row or of a reserved offset changes nothing; a malformed write and a
narrow one of `CMD` fault. The accesses, the reading of narrow writes, and that `RXIND.BITS` keeps elements
at or above `NBITS` are the model's (log 1, log 10, log 26). -/
def Obligations.WindowWrites : Prop :=
  (∀ (s : State) (rest : List HostAccess) (n k : Nat) (v : Word), k < 64 → n ∈ [1, 2, 4] →
    k % n = 0 → s.host = .write (BitVec.ofNat 16 (0x0080 + k)) n v :: rest →
    ∃ t, step s = .next t ∧
    (∀ j, j < n → t.mem.pdu.get Config.freeByte (k + j) = v.extractLsb' (8 * j) 8) ∧
    (∀ i, i < k ∨ k + n ≤ i →
      t.mem.pdu.get Config.freeByte i = s.mem.pdu.get Config.freeByte i) ∧
    t.mem.pdu.len = s.mem.pdu.len ∧
    t = { s with host := rest, mem := { s.mem with pdu := t.mem.pdu } }) ∧
  (∀ (b : HardBuf) (s : State) (rest : List HostAccess) (n k : Nat) (v : Word), k < b.cap →
    n ∈ [1, 2, 4] → k % n = 0 → s.host = .write (BitVec.ofNat 16 (b.base + k)) n v :: rest →
    ((∀ j, j < n → (v.extractLsb' (8 * j) 8).toNat ≤ 1) → ∃ t, step s = .next t ∧
      (∀ j, j < n → (b.of t.mem).get Config.freeBit (k + j) = v.getLsbD (8 * j)) ∧
      (∀ i, i < k ∨ k + n ≤ i →
        (b.of t.mem).get Config.freeBit i = (b.of s.mem).get Config.freeBit i) ∧
      (b.of t.mem).len = (b.of s.mem).len ∧
      t = { s with host := rest, mem := b.into s.mem (b.of t.mem) }) ∧
    ((∃ j, j < n ∧ 1 < (v.extractLsb' (8 * j) 8).toNat) → step s = .fault .badValue)) ∧
  (∀ (b : SoftBuf) (s : State) (rest : List HostAccess) (n k : Nat) (v : Word), k < b.cap →
    n ∈ [1, 2, 4] → k % n = 0 → s.host = .write (BitVec.ofNat 16 (b.base + k)) n v :: rest →
    ((∀ j, j < n → v.extractLsb' (8 * j) 8 ≠ 0x80) → ∃ t, step s = .next t ∧
      (∀ j, j < n → ((b.of t.mem).get Config.freeSoft (k + j)).val = v.extractLsb' (8 * j) 8) ∧
      (∀ i, i < k ∨ k + n ≤ i →
        (b.of t.mem).get Config.freeSoft i = (b.of s.mem).get Config.freeSoft i) ∧
      (b.of t.mem).len = (b.of s.mem).len ∧
      t = { s with host := rest, mem := b.into s.mem (b.of t.mem) }) ∧
    ((∃ j, j < n ∧ v.extractLsb' (8 * j) 8 = 0x80) → step s = .fault .badValue)) ∧
  (∀ (s : State) (rest : List HostAccess) (n k : Nat) (v : Word), k < 16 → n ∈ [1, 2, 4] →
    k % n = 0 → s.host = .write (BitVec.ofNat 16 (0x0040 + k)) n v :: rest →
    ∃ t, step s = .next t ∧ (∀ j, j < n → t.prmAt (k + j) = v.extractLsb' (8 * j) 8) ∧
    (∀ i, i < k ∨ k + n ≤ i → t.prmAt i = s.prmAt i) ∧
    t = { s with host := rest, prm := t.prm }) ∧
  (∀ (s : State) (rest : List HostAccess) (n k : Nat) (v : Word), k < 444 → n ∈ [1, 2, 4] →
    k % n = 0 → s.host = .write (BitVec.ofNat 16 (0x1C40 + k)) n v :: rest →
    ((∀ j, j < n → v.extractLsb' (8 * j) 8 ≠ 0x80) → ∃ t, step s = .next t ∧
      (∀ j, j < n → t.rxind.bits[k + j]?.map SBit.val = some (v.extractLsb' (8 * j) 8)) ∧
      (∀ i : Nat, i < k ∨ k + n ≤ i → t.rxind.bits[i]? = s.rxind.bits[i]?) ∧
      t = { s with host := rest, rxind := { s.rxind with bits := t.rxind.bits } }) ∧
    ((∃ j, j < n ∧ v.extractLsb' (8 * j) 8 = 0x80) → step s = .fault .badValue)) ∧
  (∀ (s : State) (rest : List HostAccess) (v : Word), s.host = .write 0x0024 4 v :: rest →
    ((v.extractLsb' 0 7).toNat ≤ 64 → (v.extractLsb' 8 6).toNat ≤ 40 →
      (v.extractLsb' 16 5).toNat ≤ 16 → (v.extractLsb' 24 5).toNat ≤ 16 → ∃ t, step s = .next t ∧
      LenSet Config.freeByte s.mem.pdu t.mem.pdu (v.extractLsb' 0 7).toNat ∧
      LenSet Config.freeBit s.mem.par t.mem.par (v.extractLsb' 8 6).toNat ∧
      LenSet Config.freeBit s.mem.h t.mem.h (v.extractLsb' 16 5).toNat ∧
      LenSet Config.freeSoft s.mem.hs t.mem.hs (v.extractLsb' 24 5).toNat ∧
      t = { s with
        host := rest, free := t.free
        mem := { s.mem with
          pdu := t.mem.pdu, par := t.mem.par, h := t.mem.h, hs := t.mem.hs } }) ∧
    (64 < (v.extractLsb' 0 7).toNat ∨ 40 < (v.extractLsb' 8 6).toNat ∨
      16 < (v.extractLsb' 16 5).toNat ∨ 16 < (v.extractLsb' 24 5).toNat →
      step s = .fault .badValue)) ∧
  (∀ (s : State) (rest : List HostAccess) (v : Word), s.host = .write 0x0028 4 v :: rest →
    ((v.extractLsb' 0 10).toNat ≤ 512 → (v.extractLsb' 16 11).toNat ≤ 1024 →
      ∃ t, step s = .next t ∧
      LenSet Config.freeBit s.mem.u t.mem.u (v.extractLsb' 0 10).toNat ∧
      LenSet Config.freeBit s.mem.c t.mem.c (v.extractLsb' 16 11).toNat ∧
      t = { s with
        host := rest, free := t.free, mem := { s.mem with u := t.mem.u, c := t.mem.c } }) ∧
    (512 < (v.extractLsb' 0 10).toNat ∨ 1024 < (v.extractLsb' 16 11).toNat →
      step s = .fault .badValue)) ∧
  (∀ (s : State) (rest : List HostAccess) (v : Word), s.host = .write 0x002C 4 v :: rest →
    ((v.extractLsb' 0 11).toNat ≤ 1024 → (v.extractLsb' 16 10).toNat ≤ 912 →
      ∃ t, step s = .next t ∧
      LenSet Config.freeSoft s.mem.cs t.mem.cs (v.extractLsb' 0 11).toNat ∧
      LenSet Config.freeBit s.mem.i t.mem.i (v.extractLsb' 16 10).toNat ∧
      t = { s with
        host := rest, free := t.free, mem := { s.mem with cs := t.mem.cs, i := t.mem.i } }) ∧
    (1024 < (v.extractLsb' 0 11).toNat ∨ 912 < (v.extractLsb' 16 10).toNat →
      step s = .fault .badValue)) ∧
  (∀ (s : State) (rest : List HostAccess) (v : Word), s.host = .write 0x0030 4 v :: rest →
    ((v.extractLsb' 0 10).toNat ≤ 912 → (v.extractLsb' 16 10).toNat ≤ 928 →
      ∃ t, step s = .next t ∧
      LenSet Config.freeSoft s.mem.is t.mem.is (v.extractLsb' 0 10).toNat ∧
      LenSet Config.freeBit s.mem.e t.mem.e (v.extractLsb' 16 10).toNat ∧
      t = { s with
        host := rest, free := t.free, mem := { s.mem with is := t.mem.is, e := t.mem.e } }) ∧
    (912 < (v.extractLsb' 0 10).toNat ∨ 928 < (v.extractLsb' 16 10).toNat →
      step s = .fault .badValue)) ∧
  (∀ (s : State) (rest : List HostAccess) (v : Word), s.host = .write 0x0034 4 v :: rest →
    ((v.extractLsb' 0 10).toNat ≤ 928 → ∃ t, step s = .next t ∧
      LenSet Config.freeSoft s.mem.es t.mem.es (v.extractLsb' 0 10).toNat ∧
      t = { s with host := rest, free := t.free, mem := { s.mem with es := t.mem.es } }) ∧
    (928 < (v.extractLsb' 0 10).toNat → step s = .fault .badValue)) ∧
  (∀ (s : State) (rest : List HostAccess) (v : Word),
    (s.host = .write 0x1C00 4 v :: rest → step s = .next { s with
      host := rest, rxind := { s.rxind with fn := v.extractLsb' 0 22 } }) ∧
    (s.host = .write 0x1C04 4 v :: rest → step s = .next { s with
      host := rest
      rxind := { s.rxind with
        tn := v.extractLsb' 0 3, present := v.extractLsb' 4 3, mod := v.getLsbD 8
        tscinfo := v.extractLsb' 16 8 } }) ∧
    (s.host = .write 0x1C08 4 v :: rest → step s = .next { s with
      host := rest
      rxind := { s.rxind with toa256 := v.extractLsb' 0 16, rssi := v.extractLsb' 16 8 } }) ∧
    (s.host = .write 0x1C0C 4 v :: rest → step s = .next { s with
      host := rest
      rxind := { s.rxind with ci := v.extractLsb' 0 16, nbits := v.extractLsb' 16 9 } }) ∧
    (s.host = .write 0x8000 4 v :: rest → step s = .next { s with
      host := rest, csselTn := v.extractLsb' 0 3, csselCh := v.extractLsb' 8 6 })) ∧
  (∀ (s t4 : State) (rest : List HostAccess) (base : BitVec 16) (n j : Nat) (v w : Word),
    base ∈ [0x0024#16, 0x0028#16, 0x002C#16, 0x0030#16, 0x0034#16, 0x1C00#16, 0x1C04#16, 0x1C08#16,
      0x1C0C#16, 0x8000#16] → n ∈ [1, 2] → j % n = 0 → j + n ≤ 4 →
    step { s with host := .read base 4 :: rest } = .next t4 →
    (∀ i, i < 4 → w.extractLsb' (8 * i) 8 =
      if j ≤ i ∧ i < j + n then v.extractLsb' (8 * (i - j)) 8
      else t4.hostRead.extractLsb' (8 * i) 8) →
    step { s with host := .write (base + BitVec.ofNat 16 j) n v :: rest } =
      step { s with host := .write base 4 w :: rest }) ∧
  (∀ (s : State) (rest : List HostAccess) (off : BitVec 16) (n : Nat) (v : Word),
    s.host = .write off n v :: rest → 0x0054 ≤ off.toNat → off.toNat < 0x0058 → n ∈ [1, 2, 4] →
    off.toNat % n = 0 → step s = .next { s with host := rest, evq := s.evq.tail }) ∧
  (∀ (s : State) (rest : List HostAccess) (off : BitVec 16) (n : Nat) (v : Word),
    s.host = .write off n v :: rest → ¬inRows writableRows off.toNat → n ∈ [1, 2, 4] →
    off.toNat % n = 0 → step s = .next { s with host := rest }) ∧
  (∀ (s : State) (rest : List HostAccess) (off : BitVec 16) (n : Nat) (v : Word),
    s.host = .write off n v :: rest →
    n ∉ [1, 2, 4] ∨ off.toNat % n ≠ 0 ∨ (off.toNat < 4 ∧ ¬(off = 0 ∧ n = 4)) →
    step s = .fault .badAccess)
end

