-- ==== Sys2Proof/Laws/Functions.lean ====
section
/-! SUPPORT. The lengths of the vectors that the unit functions give. -/

namespace Sys2Proof.Machine

/-- The parity has the width of its configuration (R110). -/
@[simp] theorem crcGen_length (c : CrcSel) (d : List UBit) : (crcGen c d).length = crcWidth c := by
  simp [crcGen]

/-- Every step gives one bit per generator (R122). -/
theorem encodeFrom_length (c : Code) (reg : Nat) (u : List UBit) :
    (c.encodeFrom reg u).length = c.n * u.length := by
  induction u generalizing reg with
  | nil => simp [Code.encodeFrom]
  | cons x xs ih => simp [Code.encodeFrom, Code.outputs, Code.n, ih, Nat.mul_add]; omega

/-- The flush steps too (R122). -/
theorem flushFrom_length (c : Code) (steps reg : Nat) :
    (c.flushFrom steps reg).length = c.n * steps := by
  induction steps generalizing reg with
  | zero => simp [Code.flushFrom]
  | succ n ih => simp [Code.flushFrom, Code.outputs, Code.n, ih, Nat.mul_add]; omega

/-- The length of a convolutional encoding: `N * T` (R123 (a)). -/
theorem convEnc_length (c : Code) (u : List UBit) :
    (convEnc c u).length = c.n * c.steps u.length := by
  unfold convEnc Code.steps
  cases c.term <;> simp [encodeFrom_length, flushFrom_length, Nat.mul_add]

/-- A survivor's path of length `n`, if there is a survivor. -/
def Survivor.HasLength (n : Nat) (x : Survivor) : Prop := ∀ p, x = some p → p.2.length = n

/-- The better of two survivors has the length both have. -/
theorem better_hasLength {n : Nat} {tie : Bool} {x y : Survivor} (hx : Survivor.HasLength n x)
    (hy : Survivor.HasLength n y) : Survivor.HasLength n (better tie x y) := by
  intro p hp
  cases x with
  | none => exact hy p hp
  | some a =>
    cases y with
    | none => exact hx p hp
    | some b =>
      simp only [better] at hp
      split at hp
      · exact hx p hp
      · split at hp
        · exact hy p hp
        · split at hp
          · exact hy p hp
          · exact hx p hp

/-- The number of free bits a step adds to a path. -/
def StepKind.added : StepKind → Nat
  | .free => 1
  | .zero | .flush => 0

/-- An extended survivor has the free bit of its step. -/
theorem extend_hasLength {c : Code} {kind : StepKind} {chunk : List SBit} {n : Nat}
    {survivors : List Survivor} (h : ∀ x ∈ survivors, Survivor.HasLength n x) (w : Nat) :
    Survivor.HasLength (n + kind.added) (extend c kind chunk survivors w) := by
  intro p hp
  unfold extend at hp
  simp only [] at hp
  split at hp
  · cases hp
  · rename_i cost path hs
    have hl : path.length = n := by
      have hm : some (cost, path) ∈ survivors := by
        rw [List.getD_eq_getElem?_getD] at hs
        cases hq : survivors[w / 2]? with
        | none => rw [hq] at hs; cases hs
        | some q =>
          rw [hq] at hs
          simp only [Option.getD_some] at hs
          rw [← hs]
          exact List.mem_of_getElem? hq
      exact h _ hm (cost, path) rfl
    cases kind with
    | free =>
      simp only [Option.some.injEq] at hp
      rw [← hp]
      simp [StepKind.added, hl]
    | zero =>
      simp only [] at hp
      split at hp
      · cases hp
      · simp only [Option.some.injEq] at hp
        rw [← hp]
        simpa [StepKind.added] using hl
    | flush =>
      simp only [] at hp
      split at hp
      · cases hp
      · simp only [Option.some.injEq] at hp
        rw [← hp]
        simpa [StepKind.added] using hl

/-- The survivors after a trellis run carry the free bits of all its steps. -/
theorem trellis_hasLength (c : Code) (tie : Nat → Nat → Bool) (kinds : List StepKind) (k : Nat)
    (s : List SBit) (survivors : List Survivor) (n : Nat)
    (h : ∀ x ∈ survivors, Survivor.HasLength n x) :
    ∀ x ∈ trellis c tie kinds k s survivors,
      Survivor.HasLength (n + (kinds.map StepKind.added).sum) x := by
  induction kinds generalizing k s survivors n with
  | nil => simpa [trellis] using h
  | cons kind kinds ih =>
    have hs : ∀ x ∈ selectStep c (tie k) kind (s.take c.n) survivors,
        Survivor.HasLength (n + kind.added) x := by
      intro x hx
      simp only [selectStep, List.mem_map, List.mem_range] at hx
      obtain ⟨reg, -, rfl⟩ := hx
      exact better_hasLength (extend_hasLength h _) (extend_hasLength h _)
    have := ih (k + 1) (s.drop c.n) _ _ hs
    simpa [trellis, Nat.add_assoc] using this

/-- The best of survivors of one length has that length. -/
theorem bestOf_hasLength {n : Nat} (tie : Nat → Bool) (xs : List Survivor) (reg : Nat) (b : Survivor)
    (hb : Survivor.HasLength n b) (h : ∀ x ∈ xs, Survivor.HasLength n x) :
    Survivor.HasLength n (bestOf tie reg xs b) := by
  induction xs generalizing reg b with
  | nil => exact hb
  | cons x xs ih =>
    exact ih (reg + 1) _ (better_hasLength hb (h x (by simp))) (fun y hy => h y (by simp [hy]))

/-- The decoder returns `kd` bits, whatever it is given (R126). -/
@[simp] theorem convDec_length (tie : Nat → Nat → Bool) (c : Code) (s : List SBit) (kd : Nat) :
    (convDec tie c s kd).length = kd := by
  have hstart : ∀ x ∈ startSurvivors c, Survivor.HasLength 0 x := by
    intro x hx p hp
    simp only [startSurvivors, List.mem_cons, List.mem_replicate] at hx
    rcases hx with hx | hx
    · rw [hx] at hp; cases hp; rfl
    · rw [hx.2] at hp; cases hp
  have hk : ((stepKinds c s.length kd).map StepKind.added).sum = kd := by
    unfold stepKinds
    cases c.term <;> simp [StepKind.added]
  have h := bestOf_hasLength (tie (decodeSteps c s.length kd)) _ 0 none (fun p hp => by cases hp)
    (trellis_hasLength c tie (stepKinds c s.length kd) 0 s _ 0 hstart)
  rw [hk, Nat.zero_add] at h
  unfold convDec
  simp only []
  split
  · rename_i cost path heq
    simpa using h _ heq
  · simp

/-- The same with the instance's choice. -/
@[simp] theorem convDecP_length (P : Params) (c : Code) (s : List SBit) (kd : Nat) :
    (convDecP P c s kd).length = kd := convDec_length _ _ _ _

/-- A de-punctured vector has the length of the mask (R140). -/
@[simp] theorem depunct_length (m : Mask) (s : List SBit) : (depunct m s).length = m.full := by
  have h : ∀ (ks : List Bool) (xs : List SBit), (depunctKeep ks xs).length = ks.length := by
    intro ks
    induction ks with
    | nil => intro xs; rfl
    | cons k ks ih => intro xs; cases k <;> cases xs <;> simp [depunctKeep, ih]
  exact h m.keep s

/-- A punctured vector is no longer than the vector (R140). -/
theorem punct_length_le {α : Type} (m : Mask) (xs : List α) : (punct m xs).length ≤ xs.length := by
  have h : ∀ (ks : List Bool) (xs : List α), (punctKeep ks xs).length ≤ xs.length := by
    intro ks
    induction ks with
    | nil => intro xs; simp [punctKeep]
    | cons k ks ih =>
      intro xs
      cases xs with
      | nil => simp [punctKeep]
      | cons x xs =>
        have := ih xs
        cases k <;> simp [punctKeep] <;> omega
  exact h m.keep xs

/-- A punctured vector of the mask's length has its kept length (R140). -/
theorem punct_length {α : Type} (m : Mask) (xs : List α) (h : xs.length = m.full) :
    (punct m xs).length = m.kept := punctKeep_length _ _ h.symm

/-- The interleaver's writes keep the length. -/
theorem ilvWrite_length (sel : ISel) (k : Nat) (c out : List UBit) :
    (ilvWrite sel k c out).length = out.length := by
  induction c generalizing k out with
  | nil => rfl
  | cons x xs ih => simp [ilvWrite, ih]

/-- An interleaved block has 114 positions a burst (R153). -/
@[simp] theorem interleave_length (sel : ISel) (c : List UBit) :
    (interleave sel c).length = 114 * nbiOf sel := by
  simp [interleave, ilvWrite_length]

/-- A de-interleaved block has 456 positions (R154). -/
@[simp] theorem deinterleave_length (sel : ISel) (s : List SBit) :
    (deinterleave sel s).length = 456 := by
  simp [deinterleave]

/-- The length of concatenated pieces of one bounded length. -/
theorem flatMap_length_le {α β : Type} (xs : List α) (f : α → List β) (n : Nat)
    (h : ∀ x ∈ xs, (f x).length ≤ n) : (xs.flatMap f).length ≤ n * xs.length := by
  induction xs with
  | nil => simp
  | cons x xs ih =>
    have h1 := h x (by simp)
    have h2 := ih fun y hy => h y (by simp [hy])
    rw [List.flatMap_cons, List.length_append, List.length_cons, Nat.mul_succ]
    omega

/-- The length of concatenated pieces of one length. -/
theorem flatMap_length_eq {α β : Type} (xs : List α) (f : α → List β) (n : Nat)
    (h : ∀ x ∈ xs, (f x).length = n) : (xs.flatMap f).length = n * xs.length := by
  induction xs with
  | nil => simp
  | cons x xs ih =>
    have h1 := h x (by simp)
    have h2 := ih fun y hy => h y (by simp [hy])
    rw [List.flatMap_cons, List.length_append, List.length_cons, Nat.mul_succ]
    omega

/-- A slice that exists has the length asked for. -/
theorem slice_length {α : Type} (x : List α) (a n : Nat) (h : a + n ≤ x.length) :
    (slice x a n).length = n := by
  simp only [slice, List.length_take, List.length_drop]
  omega

/-- A slice has at most the length asked for. -/
theorem slice_length_le {α : Type} (x : List α) (a n : Nat) : (slice x a n).length ≤ n := by
  simp only [slice, List.length_take]
  omega

/-- The burst payloads of a block have 116 positions a burst (R156). -/
theorem mapBlock_length (nb : Nat) (i h : List UBit) (hi : i.length = 114 * nb) :
    (mapBlock nb i h).length = 116 * nb := by
  have := flatMap_length_eq (List.range nb)
    (fun b => mapBurst (slice i (114 * b) 114) (h.getD (2 * b) false) (h.getD (2 * b + 1) false)) 116
    (by
      intro b hb
      have hb := List.mem_range.mp hb
      have hs : (slice i (114 * b) 114).length = 114 := slice_length _ _ _ (by omega)
      simp [mapBurst, hs])
  simpa [mapBlock] using this

/-- The interleaved bits of burst payloads (R157). -/
theorem unmapBits_length_le (nb : Nat) (es : List SBit) : (unmapBits nb es).length ≤ 114 * nb := by
  have := flatMap_length_le (List.range nb)
    (fun b => slice es (116 * b) 57 ++ slice es (116 * b + 59) 57) 114
    (by
      intro b _
      have h1 := slice_length_le es (116 * b) 57
      have h2 := slice_length_le es (116 * b + 59) 57
      simp only [List.length_append]
      omega)
  simpa [unmapBits] using this

/-- The flags of burst payloads (R157). -/
theorem unmapFlags_length_le (nb : Nat) (es : List SBit) : (unmapFlags nb es).length ≤ 2 * nb := by
  have := flatMap_length_le (List.range nb) (fun b => slice es (116 * b + 57) 2) 2
    (fun b _ => slice_length_le _ _ _)
  simpa [unmapFlags] using this

/-- `H.SET` gives two flags a burst (R158). -/
@[simp] theorem hPattern_length (nb pattern : Nat) : (hPattern nb pattern).length = 2 * nb := by
  simp [hPattern]

/-- Unpacking gives as many bits as asked for (R160). -/
@[simp] theorem unpackBits_length (order : BitOrder) (bytes : List Byte) (n : Nat) :
    (unpackBits order bytes n).length = n := by
  cases order <;> simp [unpackBits, unpackLsb, unpackMsb]

/-- Packing gives the bytes the bits fill (R161). -/
@[simp] theorem packBits_length (order : BitOrder) (bits : List UBit) :
    (packBits order bits).length = (bits.length + 7) / 8 := by
  cases order <;> simp [packBits, packLsb, packMsb]

/-! ### Soft vectors of full confidence -/

/-- Every element has full confidence. -/
theorem softAll_mag (v : List UBit) : ∀ x ∈ softAll v, x.mag = 127 := by
  intro x hx
  obtain ⟨b, -, rfl⟩ := List.mem_map.mp hx
  cases b <;> decide

/-- The wrong signs of a vector of full confidence are what `NERR` counts (R127). -/
theorem disagreements_xorBits (v m : List UBit) (h : v.length = m.length) :
    disagreements (softAll (xorBits v m)) v = m.count true := by
  induction v generalizing m with
  | nil =>
    cases m with
    | nil => rfl
    | cons y ys => simp at h
  | cons x xs ih =>
    cases m with
    | nil => simp at h
    | cons y ys =>
      have hs : ∀ a b : Bool, (if (SBit.soft (a ^^ b)).toInt ≠ 0 ∧ (SBit.soft (a ^^ b)).hard ≠ a then 1
          else 0) = if b = true then 1 else 0 := by decide
      show (if (SBit.soft (x ^^ y)).toInt ≠ 0 ∧ (SBit.soft (x ^^ y)).hard ≠ x then 1 else 0) +
        disagreements (softAll (xorBits xs ys)) xs = _
      rw [hs, ih ys (by simpa using h), List.count_cons, Nat.add_comm]
      cases y <;> rfl

end Sys2Proof.Machine
end

