-- ==== Sys2Proof/Laws/State.lean ====
section
/-! SUPPORT. One lemma per field per update of the state, true by `rfl`, so that no later proof unfolds a
record update. -/

namespace Sys2Proof.Machine

/-! #### `setPdu` -/

@[simp] theorem State.setPdu_fn (s : State) (xs : List Byte) :
    (s.setPdu xs).fn = s.fn := rfl
@[simp] theorem State.setPdu_fnValid (s : State) (xs : List Byte) :
    (s.setPdu xs).fnValid = s.fnValid := rfl
@[simp] theorem State.setPdu_bsic (s : State) (xs : List Byte) :
    (s.setPdu xs).bsic = s.bsic := rfl
@[simp] theorem State.setPdu_stat (s : State) (xs : List Byte) :
    (s.setPdu xs).stat = s.stat := rfl
@[simp] theorem State.setPdu_res (s : State) (xs : List Byte) :
    (s.setPdu xs).res = s.res := rfl
@[simp] theorem State.setPdu_wamr (s : State) (xs : List Byte) :
    (s.setPdu xs).wamr = s.wamr := rfl
@[simp] theorem State.setPdu_ts (s : State) (xs : List Byte) :
    (s.setPdu xs).ts = s.ts := rfl
@[simp] theorem State.setPdu_cs (s : State) (xs : List Byte) :
    (s.setPdu xs).cs = s.cs := rfl
@[simp] theorem State.setPdu_q (s : State) (xs : List Byte) :
    (s.setPdu xs).q = s.q := rfl
@[simp] theorem State.setPdu_prm (s : State) (xs : List Byte) :
    (s.setPdu xs).prm = s.prm := rfl
@[simp] theorem State.setPdu_rxind (s : State) (xs : List Byte) :
    (s.setPdu xs).rxind = s.rxind := rfl
@[simp] theorem State.setPdu_evq (s : State) (xs : List Byte) :
    (s.setPdu xs).evq = s.evq := rfl
@[simp] theorem State.setPdu_csselTn (s : State) (xs : List Byte) :
    (s.setPdu xs).csselTn = s.csselTn := rfl
@[simp] theorem State.setPdu_csselCh (s : State) (xs : List Byte) :
    (s.setPdu xs).csselCh = s.csselCh := rfl
@[simp] theorem State.setPdu_host (s : State) (xs : List Byte) :
    (s.setPdu xs).host = s.host := rfl
@[simp] theorem State.setPdu_hostRead (s : State) (xs : List Byte) :
    (s.setPdu xs).hostRead = s.hostRead := rfl
@[simp] theorem State.setPdu_free (s : State) (xs : List Byte) :
    (s.setPdu xs).free = s.free + 1 := rfl
@[simp] theorem State.setPdu_allocs (s : State) (xs : List Byte) :
    (s.setPdu xs).allocs = s.allocs := rfl
@[simp] theorem State.setPdu_mem_pdu (s : State) (xs : List Byte) :
    (s.setPdu xs).mem.pdu = Buf.load s.free xs := rfl
@[simp] theorem State.setPdu_mem_u (s : State) (xs : List Byte) :
    (s.setPdu xs).mem.u = s.mem.u := rfl
@[simp] theorem State.setPdu_mem_par (s : State) (xs : List Byte) :
    (s.setPdu xs).mem.par = s.mem.par := rfl
@[simp] theorem State.setPdu_mem_c (s : State) (xs : List Byte) :
    (s.setPdu xs).mem.c = s.mem.c := rfl
@[simp] theorem State.setPdu_mem_cs (s : State) (xs : List Byte) :
    (s.setPdu xs).mem.cs = s.mem.cs := rfl
@[simp] theorem State.setPdu_mem_i (s : State) (xs : List Byte) :
    (s.setPdu xs).mem.i = s.mem.i := rfl
@[simp] theorem State.setPdu_mem_is (s : State) (xs : List Byte) :
    (s.setPdu xs).mem.is = s.mem.is := rfl
@[simp] theorem State.setPdu_mem_e (s : State) (xs : List Byte) :
    (s.setPdu xs).mem.e = s.mem.e := rfl
@[simp] theorem State.setPdu_mem_es (s : State) (xs : List Byte) :
    (s.setPdu xs).mem.es = s.mem.es := rfl
@[simp] theorem State.setPdu_mem_h (s : State) (xs : List Byte) :
    (s.setPdu xs).mem.h = s.mem.h := rfl
@[simp] theorem State.setPdu_mem_hs (s : State) (xs : List Byte) :
    (s.setPdu xs).mem.hs = s.mem.hs := rfl

/-! #### `setU` -/

@[simp] theorem State.setU_fn (s : State) (xs : List UBit) :
    (s.setU xs).fn = s.fn := rfl
@[simp] theorem State.setU_fnValid (s : State) (xs : List UBit) :
    (s.setU xs).fnValid = s.fnValid := rfl
@[simp] theorem State.setU_bsic (s : State) (xs : List UBit) :
    (s.setU xs).bsic = s.bsic := rfl
@[simp] theorem State.setU_stat (s : State) (xs : List UBit) :
    (s.setU xs).stat = s.stat := rfl
@[simp] theorem State.setU_res (s : State) (xs : List UBit) :
    (s.setU xs).res = s.res := rfl
@[simp] theorem State.setU_wamr (s : State) (xs : List UBit) :
    (s.setU xs).wamr = s.wamr := rfl
@[simp] theorem State.setU_ts (s : State) (xs : List UBit) :
    (s.setU xs).ts = s.ts := rfl
@[simp] theorem State.setU_cs (s : State) (xs : List UBit) :
    (s.setU xs).cs = s.cs := rfl
@[simp] theorem State.setU_q (s : State) (xs : List UBit) :
    (s.setU xs).q = s.q := rfl
@[simp] theorem State.setU_prm (s : State) (xs : List UBit) :
    (s.setU xs).prm = s.prm := rfl
@[simp] theorem State.setU_rxind (s : State) (xs : List UBit) :
    (s.setU xs).rxind = s.rxind := rfl
@[simp] theorem State.setU_evq (s : State) (xs : List UBit) :
    (s.setU xs).evq = s.evq := rfl
@[simp] theorem State.setU_csselTn (s : State) (xs : List UBit) :
    (s.setU xs).csselTn = s.csselTn := rfl
@[simp] theorem State.setU_csselCh (s : State) (xs : List UBit) :
    (s.setU xs).csselCh = s.csselCh := rfl
@[simp] theorem State.setU_host (s : State) (xs : List UBit) :
    (s.setU xs).host = s.host := rfl
@[simp] theorem State.setU_hostRead (s : State) (xs : List UBit) :
    (s.setU xs).hostRead = s.hostRead := rfl
@[simp] theorem State.setU_free (s : State) (xs : List UBit) :
    (s.setU xs).free = s.free + 1 := rfl
@[simp] theorem State.setU_allocs (s : State) (xs : List UBit) :
    (s.setU xs).allocs = s.allocs := rfl
@[simp] theorem State.setU_mem_pdu (s : State) (xs : List UBit) :
    (s.setU xs).mem.pdu = s.mem.pdu := rfl
@[simp] theorem State.setU_mem_u (s : State) (xs : List UBit) :
    (s.setU xs).mem.u = Buf.load s.free xs := rfl
@[simp] theorem State.setU_mem_par (s : State) (xs : List UBit) :
    (s.setU xs).mem.par = s.mem.par := rfl
@[simp] theorem State.setU_mem_c (s : State) (xs : List UBit) :
    (s.setU xs).mem.c = s.mem.c := rfl
@[simp] theorem State.setU_mem_cs (s : State) (xs : List UBit) :
    (s.setU xs).mem.cs = s.mem.cs := rfl
@[simp] theorem State.setU_mem_i (s : State) (xs : List UBit) :
    (s.setU xs).mem.i = s.mem.i := rfl
@[simp] theorem State.setU_mem_is (s : State) (xs : List UBit) :
    (s.setU xs).mem.is = s.mem.is := rfl
@[simp] theorem State.setU_mem_e (s : State) (xs : List UBit) :
    (s.setU xs).mem.e = s.mem.e := rfl
@[simp] theorem State.setU_mem_es (s : State) (xs : List UBit) :
    (s.setU xs).mem.es = s.mem.es := rfl
@[simp] theorem State.setU_mem_h (s : State) (xs : List UBit) :
    (s.setU xs).mem.h = s.mem.h := rfl
@[simp] theorem State.setU_mem_hs (s : State) (xs : List UBit) :
    (s.setU xs).mem.hs = s.mem.hs := rfl

/-! #### `setPar` -/

@[simp] theorem State.setPar_fn (s : State) (xs : List UBit) :
    (s.setPar xs).fn = s.fn := rfl
@[simp] theorem State.setPar_fnValid (s : State) (xs : List UBit) :
    (s.setPar xs).fnValid = s.fnValid := rfl
@[simp] theorem State.setPar_bsic (s : State) (xs : List UBit) :
    (s.setPar xs).bsic = s.bsic := rfl
@[simp] theorem State.setPar_stat (s : State) (xs : List UBit) :
    (s.setPar xs).stat = s.stat := rfl
@[simp] theorem State.setPar_res (s : State) (xs : List UBit) :
    (s.setPar xs).res = s.res := rfl
@[simp] theorem State.setPar_wamr (s : State) (xs : List UBit) :
    (s.setPar xs).wamr = s.wamr := rfl
@[simp] theorem State.setPar_ts (s : State) (xs : List UBit) :
    (s.setPar xs).ts = s.ts := rfl
@[simp] theorem State.setPar_cs (s : State) (xs : List UBit) :
    (s.setPar xs).cs = s.cs := rfl
@[simp] theorem State.setPar_q (s : State) (xs : List UBit) :
    (s.setPar xs).q = s.q := rfl
@[simp] theorem State.setPar_prm (s : State) (xs : List UBit) :
    (s.setPar xs).prm = s.prm := rfl
@[simp] theorem State.setPar_rxind (s : State) (xs : List UBit) :
    (s.setPar xs).rxind = s.rxind := rfl
@[simp] theorem State.setPar_evq (s : State) (xs : List UBit) :
    (s.setPar xs).evq = s.evq := rfl
@[simp] theorem State.setPar_csselTn (s : State) (xs : List UBit) :
    (s.setPar xs).csselTn = s.csselTn := rfl
@[simp] theorem State.setPar_csselCh (s : State) (xs : List UBit) :
    (s.setPar xs).csselCh = s.csselCh := rfl
@[simp] theorem State.setPar_host (s : State) (xs : List UBit) :
    (s.setPar xs).host = s.host := rfl
@[simp] theorem State.setPar_hostRead (s : State) (xs : List UBit) :
    (s.setPar xs).hostRead = s.hostRead := rfl
@[simp] theorem State.setPar_free (s : State) (xs : List UBit) :
    (s.setPar xs).free = s.free + 1 := rfl
@[simp] theorem State.setPar_allocs (s : State) (xs : List UBit) :
    (s.setPar xs).allocs = s.allocs := rfl
@[simp] theorem State.setPar_mem_pdu (s : State) (xs : List UBit) :
    (s.setPar xs).mem.pdu = s.mem.pdu := rfl
@[simp] theorem State.setPar_mem_u (s : State) (xs : List UBit) :
    (s.setPar xs).mem.u = s.mem.u := rfl
@[simp] theorem State.setPar_mem_par (s : State) (xs : List UBit) :
    (s.setPar xs).mem.par = Buf.load s.free xs := rfl
@[simp] theorem State.setPar_mem_c (s : State) (xs : List UBit) :
    (s.setPar xs).mem.c = s.mem.c := rfl
@[simp] theorem State.setPar_mem_cs (s : State) (xs : List UBit) :
    (s.setPar xs).mem.cs = s.mem.cs := rfl
@[simp] theorem State.setPar_mem_i (s : State) (xs : List UBit) :
    (s.setPar xs).mem.i = s.mem.i := rfl
@[simp] theorem State.setPar_mem_is (s : State) (xs : List UBit) :
    (s.setPar xs).mem.is = s.mem.is := rfl
@[simp] theorem State.setPar_mem_e (s : State) (xs : List UBit) :
    (s.setPar xs).mem.e = s.mem.e := rfl
@[simp] theorem State.setPar_mem_es (s : State) (xs : List UBit) :
    (s.setPar xs).mem.es = s.mem.es := rfl
@[simp] theorem State.setPar_mem_h (s : State) (xs : List UBit) :
    (s.setPar xs).mem.h = s.mem.h := rfl
@[simp] theorem State.setPar_mem_hs (s : State) (xs : List UBit) :
    (s.setPar xs).mem.hs = s.mem.hs := rfl

/-! #### `setC` -/

@[simp] theorem State.setC_fn (s : State) (xs : List UBit) :
    (s.setC xs).fn = s.fn := rfl
@[simp] theorem State.setC_fnValid (s : State) (xs : List UBit) :
    (s.setC xs).fnValid = s.fnValid := rfl
@[simp] theorem State.setC_bsic (s : State) (xs : List UBit) :
    (s.setC xs).bsic = s.bsic := rfl
@[simp] theorem State.setC_stat (s : State) (xs : List UBit) :
    (s.setC xs).stat = s.stat := rfl
@[simp] theorem State.setC_res (s : State) (xs : List UBit) :
    (s.setC xs).res = s.res := rfl
@[simp] theorem State.setC_wamr (s : State) (xs : List UBit) :
    (s.setC xs).wamr = s.wamr := rfl
@[simp] theorem State.setC_ts (s : State) (xs : List UBit) :
    (s.setC xs).ts = s.ts := rfl
@[simp] theorem State.setC_cs (s : State) (xs : List UBit) :
    (s.setC xs).cs = s.cs := rfl
@[simp] theorem State.setC_q (s : State) (xs : List UBit) :
    (s.setC xs).q = s.q := rfl
@[simp] theorem State.setC_prm (s : State) (xs : List UBit) :
    (s.setC xs).prm = s.prm := rfl
@[simp] theorem State.setC_rxind (s : State) (xs : List UBit) :
    (s.setC xs).rxind = s.rxind := rfl
@[simp] theorem State.setC_evq (s : State) (xs : List UBit) :
    (s.setC xs).evq = s.evq := rfl
@[simp] theorem State.setC_csselTn (s : State) (xs : List UBit) :
    (s.setC xs).csselTn = s.csselTn := rfl
@[simp] theorem State.setC_csselCh (s : State) (xs : List UBit) :
    (s.setC xs).csselCh = s.csselCh := rfl
@[simp] theorem State.setC_host (s : State) (xs : List UBit) :
    (s.setC xs).host = s.host := rfl
@[simp] theorem State.setC_hostRead (s : State) (xs : List UBit) :
    (s.setC xs).hostRead = s.hostRead := rfl
@[simp] theorem State.setC_free (s : State) (xs : List UBit) :
    (s.setC xs).free = s.free + 1 := rfl
@[simp] theorem State.setC_allocs (s : State) (xs : List UBit) :
    (s.setC xs).allocs = s.allocs := rfl
@[simp] theorem State.setC_mem_pdu (s : State) (xs : List UBit) :
    (s.setC xs).mem.pdu = s.mem.pdu := rfl
@[simp] theorem State.setC_mem_u (s : State) (xs : List UBit) :
    (s.setC xs).mem.u = s.mem.u := rfl
@[simp] theorem State.setC_mem_par (s : State) (xs : List UBit) :
    (s.setC xs).mem.par = s.mem.par := rfl
@[simp] theorem State.setC_mem_c (s : State) (xs : List UBit) :
    (s.setC xs).mem.c = Buf.load s.free xs := rfl
@[simp] theorem State.setC_mem_cs (s : State) (xs : List UBit) :
    (s.setC xs).mem.cs = s.mem.cs := rfl
@[simp] theorem State.setC_mem_i (s : State) (xs : List UBit) :
    (s.setC xs).mem.i = s.mem.i := rfl
@[simp] theorem State.setC_mem_is (s : State) (xs : List UBit) :
    (s.setC xs).mem.is = s.mem.is := rfl
@[simp] theorem State.setC_mem_e (s : State) (xs : List UBit) :
    (s.setC xs).mem.e = s.mem.e := rfl
@[simp] theorem State.setC_mem_es (s : State) (xs : List UBit) :
    (s.setC xs).mem.es = s.mem.es := rfl
@[simp] theorem State.setC_mem_h (s : State) (xs : List UBit) :
    (s.setC xs).mem.h = s.mem.h := rfl
@[simp] theorem State.setC_mem_hs (s : State) (xs : List UBit) :
    (s.setC xs).mem.hs = s.mem.hs := rfl

/-! #### `setSoftC` -/

@[simp] theorem State.setSoftC_fn (s : State) (xs : List SBit) :
    (s.setSoftC xs).fn = s.fn := rfl
@[simp] theorem State.setSoftC_fnValid (s : State) (xs : List SBit) :
    (s.setSoftC xs).fnValid = s.fnValid := rfl
@[simp] theorem State.setSoftC_bsic (s : State) (xs : List SBit) :
    (s.setSoftC xs).bsic = s.bsic := rfl
@[simp] theorem State.setSoftC_stat (s : State) (xs : List SBit) :
    (s.setSoftC xs).stat = s.stat := rfl
@[simp] theorem State.setSoftC_res (s : State) (xs : List SBit) :
    (s.setSoftC xs).res = s.res := rfl
@[simp] theorem State.setSoftC_wamr (s : State) (xs : List SBit) :
    (s.setSoftC xs).wamr = s.wamr := rfl
@[simp] theorem State.setSoftC_ts (s : State) (xs : List SBit) :
    (s.setSoftC xs).ts = s.ts := rfl
@[simp] theorem State.setSoftC_cs (s : State) (xs : List SBit) :
    (s.setSoftC xs).cs = s.cs := rfl
@[simp] theorem State.setSoftC_q (s : State) (xs : List SBit) :
    (s.setSoftC xs).q = s.q := rfl
@[simp] theorem State.setSoftC_prm (s : State) (xs : List SBit) :
    (s.setSoftC xs).prm = s.prm := rfl
@[simp] theorem State.setSoftC_rxind (s : State) (xs : List SBit) :
    (s.setSoftC xs).rxind = s.rxind := rfl
@[simp] theorem State.setSoftC_evq (s : State) (xs : List SBit) :
    (s.setSoftC xs).evq = s.evq := rfl
@[simp] theorem State.setSoftC_csselTn (s : State) (xs : List SBit) :
    (s.setSoftC xs).csselTn = s.csselTn := rfl
@[simp] theorem State.setSoftC_csselCh (s : State) (xs : List SBit) :
    (s.setSoftC xs).csselCh = s.csselCh := rfl
@[simp] theorem State.setSoftC_host (s : State) (xs : List SBit) :
    (s.setSoftC xs).host = s.host := rfl
@[simp] theorem State.setSoftC_hostRead (s : State) (xs : List SBit) :
    (s.setSoftC xs).hostRead = s.hostRead := rfl
@[simp] theorem State.setSoftC_free (s : State) (xs : List SBit) :
    (s.setSoftC xs).free = s.free + 1 := rfl
@[simp] theorem State.setSoftC_allocs (s : State) (xs : List SBit) :
    (s.setSoftC xs).allocs = s.allocs := rfl
@[simp] theorem State.setSoftC_mem_pdu (s : State) (xs : List SBit) :
    (s.setSoftC xs).mem.pdu = s.mem.pdu := rfl
@[simp] theorem State.setSoftC_mem_u (s : State) (xs : List SBit) :
    (s.setSoftC xs).mem.u = s.mem.u := rfl
@[simp] theorem State.setSoftC_mem_par (s : State) (xs : List SBit) :
    (s.setSoftC xs).mem.par = s.mem.par := rfl
@[simp] theorem State.setSoftC_mem_c (s : State) (xs : List SBit) :
    (s.setSoftC xs).mem.c = s.mem.c := rfl
@[simp] theorem State.setSoftC_mem_cs (s : State) (xs : List SBit) :
    (s.setSoftC xs).mem.cs = Buf.load s.free xs := rfl
@[simp] theorem State.setSoftC_mem_i (s : State) (xs : List SBit) :
    (s.setSoftC xs).mem.i = s.mem.i := rfl
@[simp] theorem State.setSoftC_mem_is (s : State) (xs : List SBit) :
    (s.setSoftC xs).mem.is = s.mem.is := rfl
@[simp] theorem State.setSoftC_mem_e (s : State) (xs : List SBit) :
    (s.setSoftC xs).mem.e = s.mem.e := rfl
@[simp] theorem State.setSoftC_mem_es (s : State) (xs : List SBit) :
    (s.setSoftC xs).mem.es = s.mem.es := rfl
@[simp] theorem State.setSoftC_mem_h (s : State) (xs : List SBit) :
    (s.setSoftC xs).mem.h = s.mem.h := rfl
@[simp] theorem State.setSoftC_mem_hs (s : State) (xs : List SBit) :
    (s.setSoftC xs).mem.hs = s.mem.hs := rfl

/-! #### `setI` -/

@[simp] theorem State.setI_fn (s : State) (xs : List UBit) :
    (s.setI xs).fn = s.fn := rfl
@[simp] theorem State.setI_fnValid (s : State) (xs : List UBit) :
    (s.setI xs).fnValid = s.fnValid := rfl
@[simp] theorem State.setI_bsic (s : State) (xs : List UBit) :
    (s.setI xs).bsic = s.bsic := rfl
@[simp] theorem State.setI_stat (s : State) (xs : List UBit) :
    (s.setI xs).stat = s.stat := rfl
@[simp] theorem State.setI_res (s : State) (xs : List UBit) :
    (s.setI xs).res = s.res := rfl
@[simp] theorem State.setI_wamr (s : State) (xs : List UBit) :
    (s.setI xs).wamr = s.wamr := rfl
@[simp] theorem State.setI_ts (s : State) (xs : List UBit) :
    (s.setI xs).ts = s.ts := rfl
@[simp] theorem State.setI_cs (s : State) (xs : List UBit) :
    (s.setI xs).cs = s.cs := rfl
@[simp] theorem State.setI_q (s : State) (xs : List UBit) :
    (s.setI xs).q = s.q := rfl
@[simp] theorem State.setI_prm (s : State) (xs : List UBit) :
    (s.setI xs).prm = s.prm := rfl
@[simp] theorem State.setI_rxind (s : State) (xs : List UBit) :
    (s.setI xs).rxind = s.rxind := rfl
@[simp] theorem State.setI_evq (s : State) (xs : List UBit) :
    (s.setI xs).evq = s.evq := rfl
@[simp] theorem State.setI_csselTn (s : State) (xs : List UBit) :
    (s.setI xs).csselTn = s.csselTn := rfl
@[simp] theorem State.setI_csselCh (s : State) (xs : List UBit) :
    (s.setI xs).csselCh = s.csselCh := rfl
@[simp] theorem State.setI_host (s : State) (xs : List UBit) :
    (s.setI xs).host = s.host := rfl
@[simp] theorem State.setI_hostRead (s : State) (xs : List UBit) :
    (s.setI xs).hostRead = s.hostRead := rfl
@[simp] theorem State.setI_free (s : State) (xs : List UBit) :
    (s.setI xs).free = s.free + 1 := rfl
@[simp] theorem State.setI_allocs (s : State) (xs : List UBit) :
    (s.setI xs).allocs = s.allocs := rfl
@[simp] theorem State.setI_mem_pdu (s : State) (xs : List UBit) :
    (s.setI xs).mem.pdu = s.mem.pdu := rfl
@[simp] theorem State.setI_mem_u (s : State) (xs : List UBit) :
    (s.setI xs).mem.u = s.mem.u := rfl
@[simp] theorem State.setI_mem_par (s : State) (xs : List UBit) :
    (s.setI xs).mem.par = s.mem.par := rfl
@[simp] theorem State.setI_mem_c (s : State) (xs : List UBit) :
    (s.setI xs).mem.c = s.mem.c := rfl
@[simp] theorem State.setI_mem_cs (s : State) (xs : List UBit) :
    (s.setI xs).mem.cs = s.mem.cs := rfl
@[simp] theorem State.setI_mem_i (s : State) (xs : List UBit) :
    (s.setI xs).mem.i = Buf.load s.free xs := rfl
@[simp] theorem State.setI_mem_is (s : State) (xs : List UBit) :
    (s.setI xs).mem.is = s.mem.is := rfl
@[simp] theorem State.setI_mem_e (s : State) (xs : List UBit) :
    (s.setI xs).mem.e = s.mem.e := rfl
@[simp] theorem State.setI_mem_es (s : State) (xs : List UBit) :
    (s.setI xs).mem.es = s.mem.es := rfl
@[simp] theorem State.setI_mem_h (s : State) (xs : List UBit) :
    (s.setI xs).mem.h = s.mem.h := rfl
@[simp] theorem State.setI_mem_hs (s : State) (xs : List UBit) :
    (s.setI xs).mem.hs = s.mem.hs := rfl

/-! #### `setSoftI` -/

@[simp] theorem State.setSoftI_fn (s : State) (xs : List SBit) :
    (s.setSoftI xs).fn = s.fn := rfl
@[simp] theorem State.setSoftI_fnValid (s : State) (xs : List SBit) :
    (s.setSoftI xs).fnValid = s.fnValid := rfl
@[simp] theorem State.setSoftI_bsic (s : State) (xs : List SBit) :
    (s.setSoftI xs).bsic = s.bsic := rfl
@[simp] theorem State.setSoftI_stat (s : State) (xs : List SBit) :
    (s.setSoftI xs).stat = s.stat := rfl
@[simp] theorem State.setSoftI_res (s : State) (xs : List SBit) :
    (s.setSoftI xs).res = s.res := rfl
@[simp] theorem State.setSoftI_wamr (s : State) (xs : List SBit) :
    (s.setSoftI xs).wamr = s.wamr := rfl
@[simp] theorem State.setSoftI_ts (s : State) (xs : List SBit) :
    (s.setSoftI xs).ts = s.ts := rfl
@[simp] theorem State.setSoftI_cs (s : State) (xs : List SBit) :
    (s.setSoftI xs).cs = s.cs := rfl
@[simp] theorem State.setSoftI_q (s : State) (xs : List SBit) :
    (s.setSoftI xs).q = s.q := rfl
@[simp] theorem State.setSoftI_prm (s : State) (xs : List SBit) :
    (s.setSoftI xs).prm = s.prm := rfl
@[simp] theorem State.setSoftI_rxind (s : State) (xs : List SBit) :
    (s.setSoftI xs).rxind = s.rxind := rfl
@[simp] theorem State.setSoftI_evq (s : State) (xs : List SBit) :
    (s.setSoftI xs).evq = s.evq := rfl
@[simp] theorem State.setSoftI_csselTn (s : State) (xs : List SBit) :
    (s.setSoftI xs).csselTn = s.csselTn := rfl
@[simp] theorem State.setSoftI_csselCh (s : State) (xs : List SBit) :
    (s.setSoftI xs).csselCh = s.csselCh := rfl
@[simp] theorem State.setSoftI_host (s : State) (xs : List SBit) :
    (s.setSoftI xs).host = s.host := rfl
@[simp] theorem State.setSoftI_hostRead (s : State) (xs : List SBit) :
    (s.setSoftI xs).hostRead = s.hostRead := rfl
@[simp] theorem State.setSoftI_free (s : State) (xs : List SBit) :
    (s.setSoftI xs).free = s.free + 1 := rfl
@[simp] theorem State.setSoftI_allocs (s : State) (xs : List SBit) :
    (s.setSoftI xs).allocs = s.allocs := rfl
@[simp] theorem State.setSoftI_mem_pdu (s : State) (xs : List SBit) :
    (s.setSoftI xs).mem.pdu = s.mem.pdu := rfl
@[simp] theorem State.setSoftI_mem_u (s : State) (xs : List SBit) :
    (s.setSoftI xs).mem.u = s.mem.u := rfl
@[simp] theorem State.setSoftI_mem_par (s : State) (xs : List SBit) :
    (s.setSoftI xs).mem.par = s.mem.par := rfl
@[simp] theorem State.setSoftI_mem_c (s : State) (xs : List SBit) :
    (s.setSoftI xs).mem.c = s.mem.c := rfl
@[simp] theorem State.setSoftI_mem_cs (s : State) (xs : List SBit) :
    (s.setSoftI xs).mem.cs = s.mem.cs := rfl
@[simp] theorem State.setSoftI_mem_i (s : State) (xs : List SBit) :
    (s.setSoftI xs).mem.i = s.mem.i := rfl
@[simp] theorem State.setSoftI_mem_is (s : State) (xs : List SBit) :
    (s.setSoftI xs).mem.is = Buf.load s.free xs := rfl
@[simp] theorem State.setSoftI_mem_e (s : State) (xs : List SBit) :
    (s.setSoftI xs).mem.e = s.mem.e := rfl
@[simp] theorem State.setSoftI_mem_es (s : State) (xs : List SBit) :
    (s.setSoftI xs).mem.es = s.mem.es := rfl
@[simp] theorem State.setSoftI_mem_h (s : State) (xs : List SBit) :
    (s.setSoftI xs).mem.h = s.mem.h := rfl
@[simp] theorem State.setSoftI_mem_hs (s : State) (xs : List SBit) :
    (s.setSoftI xs).mem.hs = s.mem.hs := rfl

/-! #### `setE` -/

@[simp] theorem State.setE_fn (s : State) (xs : List UBit) :
    (s.setE xs).fn = s.fn := rfl
@[simp] theorem State.setE_fnValid (s : State) (xs : List UBit) :
    (s.setE xs).fnValid = s.fnValid := rfl
@[simp] theorem State.setE_bsic (s : State) (xs : List UBit) :
    (s.setE xs).bsic = s.bsic := rfl
@[simp] theorem State.setE_stat (s : State) (xs : List UBit) :
    (s.setE xs).stat = s.stat := rfl
@[simp] theorem State.setE_res (s : State) (xs : List UBit) :
    (s.setE xs).res = s.res := rfl
@[simp] theorem State.setE_wamr (s : State) (xs : List UBit) :
    (s.setE xs).wamr = s.wamr := rfl
@[simp] theorem State.setE_ts (s : State) (xs : List UBit) :
    (s.setE xs).ts = s.ts := rfl
@[simp] theorem State.setE_cs (s : State) (xs : List UBit) :
    (s.setE xs).cs = s.cs := rfl
@[simp] theorem State.setE_q (s : State) (xs : List UBit) :
    (s.setE xs).q = s.q := rfl
@[simp] theorem State.setE_prm (s : State) (xs : List UBit) :
    (s.setE xs).prm = s.prm := rfl
@[simp] theorem State.setE_rxind (s : State) (xs : List UBit) :
    (s.setE xs).rxind = s.rxind := rfl
@[simp] theorem State.setE_evq (s : State) (xs : List UBit) :
    (s.setE xs).evq = s.evq := rfl
@[simp] theorem State.setE_csselTn (s : State) (xs : List UBit) :
    (s.setE xs).csselTn = s.csselTn := rfl
@[simp] theorem State.setE_csselCh (s : State) (xs : List UBit) :
    (s.setE xs).csselCh = s.csselCh := rfl
@[simp] theorem State.setE_host (s : State) (xs : List UBit) :
    (s.setE xs).host = s.host := rfl
@[simp] theorem State.setE_hostRead (s : State) (xs : List UBit) :
    (s.setE xs).hostRead = s.hostRead := rfl
@[simp] theorem State.setE_free (s : State) (xs : List UBit) :
    (s.setE xs).free = s.free + 1 := rfl
@[simp] theorem State.setE_allocs (s : State) (xs : List UBit) :
    (s.setE xs).allocs = s.allocs := rfl
@[simp] theorem State.setE_mem_pdu (s : State) (xs : List UBit) :
    (s.setE xs).mem.pdu = s.mem.pdu := rfl
@[simp] theorem State.setE_mem_u (s : State) (xs : List UBit) :
    (s.setE xs).mem.u = s.mem.u := rfl
@[simp] theorem State.setE_mem_par (s : State) (xs : List UBit) :
    (s.setE xs).mem.par = s.mem.par := rfl
@[simp] theorem State.setE_mem_c (s : State) (xs : List UBit) :
    (s.setE xs).mem.c = s.mem.c := rfl
@[simp] theorem State.setE_mem_cs (s : State) (xs : List UBit) :
    (s.setE xs).mem.cs = s.mem.cs := rfl
@[simp] theorem State.setE_mem_i (s : State) (xs : List UBit) :
    (s.setE xs).mem.i = s.mem.i := rfl
@[simp] theorem State.setE_mem_is (s : State) (xs : List UBit) :
    (s.setE xs).mem.is = s.mem.is := rfl
@[simp] theorem State.setE_mem_e (s : State) (xs : List UBit) :
    (s.setE xs).mem.e = Buf.load s.free xs := rfl
@[simp] theorem State.setE_mem_es (s : State) (xs : List UBit) :
    (s.setE xs).mem.es = s.mem.es := rfl
@[simp] theorem State.setE_mem_h (s : State) (xs : List UBit) :
    (s.setE xs).mem.h = s.mem.h := rfl
@[simp] theorem State.setE_mem_hs (s : State) (xs : List UBit) :
    (s.setE xs).mem.hs = s.mem.hs := rfl

/-! #### `setSoftE` -/

@[simp] theorem State.setSoftE_fn (s : State) (xs : List SBit) :
    (s.setSoftE xs).fn = s.fn := rfl
@[simp] theorem State.setSoftE_fnValid (s : State) (xs : List SBit) :
    (s.setSoftE xs).fnValid = s.fnValid := rfl
@[simp] theorem State.setSoftE_bsic (s : State) (xs : List SBit) :
    (s.setSoftE xs).bsic = s.bsic := rfl
@[simp] theorem State.setSoftE_stat (s : State) (xs : List SBit) :
    (s.setSoftE xs).stat = s.stat := rfl
@[simp] theorem State.setSoftE_res (s : State) (xs : List SBit) :
    (s.setSoftE xs).res = s.res := rfl
@[simp] theorem State.setSoftE_wamr (s : State) (xs : List SBit) :
    (s.setSoftE xs).wamr = s.wamr := rfl
@[simp] theorem State.setSoftE_ts (s : State) (xs : List SBit) :
    (s.setSoftE xs).ts = s.ts := rfl
@[simp] theorem State.setSoftE_cs (s : State) (xs : List SBit) :
    (s.setSoftE xs).cs = s.cs := rfl
@[simp] theorem State.setSoftE_q (s : State) (xs : List SBit) :
    (s.setSoftE xs).q = s.q := rfl
@[simp] theorem State.setSoftE_prm (s : State) (xs : List SBit) :
    (s.setSoftE xs).prm = s.prm := rfl
@[simp] theorem State.setSoftE_rxind (s : State) (xs : List SBit) :
    (s.setSoftE xs).rxind = s.rxind := rfl
@[simp] theorem State.setSoftE_evq (s : State) (xs : List SBit) :
    (s.setSoftE xs).evq = s.evq := rfl
@[simp] theorem State.setSoftE_csselTn (s : State) (xs : List SBit) :
    (s.setSoftE xs).csselTn = s.csselTn := rfl
@[simp] theorem State.setSoftE_csselCh (s : State) (xs : List SBit) :
    (s.setSoftE xs).csselCh = s.csselCh := rfl
@[simp] theorem State.setSoftE_host (s : State) (xs : List SBit) :
    (s.setSoftE xs).host = s.host := rfl
@[simp] theorem State.setSoftE_hostRead (s : State) (xs : List SBit) :
    (s.setSoftE xs).hostRead = s.hostRead := rfl
@[simp] theorem State.setSoftE_free (s : State) (xs : List SBit) :
    (s.setSoftE xs).free = s.free + 1 := rfl
@[simp] theorem State.setSoftE_allocs (s : State) (xs : List SBit) :
    (s.setSoftE xs).allocs = s.allocs := rfl
@[simp] theorem State.setSoftE_mem_pdu (s : State) (xs : List SBit) :
    (s.setSoftE xs).mem.pdu = s.mem.pdu := rfl
@[simp] theorem State.setSoftE_mem_u (s : State) (xs : List SBit) :
    (s.setSoftE xs).mem.u = s.mem.u := rfl
@[simp] theorem State.setSoftE_mem_par (s : State) (xs : List SBit) :
    (s.setSoftE xs).mem.par = s.mem.par := rfl
@[simp] theorem State.setSoftE_mem_c (s : State) (xs : List SBit) :
    (s.setSoftE xs).mem.c = s.mem.c := rfl
@[simp] theorem State.setSoftE_mem_cs (s : State) (xs : List SBit) :
    (s.setSoftE xs).mem.cs = s.mem.cs := rfl
@[simp] theorem State.setSoftE_mem_i (s : State) (xs : List SBit) :
    (s.setSoftE xs).mem.i = s.mem.i := rfl
@[simp] theorem State.setSoftE_mem_is (s : State) (xs : List SBit) :
    (s.setSoftE xs).mem.is = s.mem.is := rfl
@[simp] theorem State.setSoftE_mem_e (s : State) (xs : List SBit) :
    (s.setSoftE xs).mem.e = s.mem.e := rfl
@[simp] theorem State.setSoftE_mem_es (s : State) (xs : List SBit) :
    (s.setSoftE xs).mem.es = Buf.load s.free xs := rfl
@[simp] theorem State.setSoftE_mem_h (s : State) (xs : List SBit) :
    (s.setSoftE xs).mem.h = s.mem.h := rfl
@[simp] theorem State.setSoftE_mem_hs (s : State) (xs : List SBit) :
    (s.setSoftE xs).mem.hs = s.mem.hs := rfl

/-! #### `setH` -/

@[simp] theorem State.setH_fn (s : State) (xs : List UBit) :
    (s.setH xs).fn = s.fn := rfl
@[simp] theorem State.setH_fnValid (s : State) (xs : List UBit) :
    (s.setH xs).fnValid = s.fnValid := rfl
@[simp] theorem State.setH_bsic (s : State) (xs : List UBit) :
    (s.setH xs).bsic = s.bsic := rfl
@[simp] theorem State.setH_stat (s : State) (xs : List UBit) :
    (s.setH xs).stat = s.stat := rfl
@[simp] theorem State.setH_res (s : State) (xs : List UBit) :
    (s.setH xs).res = s.res := rfl
@[simp] theorem State.setH_wamr (s : State) (xs : List UBit) :
    (s.setH xs).wamr = s.wamr := rfl
@[simp] theorem State.setH_ts (s : State) (xs : List UBit) :
    (s.setH xs).ts = s.ts := rfl
@[simp] theorem State.setH_cs (s : State) (xs : List UBit) :
    (s.setH xs).cs = s.cs := rfl
@[simp] theorem State.setH_q (s : State) (xs : List UBit) :
    (s.setH xs).q = s.q := rfl
@[simp] theorem State.setH_prm (s : State) (xs : List UBit) :
    (s.setH xs).prm = s.prm := rfl
@[simp] theorem State.setH_rxind (s : State) (xs : List UBit) :
    (s.setH xs).rxind = s.rxind := rfl
@[simp] theorem State.setH_evq (s : State) (xs : List UBit) :
    (s.setH xs).evq = s.evq := rfl
@[simp] theorem State.setH_csselTn (s : State) (xs : List UBit) :
    (s.setH xs).csselTn = s.csselTn := rfl
@[simp] theorem State.setH_csselCh (s : State) (xs : List UBit) :
    (s.setH xs).csselCh = s.csselCh := rfl
@[simp] theorem State.setH_host (s : State) (xs : List UBit) :
    (s.setH xs).host = s.host := rfl
@[simp] theorem State.setH_hostRead (s : State) (xs : List UBit) :
    (s.setH xs).hostRead = s.hostRead := rfl
@[simp] theorem State.setH_free (s : State) (xs : List UBit) :
    (s.setH xs).free = s.free + 1 := rfl
@[simp] theorem State.setH_allocs (s : State) (xs : List UBit) :
    (s.setH xs).allocs = s.allocs := rfl
@[simp] theorem State.setH_mem_pdu (s : State) (xs : List UBit) :
    (s.setH xs).mem.pdu = s.mem.pdu := rfl
@[simp] theorem State.setH_mem_u (s : State) (xs : List UBit) :
    (s.setH xs).mem.u = s.mem.u := rfl
@[simp] theorem State.setH_mem_par (s : State) (xs : List UBit) :
    (s.setH xs).mem.par = s.mem.par := rfl
@[simp] theorem State.setH_mem_c (s : State) (xs : List UBit) :
    (s.setH xs).mem.c = s.mem.c := rfl
@[simp] theorem State.setH_mem_cs (s : State) (xs : List UBit) :
    (s.setH xs).mem.cs = s.mem.cs := rfl
@[simp] theorem State.setH_mem_i (s : State) (xs : List UBit) :
    (s.setH xs).mem.i = s.mem.i := rfl
@[simp] theorem State.setH_mem_is (s : State) (xs : List UBit) :
    (s.setH xs).mem.is = s.mem.is := rfl
@[simp] theorem State.setH_mem_e (s : State) (xs : List UBit) :
    (s.setH xs).mem.e = s.mem.e := rfl
@[simp] theorem State.setH_mem_es (s : State) (xs : List UBit) :
    (s.setH xs).mem.es = s.mem.es := rfl
@[simp] theorem State.setH_mem_h (s : State) (xs : List UBit) :
    (s.setH xs).mem.h = Buf.load s.free xs := rfl
@[simp] theorem State.setH_mem_hs (s : State) (xs : List UBit) :
    (s.setH xs).mem.hs = s.mem.hs := rfl

/-! #### `setSoftH` -/

@[simp] theorem State.setSoftH_fn (s : State) (xs : List SBit) :
    (s.setSoftH xs).fn = s.fn := rfl
@[simp] theorem State.setSoftH_fnValid (s : State) (xs : List SBit) :
    (s.setSoftH xs).fnValid = s.fnValid := rfl
@[simp] theorem State.setSoftH_bsic (s : State) (xs : List SBit) :
    (s.setSoftH xs).bsic = s.bsic := rfl
@[simp] theorem State.setSoftH_stat (s : State) (xs : List SBit) :
    (s.setSoftH xs).stat = s.stat := rfl
@[simp] theorem State.setSoftH_res (s : State) (xs : List SBit) :
    (s.setSoftH xs).res = s.res := rfl
@[simp] theorem State.setSoftH_wamr (s : State) (xs : List SBit) :
    (s.setSoftH xs).wamr = s.wamr := rfl
@[simp] theorem State.setSoftH_ts (s : State) (xs : List SBit) :
    (s.setSoftH xs).ts = s.ts := rfl
@[simp] theorem State.setSoftH_cs (s : State) (xs : List SBit) :
    (s.setSoftH xs).cs = s.cs := rfl
@[simp] theorem State.setSoftH_q (s : State) (xs : List SBit) :
    (s.setSoftH xs).q = s.q := rfl
@[simp] theorem State.setSoftH_prm (s : State) (xs : List SBit) :
    (s.setSoftH xs).prm = s.prm := rfl
@[simp] theorem State.setSoftH_rxind (s : State) (xs : List SBit) :
    (s.setSoftH xs).rxind = s.rxind := rfl
@[simp] theorem State.setSoftH_evq (s : State) (xs : List SBit) :
    (s.setSoftH xs).evq = s.evq := rfl
@[simp] theorem State.setSoftH_csselTn (s : State) (xs : List SBit) :
    (s.setSoftH xs).csselTn = s.csselTn := rfl
@[simp] theorem State.setSoftH_csselCh (s : State) (xs : List SBit) :
    (s.setSoftH xs).csselCh = s.csselCh := rfl
@[simp] theorem State.setSoftH_host (s : State) (xs : List SBit) :
    (s.setSoftH xs).host = s.host := rfl
@[simp] theorem State.setSoftH_hostRead (s : State) (xs : List SBit) :
    (s.setSoftH xs).hostRead = s.hostRead := rfl
@[simp] theorem State.setSoftH_free (s : State) (xs : List SBit) :
    (s.setSoftH xs).free = s.free + 1 := rfl
@[simp] theorem State.setSoftH_allocs (s : State) (xs : List SBit) :
    (s.setSoftH xs).allocs = s.allocs := rfl
@[simp] theorem State.setSoftH_mem_pdu (s : State) (xs : List SBit) :
    (s.setSoftH xs).mem.pdu = s.mem.pdu := rfl
@[simp] theorem State.setSoftH_mem_u (s : State) (xs : List SBit) :
    (s.setSoftH xs).mem.u = s.mem.u := rfl
@[simp] theorem State.setSoftH_mem_par (s : State) (xs : List SBit) :
    (s.setSoftH xs).mem.par = s.mem.par := rfl
@[simp] theorem State.setSoftH_mem_c (s : State) (xs : List SBit) :
    (s.setSoftH xs).mem.c = s.mem.c := rfl
@[simp] theorem State.setSoftH_mem_cs (s : State) (xs : List SBit) :
    (s.setSoftH xs).mem.cs = s.mem.cs := rfl
@[simp] theorem State.setSoftH_mem_i (s : State) (xs : List SBit) :
    (s.setSoftH xs).mem.i = s.mem.i := rfl
@[simp] theorem State.setSoftH_mem_is (s : State) (xs : List SBit) :
    (s.setSoftH xs).mem.is = s.mem.is := rfl
@[simp] theorem State.setSoftH_mem_e (s : State) (xs : List SBit) :
    (s.setSoftH xs).mem.e = s.mem.e := rfl
@[simp] theorem State.setSoftH_mem_es (s : State) (xs : List SBit) :
    (s.setSoftH xs).mem.es = s.mem.es := rfl
@[simp] theorem State.setSoftH_mem_h (s : State) (xs : List SBit) :
    (s.setSoftH xs).mem.h = s.mem.h := rfl
@[simp] theorem State.setSoftH_mem_hs (s : State) (xs : List SBit) :
    (s.setSoftH xs).mem.hs = Buf.load s.free xs := rfl

/-! #### `setErrors` -/

@[simp] theorem State.setErrors_fn (s : State) (a b : Nat) :
    (s.setErrors a b).fn = s.fn := rfl
@[simp] theorem State.setErrors_fnValid (s : State) (a b : Nat) :
    (s.setErrors a b).fnValid = s.fnValid := rfl
@[simp] theorem State.setErrors_bsic (s : State) (a b : Nat) :
    (s.setErrors a b).bsic = s.bsic := rfl
@[simp] theorem State.setErrors_stat (s : State) (a b : Nat) :
    (s.setErrors a b).stat = s.stat := rfl
@[simp] theorem State.setErrors_wamr (s : State) (a b : Nat) :
    (s.setErrors a b).wamr = s.wamr := rfl
@[simp] theorem State.setErrors_ts (s : State) (a b : Nat) :
    (s.setErrors a b).ts = s.ts := rfl
@[simp] theorem State.setErrors_cs (s : State) (a b : Nat) :
    (s.setErrors a b).cs = s.cs := rfl
@[simp] theorem State.setErrors_q (s : State) (a b : Nat) :
    (s.setErrors a b).q = s.q := rfl
@[simp] theorem State.setErrors_mem (s : State) (a b : Nat) :
    (s.setErrors a b).mem = s.mem := rfl
@[simp] theorem State.setErrors_prm (s : State) (a b : Nat) :
    (s.setErrors a b).prm = s.prm := rfl
@[simp] theorem State.setErrors_rxind (s : State) (a b : Nat) :
    (s.setErrors a b).rxind = s.rxind := rfl
@[simp] theorem State.setErrors_evq (s : State) (a b : Nat) :
    (s.setErrors a b).evq = s.evq := rfl
@[simp] theorem State.setErrors_csselTn (s : State) (a b : Nat) :
    (s.setErrors a b).csselTn = s.csselTn := rfl
@[simp] theorem State.setErrors_csselCh (s : State) (a b : Nat) :
    (s.setErrors a b).csselCh = s.csselCh := rfl
@[simp] theorem State.setErrors_host (s : State) (a b : Nat) :
    (s.setErrors a b).host = s.host := rfl
@[simp] theorem State.setErrors_hostRead (s : State) (a b : Nat) :
    (s.setErrors a b).hostRead = s.hostRead := rfl
@[simp] theorem State.setErrors_free (s : State) (a b : Nat) :
    (s.setErrors a b).free = s.free := rfl
@[simp] theorem State.setErrors_allocs (s : State) (a b : Nat) :
    (s.setErrors a b).allocs = s.allocs := rfl
@[simp] theorem State.setErrors_res_nerr (s : State) (a b : Nat) :
    (s.setErrors a b).res.nerr = BitVec.ofNat 16 a := rfl
@[simp] theorem State.setErrors_res_nbits (s : State) (a b : Nat) :
    (s.setErrors a b).res.nbits = BitVec.ofNat 16 b := rfl
@[simp] theorem State.setErrors_res_usf (s : State) (a b : Nat) :
    (s.setErrors a b).res.usf = s.res.usf := rfl
@[simp] theorem State.setErrors_res_cs (s : State) (a b : Nat) :
    (s.setErrors a b).res.cs = s.res.cs := rfl
@[simp] theorem State.setErrors_res_ft (s : State) (a b : Nat) :
    (s.setErrors a b).res.ft = s.res.ft := rfl
@[simp] theorem State.setErrors_res_cmr (s : State) (a b : Nat) :
    (s.setErrors a b).res.cmr = s.res.cmr := rfl
@[simp] theorem State.setErrors_res_idx (s : State) (a b : Nat) :
    (s.setErrors a b).res.idx = s.res.idx := rfl
@[simp] theorem State.setErrors_res_dist (s : State) (a b : Nat) :
    (s.setErrors a b).res.dist = s.res.dist := rfl
@[simp] theorem State.setErrors_res_steal (s : State) (a b : Nat) :
    (s.setErrors a b).res.steal = s.res.steal := rfl

/-! #### `setMatch` -/

@[simp] theorem State.setMatch_fn (s : State) (m : Nat × Nat) :
    (s.setMatch m).fn = s.fn := rfl
@[simp] theorem State.setMatch_fnValid (s : State) (m : Nat × Nat) :
    (s.setMatch m).fnValid = s.fnValid := rfl
@[simp] theorem State.setMatch_bsic (s : State) (m : Nat × Nat) :
    (s.setMatch m).bsic = s.bsic := rfl
@[simp] theorem State.setMatch_stat (s : State) (m : Nat × Nat) :
    (s.setMatch m).stat = s.stat := rfl
@[simp] theorem State.setMatch_wamr (s : State) (m : Nat × Nat) :
    (s.setMatch m).wamr = s.wamr := rfl
@[simp] theorem State.setMatch_ts (s : State) (m : Nat × Nat) :
    (s.setMatch m).ts = s.ts := rfl
@[simp] theorem State.setMatch_cs (s : State) (m : Nat × Nat) :
    (s.setMatch m).cs = s.cs := rfl
@[simp] theorem State.setMatch_q (s : State) (m : Nat × Nat) :
    (s.setMatch m).q = s.q := rfl
@[simp] theorem State.setMatch_mem (s : State) (m : Nat × Nat) :
    (s.setMatch m).mem = s.mem := rfl
@[simp] theorem State.setMatch_prm (s : State) (m : Nat × Nat) :
    (s.setMatch m).prm = s.prm := rfl
@[simp] theorem State.setMatch_rxind (s : State) (m : Nat × Nat) :
    (s.setMatch m).rxind = s.rxind := rfl
@[simp] theorem State.setMatch_evq (s : State) (m : Nat × Nat) :
    (s.setMatch m).evq = s.evq := rfl
@[simp] theorem State.setMatch_csselTn (s : State) (m : Nat × Nat) :
    (s.setMatch m).csselTn = s.csselTn := rfl
@[simp] theorem State.setMatch_csselCh (s : State) (m : Nat × Nat) :
    (s.setMatch m).csselCh = s.csselCh := rfl
@[simp] theorem State.setMatch_host (s : State) (m : Nat × Nat) :
    (s.setMatch m).host = s.host := rfl
@[simp] theorem State.setMatch_hostRead (s : State) (m : Nat × Nat) :
    (s.setMatch m).hostRead = s.hostRead := rfl
@[simp] theorem State.setMatch_free (s : State) (m : Nat × Nat) :
    (s.setMatch m).free = s.free := rfl
@[simp] theorem State.setMatch_allocs (s : State) (m : Nat × Nat) :
    (s.setMatch m).allocs = s.allocs := rfl
@[simp] theorem State.setMatch_res_nerr (s : State) (m : Nat × Nat) :
    (s.setMatch m).res.nerr = s.res.nerr := rfl
@[simp] theorem State.setMatch_res_nbits (s : State) (m : Nat × Nat) :
    (s.setMatch m).res.nbits = s.res.nbits := rfl
@[simp] theorem State.setMatch_res_usf (s : State) (m : Nat × Nat) :
    (s.setMatch m).res.usf = s.res.usf := rfl
@[simp] theorem State.setMatch_res_cs (s : State) (m : Nat × Nat) :
    (s.setMatch m).res.cs = s.res.cs := rfl
@[simp] theorem State.setMatch_res_ft (s : State) (m : Nat × Nat) :
    (s.setMatch m).res.ft = s.res.ft := rfl
@[simp] theorem State.setMatch_res_cmr (s : State) (m : Nat × Nat) :
    (s.setMatch m).res.cmr = s.res.cmr := rfl
@[simp] theorem State.setMatch_res_idx (s : State) (m : Nat × Nat) :
    (s.setMatch m).res.idx = BitVec.ofNat 8 m.1 := rfl
@[simp] theorem State.setMatch_res_dist (s : State) (m : Nat × Nat) :
    (s.setMatch m).res.dist = BitVec.ofNat 16 m.2 := rfl
@[simp] theorem State.setMatch_res_steal (s : State) (m : Nat × Nat) :
    (s.setMatch m).res.steal = s.res.steal := rfl

/-! #### `setScheme` -/

@[simp] theorem State.setScheme_fn (s : State) (x : Scheme) (usf : BitVec 3) :
    (s.setScheme x usf).fn = s.fn := rfl
@[simp] theorem State.setScheme_fnValid (s : State) (x : Scheme) (usf : BitVec 3) :
    (s.setScheme x usf).fnValid = s.fnValid := rfl
@[simp] theorem State.setScheme_bsic (s : State) (x : Scheme) (usf : BitVec 3) :
    (s.setScheme x usf).bsic = s.bsic := rfl
@[simp] theorem State.setScheme_stat (s : State) (x : Scheme) (usf : BitVec 3) :
    (s.setScheme x usf).stat = s.stat := rfl
@[simp] theorem State.setScheme_wamr (s : State) (x : Scheme) (usf : BitVec 3) :
    (s.setScheme x usf).wamr = s.wamr := rfl
@[simp] theorem State.setScheme_ts (s : State) (x : Scheme) (usf : BitVec 3) :
    (s.setScheme x usf).ts = s.ts := rfl
@[simp] theorem State.setScheme_cs (s : State) (x : Scheme) (usf : BitVec 3) :
    (s.setScheme x usf).cs = s.cs := rfl
@[simp] theorem State.setScheme_q (s : State) (x : Scheme) (usf : BitVec 3) :
    (s.setScheme x usf).q = s.q := rfl
@[simp] theorem State.setScheme_mem (s : State) (x : Scheme) (usf : BitVec 3) :
    (s.setScheme x usf).mem = s.mem := rfl
@[simp] theorem State.setScheme_prm (s : State) (x : Scheme) (usf : BitVec 3) :
    (s.setScheme x usf).prm = s.prm := rfl
@[simp] theorem State.setScheme_rxind (s : State) (x : Scheme) (usf : BitVec 3) :
    (s.setScheme x usf).rxind = s.rxind := rfl
@[simp] theorem State.setScheme_evq (s : State) (x : Scheme) (usf : BitVec 3) :
    (s.setScheme x usf).evq = s.evq := rfl
@[simp] theorem State.setScheme_csselTn (s : State) (x : Scheme) (usf : BitVec 3) :
    (s.setScheme x usf).csselTn = s.csselTn := rfl
@[simp] theorem State.setScheme_csselCh (s : State) (x : Scheme) (usf : BitVec 3) :
    (s.setScheme x usf).csselCh = s.csselCh := rfl
@[simp] theorem State.setScheme_host (s : State) (x : Scheme) (usf : BitVec 3) :
    (s.setScheme x usf).host = s.host := rfl
@[simp] theorem State.setScheme_hostRead (s : State) (x : Scheme) (usf : BitVec 3) :
    (s.setScheme x usf).hostRead = s.hostRead := rfl
@[simp] theorem State.setScheme_free (s : State) (x : Scheme) (usf : BitVec 3) :
    (s.setScheme x usf).free = s.free := rfl
@[simp] theorem State.setScheme_allocs (s : State) (x : Scheme) (usf : BitVec 3) :
    (s.setScheme x usf).allocs = s.allocs := rfl
@[simp] theorem State.setScheme_res_nerr (s : State) (x : Scheme) (usf : BitVec 3) :
    (s.setScheme x usf).res.nerr = s.res.nerr := rfl
@[simp] theorem State.setScheme_res_nbits (s : State) (x : Scheme) (usf : BitVec 3) :
    (s.setScheme x usf).res.nbits = s.res.nbits := rfl
@[simp] theorem State.setScheme_res_usf (s : State) (x : Scheme) (usf : BitVec 3) :
    (s.setScheme x usf).res.usf = usf := rfl
@[simp] theorem State.setScheme_res_cs (s : State) (x : Scheme) (usf : BitVec 3) :
    (s.setScheme x usf).res.cs = BitVec.ofNat 3 x.num := rfl
@[simp] theorem State.setScheme_res_ft (s : State) (x : Scheme) (usf : BitVec 3) :
    (s.setScheme x usf).res.ft = s.res.ft := rfl
@[simp] theorem State.setScheme_res_cmr (s : State) (x : Scheme) (usf : BitVec 3) :
    (s.setScheme x usf).res.cmr = s.res.cmr := rfl
@[simp] theorem State.setScheme_res_idx (s : State) (x : Scheme) (usf : BitVec 3) :
    (s.setScheme x usf).res.idx = s.res.idx := rfl
@[simp] theorem State.setScheme_res_dist (s : State) (x : Scheme) (usf : BitVec 3) :
    (s.setScheme x usf).res.dist = s.res.dist := rfl
@[simp] theorem State.setScheme_res_steal (s : State) (x : Scheme) (usf : BitVec 3) :
    (s.setScheme x usf).res.steal = s.res.steal := rfl

/-! #### `setUsf` -/

@[simp] theorem State.setUsf_fn (s : State) (usf : BitVec 3) :
    (s.setUsf usf).fn = s.fn := rfl
@[simp] theorem State.setUsf_fnValid (s : State) (usf : BitVec 3) :
    (s.setUsf usf).fnValid = s.fnValid := rfl
@[simp] theorem State.setUsf_bsic (s : State) (usf : BitVec 3) :
    (s.setUsf usf).bsic = s.bsic := rfl
@[simp] theorem State.setUsf_stat (s : State) (usf : BitVec 3) :
    (s.setUsf usf).stat = s.stat := rfl
@[simp] theorem State.setUsf_wamr (s : State) (usf : BitVec 3) :
    (s.setUsf usf).wamr = s.wamr := rfl
@[simp] theorem State.setUsf_ts (s : State) (usf : BitVec 3) :
    (s.setUsf usf).ts = s.ts := rfl
@[simp] theorem State.setUsf_cs (s : State) (usf : BitVec 3) :
    (s.setUsf usf).cs = s.cs := rfl
@[simp] theorem State.setUsf_q (s : State) (usf : BitVec 3) :
    (s.setUsf usf).q = s.q := rfl
@[simp] theorem State.setUsf_mem (s : State) (usf : BitVec 3) :
    (s.setUsf usf).mem = s.mem := rfl
@[simp] theorem State.setUsf_prm (s : State) (usf : BitVec 3) :
    (s.setUsf usf).prm = s.prm := rfl
@[simp] theorem State.setUsf_rxind (s : State) (usf : BitVec 3) :
    (s.setUsf usf).rxind = s.rxind := rfl
@[simp] theorem State.setUsf_evq (s : State) (usf : BitVec 3) :
    (s.setUsf usf).evq = s.evq := rfl
@[simp] theorem State.setUsf_csselTn (s : State) (usf : BitVec 3) :
    (s.setUsf usf).csselTn = s.csselTn := rfl
@[simp] theorem State.setUsf_csselCh (s : State) (usf : BitVec 3) :
    (s.setUsf usf).csselCh = s.csselCh := rfl
@[simp] theorem State.setUsf_host (s : State) (usf : BitVec 3) :
    (s.setUsf usf).host = s.host := rfl
@[simp] theorem State.setUsf_hostRead (s : State) (usf : BitVec 3) :
    (s.setUsf usf).hostRead = s.hostRead := rfl
@[simp] theorem State.setUsf_free (s : State) (usf : BitVec 3) :
    (s.setUsf usf).free = s.free := rfl
@[simp] theorem State.setUsf_allocs (s : State) (usf : BitVec 3) :
    (s.setUsf usf).allocs = s.allocs := rfl
@[simp] theorem State.setUsf_res_nerr (s : State) (usf : BitVec 3) :
    (s.setUsf usf).res.nerr = s.res.nerr := rfl
@[simp] theorem State.setUsf_res_nbits (s : State) (usf : BitVec 3) :
    (s.setUsf usf).res.nbits = s.res.nbits := rfl
@[simp] theorem State.setUsf_res_usf (s : State) (usf : BitVec 3) :
    (s.setUsf usf).res.usf = usf := rfl
@[simp] theorem State.setUsf_res_cs (s : State) (usf : BitVec 3) :
    (s.setUsf usf).res.cs = s.res.cs := rfl
@[simp] theorem State.setUsf_res_ft (s : State) (usf : BitVec 3) :
    (s.setUsf usf).res.ft = s.res.ft := rfl
@[simp] theorem State.setUsf_res_cmr (s : State) (usf : BitVec 3) :
    (s.setUsf usf).res.cmr = s.res.cmr := rfl
@[simp] theorem State.setUsf_res_idx (s : State) (usf : BitVec 3) :
    (s.setUsf usf).res.idx = s.res.idx := rfl
@[simp] theorem State.setUsf_res_dist (s : State) (usf : BitVec 3) :
    (s.setUsf usf).res.dist = s.res.dist := rfl
@[simp] theorem State.setUsf_res_steal (s : State) (usf : BitVec 3) :
    (s.setUsf usf).res.steal = s.res.steal := rfl

/-! #### `setCs` -/

@[simp] theorem State.setCs_fn (s : State) (x : Scheme) :
    (s.setCs x).fn = s.fn := rfl
@[simp] theorem State.setCs_fnValid (s : State) (x : Scheme) :
    (s.setCs x).fnValid = s.fnValid := rfl
@[simp] theorem State.setCs_bsic (s : State) (x : Scheme) :
    (s.setCs x).bsic = s.bsic := rfl
@[simp] theorem State.setCs_stat (s : State) (x : Scheme) :
    (s.setCs x).stat = s.stat := rfl
@[simp] theorem State.setCs_wamr (s : State) (x : Scheme) :
    (s.setCs x).wamr = s.wamr := rfl
@[simp] theorem State.setCs_ts (s : State) (x : Scheme) :
    (s.setCs x).ts = s.ts := rfl
@[simp] theorem State.setCs_cs (s : State) (x : Scheme) :
    (s.setCs x).cs = s.cs := rfl
@[simp] theorem State.setCs_q (s : State) (x : Scheme) :
    (s.setCs x).q = s.q := rfl
@[simp] theorem State.setCs_mem (s : State) (x : Scheme) :
    (s.setCs x).mem = s.mem := rfl
@[simp] theorem State.setCs_prm (s : State) (x : Scheme) :
    (s.setCs x).prm = s.prm := rfl
@[simp] theorem State.setCs_rxind (s : State) (x : Scheme) :
    (s.setCs x).rxind = s.rxind := rfl
@[simp] theorem State.setCs_evq (s : State) (x : Scheme) :
    (s.setCs x).evq = s.evq := rfl
@[simp] theorem State.setCs_csselTn (s : State) (x : Scheme) :
    (s.setCs x).csselTn = s.csselTn := rfl
@[simp] theorem State.setCs_csselCh (s : State) (x : Scheme) :
    (s.setCs x).csselCh = s.csselCh := rfl
@[simp] theorem State.setCs_host (s : State) (x : Scheme) :
    (s.setCs x).host = s.host := rfl
@[simp] theorem State.setCs_hostRead (s : State) (x : Scheme) :
    (s.setCs x).hostRead = s.hostRead := rfl
@[simp] theorem State.setCs_free (s : State) (x : Scheme) :
    (s.setCs x).free = s.free := rfl
@[simp] theorem State.setCs_allocs (s : State) (x : Scheme) :
    (s.setCs x).allocs = s.allocs := rfl
@[simp] theorem State.setCs_res_nerr (s : State) (x : Scheme) :
    (s.setCs x).res.nerr = s.res.nerr := rfl
@[simp] theorem State.setCs_res_nbits (s : State) (x : Scheme) :
    (s.setCs x).res.nbits = s.res.nbits := rfl
@[simp] theorem State.setCs_res_usf (s : State) (x : Scheme) :
    (s.setCs x).res.usf = s.res.usf := rfl
@[simp] theorem State.setCs_res_cs (s : State) (x : Scheme) :
    (s.setCs x).res.cs = BitVec.ofNat 3 x.num := rfl
@[simp] theorem State.setCs_res_ft (s : State) (x : Scheme) :
    (s.setCs x).res.ft = s.res.ft := rfl
@[simp] theorem State.setCs_res_cmr (s : State) (x : Scheme) :
    (s.setCs x).res.cmr = s.res.cmr := rfl
@[simp] theorem State.setCs_res_idx (s : State) (x : Scheme) :
    (s.setCs x).res.idx = s.res.idx := rfl
@[simp] theorem State.setCs_res_dist (s : State) (x : Scheme) :
    (s.setCs x).res.dist = s.res.dist := rfl
@[simp] theorem State.setCs_res_steal (s : State) (x : Scheme) :
    (s.setCs x).res.steal = s.res.steal := rfl

/-! #### `setSteal` -/

@[simp] theorem State.setSteal_fn (s : State) (b : Bool) :
    (s.setSteal b).fn = s.fn := rfl
@[simp] theorem State.setSteal_fnValid (s : State) (b : Bool) :
    (s.setSteal b).fnValid = s.fnValid := rfl
@[simp] theorem State.setSteal_bsic (s : State) (b : Bool) :
    (s.setSteal b).bsic = s.bsic := rfl
@[simp] theorem State.setSteal_stat (s : State) (b : Bool) :
    (s.setSteal b).stat = s.stat := rfl
@[simp] theorem State.setSteal_wamr (s : State) (b : Bool) :
    (s.setSteal b).wamr = s.wamr := rfl
@[simp] theorem State.setSteal_ts (s : State) (b : Bool) :
    (s.setSteal b).ts = s.ts := rfl
@[simp] theorem State.setSteal_cs (s : State) (b : Bool) :
    (s.setSteal b).cs = s.cs := rfl
@[simp] theorem State.setSteal_q (s : State) (b : Bool) :
    (s.setSteal b).q = s.q := rfl
@[simp] theorem State.setSteal_mem (s : State) (b : Bool) :
    (s.setSteal b).mem = s.mem := rfl
@[simp] theorem State.setSteal_prm (s : State) (b : Bool) :
    (s.setSteal b).prm = s.prm := rfl
@[simp] theorem State.setSteal_rxind (s : State) (b : Bool) :
    (s.setSteal b).rxind = s.rxind := rfl
@[simp] theorem State.setSteal_evq (s : State) (b : Bool) :
    (s.setSteal b).evq = s.evq := rfl
@[simp] theorem State.setSteal_csselTn (s : State) (b : Bool) :
    (s.setSteal b).csselTn = s.csselTn := rfl
@[simp] theorem State.setSteal_csselCh (s : State) (b : Bool) :
    (s.setSteal b).csselCh = s.csselCh := rfl
@[simp] theorem State.setSteal_host (s : State) (b : Bool) :
    (s.setSteal b).host = s.host := rfl
@[simp] theorem State.setSteal_hostRead (s : State) (b : Bool) :
    (s.setSteal b).hostRead = s.hostRead := rfl
@[simp] theorem State.setSteal_free (s : State) (b : Bool) :
    (s.setSteal b).free = s.free := rfl
@[simp] theorem State.setSteal_allocs (s : State) (b : Bool) :
    (s.setSteal b).allocs = s.allocs := rfl
@[simp] theorem State.setSteal_res_nerr (s : State) (b : Bool) :
    (s.setSteal b).res.nerr = s.res.nerr := rfl
@[simp] theorem State.setSteal_res_nbits (s : State) (b : Bool) :
    (s.setSteal b).res.nbits = s.res.nbits := rfl
@[simp] theorem State.setSteal_res_usf (s : State) (b : Bool) :
    (s.setSteal b).res.usf = s.res.usf := rfl
@[simp] theorem State.setSteal_res_cs (s : State) (b : Bool) :
    (s.setSteal b).res.cs = s.res.cs := rfl
@[simp] theorem State.setSteal_res_ft (s : State) (b : Bool) :
    (s.setSteal b).res.ft = s.res.ft := rfl
@[simp] theorem State.setSteal_res_cmr (s : State) (b : Bool) :
    (s.setSteal b).res.cmr = s.res.cmr := rfl
@[simp] theorem State.setSteal_res_idx (s : State) (b : Bool) :
    (s.setSteal b).res.idx = s.res.idx := rfl
@[simp] theorem State.setSteal_res_dist (s : State) (b : Bool) :
    (s.setSteal b).res.dist = s.res.dist := rfl
@[simp] theorem State.setSteal_res_steal (s : State) (b : Bool) :
    (s.setSteal b).res.steal = b := rfl

/-! #### `setIndices` -/

@[simp] theorem State.setIndices_fn (s : State) (ft cmr : BitVec 3) :
    (s.setIndices ft cmr).fn = s.fn := rfl
@[simp] theorem State.setIndices_fnValid (s : State) (ft cmr : BitVec 3) :
    (s.setIndices ft cmr).fnValid = s.fnValid := rfl
@[simp] theorem State.setIndices_bsic (s : State) (ft cmr : BitVec 3) :
    (s.setIndices ft cmr).bsic = s.bsic := rfl
@[simp] theorem State.setIndices_stat (s : State) (ft cmr : BitVec 3) :
    (s.setIndices ft cmr).stat = s.stat := rfl
@[simp] theorem State.setIndices_wamr (s : State) (ft cmr : BitVec 3) :
    (s.setIndices ft cmr).wamr = s.wamr := rfl
@[simp] theorem State.setIndices_ts (s : State) (ft cmr : BitVec 3) :
    (s.setIndices ft cmr).ts = s.ts := rfl
@[simp] theorem State.setIndices_cs (s : State) (ft cmr : BitVec 3) :
    (s.setIndices ft cmr).cs = s.cs := rfl
@[simp] theorem State.setIndices_q (s : State) (ft cmr : BitVec 3) :
    (s.setIndices ft cmr).q = s.q := rfl
@[simp] theorem State.setIndices_mem (s : State) (ft cmr : BitVec 3) :
    (s.setIndices ft cmr).mem = s.mem := rfl
@[simp] theorem State.setIndices_prm (s : State) (ft cmr : BitVec 3) :
    (s.setIndices ft cmr).prm = s.prm := rfl
@[simp] theorem State.setIndices_rxind (s : State) (ft cmr : BitVec 3) :
    (s.setIndices ft cmr).rxind = s.rxind := rfl
@[simp] theorem State.setIndices_evq (s : State) (ft cmr : BitVec 3) :
    (s.setIndices ft cmr).evq = s.evq := rfl
@[simp] theorem State.setIndices_csselTn (s : State) (ft cmr : BitVec 3) :
    (s.setIndices ft cmr).csselTn = s.csselTn := rfl
@[simp] theorem State.setIndices_csselCh (s : State) (ft cmr : BitVec 3) :
    (s.setIndices ft cmr).csselCh = s.csselCh := rfl
@[simp] theorem State.setIndices_host (s : State) (ft cmr : BitVec 3) :
    (s.setIndices ft cmr).host = s.host := rfl
@[simp] theorem State.setIndices_hostRead (s : State) (ft cmr : BitVec 3) :
    (s.setIndices ft cmr).hostRead = s.hostRead := rfl
@[simp] theorem State.setIndices_free (s : State) (ft cmr : BitVec 3) :
    (s.setIndices ft cmr).free = s.free := rfl
@[simp] theorem State.setIndices_allocs (s : State) (ft cmr : BitVec 3) :
    (s.setIndices ft cmr).allocs = s.allocs := rfl
@[simp] theorem State.setIndices_res_nerr (s : State) (ft cmr : BitVec 3) :
    (s.setIndices ft cmr).res.nerr = s.res.nerr := rfl
@[simp] theorem State.setIndices_res_nbits (s : State) (ft cmr : BitVec 3) :
    (s.setIndices ft cmr).res.nbits = s.res.nbits := rfl
@[simp] theorem State.setIndices_res_usf (s : State) (ft cmr : BitVec 3) :
    (s.setIndices ft cmr).res.usf = s.res.usf := rfl
@[simp] theorem State.setIndices_res_cs (s : State) (ft cmr : BitVec 3) :
    (s.setIndices ft cmr).res.cs = s.res.cs := rfl
@[simp] theorem State.setIndices_res_ft (s : State) (ft cmr : BitVec 3) :
    (s.setIndices ft cmr).res.ft = ft := rfl
@[simp] theorem State.setIndices_res_cmr (s : State) (ft cmr : BitVec 3) :
    (s.setIndices ft cmr).res.cmr = cmr := rfl
@[simp] theorem State.setIndices_res_idx (s : State) (ft cmr : BitVec 3) :
    (s.setIndices ft cmr).res.idx = s.res.idx := rfl
@[simp] theorem State.setIndices_res_dist (s : State) (ft cmr : BitVec 3) :
    (s.setIndices ft cmr).res.dist = s.res.dist := rfl
@[simp] theorem State.setIndices_res_steal (s : State) (ft cmr : BitVec 3) :
    (s.setIndices ft cmr).res.steal = s.res.steal := rfl

/-! #### `setTs` -/

@[simp] theorem State.setTs_fn (s : State) (tn : Tn) (r : TsRegs) :
    (s.setTs tn r).fn = s.fn := rfl
@[simp] theorem State.setTs_fnValid (s : State) (tn : Tn) (r : TsRegs) :
    (s.setTs tn r).fnValid = s.fnValid := rfl
@[simp] theorem State.setTs_bsic (s : State) (tn : Tn) (r : TsRegs) :
    (s.setTs tn r).bsic = s.bsic := rfl
@[simp] theorem State.setTs_stat (s : State) (tn : Tn) (r : TsRegs) :
    (s.setTs tn r).stat = s.stat := rfl
@[simp] theorem State.setTs_res (s : State) (tn : Tn) (r : TsRegs) :
    (s.setTs tn r).res = s.res := rfl
@[simp] theorem State.setTs_wamr (s : State) (tn : Tn) (r : TsRegs) :
    (s.setTs tn r).wamr = s.wamr := rfl
@[simp] theorem State.setTs_ts (s : State) (tn : Tn) (r : TsRegs) :
    (s.setTs tn r).ts = s.ts.set tn r := rfl
@[simp] theorem State.setTs_cs (s : State) (tn : Tn) (r : TsRegs) :
    (s.setTs tn r).cs = s.cs := rfl
@[simp] theorem State.setTs_q (s : State) (tn : Tn) (r : TsRegs) :
    (s.setTs tn r).q = s.q := rfl
@[simp] theorem State.setTs_mem (s : State) (tn : Tn) (r : TsRegs) :
    (s.setTs tn r).mem = s.mem := rfl
@[simp] theorem State.setTs_prm (s : State) (tn : Tn) (r : TsRegs) :
    (s.setTs tn r).prm = s.prm := rfl
@[simp] theorem State.setTs_rxind (s : State) (tn : Tn) (r : TsRegs) :
    (s.setTs tn r).rxind = s.rxind := rfl
@[simp] theorem State.setTs_evq (s : State) (tn : Tn) (r : TsRegs) :
    (s.setTs tn r).evq = s.evq := rfl
@[simp] theorem State.setTs_csselTn (s : State) (tn : Tn) (r : TsRegs) :
    (s.setTs tn r).csselTn = s.csselTn := rfl
@[simp] theorem State.setTs_csselCh (s : State) (tn : Tn) (r : TsRegs) :
    (s.setTs tn r).csselCh = s.csselCh := rfl
@[simp] theorem State.setTs_host (s : State) (tn : Tn) (r : TsRegs) :
    (s.setTs tn r).host = s.host := rfl
@[simp] theorem State.setTs_hostRead (s : State) (tn : Tn) (r : TsRegs) :
    (s.setTs tn r).hostRead = s.hostRead := rfl
@[simp] theorem State.setTs_free (s : State) (tn : Tn) (r : TsRegs) :
    (s.setTs tn r).free = s.free := rfl
@[simp] theorem State.setTs_allocs (s : State) (tn : Tn) (r : TsRegs) :
    (s.setTs tn r).allocs = s.allocs := rfl

/-! #### `setChan` -/

@[simp] theorem State.setChan_fn (s : State) (tn : Tn) (ch : Chan) (x : ChanState) :
    (s.setChan tn ch x).fn = s.fn := rfl
@[simp] theorem State.setChan_fnValid (s : State) (tn : Tn) (ch : Chan) (x : ChanState) :
    (s.setChan tn ch x).fnValid = s.fnValid := rfl
@[simp] theorem State.setChan_bsic (s : State) (tn : Tn) (ch : Chan) (x : ChanState) :
    (s.setChan tn ch x).bsic = s.bsic := rfl
@[simp] theorem State.setChan_stat (s : State) (tn : Tn) (ch : Chan) (x : ChanState) :
    (s.setChan tn ch x).stat = s.stat := rfl
@[simp] theorem State.setChan_res (s : State) (tn : Tn) (ch : Chan) (x : ChanState) :
    (s.setChan tn ch x).res = s.res := rfl
@[simp] theorem State.setChan_wamr (s : State) (tn : Tn) (ch : Chan) (x : ChanState) :
    (s.setChan tn ch x).wamr = s.wamr := rfl
@[simp] theorem State.setChan_ts (s : State) (tn : Tn) (ch : Chan) (x : ChanState) :
    (s.setChan tn ch x).ts = s.ts := rfl
@[simp] theorem State.setChan_cs (s : State) (tn : Tn) (ch : Chan) (x : ChanState) :
    (s.setChan tn ch x).cs = s.cs.set tn ((s.cs.get tn).set ch x) := rfl
@[simp] theorem State.setChan_q (s : State) (tn : Tn) (ch : Chan) (x : ChanState) :
    (s.setChan tn ch x).q = s.q := rfl
@[simp] theorem State.setChan_mem (s : State) (tn : Tn) (ch : Chan) (x : ChanState) :
    (s.setChan tn ch x).mem = s.mem := rfl
@[simp] theorem State.setChan_prm (s : State) (tn : Tn) (ch : Chan) (x : ChanState) :
    (s.setChan tn ch x).prm = s.prm := rfl
@[simp] theorem State.setChan_rxind (s : State) (tn : Tn) (ch : Chan) (x : ChanState) :
    (s.setChan tn ch x).rxind = s.rxind := rfl
@[simp] theorem State.setChan_evq (s : State) (tn : Tn) (ch : Chan) (x : ChanState) :
    (s.setChan tn ch x).evq = s.evq := rfl
@[simp] theorem State.setChan_csselTn (s : State) (tn : Tn) (ch : Chan) (x : ChanState) :
    (s.setChan tn ch x).csselTn = s.csselTn := rfl
@[simp] theorem State.setChan_csselCh (s : State) (tn : Tn) (ch : Chan) (x : ChanState) :
    (s.setChan tn ch x).csselCh = s.csselCh := rfl
@[simp] theorem State.setChan_host (s : State) (tn : Tn) (ch : Chan) (x : ChanState) :
    (s.setChan tn ch x).host = s.host := rfl
@[simp] theorem State.setChan_hostRead (s : State) (tn : Tn) (ch : Chan) (x : ChanState) :
    (s.setChan tn ch x).hostRead = s.hostRead := rfl
@[simp] theorem State.setChan_free (s : State) (tn : Tn) (ch : Chan) (x : ChanState) :
    (s.setChan tn ch x).free = s.free := rfl
@[simp] theorem State.setChan_allocs (s : State) (tn : Tn) (ch : Chan) (x : ChanState) :
    (s.setChan tn ch x).allocs = s.allocs := rfl

/-! #### `setQueue` -/

@[simp] theorem State.setQueue_fn (s : State) (tn : Tn) (ch : Chan) (x : List QElem) :
    (s.setQueue tn ch x).fn = s.fn := rfl
@[simp] theorem State.setQueue_fnValid (s : State) (tn : Tn) (ch : Chan) (x : List QElem) :
    (s.setQueue tn ch x).fnValid = s.fnValid := rfl
@[simp] theorem State.setQueue_bsic (s : State) (tn : Tn) (ch : Chan) (x : List QElem) :
    (s.setQueue tn ch x).bsic = s.bsic := rfl
@[simp] theorem State.setQueue_stat (s : State) (tn : Tn) (ch : Chan) (x : List QElem) :
    (s.setQueue tn ch x).stat = s.stat := rfl
@[simp] theorem State.setQueue_res (s : State) (tn : Tn) (ch : Chan) (x : List QElem) :
    (s.setQueue tn ch x).res = s.res := rfl
@[simp] theorem State.setQueue_wamr (s : State) (tn : Tn) (ch : Chan) (x : List QElem) :
    (s.setQueue tn ch x).wamr = s.wamr := rfl
@[simp] theorem State.setQueue_ts (s : State) (tn : Tn) (ch : Chan) (x : List QElem) :
    (s.setQueue tn ch x).ts = s.ts := rfl
@[simp] theorem State.setQueue_cs (s : State) (tn : Tn) (ch : Chan) (x : List QElem) :
    (s.setQueue tn ch x).cs = s.cs := rfl
@[simp] theorem State.setQueue_q (s : State) (tn : Tn) (ch : Chan) (x : List QElem) :
    (s.setQueue tn ch x).q = s.q.set tn ((s.q.get tn).set ch x) := rfl
@[simp] theorem State.setQueue_mem (s : State) (tn : Tn) (ch : Chan) (x : List QElem) :
    (s.setQueue tn ch x).mem = s.mem := rfl
@[simp] theorem State.setQueue_prm (s : State) (tn : Tn) (ch : Chan) (x : List QElem) :
    (s.setQueue tn ch x).prm = s.prm := rfl
@[simp] theorem State.setQueue_rxind (s : State) (tn : Tn) (ch : Chan) (x : List QElem) :
    (s.setQueue tn ch x).rxind = s.rxind := rfl
@[simp] theorem State.setQueue_evq (s : State) (tn : Tn) (ch : Chan) (x : List QElem) :
    (s.setQueue tn ch x).evq = s.evq := rfl
@[simp] theorem State.setQueue_csselTn (s : State) (tn : Tn) (ch : Chan) (x : List QElem) :
    (s.setQueue tn ch x).csselTn = s.csselTn := rfl
@[simp] theorem State.setQueue_csselCh (s : State) (tn : Tn) (ch : Chan) (x : List QElem) :
    (s.setQueue tn ch x).csselCh = s.csselCh := rfl
@[simp] theorem State.setQueue_host (s : State) (tn : Tn) (ch : Chan) (x : List QElem) :
    (s.setQueue tn ch x).host = s.host := rfl
@[simp] theorem State.setQueue_hostRead (s : State) (tn : Tn) (ch : Chan) (x : List QElem) :
    (s.setQueue tn ch x).hostRead = s.hostRead := rfl
@[simp] theorem State.setQueue_free (s : State) (tn : Tn) (ch : Chan) (x : List QElem) :
    (s.setQueue tn ch x).free = s.free := rfl
@[simp] theorem State.setQueue_allocs (s : State) (tn : Tn) (ch : Chan) (x : List QElem) :
    (s.setQueue tn ch x).allocs = s.allocs := rfl

/-! #### `clearSlot` -/

@[simp] theorem State.clearSlot_fn (s : State) (tn : Tn) :
    (s.clearSlot tn).fn = s.fn := rfl
@[simp] theorem State.clearSlot_fnValid (s : State) (tn : Tn) :
    (s.clearSlot tn).fnValid = s.fnValid := rfl
@[simp] theorem State.clearSlot_bsic (s : State) (tn : Tn) :
    (s.clearSlot tn).bsic = s.bsic := rfl
@[simp] theorem State.clearSlot_stat (s : State) (tn : Tn) :
    (s.clearSlot tn).stat = s.stat := rfl
@[simp] theorem State.clearSlot_res (s : State) (tn : Tn) :
    (s.clearSlot tn).res = s.res := rfl
@[simp] theorem State.clearSlot_wamr (s : State) (tn : Tn) :
    (s.clearSlot tn).wamr = s.wamr := rfl
@[simp] theorem State.clearSlot_ts (s : State) (tn : Tn) :
    (s.clearSlot tn).ts = s.ts := rfl
@[simp] theorem State.clearSlot_cs (s : State) (tn : Tn) :
    (s.clearSlot tn).cs = s.cs.set tn chanStatesZero := rfl
@[simp] theorem State.clearSlot_q (s : State) (tn : Tn) :
    (s.clearSlot tn).q = s.q.set tn queuesEmpty := rfl
@[simp] theorem State.clearSlot_mem (s : State) (tn : Tn) :
    (s.clearSlot tn).mem = s.mem := rfl
@[simp] theorem State.clearSlot_prm (s : State) (tn : Tn) :
    (s.clearSlot tn).prm = s.prm := rfl
@[simp] theorem State.clearSlot_rxind (s : State) (tn : Tn) :
    (s.clearSlot tn).rxind = s.rxind := rfl
@[simp] theorem State.clearSlot_evq (s : State) (tn : Tn) :
    (s.clearSlot tn).evq = s.evq := rfl
@[simp] theorem State.clearSlot_csselTn (s : State) (tn : Tn) :
    (s.clearSlot tn).csselTn = s.csselTn := rfl
@[simp] theorem State.clearSlot_csselCh (s : State) (tn : Tn) :
    (s.clearSlot tn).csselCh = s.csselCh := rfl
@[simp] theorem State.clearSlot_host (s : State) (tn : Tn) :
    (s.clearSlot tn).host = s.host := rfl
@[simp] theorem State.clearSlot_hostRead (s : State) (tn : Tn) :
    (s.clearSlot tn).hostRead = s.hostRead := rfl
@[simp] theorem State.clearSlot_free (s : State) (tn : Tn) :
    (s.clearSlot tn).free = s.free := rfl
@[simp] theorem State.clearSlot_allocs (s : State) (tn : Tn) :
    (s.clearSlot tn).allocs = s.allocs := rfl

/-! #### `emit` -/

@[simp] theorem State.emit_fn (s : State) (e : Event) :
    (s.emit e).fn = s.fn := rfl
@[simp] theorem State.emit_fnValid (s : State) (e : Event) :
    (s.emit e).fnValid = s.fnValid := rfl
@[simp] theorem State.emit_bsic (s : State) (e : Event) :
    (s.emit e).bsic = s.bsic := rfl
@[simp] theorem State.emit_stat (s : State) (e : Event) :
    (s.emit e).stat = s.stat := rfl
@[simp] theorem State.emit_res (s : State) (e : Event) :
    (s.emit e).res = s.res := rfl
@[simp] theorem State.emit_wamr (s : State) (e : Event) :
    (s.emit e).wamr = s.wamr := rfl
@[simp] theorem State.emit_ts (s : State) (e : Event) :
    (s.emit e).ts = s.ts := rfl
@[simp] theorem State.emit_cs (s : State) (e : Event) :
    (s.emit e).cs = s.cs := rfl
@[simp] theorem State.emit_q (s : State) (e : Event) :
    (s.emit e).q = s.q := rfl
@[simp] theorem State.emit_mem (s : State) (e : Event) :
    (s.emit e).mem = s.mem := rfl
@[simp] theorem State.emit_prm (s : State) (e : Event) :
    (s.emit e).prm = s.prm := rfl
@[simp] theorem State.emit_rxind (s : State) (e : Event) :
    (s.emit e).rxind = s.rxind := rfl
@[simp] theorem State.emit_evq (s : State) (e : Event) :
    (s.emit e).evq = s.evq ++ [e] := rfl
@[simp] theorem State.emit_csselTn (s : State) (e : Event) :
    (s.emit e).csselTn = s.csselTn := rfl
@[simp] theorem State.emit_csselCh (s : State) (e : Event) :
    (s.emit e).csselCh = s.csselCh := rfl
@[simp] theorem State.emit_host (s : State) (e : Event) :
    (s.emit e).host = s.host := rfl
@[simp] theorem State.emit_hostRead (s : State) (e : Event) :
    (s.emit e).hostRead = s.hostRead := rfl
@[simp] theorem State.emit_free (s : State) (e : Event) :
    (s.emit e).free = s.free := rfl
@[simp] theorem State.emit_allocs (s : State) (e : Event) :
    (s.emit e).allocs = s.allocs := rfl

/-! #### `raise` -/

@[simp] theorem State.raise_fn (s : State) (e : ErrCode) (info : Nat) :
    (s.raise e info).fn = s.fn := rfl
@[simp] theorem State.raise_fnValid (s : State) (e : ErrCode) (info : Nat) :
    (s.raise e info).fnValid = s.fnValid := rfl
@[simp] theorem State.raise_bsic (s : State) (e : ErrCode) (info : Nat) :
    (s.raise e info).bsic = s.bsic := rfl
@[simp] theorem State.raise_stat (s : State) (e : ErrCode) (info : Nat) :
    (s.raise e info).stat = { code := e.code, aux := BitVec.ofNat 16 info } := rfl
@[simp] theorem State.raise_res (s : State) (e : ErrCode) (info : Nat) :
    (s.raise e info).res = s.res := rfl
@[simp] theorem State.raise_wamr (s : State) (e : ErrCode) (info : Nat) :
    (s.raise e info).wamr = s.wamr := rfl
@[simp] theorem State.raise_ts (s : State) (e : ErrCode) (info : Nat) :
    (s.raise e info).ts = s.ts := rfl
@[simp] theorem State.raise_cs (s : State) (e : ErrCode) (info : Nat) :
    (s.raise e info).cs = s.cs := rfl
@[simp] theorem State.raise_q (s : State) (e : ErrCode) (info : Nat) :
    (s.raise e info).q = s.q := rfl
@[simp] theorem State.raise_mem (s : State) (e : ErrCode) (info : Nat) :
    (s.raise e info).mem = s.mem := rfl
@[simp] theorem State.raise_prm (s : State) (e : ErrCode) (info : Nat) :
    (s.raise e info).prm = s.prm := rfl
@[simp] theorem State.raise_rxind (s : State) (e : ErrCode) (info : Nat) :
    (s.raise e info).rxind = s.rxind := rfl
@[simp] theorem State.raise_evq (s : State) (e : ErrCode) (info : Nat) :
    (s.raise e info).evq = s.evq := rfl
@[simp] theorem State.raise_csselTn (s : State) (e : ErrCode) (info : Nat) :
    (s.raise e info).csselTn = s.csselTn := rfl
@[simp] theorem State.raise_csselCh (s : State) (e : ErrCode) (info : Nat) :
    (s.raise e info).csselCh = s.csselCh := rfl
@[simp] theorem State.raise_host (s : State) (e : ErrCode) (info : Nat) :
    (s.raise e info).host = s.host := rfl
@[simp] theorem State.raise_hostRead (s : State) (e : ErrCode) (info : Nat) :
    (s.raise e info).hostRead = s.hostRead := rfl
@[simp] theorem State.raise_free (s : State) (e : ErrCode) (info : Nat) :
    (s.raise e info).free = s.free := rfl
@[simp] theorem State.raise_allocs (s : State) (e : ErrCode) (info : Nat) :
    (s.raise e info).allocs = s.allocs := rfl

/-! #### `pushCommand` -/

@[simp] theorem State.pushCommand_fn (s : State) (w : Word) :
    (s.pushCommand w).fn = s.fn := rfl
@[simp] theorem State.pushCommand_fnValid (s : State) (w : Word) :
    (s.pushCommand w).fnValid = s.fnValid := rfl
@[simp] theorem State.pushCommand_bsic (s : State) (w : Word) :
    (s.pushCommand w).bsic = s.bsic := rfl
@[simp] theorem State.pushCommand_stat (s : State) (w : Word) :
    (s.pushCommand w).stat = s.stat := rfl
@[simp] theorem State.pushCommand_res (s : State) (w : Word) :
    (s.pushCommand w).res = s.res := rfl
@[simp] theorem State.pushCommand_wamr (s : State) (w : Word) :
    (s.pushCommand w).wamr = s.wamr := rfl
@[simp] theorem State.pushCommand_ts (s : State) (w : Word) :
    (s.pushCommand w).ts = s.ts := rfl
@[simp] theorem State.pushCommand_cs (s : State) (w : Word) :
    (s.pushCommand w).cs = s.cs := rfl
@[simp] theorem State.pushCommand_q (s : State) (w : Word) :
    (s.pushCommand w).q = s.q := rfl
@[simp] theorem State.pushCommand_mem (s : State) (w : Word) :
    (s.pushCommand w).mem = s.mem := rfl
@[simp] theorem State.pushCommand_prm (s : State) (w : Word) :
    (s.pushCommand w).prm = s.prm := rfl
@[simp] theorem State.pushCommand_rxind (s : State) (w : Word) :
    (s.pushCommand w).rxind = s.rxind := rfl
@[simp] theorem State.pushCommand_evq (s : State) (w : Word) :
    (s.pushCommand w).evq = s.evq := rfl
@[simp] theorem State.pushCommand_csselTn (s : State) (w : Word) :
    (s.pushCommand w).csselTn = s.csselTn := rfl
@[simp] theorem State.pushCommand_csselCh (s : State) (w : Word) :
    (s.pushCommand w).csselCh = s.csselCh := rfl
@[simp] theorem State.pushCommand_host (s : State) (w : Word) :
    (s.pushCommand w).host = .write 0 4 w :: s.host := rfl
@[simp] theorem State.pushCommand_hostRead (s : State) (w : Word) :
    (s.pushCommand w).hostRead = s.hostRead := rfl
@[simp] theorem State.pushCommand_free (s : State) (w : Word) :
    (s.pushCommand w).free = s.free := rfl
@[simp] theorem State.pushCommand_allocs (s : State) (w : Word) :
    (s.pushCommand w).allocs = s.allocs := rfl

/-! #### `scratch` -/

@[simp] theorem State.scratch_fn (s : State) :
    (s.scratch).fn = s.fn := rfl
@[simp] theorem State.scratch_fnValid (s : State) :
    (s.scratch).fnValid = s.fnValid := rfl
@[simp] theorem State.scratch_bsic (s : State) :
    (s.scratch).bsic = s.bsic := rfl
@[simp] theorem State.scratch_stat (s : State) :
    (s.scratch).stat = s.stat := rfl
@[simp] theorem State.scratch_ts (s : State) :
    (s.scratch).ts = s.ts := rfl
@[simp] theorem State.scratch_cs (s : State) :
    (s.scratch).cs = s.cs := rfl
@[simp] theorem State.scratch_q (s : State) :
    (s.scratch).q = s.q := rfl
@[simp] theorem State.scratch_prm (s : State) :
    (s.scratch).prm = s.prm := rfl
@[simp] theorem State.scratch_rxind (s : State) :
    (s.scratch).rxind = s.rxind := rfl
@[simp] theorem State.scratch_evq (s : State) :
    (s.scratch).evq = s.evq := rfl
@[simp] theorem State.scratch_csselTn (s : State) :
    (s.scratch).csselTn = s.csselTn := rfl
@[simp] theorem State.scratch_csselCh (s : State) :
    (s.scratch).csselCh = s.csselCh := rfl
@[simp] theorem State.scratch_host (s : State) :
    (s.scratch).host = s.host := rfl
@[simp] theorem State.scratch_hostRead (s : State) :
    (s.scratch).hostRead = s.hostRead := rfl
@[simp] theorem State.scratch_free (s : State) :
    (s.scratch).free = s.free + 11 := rfl
@[simp] theorem State.scratch_allocs (s : State) :
    (s.scratch).allocs = s.allocs := rfl

/-! ### Reading what was written -/

/-- Reading the listed elements gives their values. -/
theorem readFrom_map_val {α : Type} (free : Nat → Nat → α) (rest : Nat) (xs : List α) (idx : Nat) :
    readFrom free rest xs.length idx (xs.map Elem.val) = xs := by
  induction xs generalizing idx with
  | nil => rfl
  | cons x xs ih => simp [readFrom, Elem.read, ih]

/-- A buffer reads as the vector it was loaded with. -/
@[simp] theorem Buf.read_load {α : Type} (free : Nat → Nat → α) (tag : Nat) (xs : List α) :
    (Buf.load tag xs).read free = xs := readFrom_map_val free tag xs 0

/-- The length of a loaded buffer. -/
@[simp] theorem Buf.load_len {α : Type} (tag : Nat) (xs : List α) :
    (Buf.load tag xs).len = xs.length := rfl

/-- The length of the received payloads after they were loaded. -/
@[simp] theorem State.setSoftE_len (s : State) (es : List SBit) :
    (s.setSoftE es).mem.es.len = es.length := rfl

@[simp] theorem State.setPdu_pdu (s : State) (xs : List Byte) : (s.setPdu xs).pdu = xs := by
  simp [State.pdu]
@[simp] theorem State.setU_u (s : State) (xs : List UBit) : (s.setU xs).u = xs := by
  simp [State.u]
@[simp] theorem State.setPar_par (s : State) (xs : List UBit) : (s.setPar xs).par = xs := by
  simp [State.par]
@[simp] theorem State.setC_c (s : State) (xs : List UBit) : (s.setC xs).c = xs := by
  simp [State.c]
@[simp] theorem State.setSoftC_softC (s : State) (xs : List SBit) : (s.setSoftC xs).softC = xs := by
  simp [State.softC]
@[simp] theorem State.setI_i (s : State) (xs : List UBit) : (s.setI xs).i = xs := by
  simp [State.i]
@[simp] theorem State.setSoftI_softI (s : State) (xs : List SBit) : (s.setSoftI xs).softI = xs := by
  simp [State.softI]
@[simp] theorem State.setE_e (s : State) (xs : List UBit) : (s.setE xs).e = xs := by
  simp [State.e]
@[simp] theorem State.setSoftE_softE (s : State) (xs : List SBit) : (s.setSoftE xs).softE = xs := by
  simp [State.softE]
@[simp] theorem State.setH_h (s : State) (xs : List UBit) : (s.setH xs).h = xs := by
  simp [State.h]
@[simp] theorem State.setSoftH_softH (s : State) (xs : List SBit) : (s.setSoftH xs).softH = xs := by
  simp [State.softH]
@[simp] theorem State.setPdu_read_u (s : State) (xs : List Byte) : (s.setPdu xs).u = s.u := rfl
@[simp] theorem State.setPdu_read_par (s : State) (xs : List Byte) : (s.setPdu xs).par = s.par := rfl
@[simp] theorem State.setPdu_read_c (s : State) (xs : List Byte) : (s.setPdu xs).c = s.c := rfl
@[simp] theorem State.setPdu_read_softC (s : State) (xs : List Byte) : (s.setPdu xs).softC = s.softC := rfl
@[simp] theorem State.setPdu_read_i (s : State) (xs : List Byte) : (s.setPdu xs).i = s.i := rfl
@[simp] theorem State.setPdu_read_softI (s : State) (xs : List Byte) : (s.setPdu xs).softI = s.softI := rfl
@[simp] theorem State.setPdu_read_e (s : State) (xs : List Byte) : (s.setPdu xs).e = s.e := rfl
@[simp] theorem State.setPdu_read_softE (s : State) (xs : List Byte) : (s.setPdu xs).softE = s.softE := rfl
@[simp] theorem State.setPdu_read_h (s : State) (xs : List Byte) : (s.setPdu xs).h = s.h := rfl
@[simp] theorem State.setPdu_read_softH (s : State) (xs : List Byte) : (s.setPdu xs).softH = s.softH := rfl
@[simp] theorem State.setU_read_pdu (s : State) (xs : List UBit) : (s.setU xs).pdu = s.pdu := rfl
@[simp] theorem State.setU_read_par (s : State) (xs : List UBit) : (s.setU xs).par = s.par := rfl
@[simp] theorem State.setU_read_c (s : State) (xs : List UBit) : (s.setU xs).c = s.c := rfl
@[simp] theorem State.setU_read_softC (s : State) (xs : List UBit) : (s.setU xs).softC = s.softC := rfl
@[simp] theorem State.setU_read_i (s : State) (xs : List UBit) : (s.setU xs).i = s.i := rfl
@[simp] theorem State.setU_read_softI (s : State) (xs : List UBit) : (s.setU xs).softI = s.softI := rfl
@[simp] theorem State.setU_read_e (s : State) (xs : List UBit) : (s.setU xs).e = s.e := rfl
@[simp] theorem State.setU_read_softE (s : State) (xs : List UBit) : (s.setU xs).softE = s.softE := rfl
@[simp] theorem State.setU_read_h (s : State) (xs : List UBit) : (s.setU xs).h = s.h := rfl
@[simp] theorem State.setU_read_softH (s : State) (xs : List UBit) : (s.setU xs).softH = s.softH := rfl
@[simp] theorem State.setPar_read_pdu (s : State) (xs : List UBit) : (s.setPar xs).pdu = s.pdu := rfl
@[simp] theorem State.setPar_read_u (s : State) (xs : List UBit) : (s.setPar xs).u = s.u := rfl
@[simp] theorem State.setPar_read_c (s : State) (xs : List UBit) : (s.setPar xs).c = s.c := rfl
@[simp] theorem State.setPar_read_softC (s : State) (xs : List UBit) : (s.setPar xs).softC = s.softC := rfl
@[simp] theorem State.setPar_read_i (s : State) (xs : List UBit) : (s.setPar xs).i = s.i := rfl
@[simp] theorem State.setPar_read_softI (s : State) (xs : List UBit) : (s.setPar xs).softI = s.softI := rfl
@[simp] theorem State.setPar_read_e (s : State) (xs : List UBit) : (s.setPar xs).e = s.e := rfl
@[simp] theorem State.setPar_read_softE (s : State) (xs : List UBit) : (s.setPar xs).softE = s.softE := rfl
@[simp] theorem State.setPar_read_h (s : State) (xs : List UBit) : (s.setPar xs).h = s.h := rfl
@[simp] theorem State.setPar_read_softH (s : State) (xs : List UBit) : (s.setPar xs).softH = s.softH := rfl
@[simp] theorem State.setC_read_pdu (s : State) (xs : List UBit) : (s.setC xs).pdu = s.pdu := rfl
@[simp] theorem State.setC_read_u (s : State) (xs : List UBit) : (s.setC xs).u = s.u := rfl
@[simp] theorem State.setC_read_par (s : State) (xs : List UBit) : (s.setC xs).par = s.par := rfl
@[simp] theorem State.setC_read_softC (s : State) (xs : List UBit) : (s.setC xs).softC = s.softC := rfl
@[simp] theorem State.setC_read_i (s : State) (xs : List UBit) : (s.setC xs).i = s.i := rfl
@[simp] theorem State.setC_read_softI (s : State) (xs : List UBit) : (s.setC xs).softI = s.softI := rfl
@[simp] theorem State.setC_read_e (s : State) (xs : List UBit) : (s.setC xs).e = s.e := rfl
@[simp] theorem State.setC_read_softE (s : State) (xs : List UBit) : (s.setC xs).softE = s.softE := rfl
@[simp] theorem State.setC_read_h (s : State) (xs : List UBit) : (s.setC xs).h = s.h := rfl
@[simp] theorem State.setC_read_softH (s : State) (xs : List UBit) : (s.setC xs).softH = s.softH := rfl
@[simp] theorem State.setSoftC_read_pdu (s : State) (xs : List SBit) : (s.setSoftC xs).pdu = s.pdu := rfl
@[simp] theorem State.setSoftC_read_u (s : State) (xs : List SBit) : (s.setSoftC xs).u = s.u := rfl
@[simp] theorem State.setSoftC_read_par (s : State) (xs : List SBit) : (s.setSoftC xs).par = s.par := rfl
@[simp] theorem State.setSoftC_read_c (s : State) (xs : List SBit) : (s.setSoftC xs).c = s.c := rfl
@[simp] theorem State.setSoftC_read_i (s : State) (xs : List SBit) : (s.setSoftC xs).i = s.i := rfl
@[simp] theorem State.setSoftC_read_softI (s : State) (xs : List SBit) : (s.setSoftC xs).softI = s.softI := rfl
@[simp] theorem State.setSoftC_read_e (s : State) (xs : List SBit) : (s.setSoftC xs).e = s.e := rfl
@[simp] theorem State.setSoftC_read_softE (s : State) (xs : List SBit) : (s.setSoftC xs).softE = s.softE := rfl
@[simp] theorem State.setSoftC_read_h (s : State) (xs : List SBit) : (s.setSoftC xs).h = s.h := rfl
@[simp] theorem State.setSoftC_read_softH (s : State) (xs : List SBit) : (s.setSoftC xs).softH = s.softH := rfl
@[simp] theorem State.setI_read_pdu (s : State) (xs : List UBit) : (s.setI xs).pdu = s.pdu := rfl
@[simp] theorem State.setI_read_u (s : State) (xs : List UBit) : (s.setI xs).u = s.u := rfl
@[simp] theorem State.setI_read_par (s : State) (xs : List UBit) : (s.setI xs).par = s.par := rfl
@[simp] theorem State.setI_read_c (s : State) (xs : List UBit) : (s.setI xs).c = s.c := rfl
@[simp] theorem State.setI_read_softC (s : State) (xs : List UBit) : (s.setI xs).softC = s.softC := rfl
@[simp] theorem State.setI_read_softI (s : State) (xs : List UBit) : (s.setI xs).softI = s.softI := rfl
@[simp] theorem State.setI_read_e (s : State) (xs : List UBit) : (s.setI xs).e = s.e := rfl
@[simp] theorem State.setI_read_softE (s : State) (xs : List UBit) : (s.setI xs).softE = s.softE := rfl
@[simp] theorem State.setI_read_h (s : State) (xs : List UBit) : (s.setI xs).h = s.h := rfl
@[simp] theorem State.setI_read_softH (s : State) (xs : List UBit) : (s.setI xs).softH = s.softH := rfl
@[simp] theorem State.setSoftI_read_pdu (s : State) (xs : List SBit) : (s.setSoftI xs).pdu = s.pdu := rfl
@[simp] theorem State.setSoftI_read_u (s : State) (xs : List SBit) : (s.setSoftI xs).u = s.u := rfl
@[simp] theorem State.setSoftI_read_par (s : State) (xs : List SBit) : (s.setSoftI xs).par = s.par := rfl
@[simp] theorem State.setSoftI_read_c (s : State) (xs : List SBit) : (s.setSoftI xs).c = s.c := rfl
@[simp] theorem State.setSoftI_read_softC (s : State) (xs : List SBit) : (s.setSoftI xs).softC = s.softC := rfl
@[simp] theorem State.setSoftI_read_i (s : State) (xs : List SBit) : (s.setSoftI xs).i = s.i := rfl
@[simp] theorem State.setSoftI_read_e (s : State) (xs : List SBit) : (s.setSoftI xs).e = s.e := rfl
@[simp] theorem State.setSoftI_read_softE (s : State) (xs : List SBit) : (s.setSoftI xs).softE = s.softE := rfl
@[simp] theorem State.setSoftI_read_h (s : State) (xs : List SBit) : (s.setSoftI xs).h = s.h := rfl
@[simp] theorem State.setSoftI_read_softH (s : State) (xs : List SBit) : (s.setSoftI xs).softH = s.softH := rfl
@[simp] theorem State.setE_read_pdu (s : State) (xs : List UBit) : (s.setE xs).pdu = s.pdu := rfl
@[simp] theorem State.setE_read_u (s : State) (xs : List UBit) : (s.setE xs).u = s.u := rfl
@[simp] theorem State.setE_read_par (s : State) (xs : List UBit) : (s.setE xs).par = s.par := rfl
@[simp] theorem State.setE_read_c (s : State) (xs : List UBit) : (s.setE xs).c = s.c := rfl
@[simp] theorem State.setE_read_softC (s : State) (xs : List UBit) : (s.setE xs).softC = s.softC := rfl
@[simp] theorem State.setE_read_i (s : State) (xs : List UBit) : (s.setE xs).i = s.i := rfl
@[simp] theorem State.setE_read_softI (s : State) (xs : List UBit) : (s.setE xs).softI = s.softI := rfl
@[simp] theorem State.setE_read_softE (s : State) (xs : List UBit) : (s.setE xs).softE = s.softE := rfl
@[simp] theorem State.setE_read_h (s : State) (xs : List UBit) : (s.setE xs).h = s.h := rfl
@[simp] theorem State.setE_read_softH (s : State) (xs : List UBit) : (s.setE xs).softH = s.softH := rfl
@[simp] theorem State.setSoftE_read_pdu (s : State) (xs : List SBit) : (s.setSoftE xs).pdu = s.pdu := rfl
@[simp] theorem State.setSoftE_read_u (s : State) (xs : List SBit) : (s.setSoftE xs).u = s.u := rfl
@[simp] theorem State.setSoftE_read_par (s : State) (xs : List SBit) : (s.setSoftE xs).par = s.par := rfl
@[simp] theorem State.setSoftE_read_c (s : State) (xs : List SBit) : (s.setSoftE xs).c = s.c := rfl
@[simp] theorem State.setSoftE_read_softC (s : State) (xs : List SBit) : (s.setSoftE xs).softC = s.softC := rfl
@[simp] theorem State.setSoftE_read_i (s : State) (xs : List SBit) : (s.setSoftE xs).i = s.i := rfl
@[simp] theorem State.setSoftE_read_softI (s : State) (xs : List SBit) : (s.setSoftE xs).softI = s.softI := rfl
@[simp] theorem State.setSoftE_read_e (s : State) (xs : List SBit) : (s.setSoftE xs).e = s.e := rfl
@[simp] theorem State.setSoftE_read_h (s : State) (xs : List SBit) : (s.setSoftE xs).h = s.h := rfl
@[simp] theorem State.setSoftE_read_softH (s : State) (xs : List SBit) : (s.setSoftE xs).softH = s.softH := rfl
@[simp] theorem State.setH_read_pdu (s : State) (xs : List UBit) : (s.setH xs).pdu = s.pdu := rfl
@[simp] theorem State.setH_read_u (s : State) (xs : List UBit) : (s.setH xs).u = s.u := rfl
@[simp] theorem State.setH_read_par (s : State) (xs : List UBit) : (s.setH xs).par = s.par := rfl
@[simp] theorem State.setH_read_c (s : State) (xs : List UBit) : (s.setH xs).c = s.c := rfl
@[simp] theorem State.setH_read_softC (s : State) (xs : List UBit) : (s.setH xs).softC = s.softC := rfl
@[simp] theorem State.setH_read_i (s : State) (xs : List UBit) : (s.setH xs).i = s.i := rfl
@[simp] theorem State.setH_read_softI (s : State) (xs : List UBit) : (s.setH xs).softI = s.softI := rfl
@[simp] theorem State.setH_read_e (s : State) (xs : List UBit) : (s.setH xs).e = s.e := rfl
@[simp] theorem State.setH_read_softE (s : State) (xs : List UBit) : (s.setH xs).softE = s.softE := rfl
@[simp] theorem State.setH_read_softH (s : State) (xs : List UBit) : (s.setH xs).softH = s.softH := rfl
@[simp] theorem State.setSoftH_read_pdu (s : State) (xs : List SBit) : (s.setSoftH xs).pdu = s.pdu := rfl
@[simp] theorem State.setSoftH_read_u (s : State) (xs : List SBit) : (s.setSoftH xs).u = s.u := rfl
@[simp] theorem State.setSoftH_read_par (s : State) (xs : List SBit) : (s.setSoftH xs).par = s.par := rfl
@[simp] theorem State.setSoftH_read_c (s : State) (xs : List SBit) : (s.setSoftH xs).c = s.c := rfl
@[simp] theorem State.setSoftH_read_softC (s : State) (xs : List SBit) : (s.setSoftH xs).softC = s.softC := rfl
@[simp] theorem State.setSoftH_read_i (s : State) (xs : List SBit) : (s.setSoftH xs).i = s.i := rfl
@[simp] theorem State.setSoftH_read_softI (s : State) (xs : List SBit) : (s.setSoftH xs).softI = s.softI := rfl
@[simp] theorem State.setSoftH_read_e (s : State) (xs : List SBit) : (s.setSoftH xs).e = s.e := rfl
@[simp] theorem State.setSoftH_read_softE (s : State) (xs : List SBit) : (s.setSoftH xs).softE = s.softE := rfl
@[simp] theorem State.setSoftH_read_h (s : State) (xs : List SBit) : (s.setSoftH xs).h = s.h := rfl

/-! ### Timeslots, channels and queues -/

/-- A channel state that was written reads back. -/
@[simp] theorem State.setChan_chan (s : State) (tn : Tn) (ch : Chan) (x : ChanState) :
    (s.setChan tn ch x).chan tn ch = x := by
  simp [State.setChan, State.chan, Vector.get_eq_getElem]

/-- The other channel states are as before. -/
theorem State.setChan_chan_ne (s : State) (tn tn' : Tn) (ch ch' : Chan) (x : ChanState)
    (h : tn' ≠ tn ∨ ch' ≠ ch) : (s.setChan tn ch x).chan tn' ch' = s.chan tn' ch' := by
  simp only [State.setChan, State.chan, Vector.get_eq_getElem, Vector.getElem_set]
  split
  · rename_i h1
    have h1 : tn = tn' := Fin.ext h1
    subst h1
    rcases h with h | h
    · exact absurd rfl h
    · rw [Vector.getElem_set, if_neg (fun h2 => h (Fin.ext h2).symm)]
  · rfl

/-- A queue that was written reads back. -/
@[simp] theorem State.setQueue_queue (s : State) (tn : Tn) (ch : Chan) (x : List QElem) :
    (s.setQueue tn ch x).queue tn ch = x := by
  simp [State.setQueue, State.queue, Vector.get_eq_getElem]

/-- The other queues are as before. -/
theorem State.setQueue_queue_ne (s : State) (tn tn' : Tn) (ch ch' : Chan) (x : List QElem)
    (h : tn' ≠ tn ∨ ch' ≠ ch) : (s.setQueue tn ch x).queue tn' ch' = s.queue tn' ch' := by
  simp only [State.setQueue, State.queue, Vector.get_eq_getElem, Vector.getElem_set]
  split
  · rename_i h1
    have h1 : tn = tn' := Fin.ext h1
    subst h1
    rcases h with h | h
    · exact absurd rfl h
    · rw [Vector.getElem_set, if_neg (fun h2 => h (Fin.ext h2).symm)]
  · rfl

/-- A timeslot's registers that were written read back. -/
@[simp] theorem State.setTs_get (s : State) (tn : Tn) (r : TsRegs) : (s.setTs tn r).ts.get tn = r := by
  simp [State.setTs, Vector.get_eq_getElem]

end Sys2Proof.Machine
end

