-- ==== Sys2Proof/Laws/Memory.lean ====
section
/-! SUPPORT. Every memory operation keeps the canonical form of a working buffer, and the memory at reset
has it; one lemma per operation. -/

namespace Sys2Proof.Machine

/-- The canonical form, spelled out. -/
theorem Buf.wf_iff {α : Type} (cap free : Nat) (b : Buf α) :
    b.wf cap free = true ↔ b.len ≤ cap ∧ b.elems.length ≤ cap ∧ b.rest < free ∧
      (∀ e ∈ b.elems, ∀ t, e = Elem.any t → t < free) ∧
      ∀ e, b.elems.getLast? = some e → e.isAny b.rest = false := by
  unfold Buf.wf
  simp only [Bool.and_eq_true, decide_eq_true_eq, List.all_eq_true]
  constructor
  · rintro ⟨⟨⟨⟨h1, h2⟩, h3⟩, h4⟩, h5⟩
    refine ⟨h1, h2, h3, ?_, ?_⟩
    · intro e he t ht
      have := h4 e he
      subst ht
      simpa using this
    · intro e he
      rw [he] at h5
      simpa using h5
  · rintro ⟨h1, h2, h3, h4, h5⟩
    refine ⟨⟨⟨⟨h1, h2⟩, h3⟩, ?_⟩, ?_⟩
    · intro e he
      cases e with
      | val v => rfl
      | any t => simpa using h4 _ he t rfl
    · cases h : b.elems.getLast? with
      | none => rfl
      | some e => simp [h5 e h]

/-- More numbered losses do no harm. -/
theorem Buf.wf_mono {α : Type} {cap free free' : Nat} {b : Buf α} (h : b.wf cap free = true)
    (hf : free ≤ free') : b.wf cap free' = true := by
  rw [Buf.wf_iff] at h ⊢
  obtain ⟨h1, h2, h3, h4, h5⟩ := h
  exact ⟨h1, h2, by omega, fun e he t ht => Nat.lt_of_lt_of_le (h4 e he t ht) hf, h5⟩

/-- A rule's write of a vector that fits (R50). -/
theorem Buf.wf_load {α : Type} {cap free tag : Nat} (xs : List α) (h : xs.length ≤ cap)
    (ht : tag < free) : (Buf.load tag xs).wf cap free = true := by
  rw [Buf.wf_iff]
  refine ⟨h, by simpa [Buf.load] using h, ht, ?_, ?_⟩
  · intro e he t h'
    simp only [Buf.load, List.mem_map] at he
    obtain ⟨x, -, rfl⟩ := he
    cases h'
  · intro e he
    have := List.mem_of_getLast? he
    simp only [Buf.load, List.mem_map] at this
    obtain ⟨x, -, rfl⟩ := this
    rfl

/-- A buffer after `TICK` or `RX.BURST` (R53). -/
theorem Buf.wf_scratch {α : Type} {cap free tag : Nat} (ht : tag < free) :
    (Buf.scratch cap tag : Buf α).wf cap free = true := by
  rw [Buf.wf_iff]
  refine ⟨?_, by simp [Buf.scratch], ht, by simp [Buf.scratch], by simp [Buf.scratch]⟩
  have := Nat.mod_lt (Config.freeLen tag) (show 0 < cap + 1 by omega)
  simp only [Buf.scratch]
  omega

/-- What a host write of one element does to the slots (R76). -/
theorem putElem_spec {α : Type} (rest : Nat) (es : List (Elem α)) (idx : Nat) (v : α) :
    (putElem rest es idx v).length = max es.length (idx + 1) ∧
    (∀ e ∈ putElem rest es idx v, e = .val v ∨ e = .any rest ∨ e ∈ es) ∧
    ∀ e, (putElem rest es idx v).getLast? = some e → e = .val v ∨ es.getLast? = some e := by
  induction es generalizing idx with
  | nil =>
    induction idx with
    | zero => simp [putElem]
    | succ n ih =>
      obtain ⟨h1, h2, h3⟩ := ih
      refine ⟨by simp [putElem] at h1 ⊢; omega, ?_, ?_⟩
      · intro e he
        simp only [putElem, List.mem_cons] at he
        rcases he with he | he
        · exact .inr (.inl he)
        · exact h2 e he
      · intro e he
        have hne : putElem rest [] n v ≠ [] := by
          intro h0
          rw [h0] at h1
          simp at h1
        rw [putElem, List.getLast?_cons_of_ne_nil hne] at he
        exact h3 e he
  | cons x xs ih =>
    cases idx with
    | zero =>
      refine ⟨by simp [putElem], ?_, ?_⟩
      · intro e he
        simp only [putElem, List.mem_cons] at he ⊢
        tauto
      · intro e he
        simp only [putElem] at he
        cases xs with
        | nil => simp at he; exact .inl he.symm
        | cons y ys => simpa using .inr he
    | succ n =>
      obtain ⟨h1, h2, h3⟩ := ih n
      refine ⟨by simp [putElem, h1], ?_, ?_⟩
      · intro e he
        simp only [putElem, List.mem_cons] at he ⊢
        rcases he with he | he
        · exact .inr (.inr (.inl he))
        · rcases h2 e he with h | h | h <;> tauto
      · intro e he
        have hne : putElem rest xs n v ≠ [] := by
          intro h0
          rw [h0] at h1
          simp at h1
          omega
        rw [putElem, List.getLast?_cons_of_ne_nil hne] at he
        rcases h3 e he with h | h
        · exact .inl h
        · refine .inr ?_
          have : xs ≠ [] := by rintro rfl; simp at h
          rw [List.getLast?_cons_of_ne_nil this]
          exact h

/-- A host write of one element within the capacity (R76). -/
theorem Buf.wf_put {α : Type} {cap free : Nat} {b : Buf α} (h : b.wf cap free = true) (idx : Nat)
    (hi : idx < cap) (v : α) : (b.put idx v).wf cap free = true := by
  rw [Buf.wf_iff] at h ⊢
  obtain ⟨h1, h2, h3, h4, h5⟩ := h
  obtain ⟨p1, p2, p3⟩ := putElem_spec b.rest b.elems idx v
  refine ⟨h1, by simp only [Buf.put, p1]; omega, h3, ?_, ?_⟩
  · intro e he t ht
    rcases p2 e he with h | h | h
    · rw [h] at ht; cases ht
    · rw [h] at ht; cases ht; exact h3
    · exact h4 e h t ht
  · intro e he
    rcases p3 e he with h | h
    · rw [h]; rfl
    · exact h5 e h

/-- A host write of a length within the capacity (R76); `tag` is a fresh number. -/
theorem Buf.wf_setLen {α : Type} {cap free free' tag : Nat} {b : Buf α} (h : b.wf cap free = true)
    (hf : free ≤ tag) (hf' : tag < free') (n : Nat) (hn : n ≤ cap) :
    (b.setLen tag n).wf cap free' = true := by
  have hm := Buf.wf_mono h (show free ≤ free' by omega)
  rw [Buf.wf_iff] at h hm ⊢
  obtain ⟨h1, h2, h3, h4, h5⟩ := h
  unfold Buf.setLen
  split
  · rename_i hlt
    refine ⟨hn, ?_, by simp only []; omega, ?_, ?_⟩
    · simp only [List.length_append, List.length_take, List.length_replicate, List.length_drop]
      omega
    · intro e he t ht
      simp only [List.mem_append, List.mem_replicate] at he
      rcases he with ((he | he) | he) | he
      · exact Nat.lt_of_lt_of_le (h4 e (List.mem_of_mem_take he) t ht) (by omega)
      · rw [he.2] at ht; cases ht; omega
      · rw [he.2] at ht; cases ht; omega
      · exact Nat.lt_of_lt_of_le (h4 e (List.mem_of_mem_drop he) t ht) (by omega)
    · intro e he
      simp only [] at he ⊢
      cases hd : b.elems.drop b.len with
      | nil =>
        rw [hd, List.append_nil] at he
        have hr : List.replicate (b.len - n) (Elem.any tag : Elem α) ≠ [] := by
          simp [List.replicate_eq_nil_iff]; omega
        rw [List.getLast?_append_of_ne_nil _ hr] at he
        have := (List.mem_replicate.mp (List.mem_of_getLast? he)).2
        rw [this]
        have hne : tag ≠ b.rest := by omega
        simpa [Elem.isAny] using hne
      | cons y ys =>
        have hr : b.elems.drop b.len ≠ [] := by rw [hd]; simp
        rw [List.getLast?_append_of_ne_nil _ hr] at he
        refine h5 e ?_
        have hs : b.elems = b.elems.take b.len ++ b.elems.drop b.len := by simp
        rw [hs, List.getLast?_append_of_ne_nil _ hr]
        exact he
  · exact ⟨hn, hm.2⟩

/-- The memory at reset has the canonical form. -/
theorem Memory.unset_wf : Memory.unset.wf State.reset.free = true := by decide

/-- The canonical form of the memory, buffer by buffer. -/
theorem Memory.wf_iff (free : Nat) (m : Memory) :
    m.wf free = true ↔ m.pdu.wf capPdu free = true ∧ m.u.wf capU free = true ∧
      m.par.wf capPar free = true ∧ m.c.wf capC free = true ∧ m.cs.wf capC free = true ∧
      m.i.wf capI free = true ∧ m.is.wf capI free = true ∧ m.e.wf capE free = true ∧
      m.es.wf capE free = true ∧ m.h.wf capH free = true ∧ m.hs.wf capH free = true := by
  simp only [Memory.wf, Bool.and_eq_true, and_assoc]

/-- The memory after `TICK` or `RX.BURST`. -/
theorem State.scratch_memInv (s : State) : s.scratch.MemInv := by
  rw [State.MemInv, Memory.wf_iff]
  simp only [State.scratch]
  refine ⟨?_, ?_, ?_, ?_, ?_, ?_, ?_, ?_, ?_, ?_, ?_⟩ <;> exact Buf.wf_scratch (by omega)

/-! ### The writes of rules keep the canonical form -/

/-- `setPdu` of a vector that fits keeps the canonical form. -/
theorem State.setPdu_memInv {s : State} (h : s.MemInv) {xs : List Byte} (hx : xs.length ≤ capPdu) :
    (s.setPdu xs).MemInv := by
  rw [State.MemInv, Memory.wf_iff] at h ⊢
  obtain ⟨h0, h1, h2, h3, h4, h5, h6, h7, h8, h9, h10⟩ := h
  have hf : s.free ≤ s.free + 1 := by omega
  exact ⟨Buf.wf_load xs hx (Nat.lt_succ_self _), Buf.wf_mono h1 hf, Buf.wf_mono h2 hf, Buf.wf_mono h3 hf, Buf.wf_mono h4 hf, Buf.wf_mono h5 hf, Buf.wf_mono h6 hf, Buf.wf_mono h7 hf, Buf.wf_mono h8 hf, Buf.wf_mono h9 hf, Buf.wf_mono h10 hf⟩

/-- `setU` of a vector that fits keeps the canonical form. -/
theorem State.setU_memInv {s : State} (h : s.MemInv) {xs : List UBit} (hx : xs.length ≤ capU) :
    (s.setU xs).MemInv := by
  rw [State.MemInv, Memory.wf_iff] at h ⊢
  obtain ⟨h0, h1, h2, h3, h4, h5, h6, h7, h8, h9, h10⟩ := h
  have hf : s.free ≤ s.free + 1 := by omega
  exact ⟨Buf.wf_mono h0 hf, Buf.wf_load xs hx (Nat.lt_succ_self _), Buf.wf_mono h2 hf, Buf.wf_mono h3 hf, Buf.wf_mono h4 hf, Buf.wf_mono h5 hf, Buf.wf_mono h6 hf, Buf.wf_mono h7 hf, Buf.wf_mono h8 hf, Buf.wf_mono h9 hf, Buf.wf_mono h10 hf⟩

/-- `setPar` of a vector that fits keeps the canonical form. -/
theorem State.setPar_memInv {s : State} (h : s.MemInv) {xs : List UBit} (hx : xs.length ≤ capPar) :
    (s.setPar xs).MemInv := by
  rw [State.MemInv, Memory.wf_iff] at h ⊢
  obtain ⟨h0, h1, h2, h3, h4, h5, h6, h7, h8, h9, h10⟩ := h
  have hf : s.free ≤ s.free + 1 := by omega
  exact ⟨Buf.wf_mono h0 hf, Buf.wf_mono h1 hf, Buf.wf_load xs hx (Nat.lt_succ_self _), Buf.wf_mono h3 hf, Buf.wf_mono h4 hf, Buf.wf_mono h5 hf, Buf.wf_mono h6 hf, Buf.wf_mono h7 hf, Buf.wf_mono h8 hf, Buf.wf_mono h9 hf, Buf.wf_mono h10 hf⟩

/-- `setC` of a vector that fits keeps the canonical form. -/
theorem State.setC_memInv {s : State} (h : s.MemInv) {xs : List UBit} (hx : xs.length ≤ capC) :
    (s.setC xs).MemInv := by
  rw [State.MemInv, Memory.wf_iff] at h ⊢
  obtain ⟨h0, h1, h2, h3, h4, h5, h6, h7, h8, h9, h10⟩ := h
  have hf : s.free ≤ s.free + 1 := by omega
  exact ⟨Buf.wf_mono h0 hf, Buf.wf_mono h1 hf, Buf.wf_mono h2 hf, Buf.wf_load xs hx (Nat.lt_succ_self _), Buf.wf_mono h4 hf, Buf.wf_mono h5 hf, Buf.wf_mono h6 hf, Buf.wf_mono h7 hf, Buf.wf_mono h8 hf, Buf.wf_mono h9 hf, Buf.wf_mono h10 hf⟩

/-- `setSoftC` of a vector that fits keeps the canonical form. -/
theorem State.setSoftC_memInv {s : State} (h : s.MemInv) {xs : List SBit} (hx : xs.length ≤ capC) :
    (s.setSoftC xs).MemInv := by
  rw [State.MemInv, Memory.wf_iff] at h ⊢
  obtain ⟨h0, h1, h2, h3, h4, h5, h6, h7, h8, h9, h10⟩ := h
  have hf : s.free ≤ s.free + 1 := by omega
  exact ⟨Buf.wf_mono h0 hf, Buf.wf_mono h1 hf, Buf.wf_mono h2 hf, Buf.wf_mono h3 hf, Buf.wf_load xs hx (Nat.lt_succ_self _), Buf.wf_mono h5 hf, Buf.wf_mono h6 hf, Buf.wf_mono h7 hf, Buf.wf_mono h8 hf, Buf.wf_mono h9 hf, Buf.wf_mono h10 hf⟩

/-- `setI` of a vector that fits keeps the canonical form. -/
theorem State.setI_memInv {s : State} (h : s.MemInv) {xs : List UBit} (hx : xs.length ≤ capI) :
    (s.setI xs).MemInv := by
  rw [State.MemInv, Memory.wf_iff] at h ⊢
  obtain ⟨h0, h1, h2, h3, h4, h5, h6, h7, h8, h9, h10⟩ := h
  have hf : s.free ≤ s.free + 1 := by omega
  exact ⟨Buf.wf_mono h0 hf, Buf.wf_mono h1 hf, Buf.wf_mono h2 hf, Buf.wf_mono h3 hf, Buf.wf_mono h4 hf, Buf.wf_load xs hx (Nat.lt_succ_self _), Buf.wf_mono h6 hf, Buf.wf_mono h7 hf, Buf.wf_mono h8 hf, Buf.wf_mono h9 hf, Buf.wf_mono h10 hf⟩

/-- `setSoftI` of a vector that fits keeps the canonical form. -/
theorem State.setSoftI_memInv {s : State} (h : s.MemInv) {xs : List SBit} (hx : xs.length ≤ capI) :
    (s.setSoftI xs).MemInv := by
  rw [State.MemInv, Memory.wf_iff] at h ⊢
  obtain ⟨h0, h1, h2, h3, h4, h5, h6, h7, h8, h9, h10⟩ := h
  have hf : s.free ≤ s.free + 1 := by omega
  exact ⟨Buf.wf_mono h0 hf, Buf.wf_mono h1 hf, Buf.wf_mono h2 hf, Buf.wf_mono h3 hf, Buf.wf_mono h4 hf, Buf.wf_mono h5 hf, Buf.wf_load xs hx (Nat.lt_succ_self _), Buf.wf_mono h7 hf, Buf.wf_mono h8 hf, Buf.wf_mono h9 hf, Buf.wf_mono h10 hf⟩

/-- `setE` of a vector that fits keeps the canonical form. -/
theorem State.setE_memInv {s : State} (h : s.MemInv) {xs : List UBit} (hx : xs.length ≤ capE) :
    (s.setE xs).MemInv := by
  rw [State.MemInv, Memory.wf_iff] at h ⊢
  obtain ⟨h0, h1, h2, h3, h4, h5, h6, h7, h8, h9, h10⟩ := h
  have hf : s.free ≤ s.free + 1 := by omega
  exact ⟨Buf.wf_mono h0 hf, Buf.wf_mono h1 hf, Buf.wf_mono h2 hf, Buf.wf_mono h3 hf, Buf.wf_mono h4 hf, Buf.wf_mono h5 hf, Buf.wf_mono h6 hf, Buf.wf_load xs hx (Nat.lt_succ_self _), Buf.wf_mono h8 hf, Buf.wf_mono h9 hf, Buf.wf_mono h10 hf⟩

/-- `setSoftE` of a vector that fits keeps the canonical form. -/
theorem State.setSoftE_memInv {s : State} (h : s.MemInv) {xs : List SBit} (hx : xs.length ≤ capE) :
    (s.setSoftE xs).MemInv := by
  rw [State.MemInv, Memory.wf_iff] at h ⊢
  obtain ⟨h0, h1, h2, h3, h4, h5, h6, h7, h8, h9, h10⟩ := h
  have hf : s.free ≤ s.free + 1 := by omega
  exact ⟨Buf.wf_mono h0 hf, Buf.wf_mono h1 hf, Buf.wf_mono h2 hf, Buf.wf_mono h3 hf, Buf.wf_mono h4 hf, Buf.wf_mono h5 hf, Buf.wf_mono h6 hf, Buf.wf_mono h7 hf, Buf.wf_load xs hx (Nat.lt_succ_self _), Buf.wf_mono h9 hf, Buf.wf_mono h10 hf⟩

/-- `setH` of a vector that fits keeps the canonical form. -/
theorem State.setH_memInv {s : State} (h : s.MemInv) {xs : List UBit} (hx : xs.length ≤ capH) :
    (s.setH xs).MemInv := by
  rw [State.MemInv, Memory.wf_iff] at h ⊢
  obtain ⟨h0, h1, h2, h3, h4, h5, h6, h7, h8, h9, h10⟩ := h
  have hf : s.free ≤ s.free + 1 := by omega
  exact ⟨Buf.wf_mono h0 hf, Buf.wf_mono h1 hf, Buf.wf_mono h2 hf, Buf.wf_mono h3 hf, Buf.wf_mono h4 hf, Buf.wf_mono h5 hf, Buf.wf_mono h6 hf, Buf.wf_mono h7 hf, Buf.wf_mono h8 hf, Buf.wf_load xs hx (Nat.lt_succ_self _), Buf.wf_mono h10 hf⟩

/-- `setSoftH` of a vector that fits keeps the canonical form. -/
theorem State.setSoftH_memInv {s : State} (h : s.MemInv) {xs : List SBit} (hx : xs.length ≤ capH) :
    (s.setSoftH xs).MemInv := by
  rw [State.MemInv, Memory.wf_iff] at h ⊢
  obtain ⟨h0, h1, h2, h3, h4, h5, h6, h7, h8, h9, h10⟩ := h
  have hf : s.free ≤ s.free + 1 := by omega
  exact ⟨Buf.wf_mono h0 hf, Buf.wf_mono h1 hf, Buf.wf_mono h2 hf, Buf.wf_mono h3 hf, Buf.wf_mono h4 hf, Buf.wf_mono h5 hf, Buf.wf_mono h6 hf, Buf.wf_mono h7 hf, Buf.wf_mono h8 hf, Buf.wf_mono h9 hf, Buf.wf_load xs hx (Nat.lt_succ_self _)⟩

end Sys2Proof.Machine
end

