-- ==== Sys2Proof/Laws/Ops.lean ====
section
/-! SUPPORT. For each shared operation one lemma that says what it can do. -/

namespace Sys2Proof.Machine

/-! ### The end of a command -/

@[simp] theorem Cmd.finish_done (s : State) : (Cmd.done s).finish = .next (s.raise .none 0) := rfl
@[simp] theorem Cmd.finish_raised (e : ErrCode) (info : Nat) (s : State) :
    (Cmd.raised e info s).finish = .next (s.raise e info) := rfl
@[simp] theorem Cmd.finish_refused (r : Refusal) : (Cmd.refused r).finish = .refused r := rfl

/-- A finished command goes on exactly when its body ran through or raised an error (R300). -/
theorem Cmd.finish_eq_next (c : Cmd) (t : State) :
    c.finish = .next t ↔ (∃ s, c = .done s ∧ t = s.raise .none 0) ∨
      ∃ e info s, c = .raised e info s ∧ t = s.raise e info := by
  cases c <;> simp [Cmd.finish, eq_comm]

/-- A finished command never faults. -/
theorem Cmd.finish_ne_fault (c : Cmd) (f : Fault) : c.finish ≠ .fault f := by
  cases c <;> simp [Cmd.finish]

/-! ### Stages -/

/-- The decode step (R126, R127): `U`, `RES.NERR`, `RES.NBITS`, and nothing else. -/
theorem State.trellis_eq (P : Params) (s : State) (code : Code) (soft : List SBit) (kd : Nat) :
    s.trellis P code soft kd =
      { s with
        mem := { s.mem with u := Buf.load s.free (convDecP P code soft kd) }
        free := s.free + 1
        res := { s.res with
          nerr := BitVec.ofNat 16 (convNerr code soft (convDecP P code soft kd))
          nbits := BitVec.ofNat 16 (convNbits soft) } } := rfl

/-- The checksum stage of a decoder (R175 (c)): either the checksum holds and `PAR` and `PDU` are written,
or it does not and `PAR` is. -/
theorem State.checkBlock_cases (s : State) (crcsel : CrcSel) (d p : List UBit) (pdu : List Byte) :
    (crcChk crcsel d p = true ∧ s.checkBlock crcsel d p pdu = .done ((s.setPar p).setPdu pdu)) ∨
    (crcChk crcsel d p = false ∧
      s.checkBlock crcsel d p pdu = .raised .badBlock crcsel.code.toNat (s.setPar p)) := by
  unfold State.checkBlock
  cases crcChk crcsel d p <;> simp

/-- The first stages of a block encoder (R177): `PAR`, `U`, `C`, and nothing else. -/
theorem State.codeBlock_eq (s : State) (d p : List UBit) :
    s.codeBlock d p =
      { s with
        mem := { s.mem with
          par := Buf.load s.free p
          u := Buf.load (s.free + 1) (infoWord d p)
          c := Buf.load (s.free + 2) (convEnc xcchCode (infoWord d p)) }
        free := s.free + 3 } := rfl

/-- The last stages of a block encoder: `I`, `H`, `E`, and nothing else. -/
theorem State.spread_eq (s : State) (isel : ISel) (c h : List UBit) :
    s.spread isel c h =
      { s with
        mem := { s.mem with
          i := Buf.load s.free (interleave isel c)
          h := Buf.load (s.free + 1) h
          e := Buf.load (s.free + 2) (blockBursts isel c h) }
        free := s.free + 3 } := rfl

/-- The first stages of a block decoder: `IS`, `HS`, `CS_`, and nothing else. -/
theorem State.gather_eq (s : State) (isel : ISel) (es : List SBit) :
    s.gather isel es =
      { s with
        mem := { s.mem with
          is := Buf.load s.free (unmapBits (nbiOf isel) es)
          hs := Buf.load (s.free + 1) (unmapFlags (nbiOf isel) es)
          cs := Buf.load (s.free + 2) (softCoded isel es) }
        free := s.free + 3 } := rfl

/-- The code of a block's info word has `N` bits a step (R122). -/
theorem infoWord_coded_length (d p : List UBit) :
    (convEnc xcchCode (infoWord d p)).length = 2 * (d.length + p.length + 4) := by
  rw [convEnc_length]
  simp [xcchCode, Code.n, Code.steps, infoWord, Nat.add_assoc]

/-- The burst payloads of a block (R156). -/
@[simp] theorem blockBursts_length (isel : ISel) (c h : List UBit) :
    (blockBursts isel c h).length = 116 * nbiOf isel :=
  mapBlock_length _ _ _ (interleave_length _ _)

/-- The downlink buffer's source, `E`, after the last stages of a block encoder. -/
@[simp] theorem State.spread_e (s : State) (isel : ISel) (c h : List UBit) :
    (s.spread isel c h).e = blockBursts isel c h := by
  simp [State.spread, blockBursts]

/-- What consulting the allocation oracle does. -/
theorem State.alloc_eq (P : Params) (s : State) :
    s.alloc P = (P.allocOk s.allocs, { s with allocs := s.allocs + 1 }) := rfl

/-! ### Decoders -/

/-- The checksum stage refuses nothing. -/
theorem State.checkBlock_ne_refused (s : State) (crcsel : CrcSel) (d p : List UBit) (pdu : List Byte)
    (r : Refusal) : s.checkBlock crcsel d p pdu ≠ .refused r := by
  obtain ⟨-, h⟩ | ⟨-, h⟩ := s.checkBlock_cases crcsel d p pdu <;> simp [h]

/-- The control-channel stages (R179). -/
theorem State.decodeControl_ne_refused (P : Params) (s : State) (cs : List SBit) (r : Refusal) :
    s.decodeControl P cs ≠ .refused r :=
  State.checkBlock_ne_refused _ _ _ _ _ r

/-- Packet-data scheme 1 (R210). -/
theorem State.decodeScheme1_ne_refused (P : Params) (s : State) (cs : List SBit) (r : Refusal) :
    s.decodeScheme1 P cs ≠ .refused r := by
  unfold State.decodeScheme1
  split
  · simp
  · simp
  · exact absurd ‹_› (State.decodeControl_ne_refused _ _ _ _)

/-- Packet-data schemes 2 to 4 (R210). -/
theorem State.finishPacket_ne_refused (s : State) (scheme : Scheme) (wd : Nat) (u : List UBit)
    (r : Refusal) : s.finishPacket scheme wd u ≠ .refused r :=
  State.checkBlock_ne_refused _ _ _ _ _ r

/-- A speech block (R229). -/
theorem State.decodeSpeech_ne_refused (P : Params) (s : State) (speech : Efr) (cs : List SBit)
    (r : Refusal) : s.decodeSpeech P speech cs ≠ .refused r := by
  unfold State.decodeSpeech
  dsimp only
  split
  · split <;> simp
  · simp

/-- An AMR speech block (R242). -/
theorem State.decodeAfs_ne_refused (P : Params) (s : State) (phase : Phase) (m : BitVec 3) (idx : Nat)
    (soft : List SBit) (r : Refusal) : s.decodeAfs P phase m idx soft ≠ .refused r := by
  unfold State.decodeAfs
  dsimp only
  split
  · simp
  · simp
  · exact absurd ‹_› (State.checkBlock_ne_refused _ _ _ _ _ _)

/-- A decoder command goes on, in every instance (R175). -/
theorem decoder_answers (P : Params) (i : Instr) (hi : isDecoder i = true) (s : State) :
    ∃ t, execIn P i s = .next t := by
  have h : ∀ c : Cmd, (∀ r, c ≠ .refused r) → ∃ t, c.finish = .next t := by
    intro c hc
    cases c with
    | done s => exact ⟨_, rfl⟩
    | raised e info s => exact ⟨_, rfl⟩
    | refused r => exact absurd rfl (hc r)
  refine h _ fun r => ?_
  cases i <;> simp only [isDecoder, Bool.false_eq_true] at hi <;> simp only [bodyIn]
  · unfold xcchDecBody
    split
    · simp
    · exact State.decodeControl_ne_refused _ _ _ _
  · unfold rachDecBody
    split
    · simp
    · exact State.checkBlock_ne_refused _ _ _ _ _ _
  · unfold schDecBody
    split
    · simp
    · exact State.checkBlock_ne_refused _ _ _ _ _ _
  · unfold pdtchDecBody
    split
    · simp
    · dsimp only
      split
      · exact State.decodeScheme1_ne_refused _ _ _ _
      · unfold State.decodeCoded
        exact State.finishPacket_ne_refused _ _ _ _ _
      · unfold State.decodeCoded
        exact State.finishPacket_ne_refused _ _ _ _ _
      · unfold State.decodePlain
        exact State.finishPacket_ne_refused _ _ _ _ _
  · unfold tchfrDecBody
    split
    · simp
    · dsimp only
      split
      · exact State.decodeControl_ne_refused _ _ _ _
      · exact State.decodeSpeech_ne_refused _ _ _ _ _
  · unfold tchafsDecBody
    split
    · simp
    · dsimp only
      split
      · exact State.decodeControl_ne_refused _ _ _ _
      · split
        · simp
        · split
          · simp
          · exact State.decodeAfs_ne_refused _ _ _ _ _ _ _

/-! ### The host's accesses -/

/-- A host read changes nothing but the value it returns and the numbering of free values (R75). -/
theorem hostReadAt_eq (s : State) (off n : Nat) :
    hostReadAt s off n = { s with hostRead := readWord s off n, free := s.free + 1 } := rfl

/-- A host write that is no command goes on or faults; it is never refused. -/
theorem hostWriteAt_ne_refused (s : State) (off n : Nat) (v : Word) (r : Refusal) :
    hostWriteAt s off n v ≠ .refused r := by
  unfold hostWriteAt
  split
  · simp
  · split <;> simp

end Sys2Proof.Machine
end

