-- ==== Sys2Proof/Laws/PerInstr.lean ====
section
/-! SUPPORT. Statements for all commands, one lemma per constructor. -/

namespace Sys2Proof.Laws

open Sys2Proof

/-- The opcode of a command (30_encoding.md R94), from the table's first column. -/
def opcodeOf : Instr → Nat
  | .crcGen _ _ => 0x01 | .crcChk _ _ => 0x02 | .uappPar => 0x03 | .uappZero _ => 0x04
  | .parLd _ _ => 0x05 | .convEnc _ => 0x08 | .convDec _ _ => 0x09 | .punc _ => 0x0C
  | .depunc _ => 0x0D | .intlv _ => 0x10 | .deintlv _ => 0x11 | .map _ => 0x12 | .unmap _ => 0x13
  | .hSet _ _ => 0x15 | .unpack _ _ => 0x18 | .pack _ _ => 0x19 | .matchPat _ => 0x1A
  | .xcchEnc => 0x20 | .xcchDec => 0x21 | .rachEnc _ => 0x22 | .rachDec _ => 0x23 | .schEnc => 0x24
  | .schDec => 0x25 | .pdtchEnc => 0x28 | .pdtchDec => 0x29 | .amrCfg => 0x2A | .tchfrEnc _ => 0x2C
  | .tchfrDec _ => 0x2D | .tchafsEnc _ => 0x2E | .tchafsDec _ => 0x2F | .schedInit => 0x40
  | .setPchan _ _ _ => 0x41 | .chAct _ _ _ => 0x42 | .chDeact _ _ _ => 0x43 | .setMode _ _ => 0x44
  | .setCipher _ _ _ => 0x45 | .pduEnq _ _ _ => 0x46 | .setAtt _ _ => 0x47 | .tick _ => 0x48
  | .rxBurst => 0x49 | .setBsic _ => 0x4A

/-- The word of a command carries its opcode in bits 31:24 (R91). -/
def Opcode.Statement (i : Instr) : Prop := (encode i).extractLsb' 24 8 = BitVec.ofNat 8 (opcodeOf i)

/-- The opcode field of a word of format N. -/
theorem wordN_op (op a : Byte) (n : BitVec 16) : (wordN op a n).extractLsb' 24 8 = op := by
  show ((op ++ a : BitVec 16) ++ n : BitVec (16 + 16)).extractLsb' 24 8 = op
  apply BitVec.eq_of_getLsbD_eq
  intro k hk
  have h1 : ¬ 24 + k < 16 := by omega
  have h2 : ¬ 24 + k - 16 < 8 := by omega
  have h3 : 24 + k - 16 - 8 = k := by omega
  rw [BitVec.getLsbD_extractLsb', BitVec.getLsbD_append, if_neg h1, BitVec.getLsbD_append,
    if_neg h2, h3]
  simp [hk]

/-- The opcode field of a word of the formats Z, A, T, P and V. -/
theorem wordABC_op (op a b c : Byte) : (wordABC op a b c).extractLsb' 24 8 = op := by
  show (((op ++ a : BitVec (8 + 8)) ++ b : BitVec (16 + 8)) ++ c : BitVec (24 + 8)).extractLsb' 24 8
    = op
  apply BitVec.eq_of_getLsbD_eq
  intro k hk
  have h1 : ¬ 24 + k < 8 := by omega
  have h2 : ¬ 24 + k - 8 < 8 := by omega
  have h3 : ¬ 24 + k - 8 - 8 < 8 := by omega
  have h4 : 24 + k - 8 - 8 - 8 = k := by omega
  rw [BitVec.getLsbD_extractLsb', BitVec.getLsbD_append, if_neg h1, BitVec.getLsbD_append,
    if_neg h2, BitVec.getLsbD_append, if_neg h3, h4]
  simp [hk]

/-- The opcode field of a word of format F. -/
theorem wordF_op (fn : Fn) : (((0x48#8 ++ 0#2) ++ fn : Word)).extractLsb' 24 8 = 0x48#8 := by
  show (((0x48#8 ++ 0#2 : BitVec (8 + 2)) ++ fn : BitVec (10 + 22))).extractLsb' 24 8 = 0x48#8
  apply BitVec.eq_of_getLsbD_eq
  intro k hk
  have h1 : ¬ 24 + k < 22 := by omega
  have h2 : ¬ 24 + k - 22 < 2 := by omega
  have h3 : 24 + k - 22 - 2 = k := by omega
  rw [BitVec.getLsbD_extractLsb', BitVec.getLsbD_append, if_neg h1, BitVec.getLsbD_append,
    if_neg h2, h3]
  simp [hk]

theorem Opcode.crcGen (crcsel : CrcSel) (n : BitVec 16) : Opcode.Statement (.crcGen crcsel n) := wordN_op _ _ _
theorem Opcode.crcChk (crcsel : CrcSel) (n : BitVec 16) : Opcode.Statement (.crcChk crcsel n) := wordN_op _ _ _
theorem Opcode.uappPar : Opcode.Statement (.uappPar) := wordABC_op _ _ _ _
theorem Opcode.uappZero (n : BitVec 16) : Opcode.Statement (.uappZero n) := wordN_op _ _ _
theorem Opcode.parLd (r : Byte) (n : BitVec 16) : Opcode.Statement (.parLd r n) := wordN_op _ _ _
theorem Opcode.convEnc (e : Fin 16) : Opcode.Statement (.convEnc e) := wordABC_op _ _ _ _
theorem Opcode.convDec (e : Fin 16) (kd : BitVec 16) : Opcode.Statement (.convDec e kd) := wordN_op _ _ _
theorem Opcode.punc (e : Fin 16) : Opcode.Statement (.punc e) := wordABC_op _ _ _ _
theorem Opcode.depunc (e : Fin 16) : Opcode.Statement (.depunc e) := wordABC_op _ _ _ _
theorem Opcode.intlv (x : ISel) : Opcode.Statement (.intlv x) := wordABC_op _ _ _ _
theorem Opcode.deintlv (x : ISel) : Opcode.Statement (.deintlv x) := wordABC_op _ _ _ _
theorem Opcode.map (nb : NBursts) : Opcode.Statement (.map nb) := wordABC_op _ _ _ _
theorem Opcode.unmap (nb : NBursts) : Opcode.Statement (.unmap nb) := wordABC_op _ _ _ _
theorem Opcode.hSet (nb : NBursts) (p : BitVec 16) : Opcode.Statement (.hSet nb p) := wordN_op _ _ _
theorem Opcode.unpack (o : BitOrder) (n : BitVec 16) : Opcode.Statement (.unpack o n) := wordN_op _ _ _
theorem Opcode.pack (o : BitOrder) (n : BitVec 16) : Opcode.Statement (.pack o n) := wordN_op _ _ _
theorem Opcode.matchPat (t : TSel) : Opcode.Statement (.matchPat t) := wordABC_op _ _ _ _
theorem Opcode.xcchEnc : Opcode.Statement (.xcchEnc) := wordABC_op _ _ _ _
theorem Opcode.xcchDec : Opcode.Statement (.xcchDec) := wordABC_op _ _ _ _
theorem Opcode.rachEnc (b : BitVec 6) : Opcode.Statement (.rachEnc b) := wordABC_op _ _ _ _
theorem Opcode.rachDec (b : BitVec 6) : Opcode.Statement (.rachDec b) := wordABC_op _ _ _ _
theorem Opcode.schEnc : Opcode.Statement (.schEnc) := wordABC_op _ _ _ _
theorem Opcode.schDec : Opcode.Statement (.schDec) := wordABC_op _ _ _ _
theorem Opcode.pdtchEnc : Opcode.Statement (.pdtchEnc) := wordABC_op _ _ _ _
theorem Opcode.pdtchDec : Opcode.Statement (.pdtchDec) := wordABC_op _ _ _ _
theorem Opcode.amrCfg : Opcode.Statement (.amrCfg) := wordABC_op _ _ _ _
theorem Opcode.tchfrEnc (x : Efr) : Opcode.Statement (.tchfrEnc x) := wordABC_op _ _ _ _
theorem Opcode.tchfrDec (x : Efr) : Opcode.Statement (.tchfrDec x) := wordABC_op _ _ _ _
theorem Opcode.tchafsEnc (x : Phase) : Opcode.Statement (.tchafsEnc x) := wordABC_op _ _ _ _
theorem Opcode.tchafsDec (x : Phase) : Opcode.Statement (.tchafsDec x) := wordABC_op _ _ _ _
theorem Opcode.schedInit : Opcode.Statement (.schedInit) := wordABC_op _ _ _ _
theorem Opcode.setPchan (a : Tn) (b : BitVec 4) (c : BitVec 3) : Opcode.Statement (.setPchan a b c) := wordABC_op _ _ _ _
theorem Opcode.chAct (a : Tn) (b : Chan) (c : LinkSel) : Opcode.Statement (.chAct a b c) := wordABC_op _ _ _ _
theorem Opcode.chDeact (a : Tn) (b : Chan) (c : LinkSel) : Opcode.Statement (.chDeact a b c) := wordABC_op _ _ _ _
theorem Opcode.setMode (a : Tn) (b : Chan) : Opcode.Statement (.setMode a b) := wordABC_op _ _ _ _
theorem Opcode.setCipher (a : Tn) (b : Chan) (c : Dir) : Opcode.Statement (.setCipher a b c) := wordABC_op _ _ _ _
theorem Opcode.pduEnq (a : Tn) (b : Chan) (c : Byte) : Opcode.Statement (.pduEnq a b c) := wordABC_op _ _ _ _
theorem Opcode.setAtt (a : Tn) (b : Byte) : Opcode.Statement (.setAtt a b) := wordABC_op _ _ _ _
theorem Opcode.tick (fn : Fn) : Opcode.Statement (.tick fn) := wordF_op _
theorem Opcode.rxBurst : Opcode.Statement (.rxBurst) := wordABC_op _ _ _ _
theorem Opcode.setBsic (b : BitVec 6) : Opcode.Statement (.setBsic b) := wordABC_op _ _ _ _

end Sys2Proof.Laws
end

