-- ==== Sys2Proof/Tests/Slice0.lean ====
section
/-! SUPPORT. The model's own tests: one ill-formed command for each check of `Instr.wellFormed`, a word
written out from 30_encoding.md for every command, results taken from spec/95_test_vectors.md, and a state
and operands that meet the hypotheses of every statement. -/

namespace Sys2Proof.Tests

-- One theorem at a time: the kernel evaluates each, and many at once need more memory than there is.
set_option Elab.async false

open Sys2Proof Sys2Proof.Machine

/-! ### Well-formedness: each check refuses a term -/

theorem test_wf_crcGen : ¬(Instr.crcGen .fire40 513).WellFormed := by decide
theorem test_wf_crcChk : ¬(Instr.crcChk .crc3 513).WellFormed := by decide
theorem test_wf_unpack : ¬(Instr.unpack .lsb 513).WellFormed := by decide
theorem test_wf_pack : ¬(Instr.pack .msb 513).WellFormed := by decide
theorem test_wf_convDec : ¬(Instr.convDec 0 513).WellFormed := by decide
theorem test_wf_parLd_zero : ¬(Instr.parLd 0 0).WellFormed := by decide
theorem test_wf_parLd_wide : ¬(Instr.parLd 41 0).WellFormed := by decide
theorem test_wf_hSet : ¬(Instr.hSet .four 0x100).WellFormed := by decide
theorem test_wf_tick : ¬(Instr.tick 2715648).WellFormed := by decide

/-! ### Decoding: the words of 30_encoding.md R91 to R98 -/

theorem test_decode_crc :
    decode 0x010000B8#32 = .ok (.crcGen .fire40 184) ∧
    decode 0x020000B8#32 = .ok (.crcChk .fire40 184) ∧
    decode 0x03000000#32 = .ok (.uappPar) ∧
    decode 0x04000004#32 = .ok (.uappZero 4) ∧
    decode 0x052800B8#32 = .ok (.parLd 40 184) := by
  decide

theorem test_decode_trellis_puncture :
    decode 0x08000000#32 = .ok (.convEnc 0) ∧
    decode 0x090000E0#32 = .ok (.convDec 0 224) ∧
    decode 0x0C000000#32 = .ok (.punc 0) ∧
    decode 0x0D010000#32 = .ok (.depunc 1) := by
  decide

theorem test_decode_mapper :
    decode 0x10000000#32 = .ok (.intlv .x4) ∧
    decode 0x11000000#32 = .ok (.deintlv .x4) ∧
    decode 0x12040000#32 = .ok (.map .four) ∧
    decode 0x13040000#32 = .ok (.unmap .four) ∧
    decode 0x150400FF#32 = .ok (.hSet .four 0xFF) ∧
    decode 0x180000B8#32 = .ok (.unpack .lsb 184) ∧
    decode 0x19010009#32 = .ok (.pack .msb 9) ∧
    decode 0x1A030000#32 = .ok (.matchPat .afsic) := by
  decide

theorem test_decode_control_codecs :
    decode 0x20000000#32 = .ok (.xcchEnc) ∧
    decode 0x21000000#32 = .ok (.xcchDec) ∧
    decode 0x22150000#32 = .ok (.rachEnc 0x15) ∧
    decode 0x23140000#32 = .ok (.rachDec 0x14) ∧
    decode 0x24000000#32 = .ok (.schEnc) ∧
    decode 0x25000000#32 = .ok (.schDec) := by
  decide

theorem test_decode_packet_traffic_codecs :
    decode 0x28000000#32 = .ok (.pdtchEnc) ∧
    decode 0x29000000#32 = .ok (.pdtchDec) ∧
    decode 0x2A000000#32 = .ok (.amrCfg) ∧
    decode 0x2C010000#32 = .ok (.tchfrEnc .efr) ∧
    decode 0x2D000000#32 = .ok (.tchfrDec .fr) ∧
    decode 0x2E000000#32 = .ok (.tchafsEnc .cmi) ∧
    decode 0x2F010000#32 = .ok (.tchafsDec .cmr) := by
  decide

theorem test_decode_scheduler_configuration :
    decode 0x40000000#32 = .ok (.schedInit) ∧
    decode 0x41020305#32 = .ok (.setPchan 2 3 5) ∧
    decode 0x42010600#32 = .ok (.chAct 1 6 .all) ∧
    decode 0x43000D01#32 = .ok (.chDeact 0 13 .main) ∧
    decode 0x44010600#32 = .ok (.setMode 1 6) ∧
    decode 0x45010601#32 = .ok (.setCipher 1 6 .dl) ∧
    decode 0x46000D00#32 = .ok (.pduEnq 0 13 0) ∧
    decode 0x47010700#32 = .ok (.setAtt 1 7) := by
  decide

theorem test_decode_scheduler_run :
    decode 0x48296FFF#32 = .ok (.tick 2715647) ∧
    decode 0x49000000#32 = .ok (.rxBurst) ∧
    decode 0x4A150000#32 = .ok (.setBsic 0x15) := by
  decide

theorem test_decode_reserved_bits :
    decode 0x20000001#32 = .error .reservedBits ∧
    decode 0x03010000#32 = .error .reservedBits ∧
    decode 0x08000100#32 = .error .reservedBits ∧
    decode 0x48400000#32 = .error .reservedBits ∧
    decode 0x49000001#32 = .error .reservedBits ∧
    decode 0x4A000001#32 = .error .reservedBits ∧
    decode 0x42080D01#32 = .error .reservedBits ∧
    decode 0x42004001#32 = .error .reservedBits ∧
    decode 0x47080100#32 = .error .reservedBits ∧
    decode 0x47010001#32 = .error .reservedBits ∧
    decode 0x41000108#32 = .error .reservedBits := by
  decide

theorem test_decode_operands :
    decode 0x04010004#32 = .error .operand ∧
    decode 0x1A040000#32 = .error .operand ∧
    decode 0x12060000#32 = .error .operand ∧
    decode 0x18020008#32 = .error .operand ∧
    decode 0x2C020000#32 = .error .operand ∧
    decode 0x42002700#32 = .error .operand ∧
    decode 0x42000D03#32 = .error .operand ∧
    decode 0x44000601#32 = .error .operand ∧
    decode 0x45000602#32 = .error .operand ∧
    decode 0x48297000#32 = .error .operand ∧
    decode 0x4A400000#32 = .error .operand ∧
    decode 0x0100FFFF#32 = .error .operand := by
  decide

theorem test_decode_unknown_opcodes :
    decode 0x00000000#32 = .error .unknownOpcode ∧
    decode 0x06000000#32 = .error .unknownOpcode ∧
    decode 0x14000000#32 = .error .unknownOpcode ∧
    decode 0x4B000000#32 = .error .unknownOpcode ∧
    decode 0xFF000000#32 = .error .unknownOpcode := by
  decide


/-! ### One command at a time: expected values from spec/95_test_vectors.md -/

/-- The state a command leaves. -/
def after (o : Host.Outcome State Fault Refusal) : State :=
  match o with
  | .next t => t
  | .fault _ | .refused _ => { State.reset with stat := { code := 0xFF, aux := 0 } }

/-- `n` bits of a number, most significant first. -/
def msb (n v : Nat) : List UBit := (List.range n).map fun i => v.testBit (n - 1 - i)

/-- A layout of one channel on both columns with bursts `0 .. n-1`. -/
def loop (ch : Chan) (n : Nat) : Layout :=
  { slots := (List.range n).map fun i =>
      { dlChan := ch, dlBid := Fin.ofNat 8 i, ulChan := ch, ulBid := Fin.ofNat 8 i } }

/-- Section 6 of the vectors as far as the tests need it: `LAYOUT[1]` SDCCH/8(0), `[2]` TCH/F, `[3]` FCCH and
SCH down with RACH up, `[4]` PDTCH; no filler; every memory allocation succeeds. -/
def bench : Params where
  layouts := [loop 13 4, loop 6 8,
    { slots := [{ dlChan := 1, dlBid := 0, ulChan := 4, ulBid := 0 },
        { dlChan := 2, dlBid := 0, ulChan := 4, ulBid := 0 }] }, loop 36 4]
  rtsAdvance := 2
  filler := fun _ _ => none
  schinfo := fun _ _ => 0
  tscTable := fun _ => Vector.replicate 26 false
  schTrain := Vector.replicate 64 false
  qdepth := 4
  afsIc := { wIc := 8, rows := [msb 8 0x00, msb 8 0xBA, msb 8 0x5D, msb 8 0xE7] }
  definesAfsIc := true
  afsCode := fun _ => { codesel := 1, puncsel := some 2 }
  codes := fun e => if e = 1 then
      some { k := 5, gens := [[0, 3, 4], [0, 1, 3, 4]], fb := [0, 3, 4], term := .flush } else none
  puncs := fun _ => none
  amrPhase := fun _ => .cmi
  frOrder := List.range 260
  efrMap := { prot := List.range 65, rep := [69, 119, 172, 222], order := List.range 260 }
  vitTie := fun _ _ _ _ _ => false
  allocOk := fun _ => true
  winBase := 0

/-- The same, but no memory allocation succeeds and `AFS_IC` is not defined. -/
def poor : Params := { bench with allocOk := fun _ => false, definesAfsIc := false }

/-- `FILLER`'s block of the vectors: 0x03 0x03 0x01 and twenty 0x2B. -/
def fillBlock : List Byte := [0x03, 0x03, 0x01] ++ List.replicate 20 0x2B

/-- The vectors' `pattern(n)`. -/
def pattern (n : Nat) : List Byte := (List.range n).map fun i => BitVec.ofNat 8 (17 * i + 5)

/-- `PRM` holds `l`, zeros after it. -/
def withPrm (l : List Byte) : State := { State.reset with prm := Vector.ofFn fun k => l.getD k.val 0 }

/-- Vector V3. -/
theorem test_crcGen : (after (exec (.crcGen .fire40 184)
    (State.reset.setU (List.replicate 183 false ++ [true])))).par = msb 40 0xFFFB7DFFF6 := by
  decide +kernel

/-- Vector V5, the three short checksums. -/
theorem test_crcGen_short :
    (after (exec (.crcGen .crc6 8) (State.reset.setU (msb 8 0xA5)))).par = msb 6 0b000110 ∧
    (after (exec (.crcGen .crc3 8) (State.reset.setU (msb 8 0xA5)))).par = msb 3 0b010 ∧
    (after (exec (.crcGen .crc16 8) (State.reset.setU (msb 8 0xA5)))).par =
      msb 16 0b0001101010110000 := by decide +kernel

/-- Vector V3, and V7 for a parity of the wrong length. -/
theorem test_crcChk :
    (after (exec (.crcChk .crc6 8) ((State.reset.setU (msb 8 0xA5)).setPar (msb 6 0b000110)))).stat =
      { code := 0, aux := 0 } ∧
    (after (exec (.crcChk .crc6 8) ((State.reset.setU (msb 8 0xA5)).setPar (msb 6 0b000111)))).stat =
      { code := 3, aux := 3 } ∧
    (after (exec (.crcChk .fire40 8) ((State.reset.setU (msb 8 0xA5)).setPar (msb 6 0)))).stat =
      { code := 2, aux := 8 } := by decide +kernel

/-- Vector V6: the parity behind the info bits, and out of room. -/
theorem test_uappPar :
    (after (exec .uappPar ((State.reset.setU [true]).setPar [false, true]))).u = [true, false, true] ∧
    (after (exec .uappPar ((State.reset.setU (List.replicate 512 true)).setPar [false]))).stat =
      { code := 2, aux := 513 } := by decide +kernel

theorem test_uappZero : (after (exec (.uappZero 4) (State.reset.setU [true]))).u =
    [true, false, false, false, false] := by decide +kernel

/-- Vector V6: bits 2 to 4, and one bit too far. -/
theorem test_parLd :
    (after (exec (.parLd 3 2) (State.reset.setU (msb 5 0b11010)))).par = [false, true, false] ∧
    (after (exec (.parLd 4 2) (State.reset.setU (msb 5 0b11010)))).stat = { code := 2, aux := 6 } := by
  decide +kernel

/-- Vector V8. -/
theorem test_convEnc :
    (after (exec (.convEnc 0) (State.reset.setU (msb 8 0b10110000)))).c =
      msb 16 0b1101110110110011 := by decide +kernel

/-- The flush code of the vectors' section 6 on a recursive generator. -/
theorem test_convEnc_flush :
    (after (execIn bench (.convEnc 1) (State.reset.setU (msb 6 0b101101)))).c =
      msb 20 0b11011110001011111100 := by decide +kernel

/-- Vector V9: two wrong signs, one of them weak. -/
theorem test_convDec :
    let t := after (execIn bench (.convDec 0 4) (State.reset.setSoftC
      (((softAll (msb 16 0b1101110110110011)).set 3 (SBit.clamp 127)).set 9 (SBit.clamp (-10)))))
    t.u = msb 4 0b1011 ∧ t.res.nbits = 16 := by decide +kernel

/-- Vector V14: the first coded bits under `CS2`. -/
theorem test_punc :
    let t := after (exec (.punc 0)
      (State.reset.setC ((List.range 588).map fun j => decide (j % 3 = 0))))
    t.mem.c.len = 456 ∧ t.c.take 24 = msb 24 0b100100100100100001010100 ∧ t.c.count true = 160 := by
  decide +kernel

/-- Vector V14: the erasures of `CS3`. -/
theorem test_depunc :
    let t := after (exec (.depunc 1) (State.reset.setSoftC
      ((List.range 456).map fun j => SBit.clamp (BitVec.ofNat 8 (j % 100 + 1)))))
    t.mem.cs.len = 676 ∧ ((t.softC.drop 14).take 11).map SBit.toInt =
      [15, 0, 16, 0, 17, 18, 19, 0, 20, 0, 21] := by decide +kernel

/-- Vector V15: where coded bits 1, 4 and 455 go; 455 bits are no block. -/
theorem test_intlv :
    ilvIndex .x4 1 = 212 ∧ ilvIndex .x4 455 = 359 ∧ ilvIndex .t8 4 = 507 ∧ ilvIndex .t8 455 = 815 ∧
    (after (exec (.intlv .x4) (State.reset.setC (List.replicate 455 false)))).stat =
      { code := 2, aux := 455 } := by decide +kernel

/-- Vector V15 backwards: coded bit 4. -/
theorem test_deintlv :
    (after (exec (.deintlv .t8) (State.reset.setSoftI
      ((List.replicate 912 SBit.zero).set 507 (SBit.soft true))))).softC[4]? =
      some (SBit.soft true) := by decide +kernel

/-- Vector V16: all flags set in four bursts of zeros. -/
theorem test_map :
    let t := after (exec (.map .four) ((State.reset.setI (List.replicate 456 false)).setH
      (List.replicate 8 true)))
    t.mem.e.len = 464 ∧ (List.range 60).map (fun j => t.e.getD j false) =
      List.replicate 57 false ++ [true, true, false] := by decide +kernel

/-- Vector V16: position 57 is the first flag. -/
theorem test_unmap :
    let t := after (exec (.unmap .four) (State.reset.setSoftE
      ((List.replicate 464 (SBit.soft false)).set 57 (SBit.soft true))))
    t.softH = SBit.soft true :: List.replicate 7 (SBit.soft false) ∧
    t.softI = List.replicate 456 (SBit.soft false) := by decide +kernel

/-- Vector V16: bit 0 of the pattern is flag 0. -/
theorem test_hSet : (after (exec (.hSet .four 0x13) State.reset)).h = msb 8 0b11001000 := by
  decide +kernel

/-- Vector V17. -/
theorem test_unpack :
    (after (exec (.unpack .lsb 8) (State.reset.setPdu [0x03]))).u = msb 8 0b11000000 ∧
    (after (exec (.unpack .msb 8) (State.reset.setPdu [0x03]))).u = msb 8 0b00000011 := by
  decide +kernel

/-- Vector V17. -/
theorem test_pack :
    (after (exec (.pack .lsb 9) (State.reset.setU (msb 9 0b110000001)))).pdu = [0x03, 0x01] ∧
    (after (exec (.pack .msb 9) (State.reset.setU (msb 9 0b110000001)))).pdu = [0xC0, 0x80] := by
  decide +kernel

/-- Vector V18: the hard table, and the tie of eight erasures. -/
theorem test_matchPat :
    (after (exec (.matchPat .usf6) (State.reset.setU (msb 6 0b001010)))).res.idx = 1 ∧
    (after (exec (.matchPat .usf6) (State.reset.setU (msb 6 0b001010)))).res.dist = 1 ∧
    (after (exec (.matchPat .cs) (State.reset.setSoftH (List.replicate 8 SBit.zero)))).res.dist =
      1016 := by decide +kernel

/-- Vector V10: parity and first burst. -/
theorem test_xcchEnc :
    let t := after (exec .xcchEnc (State.reset.setPdu fillBlock))
    t.par = msb 40 0x34722A40CC ∧ (List.range 24).map (fun j => t.e.getD j false) = msb 24 0x811D50 := by
  decide +kernel

/-- Vector V11 (e): 463 soft bits. -/
theorem test_xcchDec : (after (exec .xcchDec
    (State.reset.setSoftE (List.replicate 463 SBit.zero)))).stat = { code := 2, aux := 463 } := by
  decide +kernel

/-- Vector V20: an access request under identity code 0x15. -/
theorem test_rachEnc :
    let t := after (exec (.rachEnc 0x15) (State.reset.setPdu [0x2B]))
    t.par = msb 6 0b000001 ∧ t.c = msb 36 0b111001000100101111110000001101001111 := by decide +kernel

/-- Vector V20: the right identity code and the next one. -/
theorem test_rachDec :
    let s := State.reset.setSoftC (softAll (msb 36 0b111001000100101111110000001101001111))
    (after (execIn bench (.rachDec 0x15) s)).pdu = [0x2B] ∧
    (after (execIn bench (.rachDec 0x14) s)).stat = { code := 3, aux := 3 } := by decide +kernel

/-- Vector V21. -/
theorem test_schEnc :
    let t := after (exec .schEnc (State.reset.setPdu [0xFC, 0x12, 0x34, 0x01]))
    t.par = msb 10 0b1101111110 ∧ t.c =
      msb 78 0b000011101001101001110111001000111100110111011011110110101110010110100100001100 := by
  decide +kernel

/-- Vector V21 backwards. -/
theorem test_schDec : (after (execIn bench .schDec (State.reset.setSoftC (softAll
    (msb 78 0b000011101001101001110111001000111100110111011011110110101110010110100100001100))))).pdu =
    [0xFC, 0x12, 0x34, 0x01] := by decide +kernel

/-- Vector V31: `CS-2`. -/
theorem test_pdtchEnc :
    let t := after (exec .pdtchEnc (State.reset.setPdu (((pattern 34).set 0 0x0B).set 33 0x36)))
    t.res.cs = 2 ∧ t.res.usf = 3 ∧ t.par = msb 16 0xF9EE ∧ t.h = msb 8 0b11001000 ∧
    t.mem.u.len = 294 ∧ t.mem.c.len = 456 := by decide +kernel

theorem test_pdtchDec : (after (exec .pdtchDec State.reset)).stat = { code := 2, aux := 0 } := by
  decide +kernel

/-- Vector V49. -/
theorem test_amrCfg :
    (after (exec .amrCfg (withPrm [2, 3, 7, 0, 0, 0, 0, 0, 0, 1, 0]))).wamr =
      { n := 2, list := #v[3, 7, 0, 0, 0, 0, 0, 0], ft := 1, cmr := 0 } ∧
    (after (exec .amrCfg (withPrm [9]))).stat = { code := 9, aux := 0 } := by decide +kernel

/-- Vector V40. -/
theorem test_tchfrEnc :
    let t := after (execIn bench (.tchfrEnc .fr) (State.reset.setPdu ((pattern 33).set 0 0xD5)))
    t.par = msb 3 0b110 ∧ t.mem.u.len = 189 ∧ t.mem.c.len = 456 ∧
    t.h = List.replicate 16 false := by decide +kernel

/-- Vector V42: the stealing flags of a stolen block. -/
theorem test_tchfrEnc_stolen : (after (exec (.tchfrEnc .fr) (State.reset.setPdu fillBlock))).h =
    msb 16 0b0101010110101010 := by decide +kernel

theorem test_tchfrDec : (after (exec (.tchfrDec .efr) State.reset)).stat = { code := 2, aux := 0 } := by
  decide +kernel

/-- Vector V47: an index outside the list, before the length. -/
theorem test_tchafsEnc : (after (exec (.tchafsEnc .cmi)
    { State.reset with wamr := { n := 2, list := Vector.replicate 8 0, ft := 2, cmr := 0 } })).stat =
    { code := 4, aux := 2 } := by decide +kernel

theorem test_tchafsDec : (after (exec (.tchafsDec .cmi) State.reset)).stat = { code := 2, aux := 0 } := by
  decide +kernel

/-- Section 6 of the vectors: the clock runs, then it does not. -/
theorem test_schedInit :
    let t := after (exec .schedInit { State.reset with fn := 5, fnValid := true, bsic := 9 })
    t.fn = 0 ∧ t.fnValid = false ∧ t.bsic = 9 := by decide +kernel

/-- A legal code is stored beside the kept attenuation; code 5 of four layouts is illegal. -/
theorem test_setPchan :
    (after (execIn bench (.setPchan 1 4 2)
      (State.reset.setTs 1 { pchan := 0, tsc := 0, att := 7 }))).ts.get 1 =
      { pchan := 4, tsc := 2, att := 7 } ∧
    (after (execIn bench (.setPchan 0 5 0) State.reset)).stat = { code := 1, aux := 0x4100 } := by
  decide +kernel

/-- Timeslot 0 runs SDCCH/8(0), `LAYOUT[1]`, with the channel active. -/
def onSdcch : State :=
  (State.reset.setTs 0 { pchan := 1, tsc := 0, att := 0 }).setChan 0 13
    { ChanState.zero with active := true }

/-- The channel is activated; its slow associated channel is not in the layout. -/
theorem test_chAct :
    let s := State.reset.setTs 0 { pchan := 1, tsc := 0, att := 0 }
    ((after (execIn bench (.chAct 0 13 .main) s)).chan 0 13).active = true ∧
    (after (execIn bench (.chAct 0 13 .all) s)).stat = { code := 7, aux := 13 } := by decide +kernel

theorem test_chDeact :
    (after (exec (.chDeact 0 13 .main) onSdcch)).chan 0 13 = ChanState.zero ∧
    (after (exec (.chDeact 0 36 .sacch) onSdcch)).stat = { code := 7, aux := 36 } := by decide +kernel

/-- The pending mode and the four indices. -/
theorem test_setMode :
    let x := (after (exec (.setMode 2 6) (withPrm [7, 3, 2, 3, 7, 0, 0, 0, 0, 0, 0, 1, 2]))).chan 2 6
    x.modeP = { rslCmode := 7, tchMode := .amr, amrN := 2, amrList := #v[3, 7, 0, 0, 0, 0, 0, 0] } ∧
    x.ulFt = 1 ∧ x.dlCmr = 2 ∧ x.modeUl = Mode.zero := by decide +kernel

/-- The downlink record; algorithm 16 is malformed. -/
theorem test_setCipher :
    ((after (exec (.setCipher 1 6 .dl) (withPrm [1, 1, 2, 3, 4, 5, 6, 7, 8]))).chan 1 6).ciphDlP =
      { algo := 1, key := #v[1, 2, 3, 4, 5, 6, 7, 8] } ∧
    (after (exec (.setCipher 1 6 .ul) (withPrm [16]))).stat = { code := 9, aux := 0 } := by
  decide +kernel

/-- The second element goes behind the first; an unconfigured timeslot takes none. -/
theorem test_pduEnq :
    (after (execIn bench (.pduEnq 0 13 1)
      ((onSdcch.setQueue 0 13 [{ bytes := [9], aux := 0 }]).setPdu [7]))).queue 0 13 =
      [{ bytes := [9], aux := 0 }, { bytes := [7], aux := 1 }] ∧
    (after (execIn bench (.pduEnq 3 13 0) onSdcch)).stat = { code := 7, aux := 13 } := by decide +kernel

theorem test_setAtt : (after (exec (.setAtt 7 0xFE) onSdcch)).ts.get 7 =
    { pchan := 0, tsc := 0, att := 0xFE } := by decide +kernel

/-- The hyperframe wraps; a repeated frame number is refused. -/
theorem test_tick :
    (after (exec (.tick 0) { State.reset with fn := 2715647, fnValid := true })).fn = 0 ∧
    (after (exec (.tick 0) { State.reset with fn := 0, fnValid := true })).stat.code = 0xFF := by
  decide +kernel

/-- R279 two frames ahead: the block of frame 4 is announced in frame 2. -/
theorem test_tick_rts : (after (execIn bench (.tick 2) onSdcch)).evq = [.rtsInd 0 13 4] := by
  decide +kernel

/-- An indication on timeslot `tn` in frame `fn` with 148 soft bits. -/
def heard (fn : Fn) (tn : BitVec 3) (bits : List SBit) : RxInd :=
  { RxInd.zero with fn := fn, tn := tn, nbits := 148, bits := Vector.ofFn fun i => bits.getD i.val SBit.zero }

/-- A burst before block start is left; the first burst of a block starts it. -/
theorem test_rxBurst :
    (after (execIn bench .rxBurst { onSdcch with rxind := heard 9 0 [] })).cs = onSdcch.cs ∧
    let x := (after (execIn bench .rxBurst { onSdcch with rxind := heard 8 0 [] })).chan 0 13
    x.ulMask = 1 ∧ x.ulFirstFn = 8 ∧ x.ulSync = true := by decide +kernel

/-- Vector R270 (1): 147 positions. -/
theorem test_rxBurst_malformed : (after (exec .rxBurst
    { State.reset with rxind := { RxInd.zero with nbits := 147 } })).stat = { code := 8, aux := 2 } := by
  decide +kernel

theorem test_setBsic : (after (exec (.setBsic 0x2A) State.reset)).bsic = 0x2A := by decide +kernel

/-! ### The data window (20_memory.md R73 to R76) -/

/-- Two writes of the host and a read, one step each. -/
theorem test_window :
    (after (step { State.reset with host := [.write 0x0028 4 1] })).mem.u.len = 1 ∧
    step { State.reset with host := [.read 0x0002 4] } = .fault .badAccess ∧
    step { State.reset with host := [.write 0x0028 4 513] } = .fault .badValue := by
  refine ⟨?_, rfl, rfl⟩
  decide +kernel

/-- The command port runs the word. -/
theorem test_port : (after (step (State.reset.withFetchWord 32 0x4A2A0000))).bsic = 0x2A := by
  decide +kernel

/-! ### Witnesses: a state and operands that meet the hypotheses of every statement

`Obligations.CommandOutcomes`, `MatcherRule`'s second clause and others without a hypothesis need none. -/

theorem witness_DecodeOfEncode : (Instr.crcGen .crc8 512).WellFormed ∧ (Instr.parLd 40 0xFFFF).WellFormed ∧
    (Instr.hSet .four 0xFF).WellFormed ∧ (Instr.tick 2715647).WellFormed := by decide

theorem witness_EncodeOfDecode : decode 0x05280000#32 = .ok (.parLd 40 0) := by decide

theorem witness_IllegalCommands :
    decode 0x41000108#32 = .error .reservedBits ∧ codeOf bench 2 = none ∧ maskOf bench 15 = none ∧
    poor.definesAfsIc = false ∧ (5 : BitVec 4) ≠ 0 ∧ npchan bench ≤ (5 : BitVec 4).toNat := by decide

theorem witness_StepRunsCommand :
    { State.reset with host := [.write 0 4 0x03000000] }.host =
      .write 0 4 0x03000000#32 :: ([] : List HostAccess) ∧
    decode (BitVec.ofNat 32 (0x03000000 % 2 ^ 32)) = .ok .uappPar ∧ State.reset.host = [] :=
  ⟨rfl, by decide, rfl⟩

theorem witness_ErrorPrecision_unit : isDecoder (.crcGen .fire40 1) = false ∧
    ∃ t, exec (.crcGen .fire40 1) State.reset = .next t ∧ t.stat.code ≠ 0 :=
  ⟨rfl, _, rfl, by decide⟩

theorem witness_ErrorPrecision_decoder : isDecoder .schDec = true ∧
    ∃ t, exec .schDec State.reset = .next t ∧ t.stat.code ≠ 0 :=
  ⟨rfl, _, rfl, by decide⟩

theorem witness_ErrorPrecision_lengths :
    (State.reset.setSoftE (List.replicate 463 SBit.zero)).mem.es.len ≠ 464 ∧
    (State.reset.setSoftE (List.replicate 464 SBit.zero)).mem.es.len ≠ 928 ∧
    (State.reset.setSoftC (List.replicate 37 SBit.zero)).mem.cs.len ≠ 36 ∧
    (State.reset.setSoftC (List.replicate 79 SBit.zero)).mem.cs.len ≠ 78 := by decide +kernel

theorem witness_ErrorPrecision_inputLength : isDecoder .schDec = true ∧
    ∃ t, execIn bench .schDec State.reset = .next t ∧ t.stat.code = ErrCode.len.code :=
  ⟨rfl, _, rfl, by decide⟩

/-- `n` info bits, all zero. -/
def zeroInfo (n : Nat) : State := State.reset.setU (List.replicate n false)

theorem witness_CrcGenAndCheck :
    (8 : BitVec 16).toNat ≤ (zeroInfo 8).mem.u.len ∧ (zeroInfo 8).mem.u.len < (9 : BitVec 16).toNat ∧
    ((zeroInfo 8).setPar (msb 3 7)).mem.par.len = crcWidth .crc3 ∧
    crcGen .crc3 (((zeroInfo 8).setPar (msb 3 7)).u.take 8) = ((zeroInfo 8).setPar (msb 3 7)).par ∧
    crcGen .crc3 (((zeroInfo 8).setPar (msb 3 6)).u.take 8) ≠ ((zeroInfo 8).setPar (msb 3 6)).par ∧
    ((zeroInfo 8).setPar (msb 4 7)).mem.par.len ≠ crcWidth .crc3 := by decide

theorem witness_ParityMoves :
    ((zeroInfo 472).setPar (msb 40 0)).mem.u.len + ((zeroInfo 472).setPar (msb 40 0)).mem.par.len ≤ 512 ∧
    512 < ((zeroInfo 473).setPar (msb 40 0)).mem.u.len + ((zeroInfo 473).setPar (msb 40 0)).mem.par.len ∧
    (184 : BitVec 16).toNat + (40 : Byte).toNat ≤ (zeroInfo 224).mem.u.len ∧
    (zeroInfo 223).mem.u.len < (184 : BitVec 16).toNat + (40 : Byte).toNat := by decide +kernel

theorem witness_UappZeroAppends :
    Word.op 0x04010004#32 = 0x04 ∧ Word.a 0x04010004#32 ≠ 0 ∧
    (zeroInfo 508).mem.u.len + (4 : BitVec 16).toNat ≤ 512 ∧
    512 < (zeroInfo 508).mem.u.len + (5 : BitVec 16).toNat := by decide +kernel

theorem witness_CrcLaws :
    crcChk .crc3 [true, false] (crcGen .crc3 [true, false]) = true ∧
    DifferAt 1 [true, false] [true, true] ∧
    DifferAt 2 (crcGen .crc3 [true, false])
      ((crcGen .crc3 [true, false]).set 2 (!(crcGen .crc3 [true, false]).getD 2 false)) :=
  ⟨by decide, ⟨by decide, by decide⟩, ⟨by decide, rfl⟩⟩

theorem witness_EncoderRule : xcchCode.wf = true ∧ xcchCode.fb = [0] ∧ 7 < (msb 8 0xA5).length := by
  decide

theorem witness_EncoderLaws : xcchCode.wf = true ∧ (∃ g ∈ xcchCode.gens, 0 ∈ g) ∧
    (msb 8 0xA5).length = (msb 8 0x5A).length ∧
    convEnc xcchCode (msb 8 0xA5) = convEnc xcchCode (msb 8 0xA5) ∧ true ∈ msb 8 0x01 := by
  decide

theorem witness_ConvEncResult : codeOf Config.inst 0 = some xcchCode ∧
    xcchCode.n * xcchCode.steps (zeroInfo 512).mem.u.len ≤ 1024 ∧
    1024 < xcchCode.n * xcchCode.steps (zeroInfo 513).mem.u.len :=
  ⟨rfl, by decide +kernel, by decide +kernel⟩

/-- `n` received coded bits. -/
def softInfo (n : Nat) : State := State.reset.setSoftC (List.replicate n (SBit.soft true))

theorem witness_DecoderMinimal :
    xcchCode.wf = true ∧ decodeLenOk xcchCode (softAll [true, true]).length 1 = true ∧
    ∀ u : List UBit, u.length = 1 → u ≠ [true] →
      candidateCost xcchCode (softAll [true, true]) [true] <
        candidateCost xcchCode (softAll [true, true]) u := by
  refine ⟨by decide, by decide, ?_⟩
  intro u hu hne
  match u, hu with
  | [true], _ => exact absurd rfl hne
  | [false], _ => decide

theorem witness_DecoderCorrects : xcchCode.wf = true ∧ (∃ g ∈ xcchCode.gens, 0 ∈ g) ∧
    decodeLenOk xcchCode 16 4 = true ∧ (msb 4 0b1011).length = 4 ∧
    decodeLenOk xcchCode ((softAll (candidateWord xcchCode 16 (msb 4 0b1011))).set 5
      (SBit.clamp 127)).length 4 = true ∧
    2 * (4 + 4) ≤ ((softAll (candidateWord xcchCode 16 (msb 4 0b1011))).set 5 (SBit.clamp 127)).length ∧
    (∀ x ∈ (softAll (candidateWord xcchCode 16 (msb 4 0b1011))).set 5 (SBit.clamp 127), x.mag = 127) ∧
    disagreements ((softAll (candidateWord xcchCode 16 (msb 4 0b1011))).set 5 (SBit.clamp 127))
      (candidateWord xcchCode 16 (msb 4 0b1011)) ≤ 3 := by decide +kernel

theorem witness_ConvDecResult : codeOf Config.inst 0 = some xcchCode ∧
    decodeLenOk xcchCode (softInfo 16).mem.cs.len (8 : BitVec 16).toNat = true ∧
    decodeLenOk xcchCode (softInfo 16).mem.cs.len (9 : BitVec 16).toNat = false ∧
    decodeLenOk xcchCode (softInfo 15).mem.cs.len (4 : BitVec 16).toNat = false :=
  ⟨rfl, by decide, by decide, by decide⟩

theorem witness_PunctureLaws : (softAll (List.replicate 456 true)).length = cs2Mask.kept ∧
    (List.replicate 588 true).length = cs2Mask.full ∧ cs2Mask.keep[15]? = some false ∧
    cs2Mask.keep[39]? = some true ∧ (List.replicate 290 true).length = 290 ∧
    (List.replicate 334 true).length = 334 := by decide +kernel

theorem witness_PuncDepuncResult : maskOf Config.inst 0 = some cs2Mask ∧
    (State.reset.setC (List.replicate 588 true)).mem.c.len = cs2Mask.full ∧
    (State.reset.setC (List.replicate 587 true)).mem.c.len ≠ cs2Mask.full ∧
    (softInfo 456).mem.cs.len = cs2Mask.kept ∧ cs2Mask.full ≤ 1024 ∧
    (softInfo 455).mem.cs.len ≠ cs2Mask.kept :=
  ⟨rfl, by decide +kernel, by decide +kernel, by decide +kernel, by decide +kernel, by decide +kernel⟩

theorem witness_PuncDepuncResult_wide :
    maskOf { bench with puncs := fun _ => some { keep := List.replicate 1025 false } } 2 =
      some { keep := List.replicate 1025 false } ∧
    State.reset.mem.cs.len = Mask.kept { keep := List.replicate 1025 false } ∧
    1024 < Mask.full { keep := List.replicate 1025 false } :=
  ⟨rfl, by decide +kernel, by decide +kernel⟩

theorem witness_InterleaverLaws : 455 < 456 ∧ ilvPos 455 = 17 ∧ 455 % 8 = 7 ∧
    (List.replicate 456 true).length = 456 := by decide +kernel

theorem witness_InterleaveResult :
    (State.reset.setC (List.replicate 456 true)).mem.c.len = 456 ∧ State.reset.mem.c.len ≠ 456 ∧
    (State.reset.setSoftI (List.replicate 912 SBit.zero)).mem.is.len = 114 * nbiOf .t8 ∧
    (State.reset.setSoftI (List.replicate 912 SBit.zero)).mem.is.len ≠ 114 * nbiOf .x4 ∧
    (∀ k, k < 8 → 114 * (k % nbiOf .t8) + ilvPos k ≠ 1) := by decide +kernel

/-- Position 1 of an eight-burst block receives no coded bit. -/
theorem witness_InterleaveResult_free : 1 < 114 * nbiOf .t8 ∧
    ∀ k : Fin 456, 114 * (k.val % nbiOf .t8) + ilvPos k.val ≠ 1 := by decide +kernel

theorem witness_MapperResult :
    ((State.reset.setI (List.replicate 912 true)).setH (List.replicate 16 true)).mem.i.len =
      114 * nbOf .eight ∧
    ((State.reset.setI (List.replicate 912 true)).setH (List.replicate 16 true)).mem.h.len =
      2 * nbOf .eight ∧
    ((State.reset.setI (List.replicate 456 true)).setH (List.replicate 9 true)).mem.h.len ≠
      2 * nbOf .four ∧
    (State.reset.setSoftE (List.replicate 464 SBit.zero)).mem.es.len = 116 * nbOf .four ∧
    (State.reset.setSoftE (List.replicate 464 SBit.zero)).mem.es.len ≠ 116 * nbOf .eight ∧
    (List.replicate 114 true).length = 114 * 1 ∧ (List.replicate 2 true).length = 2 * 1 := by
  decide +kernel

theorem witness_UnpackPackResult :
    (8 : BitVec 16).toNat ≤ 8 * (State.reset.setPdu [0x03]).mem.pdu.len ∧
    8 * (State.reset.setPdu [0x03]).mem.pdu.len < (9 : BitVec 16).toNat ∧
    (9 : BitVec 16).toNat ≤ (zeroInfo 9).mem.u.len ∧ (zeroInfo 8).mem.u.len < (9 : BitVec 16).toNat := by
  decide

theorem witness_MatcherRule : (msb 8 0xBA).length = (softAll (msb 8 0xE7)).length ∧
    (msb 8 0xBA).length = (msb 8 0xE7).length ∧ tCs ≠ [] := by decide

theorem witness_MatchResult :
    8 ≤ (State.reset.setSoftH (List.replicate 8 SBit.zero)).mem.hs.len ∧ 6 ≤ (zeroInfo 6).mem.u.len ∧
    12 ≤ (zeroInfo 12).mem.u.len ∧ bench.definesAfsIc = true ∧ wIc bench ≤ (softInfo 8).mem.cs.len ∧
    (State.reset.setSoftH (List.replicate 7 SBit.zero)).mem.hs.len < 8 ∧ (zeroInfo 5).mem.u.len < 6 ∧
    (zeroInfo 11).mem.u.len < 12 ∧ (softInfo 7).mem.cs.len < wIc bench := by decide

/-- `n` payload bytes, all zero. -/
def zeroPdu (n : Nat) : State := State.reset.setPdu (List.replicate n 0)

theorem witness_ControlEncoders : (zeroPdu 23).mem.pdu.len = 23 ∧ (zeroPdu 22).mem.pdu.len ≠ 23 ∧
    (zeroPdu 1).mem.pdu.len = 1 ∧ (zeroPdu 2).mem.pdu.len ≠ 1 ∧ (zeroPdu 4).mem.pdu.len = 4 ∧
    (zeroPdu 5).mem.pdu.len ≠ 4 := by decide

theorem witness_XcchRoundTrip : fillBlock.length = 23 ∧ (List.replicate 8 true).length = 8 ∧
    (State.reset.setSoftE (softAll (blockBursts .x4 (controlCoded fillBlock)
      (List.replicate 8 true)))).softE =
      softAll (blockBursts .x4 (controlCoded fillBlock) (List.replicate 8 true)) :=
  ⟨rfl, rfl, State.setSoftE_softE _ _⟩

/-- The filler block's bursts with three coded positions wrong: the first, one behind the flags of the first
burst, and the last. -/
def threeWrong : List UBit :=
  xorBits (blockBursts .x4 (controlCoded fillBlock) (List.replicate 8 true))
    ([true] ++ List.replicate 58 false ++ [true] ++ List.replicate 403 false ++ [true])

theorem threeWrong_length : threeWrong.length = 464 := by
  rw [threeWrong, xorBits, List.length_zipWith, blockBursts_length, nbiOf]
  simp only [List.length_append, List.length_replicate, List.length_cons, List.length_nil]
  decide

/-- A block with a missing burst, and a block with three wrong signs. -/
theorem witness_XcchRoundTrip_errors :
    (State.reset.setSoftE (List.replicate 348 (SBit.soft true) ++
      List.replicate 116 SBit.zero)).mem.es.len = 464 ∧
    ∃ s : State, fillBlock.length = 23 ∧ (List.replicate 8 true).length = 8 ∧ s.mem.es.len = 464 ∧
      (∀ x ∈ s.softE, x.mag = 127) ∧ unmapFlags 4 s.softE = softAll (List.replicate 8 true) ∧
      3 = disagreements s.softE
        (blockBursts .x4 (controlCoded fillBlock) (List.replicate 8 true)) := by
  have h : (State.reset.setSoftE (softAll threeWrong)).softE = softAll threeWrong :=
    State.setSoftE_softE _ _
  refine ⟨by decide +kernel, State.reset.setSoftE (softAll threeWrong), rfl, rfl, ?_, ?_, ?_, ?_⟩
  · rw [State.setSoftE_len, softAll, List.length_map, threeWrong_length]
  · rw [h]
    exact softAll_mag _
  · rw [h]
    decide +kernel
  · rw [h, threeWrong, disagreements_xorBits _ _ (by rw [blockBursts_length]; decide +kernel)]
    decide +kernel

theorem witness_RachRoundTrip :
    (State.reset.setSoftC (softAll (rachCoded 0x15 (unpackLsb [0x2B] 8)))).softC =
      softAll (rachCoded 0x15 (unpackLsb [0x2B] 8)) ∧ (0x14 : BitVec 6) ≠ 0x15 :=
  ⟨State.setSoftC_softC _ _, by decide⟩

theorem witness_SchRoundTrip :
    (State.reset.setSoftC (softAll (schCoded (unpackLsb [0xFC, 0x12, 0x34, 0x01] 25)))).softC =
      softAll (schCoded (unpackLsb [0xFC, 0x12, 0x34, 0x01] 25)) ∧ (0x01 : Byte) &&& 0xFE = 0 :=
  ⟨State.setSoftC_softC _ _, by decide⟩

/-- Erased and noisy inputs of every decoder, a stolen block among them. -/
theorem witness_decoders_any_input :
    (softInfo 36).mem.cs.len = 36 ∧ (softInfo 78).mem.cs.len = 78 ∧
    (State.reset.setSoftE (List.replicate 464 SBit.zero)).mem.es.len = 464 ∧
    (State.reset.setSoftE (List.replicate 928 SBit.zero)).mem.es.len = 928 ∧
    ¬StolenFlags (unmapFlags 8 (List.replicate 928 SBit.zero)) ∧
    StolenFlags (unmapFlags 8 (List.replicate 928 (SBit.soft true))) := by
  unfold StolenFlags
  decide +kernel

theorem witness_FlippedPayloadRejected_xcch :
    (msb 184 0).length = 184 ∧ (List.replicate 8 true).length = 8 ∧ DifferAt 183 (msb 184 0) (msb 184 1) ∧
    (State.reset.setSoftE (softAll (blockBursts .x4
      (convEnc xcchCode (infoWord (msb 184 1) (crcGen .fire40 (msb 184 0))))
      (List.replicate 8 true)))).softE =
      softAll (blockBursts .x4 (convEnc xcchCode (infoWord (msb 184 1) (crcGen .fire40 (msb 184 0))))
        (List.replicate 8 true)) :=
  ⟨rfl, rfl, ⟨by decide +kernel, by decide +kernel⟩, State.setSoftE_softE _ _⟩

theorem witness_FlippedPayloadRejected_rach :
    (msb 8 0).length = 8 ∧ DifferAt 7 (msb 8 0) (msb 8 1) ∧
    (State.reset.setSoftC (softAll
      (convEnc xcchCode (infoWord (msb 8 1) (xorBsic 9 (crcGen .crc6 (msb 8 0))))))).softC =
      softAll (convEnc xcchCode (infoWord (msb 8 1) (xorBsic 9 (crcGen .crc6 (msb 8 0))))) :=
  ⟨rfl, ⟨by decide, by decide⟩, State.setSoftC_softC _ _⟩

theorem witness_FlippedPayloadRejected_sch :
    (msb 25 0).length = 25 ∧ DifferAt 24 (msb 25 0) (msb 25 1) ∧
    (State.reset.setSoftC (softAll
      (convEnc xcchCode (infoWord (msb 25 1) (crcGen .crc10 (msb 25 0)))))).softC =
      softAll (convEnc xcchCode (infoWord (msb 25 1) (crcGen .crc10 (msb 25 0)))) :=
  ⟨rfl, ⟨by decide, by decide⟩, State.setSoftC_softC _ _⟩

/-- A clean packet-data block of scheme 1 with the last payload bit flipped. -/
theorem witness_FlippedPayloadRejected_cs1 :
    (msb 184 0).length = 184 ∧ DifferAt 183 (msb 184 0) (msb 184 1) ∧
    (State.reset.setSoftE (softAll (blockBursts .x4
      (convEnc xcchCode (infoWord (msb 184 1) (crcGen .fire40 (msb 184 0))))
      Scheme.cs1.header))).softE =
      softAll (blockBursts .x4 (convEnc xcchCode (infoWord (msb 184 1) (crcGen .fire40 (msb 184 0))))
        Scheme.cs1.header) :=
  ⟨rfl, ⟨by decide +kernel, by decide +kernel⟩, State.setSoftE_softE _ _⟩

/-- The other schemes, the first and the last payload bit that the flag does not replace. -/
theorem witness_FlippedPayloadRejected_packet : ∀ scheme : Scheme, scheme ≠ .cs1 →
    ∀ j ∈ [3, scheme.np - 1], ∃ (d d' c u : List UBit) (usf : BitVec 3) (s : State),
    d.length = scheme.np ∧ DifferAt j d d' ∧ 3 ≤ j ∧
    d.take 3 = [usf.getLsbD 0, usf.getLsbD 1, usf.getLsbD 2] ∧
    u = scheme.flagTable.getD usf.toNat [] ++ d'.drop 3 ++ crcGen .crc16 d ++
      List.replicate scheme.tail false ∧
    (scheme = .cs2 → c = punct cs2Mask (convEnc xcchCode u)) ∧
    (scheme = .cs3 → c = punct cs3Mask (convEnc xcchCode u)) ∧ (scheme = .cs4 → c = u) ∧
    s.softE = softAll (blockBursts .x4 c scheme.header) := by
  have h : ∀ scheme : Scheme, ∀ j ∈ [3, scheme.np - 1], DifferAt j (List.replicate scheme.np false)
      ((List.replicate scheme.np false).set j true) ∧ 3 ≤ j ∧
      (List.replicate scheme.np false).take 3 = [false, false, false] := by
    intro scheme
    cases scheme <;> unfold DifferAt <;> decide +kernel
  intro scheme hne j hj
  obtain ⟨hd, h3, hf⟩ := h scheme j hj
  cases scheme with
  | cs1 => exact absurd rfl hne
  | cs2 => exact ⟨_, _, _, _, 0, _, List.length_replicate, hd, h3, hf, rfl, fun _ => rfl, nofun, nofun,
      State.setSoftE_softE State.reset _⟩
  | cs3 => exact ⟨_, _, _, _, 0, _, List.length_replicate, hd, h3, hf, rfl, nofun, fun _ => rfl, nofun,
      State.setSoftE_softE State.reset _⟩
  | cs4 => exact ⟨_, _, _, _, 0, _, List.length_replicate, hd, h3, hf, rfl, nofun, nofun, fun _ => rfl,
      State.setSoftE_softE State.reset _⟩

/-- The last bit under the 3-bit checksum of a speech frame. -/
theorem witness_FlippedPayloadRejected_speech :
    (List.replicate 260 false).length = 260 ∧ 49 < 50 ∧
    DifferAt 49 (List.replicate 260 false) ((List.replicate 260 false).set 49 true) ∧
    ∃ s : State, s.softE = softAll (blockBursts .t8
      (speechCoded ((List.replicate 260 false).set 49 true)
        (crcGen .crc3 ((List.replicate 260 false).take 50))) (tchFlags false)) :=
  ⟨List.length_replicate, by decide, ⟨by decide +kernel, by decide +kernel⟩, _,
    State.setSoftE_softE State.reset _⟩

/-- Of 65 protected bits sent by a permutation, four sent three times and fifty under the 3-bit
checksum, one is neither. -/
theorem protected_exists (e : EfrMap) (h : e.wf = true) :
    ∃ j k : Nat, 50 ≤ j ∧ e.order[j]? = some k ∧ k ∈ e.prot ∧ k ∉ e.rep := by
  simp only [EfrMap.wf, Bool.and_eq_true, decide_eq_true_eq, List.all_eq_true] at h
  obtain ⟨⟨⟨⟨⟨⟨hp, hr⟩, hlt⟩, -⟩, hnp⟩, -⟩, hperm⟩ := h
  apply Classical.byContradiction
  intro hno
  have hsub : e.prot ⊆ e.rep ++ e.order.take 50 := by
    intro k hk
    have hmem : k ∈ e.order := hperm.mem_iff.mpr (List.mem_range.mpr (by have := hlt k hk; omega))
    obtain ⟨j, hj, rfl⟩ := List.mem_iff_getElem.mp hmem
    rw [List.mem_append]
    by_cases hrep : e.order[j] ∈ e.rep
    · exact Or.inl hrep
    · refine Or.inr (List.mem_iff_getElem.mpr ?_)
      by_cases h50 : j < 50
      · exact ⟨j, by simp; omega, by simp⟩
      · exact absurd ⟨j, e.order[j], by omega, by simp, hk, hrep⟩ hno
  have hle := (List.subperm_of_subset hnp hsub).length_le
  simp [hp, hr] at hle
  omega

/-- A protected bit of the instance's EFR frames. -/
theorem witness_FlippedPayloadRejected_efr : ∃ (d' : List UBit) (j k : Nat) (s : State),
    (List.replicate 31 (0 : Byte)).length = 31 ∧
    DifferAt j (speechBits Config.inst .efr (List.replicate 31 0)) d' ∧ 50 ≤ j ∧
    Config.inst.efrMap.order[j]? = some k ∧ k ∈ Config.inst.efrMap.prot ∧
    k ∉ Config.inst.efrMap.rep ∧
    s.softE = softAll (blockBursts .t8
      (speechCoded d' (crcGen .crc3 ((speechBits Config.inst .efr (List.replicate 31 0)).take 50)))
      (tchFlags false)) := by
  obtain ⟨j, k, h50, hk, hp, hr⟩ := protected_exists Config.inst.efrMap Config.model.wf.efrMap
  refine ⟨_, j, k, State.reset.setSoftE _, rfl, ⟨?_, rfl⟩, h50, hk, hp, hr, State.setSoftE_softE _ _⟩
  obtain ⟨hj, -⟩ := List.getElem?_eq_some_iff.mp hk
  simpa [speechBits, pick] using hj

/-- The last bit under the AMR checksum of mode 0, in the least instance. -/
theorem witness_FlippedPayloadRejected_amr : ∃ (d d' c : List UBit) (j : Nat) (s : State),
    Params.least.WF ∧ (0 : BitVec 3).toNat < nIc Params.least ∧ s.wamr.ft.toNat < s.wamr.n.toNat ∧
    (0 : BitVec 3).toNat < s.wamr.n.toNat ∧ 0 = listAt s.wamr.list (0 : BitVec 3).toNat ∧
    d.length = (afsMode 0).bits ∧ DifferAt j d d' ∧ j < (afsMode 0).n1a ∧ (afsMode 0).n1a ≤ j + 1 ∧
    c = Params.least.afsIc.rows.getD (0 : BitVec 3).toNat [] ++
      afsEncode (afsCodeOf Params.least 0).1 (afsCodeOf Params.least 0).2
        (d'.take (afsMode 0).n1a ++ crcGen .crc6 (d.take (afsMode 0).n1a) ++
          d'.drop (afsMode 0).n1a) ∧
    (afsSoft Params.least 0 (softAll c)).length ≤ 1024 ∧
    s.softE = softAll (blockBursts .t8 c (tchFlags false)) := by
  refine ⟨List.replicate (afsMode 0).bits false,
    (List.replicate (afsMode 0).bits false).set ((afsMode 0).n1a - 1) true, _, (afsMode 0).n1a - 1,
    { State.reset.setSoftE _ with wamr := { n := 1, list := Vector.replicate 8 0, ft := 0, cmr := 0 } },
    Params.least_wf, by decide, by decide, by decide, by decide, by simp,
    ⟨by decide +kernel, by decide +kernel⟩, by decide, by decide, rfl, by decide +kernel,
    State.setSoftE_softE _ _⟩

theorem witness_PdtchEncResult :
    schemeOfLen (zeroPdu 23).mem.pdu.len = some .cs1 ∧ schemeOfLen (zeroPdu 34).mem.pdu.len = some .cs2 ∧
    schemeOfLen (zeroPdu 40).mem.pdu.len = some .cs3 ∧ schemeOfLen (zeroPdu 54).mem.pdu.len = some .cs4 ∧
    (zeroPdu 53).mem.pdu.len ∉ [23, 34, 40, 54] := by decide

theorem witness_PdtchRoundTrip : schemeOfLen (pattern 34).length = some .cs2 ∧
    (State.reset.setSoftE (softAll (blockBursts .x4 (packetCoded .cs2 (pattern 34))
      Scheme.cs2.header))).softE =
      softAll (blockBursts .x4 (packetCoded .cs2 (pattern 34)) Scheme.cs2.header) :=
  ⟨rfl, State.setSoftE_softE _ _⟩

/-- A PDU without spare bits set. -/
theorem witness_PdtchRoundTrip_spare : ∀ j, Scheme.cs4.np ≤ j → j < 8 * (zeroPdu 54).pdu.length →
    bitAt .lsb (zeroPdu 54).pdu j = false := by
  intro j _ hj
  have h : ∀ k : Fin 432, bitAt .lsb (zeroPdu 54).pdu k.val = false := by decide +kernel
  exact h ⟨j, hj⟩

/-- The longest legal records of `AMR.CFG`, `SET.MODE` and `SET.CIPHER`. -/
theorem witness_MailboxCommands :
    ((withPrm (8 :: List.replicate 10 7)).prmAt 0).toNat ≤ 8 ∧
    (∀ k, k < 8 → ((withPrm (8 :: List.replicate 10 7)).prmAt (1 + k)).toNat ≤ 7) ∧
    ((withPrm (8 :: List.replicate 10 7)).prmAt 9).toNat ≤ 7 ∧
    ((withPrm (8 :: List.replicate 10 7)).prmAt 10).toNat ≤ 7 ∧
    ((withPrm ([0, 3, 8] ++ List.replicate 10 7)).prmAt 1).toNat ≤ 3 ∧
    ((withPrm ([0, 3, 8] ++ List.replicate 10 7)).prmAt 2).toNat ≤ 8 ∧
    (∀ k, k < 8 → ((withPrm ([0, 3, 8] ++ List.replicate 10 7)).prmAt (3 + k)).toNat ≤ 7) ∧
    ((withPrm ([0, 3, 8] ++ List.replicate 10 7)).prmAt 11).toNat ≤ 7 ∧
    ((withPrm ([0, 3, 8] ++ List.replicate 10 7)).prmAt 12).toNat ≤ 7 ∧
    ((withPrm [15]).prmAt 0).toNat ≤ 15 ∧
    (6 : Chan) ≠ chIdle ∧ dlFamily 6 ≠ .unsupp ∧ ulFamily 6 ≠ .unsupp := by decide +kernel

/-- One malformed field each, and channels without modes. -/
theorem witness_MailboxCommands_errors :
    8 < ((withPrm [9]).prmAt 0).toNat ∧ 7 < ((withPrm [0, 0, 8]).prmAt (1 + 1)).toNat ∧
    7 < ((withPrm (List.replicate 11 8)).prmAt 10).toNat ∧ 3 < ((withPrm [0, 4]).prmAt 1).toNat ∧
    15 < ((withPrm [16]).prmAt 0).toNat ∧ (0 : Chan) = chIdle ∧ dlFamily 7 = .unsupp ∧
    ulFamily 8 = .unsupp := by decide +kernel

theorem witness_TchfrEncResult : (zeroPdu 23).mem.pdu.len = 23 ∧ (zeroPdu 33).mem.pdu.len = speechLen .fr ∧
    (zeroPdu 31).mem.pdu.len = speechLen .efr ∧ (zeroPdu 31).mem.pdu.len ≠ 23 ∧
    (zeroPdu 31).mem.pdu.len ≠ speechLen .fr := by decide

theorem witness_TchfrRoundTrip : ((pattern 33).set 0 0xD5).length = speechLen .fr ∧
    (((pattern 33).set 0 0xD5).getD 0 0).extractLsb' 4 4 = 0xD#4 ∧
    ((pattern 31).set 0 0xC5).length = speechLen .efr ∧
    (((pattern 31).set 0 0xC5).getD 0 0).extractLsb' 4 4 = 0xC#4 := by decide

theorem witness_TchfrRoundTrip_block (d p : List UBit) :
    (State.reset.setSoftE (softAll (blockBursts .t8 (speechCoded d p) (tchFlags false)))).softE =
      softAll (blockBursts .t8 (speechCoded d p) (tchFlags false)) := State.setSoftE_softE _ _

theorem witness_StolenRoundTrip : fillBlock.length = 23 ∧
    (State.reset.setSoftE (softAll (blockBursts .t8 (controlCoded fillBlock) (tchFlags true)))).softE =
      softAll (blockBursts .t8 (controlCoded fillBlock) (tchFlags true)) :=
  ⟨rfl, State.setSoftE_softE _ _⟩

/-- A state with codec list `[3, 7]`, frame-type index `ft` and mode-request index `cmr`. -/
def withModes (ft cmr : BitVec 3) (bytes : Nat) : State :=
  { zeroPdu bytes with wamr := { n := 2, list := #v[3, 7, 0, 0, 0, 0, 0, 0], ft := ft, cmr := cmr } }

/-- The instance has an in-band pattern. -/
theorem pattern_exists : 0 < nIc Config.inst := by
  have h := Config.model.wf.afsIc
  simp only [AfsIc.wf, Bool.and_eq_true, decide_eq_true_eq] at h
  exact h.1.1.2.2.1

theorem witness_TchafsEncResult : (zeroPdu 23).mem.pdu.len = 23 ∧ (withModes 0 0 17).mem.pdu.len ≠ 23 ∧
    (withModes 0 0 17).wamr.ft.toNat < (withModes 0 0 17).wamr.n.toNat ∧
    (withModes 0 0 17).wamr.ft.toNat < nIc Config.inst ∧
    listAt (withModes 0 0 17).wamr.list (withModes 0 0 17).wamr.ft.toNat = 3 ∧
    (withModes 0 0 17).mem.pdu.len = (afsMode 3).bytes ∧
    (withModes 0 0 18).mem.pdu.len ≠ (afsMode 3).bytes ∧
    (withModes 2 0 17).wamr.n.toNat ≤ (withModes 2 0 17).wamr.ft.toNat ∧
    (withModes 1 2 17).wamr.ft.toNat < (withModes 1 2 17).wamr.n.toNat ∧
    (withModes 1 2 17).wamr.n.toNat ≤ (withModes 1 2 17).wamr.cmr.toNat :=
  ⟨by decide, by decide, by decide, pattern_exists, by decide, by decide, by decide, by decide,
    by decide, by decide⟩

/-- The clean block of mode 0 and index 0 in the least instance, for a decoder with the codec list of `n`
modes. -/
def amrBlock (n : BitVec 4) : State :=
  { State.reset.setSoftE (softAll (blockBursts .t8 (afsCoded Params.least 0 0
      (unpackMsb (List.replicate 12 0) (afsMode 0).bits)) (tchFlags false))) with
    wamr := { n := n, list := Vector.replicate 8 0, ft := 0, cmr := 0 } }

/-- A decoder with one mode, and one with none. -/
theorem witness_TchafsRoundTrip : Params.least.WF ∧ (0 : BitVec 3).toNat < nIc Params.least ∧
    (amrBlock 1).softE = softAll (blockBursts .t8 (afsCoded Params.least 0 (0 : BitVec 3).toNat
      (unpackMsb (List.replicate 12 0) (afsMode 0).bits)) (tchFlags false)) ∧
    (afsSoft Params.least 0 (softAll (afsCoded Params.least 0 (0 : BitVec 3).toNat
      (unpackMsb (List.replicate 12 0) (afsMode 0).bits)))).length ≤ 1024 ∧
    (amrBlock 1).wamr.ft.toNat < (amrBlock 1).wamr.n.toNat ∧
    (0 : BitVec 3).toNat < (amrBlock 1).wamr.n.toNat ∧ (0 : BitVec 3) = (amrBlock 1).wamr.ft ∧
    (0 : BitVec 3) = listAt (amrBlock 1).wamr.list (amrBlock 1).wamr.ft.toNat ∧
    (List.replicate 12 (0 : Byte)).length = (afsMode 0).bytes ∧
    (amrBlock 0).wamr.n.toNat ≤ (0 : BitVec 3).toNat :=
  ⟨Params.least_wf, by decide, State.setSoftE_softE _ _, by decide +kernel, by decide, by decide, rfl,
    by decide, by decide, by decide⟩

/-- The clean block of mode 7 in the least instance, whose de-punctured bits do not fit `CS_`, for a
decoder with that one mode. -/
def wideBlock : State :=
  { State.reset.setSoftE (softAll (blockBursts .t8 (afsCoded Params.least 7 0
      (unpackMsb (List.replicate 31 0) (afsMode 7).bits)) (tchFlags false))) with
    wamr := { n := 1, list := Vector.replicate 8 7, ft := 0, cmr := 0 } }

theorem witness_TchafsRoundTrip_wide : Params.least.WF ∧ (0 : BitVec 3).toNat < nIc Params.least ∧
    wideBlock.softE = softAll (blockBursts .t8 (afsCoded Params.least 7 (0 : BitVec 3).toNat
      (unpackMsb (List.replicate 31 0) (afsMode 7).bits)) (tchFlags false)) ∧
    wideBlock.wamr.ft.toNat < wideBlock.wamr.n.toNat ∧
    (0 : BitVec 3).toNat < wideBlock.wamr.n.toNat ∧ (0 : BitVec 3) = wideBlock.wamr.ft ∧
    (0 : BitVec 3) = wideBlock.wamr.cmr ∧
    7 = listAt wideBlock.wamr.list wideBlock.wamr.ft.toNat ∧
    1250 = (afsSoft Params.least 7 (softAll (afsCoded Params.least 7 (0 : BitVec 3).toNat
      (unpackMsb (List.replicate 31 0) (afsMode 7).bits)))).length ∧ 1024 < 1250 :=
  ⟨Params.least_wf, by decide, State.setSoftE_softE _ _, by decide, by decide, rfl, rfl, by decide,
    by decide +kernel, by decide⟩

/-- A block of zeros for that mode: the decoder stops before anything is written. -/
theorem test_tchafsDec_wide :
    let t := after (execIn Params.least (.tchafsDec .cmi)
      (wideBlock.setSoftE (List.replicate 928 (SBit.soft false))))
    t.stat = { code := 2, aux := 1250 } ∧ t.mem.cs.len = 0 ∧ t.res = Res.zero := by decide +kernel

/-- The decoder holds index 1 and the block carries index 0, in both phases. -/
theorem witness_TchafsRoundTrip_update : ∃ s : State, (0 : BitVec 3).toNat < nIc Params.least ∧
    s.softE = softAll (blockBursts .t8 (afsCoded Params.least 0 (0 : BitVec 3).toNat
      (unpackMsb (List.replicate 12 0) (afsMode 0).bits)) (tchFlags false)) ∧
    (0 : BitVec 3).toNat < s.wamr.n.toNat ∧ s.wamr.ft.toNat < s.wamr.n.toNat ∧ s.wamr.ft ≠ 0 ∧
    s.wamr.cmr ≠ 0 ∧ 0 = listAt s.wamr.list (0 : BitVec 3).toNat ∧
    0 = listAt s.wamr.list s.wamr.ft.toNat :=
  ⟨{ amrBlock 2 with wamr := { n := 2, list := Vector.replicate 8 0, ft := 1, cmr := 1 } }, by decide,
    State.setSoftE_softE _ _, by decide, by decide, by decide, by decide, by decide, by decide⟩

/-- A block of erasures: the only pattern is the nearest; with a list of one mode the index 0 is in range
and the held frame type 1 is not; with none no index is. -/
theorem witness_TchafsRoundTrip_any (n : BitVec 4) (h : n ∈ [0#4, 1#4]) : ∃ (s : State) (dist : Nat),
    Params.least.WF ∧ s.mem.es.len = 928 ∧ s.softE = List.replicate 928 SBit.zero ∧
    NearestIs (Params.least.afsIc.rows.map fun p => softDist p
      ((deinterleave .t8 (unmapBits 8 s.softE)).take (wIc Params.least))) ((0 : BitVec 3).toNat, dist) ∧
    (s.wamr.n.toNat ≤ (0 : BitVec 3).toNat ∨ (Phase.cmr = .cmr ∧ s.wamr.n.toNat ≤ s.wamr.ft.toNat)) ∧
    (n = 1 → (0 : BitVec 3).toNat < s.wamr.n.toNat) := by
  refine ⟨{ State.reset.setSoftE (List.replicate 928 SBit.zero) with
    wamr := { n := n, list := Vector.replicate 8 0, ft := 1, cmr := 0 } }, _, Params.least_wf, ?_,
    State.setSoftE_softE _ _, ⟨rfl, ?_, ?_⟩, ?_, ?_⟩
  · exact List.length_replicate
  · intro d hd
    have hrows : Params.least.afsIc.rows = [List.replicate 8 false] := rfl
    rw [hrows, List.map_singleton, List.mem_singleton] at hd
    exact Nat.le_of_eq hd.symm
  · intro i d hi
    exact absurd hi (Nat.not_lt_zero i)
  · revert h
    revert n
    decide
  · intro hn
    subst hn
    decide

theorem witness_BsicAndAttenuation : Word.op 0x4A400000#32 = 0x4A ∧ 63 < (Word.a 0x4A400000#32).toNat ∧
    Word.n 0x4A000001#32 ≠ 0 ∧ Word.op 0x47080000#32 = 0x47 ∧ 7 < (Word.a 0x47080000#32).toNat ∧
    Word.c 0x47000001#32 ≠ 0 ∧ (6 : Tn) ≠ 7 := by decide

theorem witness_SetPchanResult :
    (0 : BitVec 4).toNat < npchan Config.inst ∧ (1 : Tn) ≠ 0 :=
  ⟨Nat.succ_pos _, by decide⟩

theorem witness_ChActResult : onSdcch.layout bench 0 = some (loop 13 4) ∧ targets 13 .main ≠ [] ∧
    (13 : Chan) ≠ chIdle ∧ ∀ x ∈ targets 13 .main, dlFamily x ≠ .unsupp ∧ ulFamily x ≠ .unsupp ∧
      ∃ y ∈ (loop 13 4).slots, y.dlChan = x ∨ y.ulChan = x := by decide +kernel

/-- Each reason of R262 alone: no layout, no target, the idle channel, a channel without codec, a target
outside the layout. -/
theorem witness_ChActResult_errors : (onSdcch.ts.get 1).pchan = 0 ∧ targets 13 .sacch = [28] ∧
    targets 36 .sacch = [] ∧ dlFamily 7 = .unsupp ∧
    ∀ y ∈ (loop 13 4).slots, y.dlChan ≠ 28 ∧ y.ulChan ≠ 28 := by decide +kernel

theorem witness_ChDeactResult : targets 13 .all ≠ [] ∧ targets 36 .sacch = [] ∧
    ¬((0 : Tn) = 0 ∧ (36 : Chan) ∈ targets 13 .all) := by decide

/-- The instance's queues have room for one element. -/
theorem room : 0 < Config.inst.qdepth := Config.model.wf.qdepth

theorem witness_PduEnqResult : (onSdcch.ts.get 0).pchan ≠ 0 ∧ dlFamily 13 ∈ [.xcch, .pdtch, .tch] ∧
    (onSdcch.queue 0 13).length < Config.inst.qdepth ∧ (onSdcch.ts.get 1).pchan = 0 ∧
    dlFamily 4 ∉ [.xcch, .pdtch, .tch] ∧
    Config.inst.qdepth ≤ ((onSdcch.setQueue 0 13
      (List.replicate Config.inst.qdepth { bytes := [], aux := 0 })).queue 0 13).length := by
  refine ⟨by decide, by decide, ?_, by decide, by decide, by simp⟩
  have h : onSdcch.queue 0 13 = [] := by decide +kernel
  rw [h]
  exact room

/-- `FN` is `fn` and valid. -/
def atFrame (fn : Fn) (s : State) : State := { s with fn := fn, fnValid := true }

theorem witness_TickClock : State.reset.ClockOk 0x3FFFFF ∧ (atFrame 2715647 State.reset).ClockOk 0 ∧
    ¬(atFrame 2715647 State.reset).ClockOk 2715647 ∧ (∀ tn : Tn, (State.reset.ts.get tn).pchan = 0) ∧
    ∃ t, exec (.tick 0) (atFrame 2715647 State.reset) = .next t := by
  refine ⟨Or.inl rfl, Or.inr (by decide), ?_, by decide, ⟨_, rfl⟩⟩
  unfold State.ClockOk
  decide

theorem witness_TickReadyToSend : ∃ t, execIn bench (.tick 2) onSdcch = .next t := ⟨_, rfl⟩

/-- Timeslot 1 runs FCCH, SCH and RACH, `LAYOUT[3]`. -/
def onBeacon : State := State.reset.setTs 1 { pchan := 3, tsc := 0, att := 7 }

theorem witness_TickBursts_beacon : onBeacon.ClockOk 0 ∧ onBeacon.OnlySlot 1 ∧
    (onBeacon.layout bench 1).map (fun l => (l.slot 0).dlChan) = some 1 ∧ dlFamily 1 = .fcch ∧
    (onBeacon.layout bench 1).map (fun l => (l.slot 1).dlChan) = some 2 ∧ dlFamily 2 = .sch := by
  refine ⟨Or.inl rfl, ?_, by decide, by decide, by decide, by decide⟩
  unfold State.OnlySlot
  decide

/-- A block is being sent on the channel. -/
def sending : State := onSdcch.setChan 0 13
  { ChanState.zero with active := true, dlAlloc := true, dlBuf := List.replicate 464 true }

/-- A middle burst after the wrap of the hyperframe, and the last burst. -/
theorem witness_TickBursts_block : (atFrame 2715646 sending).ClockOk 2715647 ∧ sending.OnlySlot 0 ∧
    sending.layout bench 0 = some (loop 13 4) ∧ ((loop 13 4).slot 2715647).dlChan = 13 ∧
    ((loop 13 4).slot 2715647).dlBid = 3 ∧ 3 + 1 = nbDl 13 ∧ ((loop 13 4).slot 1).dlBid = 1 ∧
    dlFamily 13 ∈ [.xcch, .pdtch, .tch] ∧ sending.isActive 0 13 = true ∧
    (sending.chan 0 13).dlAlloc = true ∧ (sending.chan 0 13).ciphDl.algo = 0 ∧
    (sending.chan 0 13).dlBuf.length = 116 * nbDl 13 := by
  refine ⟨Or.inr (by decide), ?_, by decide +kernel, by decide, by decide, by decide, by decide,
    by decide, by decide +kernel, by decide +kernel, by decide +kernel, by decide +kernel⟩
  unfold State.OnlySlot
  decide +kernel

/-- A block start with a queued block, with a queued element of 22 bytes, with an empty queue; with and
without memory. -/
theorem witness_TickBlockStart : onSdcch.ClockOk 2715644 ∧ onSdcch.OnlySlot 0 ∧
    onSdcch.layout bench 0 = some (loop 13 4) ∧ onSdcch.layout poor 0 = some (loop 13 4) ∧
    ((loop 13 4).slot 2715644).dlChan = 13 ∧ ((loop 13 4).slot 2715644).dlBid = 0 ∧
    dlFamily 13 = .xcch ∧ onSdcch.isActive 0 13 = true ∧ (onSdcch.chan 0 13).ciphDlP.algo = 0 ∧
    (onSdcch.setQueue 0 13 [{ bytes := fillBlock, aux := 0 }]).queue 0 13 =
      [{ bytes := fillBlock, aux := 0 }] ∧
    fillBlock.length = 23 ∧ (fillBlock.drop 1).length ≠ 23 ∧ onSdcch.queue 0 13 = [] ∧
    bench.filler 13 (onSdcch.chan 0 13).modeP = none ∧ bench.allocOk onSdcch.allocs = true ∧
    poor.allocOk onSdcch.allocs = false := by
  refine ⟨Or.inl rfl, ?_, by decide +kernel, by decide +kernel, by decide, by decide, by decide,
    by decide +kernel, by decide +kernel, State.setQueue_queue _ _ _ _, by decide, by decide,
    by decide +kernel, rfl, rfl, rfl⟩
  unfold State.OnlySlot
  decide

/-- The bench with a filler of 23 bytes, and with one of 22. -/
def filled (n : Nat) : Params := { bench with filler := fun _ _ => some { bytes := fillBlock.take n, aux := 0 } }

/-- The queue of SDCCH/8(0) holds a block of `n` bytes. -/
def queued (n : Nat) : State := onSdcch.setQueue 0 13 [{ bytes := fillBlock.take n, aux := 0 }]

theorem queued_queue (n : Nat) : (queued n).queue 0 13 = [{ bytes := fillBlock.take n, aux := 0 }] :=
  State.setQueue_queue _ _ _ _

/-- A control block fits exactly at 23 bytes. -/
theorem fits (P : Params) (mode : Mode) (fn : Fn) (x : QElem) :
    PduFits P 13 mode fn x ↔ x.bytes.length = 23 := Iff.rfl

/-- Every case of what a block start has to send. -/
theorem witness_TickBlockStart_offered :
    (queued 23).Offered bench 0 13 2715644 (some { bytes := fillBlock, aux := 0 }) false [] ∧
    onSdcch.Offered (filled 23) 0 13 2715644 (some { bytes := fillBlock, aux := 0 }) false [] ∧
    onSdcch.Offered bench 0 13 2715644 none false [] ∧
    (queued 22).Offered (filled 23) 0 13 2715644 (some { bytes := fillBlock, aux := 0 }) true [] ∧
    (queued 22).Offered bench 0 13 2715644 none true [] ∧
    (queued 22).Offered (filled 22) 0 13 2715644 none true [] ∧
    onSdcch.Offered (filled 22) 0 13 2715644 none true [] :=
  have h0 : onSdcch.queue 0 13 = [] := by decide +kernel
  have h22 : ¬(fillBlock.take 22).length = 23 := by decide
  ⟨.queued _ _ (queued_queue 23) rfl, .filler _ h0 rfl rfl, .nothing h0 rfl,
    .replaced _ _ _ (queued_queue 22) h22 rfl rfl, .dropped _ _ (queued_queue 22) h22 nofun,
    .dropped _ _ (queued_queue 22) h22 (fun y h => by cases h; exact h22), .unfit _ h0 rfl h22⟩

/-- Timeslot 0 runs configuration `pchan` with channel `ch` active in mode `mode`. -/
def activeOn (pchan : BitVec 4) (ch : Chan) (mode : Mode) : State :=
  (State.reset.setTs 0 { pchan := pchan, tsc := 0, att := 0 }).setChan 0 ch
    { ChanState.zero with active := true, modeP := mode }

/-- The AMR mode with codec list `[3, 7]`. -/
def amrMode : Mode :=
  { rslCmode := 0, tchMode := .amr, amrN := 2, amrList := #v[3, 7, 0, 0, 0, 0, 0, 0] }

/-- A packet-data block start with the longest PDU, and a speech block start of the second mode of the
list, with the first as the request. -/
theorem witness_TickBlockStart_families :
    ((activeOn 4 36 Mode.zero).layout bench 0).map (fun l => (l.slot 2715644).dlChan) = some 36 ∧
    ((activeOn 4 36 Mode.zero).layout bench 0).map (fun l => (l.slot 2715644).dlBid) = some 0 ∧
    dlFamily 36 = .pdtch ∧ (activeOn 4 36 Mode.zero).isActive 0 36 = true ∧
    (activeOn 4 36 Mode.zero).ClockOk 2715644 ∧ (activeOn 4 36 Mode.zero).OnlySlot 0 ∧
    ((activeOn 4 36 Mode.zero).setQueue 0 36 [{ bytes := pattern 54, aux := 0 }]).Offered bench 0 36
      2715644 (some { bytes := pattern 54, aux := 0 }) false [] ∧
    ((activeOn 2 6 amrMode).layout bench 0).map (fun l => (l.slot 8).dlChan) = some 6 ∧
    ((activeOn 2 6 amrMode).layout bench 0).map (fun l => (l.slot 8).dlBid) = some 0 ∧
    dlFamily 6 = .tch ∧ (activeOn 2 6 amrMode).isActive 0 6 = true ∧
    (activeOn 2 6 amrMode).ClockOk 8 ∧ (activeOn 2 6 amrMode).OnlySlot 0 ∧
    isAmrSpeech 6 amrMode { bytes := pattern 31, aux := 1 } = true ∧
    ((activeOn 2 6 amrMode).setQueue 0 6 [{ bytes := pattern 31, aux := 1 }]).Offered bench 0 6 8
      (some { bytes := pattern 31, aux := 1 }) false [] := by
  have hp : PduFits bench 36 Mode.zero 2715644 { bytes := pattern 54, aux := 0 } := by
    show (pattern 54).length ∈ [23, 34, 40, 54]
    decide
  have ha : PduFits bench 6 amrMode 8 { bytes := pattern 31, aux := 1 } :=
    Or.inr (Or.inr (Or.inr ⟨rfl, by decide, by decide, by decide, by decide⟩))
  have h1 : ((activeOn 4 36 Mode.zero).chan 0 36).modeP = Mode.zero := by decide +kernel
  have h2 : ((activeOn 2 6 amrMode).chan 0 6).modeP = amrMode := by decide +kernel
  refine ⟨by decide +kernel, by decide +kernel, by decide, by decide +kernel, Or.inl rfl, ?_,
    .queued _ _ (State.setQueue_queue _ _ _ _) ?_, by decide +kernel, by decide +kernel, by decide,
    by decide +kernel, Or.inl rfl, ?_, by decide, .queued _ _ (State.setQueue_queue _ _ _ _) ?_⟩
  · unfold State.OnlySlot
    decide +kernel
  · exact h1.symm ▸ hp
  · unfold State.OnlySlot
    decide +kernel
  · exact h2.symm ▸ ha

/-- Timeslots 0 and 1 begin a block of SDCCH/8(0) each, timeslot 2 sends a synchronisation burst, and
timeslot 3 has no active channel. -/
def busy : State :=
  ((((onSdcch.setQueue 0 13 [{ bytes := fillBlock, aux := 0 }]).setTs 1 { pchan := 1, tsc := 3, att := 2 }).setChan
    1 13 { ChanState.zero with active := true }).setTs 2 { pchan := 3, tsc := 0, att := 0 }).setTs 3
      { pchan := 1, tsc := 0, att := 0 }

/-- Several configured timeslots, in a frame in which the even positions of the layouts begin a block. -/
theorem witness_Tick_several : busy.ClockOk 0 ∧ ¬busy.OnlySlot 1 ∧
    busy.layout bench 1 = some (loop 13 4) ∧ ((loop 13 4).slot 0).dlBid = 0 ∧
    busy.isActive 1 13 = true ∧ (busy.layout bench 2).map (fun l => dlFamily (l.slot 1).dlChan) = some .sch ∧
    busy.isActive 3 13 = false ∧ (busy.ts.get 4).pchan = 0 ∧ dlFamily 0 = .none := by
  refine ⟨Or.inl rfl, ?_, by decide +kernel, by decide, by decide +kernel, by decide +kernel,
    by decide +kernel, by decide +kernel, by decide⟩
  unfold State.OnlySlot
  decide +kernel

/-- Timeslot 0 asks the oracle before timeslot 1 does. -/
theorem witness_TickBlockStart_before : [(0 : Tn)].Nodup ∧ ([] : List Tn).Nodup ∧
    (∀ k : Tn, k ∈ [(0 : Tn)] ↔ k.val < (1 : Tn).val ∧ busy.Asks bench 0 k) ∧
    ∀ k : Tn, k ∈ ([] : List Tn) ↔ k.val < (0 : Tn).val ∧ busy.Asks bench 0 k := by
  have hq : busy.queue 0 13 = [{ bytes := fillBlock, aux := 0 }] := by decide +kernel
  have ha : busy.Asks bench 0 0 := ⟨loop 13 4, { bytes := fillBlock, aux := 0 }, false, [],
    by decide +kernel, by decide, by decide, by decide +kernel, .queued _ _ hq rfl⟩
  refine ⟨by decide, by decide, ?_, ?_⟩
  · intro k
    constructor
    · intro hk
      rw [List.mem_singleton] at hk
      subst hk
      exact ⟨by decide, ha⟩
    · rintro ⟨hk, -⟩
      rw [List.mem_singleton]
      exact Fin.ext (by have : k.val < 1 := hk; omega)
  · intro k
    constructor
    · intro hk
      cases hk
    · rintro ⟨hk, -⟩
      exact absurd hk (Nat.not_lt_zero _)

/-- A later burst of a block whose start was missed. -/
theorem witness_TickBursts_missed : ((loop 13 4).slot 3).dlBid ≠ 0 ∧ onSdcch.isActive 0 13 = true ∧
    (onSdcch.chan 0 13).dlAlloc = false ∧ (onSdcch.chan 0 13).dlBuf = [] := by decide +kernel

/-! #### Receive -/

/-- What R270 (1) refuses, each check alone, at the ends of the ranges. -/
theorem witness_RxTurnedAway_malformed : HYPER ≤ (heard 2715648 0 []).fn.toNat ∧
    (heard 2715647 0 []).fn.toNat < HYPER ∧ { heard 0 0 [] with nbits := 147 }.nbits.toNat ≠ 148 ∧
    { heard 0 0 [] with nbits := 147 }.nbits.toNat ≠ 444 ∧
    { heard 0 0 [] with nbits := 444 }.nbits.toNat = 444 ∧
    { heard 0 0 [] with present := 1, mod := true }.present.getLsbD 0 = true ∧
    { heard 0 0 [] with present := 1, mod := true }.mod = true := by decide +kernel

/-- `s` hears `r`. -/
def hears (s : State) (r : RxInd) : State := { s with rxind := r }

/-- A burst of 148 positions on timeslot 0 is routed to the channel of the bench layout. -/
theorem routed (s : State) (fn : Fn) (bits : List SBit) (P : Params) (bid : Fin 8)
    (hl : s.layout P 0 = some (loop 13 4)) (hfn : fn.toNat < HYPER)
    (hc : ((loop 13 4).slot fn.toNat).ulChan = 13) (hb : ((loop 13 4).slot fn.toNat).ulBid = bid) :
    (hears s (heard fn 0 bits)).RoutedTo P (loop 13 4) 13 bid :=
  ⟨⟨hfn, rfl, by simp [hears, heard, RxInd.eightLevel, RxInd.zero]⟩, hl, hc, hb⟩

theorem onSdcch_layout (P : Params) (h : P.layouts = bench.layouts) : onSdcch.layout P 0 = some (loop 13 4) := by
  have h1 : (onSdcch.ts.get 0).pchan = 1 := by decide
  simp [State.layout, layoutOf, h1, h, bench]

/-- No consumer, no synchronisation, no memory; and an unconfigured timeslot. -/
theorem witness_RxTurnedAway : (hears onSdcch (heard 9 0 [])).RoutedTo poor (loop 13 4) 13 1 ∧
    (hears onSdcch (heard 8 0 [])).RoutedTo poor (loop 13 4) 13 0 ∧
    ulFamily 13 ∈ [.xcch, .pdtch, .tch] ∧ onSdcch.isActive 0 13 = true ∧
    (onSdcch.chan 0 13).ulSync = false ∧ (onSdcch.chan 0 13).ulAlloc = false ∧
    poor.allocOk onSdcch.allocs = false ∧
    (onSdcch.setChan 0 13 ChanState.zero).isActive 0 13 = false ∧ ulFamily 3 = .none ∧
    (State.reset.ts.get 0).pchan = 0 ∧ (heard 0 0 []).Accepted :=
  ⟨routed _ _ _ _ _ (onSdcch_layout _ rfl) (by decide) (by decide) (by decide),
    routed _ _ _ _ _ (onSdcch_layout _ rfl) (by decide) (by decide) (by decide),
    by decide, by decide +kernel, by decide +kernel, by decide +kernel, rfl, by decide +kernel,
    by decide, by decide, ⟨by decide, rfl, rfl⟩⟩

/-- A channel that has received the bursts of `mask` of the block that began in frame `f0`. -/
def receiving (mask : Byte) (f0 : Fn) (buf : List SBit) : ChanState :=
  { ChanState.zero with
    active := true, ulAlloc := true, ulSync := true, ulMask := mask, ulFirstFn := f0, ulBuf := buf }

/-- The machine with that channel. -/
def onBlock (mask : Byte) (f0 : Fn) (buf : List SBit) : State :=
  onSdcch.setChan 0 13 (receiving mask f0 buf)

theorem onBlock_layout (P : Params) (h : P.layouts = bench.layouts) (mask : Byte) (f0 : Fn)
    (buf : List SBit) : (onBlock mask f0 buf).layout P 0 = some (loop 13 4) := onSdcch_layout P h

/-- The first burst of a block into a new buffer; the same over an abandoned block; and the third burst of
a block of which the first was received, at the end of the hyperframe. -/
theorem witness_RxStoresBurst : (hears onSdcch (heard 8 0 [])).RoutedTo bench (loop 13 4) 13 0 ∧
    (onSdcch.chan 0 13).ulMask = 0 ∧ bench.allocOk onSdcch.allocs = true ∧
    (onSdcch.chan 0 13).ulBuf.length = 0 ∧ 0 + 1 < nbUl 13 ∧
    (hears (onBlock 1 4 (List.replicate 928 SBit.zero)) (heard 8 0 [])).RoutedTo bench (loop 13 4) 13 0 ∧
    ((onBlock 1 4 (List.replicate 928 SBit.zero)).chan 0 13).ulMask ≠ 0 ∧
    ((onBlock 1 4 (List.replicate 928 SBit.zero)).chan 0 13).ulBuf.length = 928 ∧
    (hears (onBlock 1 2715644 (List.replicate 928 SBit.zero)) (heard 2715646 0 [])).RoutedTo bench
      (loop 13 4) 13 2 ∧
    ((onBlock 1 2715644 (List.replicate 928 SBit.zero)).chan 0 13).ulFirstFn =
      State.rxFirst (hears (onBlock 1 2715644 (List.replicate 928 SBit.zero)) (heard 2715646 0 []))
        (loop 13 4) :=
  ⟨routed _ _ _ _ _ (onSdcch_layout _ rfl) (by decide) (by decide) (by decide), by decide +kernel, rfl,
    by decide +kernel, by decide,
    routed _ _ _ _ _ (onBlock_layout _ rfl _ _ _) (by decide) (by decide) (by decide),
    by decide +kernel, by decide +kernel,
    routed _ _ _ _ _ (onBlock_layout _ rfl _ _ _) (by decide +kernel) (by decide) (by decide),
    by decide +kernel⟩

/-- The indication of frame `fn` on timeslot 0 whose payload is `e`. -/
def carrying (fn : Fn) (e : List SBit) : RxInd :=
  { heard fn 0 [] with
    bits := Vector.ofFn fun i => e.getD (if i.val < 61 then i.val - 3 else i.val - 29) SBit.zero }

/-- Its payload is heard. -/
theorem carrying_payload (fn : Fn) (e : List SBit) (h : e.length = 116) :
    unwrap (carrying fn e).bits.toList = e := by
  have hget : ∀ k, k < 444 → (carrying fn e).bits.toList[k]? =
      some (e.getD (if k < 61 then k - 3 else k - 29) SBit.zero) := by
    intro k hk
    simp [carrying, hk]
  have hlen : (carrying fn e).bits.toList.length = 444 := by simp
  apply List.ext_getElem?
  intro k
  unfold unwrap slice
  by_cases h1 : k < 58
  · rw [List.getElem?_append_left (by simp; omega), List.getElem?_take_of_lt h1, List.getElem?_drop,
      hget _ (by omega), if_pos (by omega), show 3 + k - 3 = k by omega]
    simp [show k < e.length by omega]
  · rw [List.getElem?_append_right (by simp; omega)]
    simp only [List.length_take, List.length_drop, hlen]
    by_cases h2 : k < 116
    · rw [List.getElem?_take_of_lt (by omega), List.getElem?_drop, hget _ (by omega), if_neg (by omega),
        show 87 + (k - min 58 (444 - 3)) - 29 = k by omega]
      simp [show k < e.length by omega]
    · rw [List.getElem?_eq_none (by simp; omega), List.getElem?_eq_none (by omega)]

/-- The machine has received three bursts of the block `c` and hears the fourth. -/
def completing (c : List SBit) : State :=
  hears (onBlock 7 8 (c.take 348 ++ List.replicate 580 SBit.zero)) (carrying 11 (c.drop 348))

theorem completing_block (c : List SBit) (h : c.length = 464) :
    ((completing c).chan 0 13).ulBuf.take 348 ++ unwrap (completing c).rxind.bits.toList = c := by
  have h1 : (completing c).chan 0 13 = receiving 7 8 (c.take 348 ++ List.replicate 580 SBit.zero) :=
    State.setChan_chan _ _ _ _
  have h2 : (completing c).rxind = carrying 11 (c.drop 348) := rfl
  rw [h1, h2, carrying_payload _ _ (by simp [h])]
  show (c.take 348 ++ List.replicate 580 SBit.zero).take 348 ++ c.drop 348 = c
  rw [List.take_append_of_le_length (by rw [List.length_take]; omega), List.take_take,
    Nat.min_self, List.take_append_drop]

/-- The hypotheses of the second clause of `Obligations.RxCompletesBlock` but for the block's content. -/
def Ready (s : State) : Prop :=
  s.RoutedTo bench (loop 13 4) 13 3 ∧ ulFamily 13 = .xcch ∧ s.isActive 0 13 = true ∧
  (s.chan 0 13).ulSync = true ∧ (s.chan 0 13).ulAlloc = true ∧ (s.chan 0 13).ulMask = 7 ∧
  (s.chan 0 13).ulFirstFn = s.rxFirst (loop 13 4) ∧ (s.chan 0 13).ciphUl.algo = 0

theorem completing_ready (c : List SBit) : Ready (completing c) := by
  have h1 : (completing c).chan 0 13 = receiving 7 8 (c.take 348 ++ List.replicate 580 SBit.zero) :=
    State.setChan_chan _ _ _ _
  have h2 : (completing c).rxind.fn = 11 := rfl
  have h3 : (completing c).rxFirst (loop 13 4) = 8 := by
    rw [State.rxFirst, h2]
    decide
  have h4 : (completing c).rxind.eightLevel = false := by
    have h : (completing c).rxind.present = 0 := rfl
    rw [RxInd.eightLevel, h]
    rfl
  refine ⟨⟨⟨by rw [h2]; decide, rfl, h4⟩, onSdcch_layout bench rfl, by rw [h2]; decide,
    by rw [h2]; decide⟩, by decide, by rw [State.isActive, h1]; rfl, ?_⟩
  rw [h1, h3]
  exact ⟨rfl, rfl, rfl, rfl, rfl⟩

/-- A clean block, and one with a flipped payload bit. -/
theorem witness_RxCompletesBlock : fillBlock.length = 23 ∧ (List.replicate 8 true).length = 8 ∧
    (∀ c, c = softAll (blockBursts .x4 (controlCoded fillBlock) (List.replicate 8 true)) →
      Ready (completing c) ∧
      ((completing c).chan 0 13).ulBuf.take 348 ++ unwrap (completing c).rxind.bits.toList = c) ∧
    (msb 184 0).length = 184 ∧ DifferAt 183 (msb 184 0) (msb 184 1) ∧
    (∀ c, c = softAll (blockBursts .x4
        (convEnc xcchCode (infoWord (msb 184 1) (crcGen .fire40 (msb 184 0)))) (List.replicate 8 true)) →
      Ready (completing c) ∧
      ((completing c).chan 0 13).ulBuf.take 348 ++ unwrap (completing c).rxind.bits.toList = c) := by
  have hb : ∀ x h : List UBit, (softAll (blockBursts .x4 x h)).length = 464 := by
    intro x h
    rw [softAll, List.length_map]
    exact mapBlock_length _ _ _ (interleave_length _ _)
  exact ⟨rfl, rfl, fun c h => ⟨completing_ready c, completing_block c (h ▸ hb _ _)⟩, rfl,
    ⟨by decide +kernel, by decide +kernel⟩,
    fun c h => ⟨completing_ready c, completing_block c (h ▸ hb _ _)⟩⟩

/-- A block whose second burst is missing. -/
theorem witness_RxCompletesBlock_incomplete :
    ((onBlock 5 8 (List.replicate 928 SBit.zero)).chan 0 13).ulMask ≠ 0 ∧
    ((onBlock 5 8 (List.replicate 928 SBit.zero)).chan 0 13).ulMask ||| 0x08 ≠ 0x0F := by decide +kernel

/-- SDCCH/8(0) is synchronised but has no buffer. -/
def synced : State := onSdcch.setChan 0 13 { ChanState.zero with active := true, ulSync := true }

/-- The first clause: the last burst of a running block; the last burst as the first that arrives, into a
new buffer; and over a block that began in another frame. -/
theorem witness_RxCompletesBlock_start (c : List SBit) : Ready (completing c) ∧
    ((completing c).chan 0 13).ulMask ||| (1#8 <<< 3) = fullMask (nbUl 13) ∧
    (hears synced (heard 11 0 [])).RoutedTo bench (loop 13 4) 13 3 ∧ synced.isActive 0 13 = true ∧
    (synced.chan 0 13).ulSync = true ∧ (synced.chan 0 13).ulMask = 0 ∧
    bench.allocOk synced.allocs = true ∧ (synced.chan 0 13).ulBuf.length = 0 ∧
    (synced.chan 0 13).ciphUlP.algo = 0 ∧ nbUl 13 - popcount (0 ||| (1#8 <<< 3)) = 3 ∧
    (hears (onBlock 1 4 (List.replicate 928 SBit.zero)) (heard 11 0 [])).RoutedTo bench (loop 13 4) 13
      3 ∧ ((onBlock 1 4 (List.replicate 928 SBit.zero)).chan 0 13).ulMask ≠ 0 ∧
    ((onBlock 1 4 (List.replicate 928 SBit.zero)).chan 0 13).ulBuf.length = 928 ∧
    ((onBlock 1 4 (List.replicate 928 SBit.zero)).chan 0 13).ulFirstFn ≠
      State.rxFirst (hears (onBlock 1 4 (List.replicate 928 SBit.zero)) (heard 11 0 [])) (loop 13 4) := by
  have h1 : (completing c).chan 0 13 = receiving 7 8 (c.take 348 ++ List.replicate 580 SBit.zero) :=
    State.setChan_chan _ _ _ _
  refine ⟨completing_ready c, by rw [h1]; simp only [receiving]; decide,
    routed _ _ _ _ _ (onSdcch_layout _ rfl) (by decide) (by decide) (by decide), by decide +kernel,
    by decide +kernel, by decide +kernel, rfl, by decide +kernel, by decide +kernel, by decide,
    routed _ _ _ _ _ (onBlock_layout _ rfl _ _ _) (by decide) (by decide) (by decide),
    by decide +kernel, by decide +kernel, by decide +kernel⟩

/-- The last burst of a traffic block and of a packet-data block. -/
theorem witness_RxCompletesBlock_families :
    let s := hears (activeOn 2 6 amrMode) (heard 7 0 [])
    let p := hears (activeOn 4 36 Mode.zero) (heard 7 0 [])
    (s.layout bench 0).map (fun l => ((l.slot 7).ulChan, (l.slot 7).ulBid.val + 1)) = some (6, nbUl 6) ∧
    ulFamily 6 = .tch ∧ s.isActive 0 6 = true ∧ s.rxind.eightLevel = false ∧
    (p.layout bench 0).map (fun l => ((l.slot 7).ulChan, (l.slot 7).ulBid.val + 1)) = some (36, nbUl 36) ∧
    ulFamily 36 = .pdtch ∧ p.isActive 0 36 = true ∧ p.rxind.eightLevel = false := by decide +kernel

/-- What the decoder is run on, and its outcome, exist for every block. -/
theorem witness_RxCompletesBlock_decoder (P : Params) (ch : Chan) (mode : Mode) (f0 : Fn)
    (buf : List SBit) (w : Wamr) : ∃ d u : State, d.softE = buf ∧ d.wamr = w ∧
      execIn P (ulCommand P ch mode f0) d = .next u := by
  have h : isDecoder (ulCommand P ch mode f0) = true := by
    unfold ulCommand
    split
    · rfl
    · split <;> rfl
    all_goals rfl
  obtain ⟨u, hu⟩ := decoder_answers P _ h { State.reset.setSoftE buf with wamr := w }
  exact ⟨{ State.reset.setSoftE buf with wamr := w }, u, State.setSoftE_softE State.reset buf, rfl, hu⟩

/-- Access requests of frames 0 and 1, under the identity code of the block and under another. -/
theorem witness_RxAccessBurst :
    let e := softAll (rachCoded 0x15 (unpackLsb [0x2B] 8))
    let s := hears (onBeacon.setChan 1 4 { ChanState.zero with active := true })
      (heard 1 1 (List.replicate 49 SBit.zero ++ e))
    s.rxind.fn.toNat < HYPER ∧ s.rxind.nbits.toNat = 148 ∧ s.rxind.eightLevel = false ∧
    s.rxind.slot = 1 ∧ (s.layout bench 1).map (fun l => (l.slot 1).ulChan) = some 4 ∧
    (s.layout bench 1).map (fun l => (l.slot 1).ulBid) = some 0 ∧ ulFamily 4 = .rach ∧
    s.isActive 1 4 = true ∧ accessBits s.rxind.bits.toList = e ∧
    (0x15 : BitVec 6) = { s with bsic := 0x15 }.bsic ∧ (0x15 : BitVec 6) ≠ s.bsic := by
  decide +kernel

/-- What the access decoder is run on, and its outcome, exist for every burst. -/
theorem witness_RxAccessBurst_decoder (P : Params) (bsic : BitVec 6) (bits : List SBit) :
    ∃ d u : State, d.softC = accessBits bits ∧ execIn P (.rachDec bsic) d = .next u := by
  obtain ⟨u, hu⟩ := decoder_answers P (.rachDec bsic) rfl (State.reset.setSoftC (accessBits bits))
  exact ⟨_, u, State.setSoftC_softC State.reset _, hu⟩

/-! #### Whole-machine rules and the data window -/

theorem witness_Footprints : (∃ t, exec .uappPar State.reset = .next t) ∧ isCodecCommand .uappPar = true ∧
    (∃ t, exec (.setAtt 3 1) State.reset = .next t) ∧ namedSlot (.setAtt 3 1) = some 3 ∧
    (∃ t, exec .rxBurst State.reset = .next t) ∧ (∀ l bid,
      ¬(State.reset.RoutedTo Config.inst l 0 bid ∧ (1 : Tn) = State.reset.rxind.slot)) :=
  ⟨⟨_, rfl⟩, rfl, ⟨_, rfl⟩, rfl, ⟨_, rfl⟩, fun _ _ h => absurd h.2 (by decide)⟩

theorem witness_EffectiveCopies : ∃ t, exec .schedInit onSdcch = .next t := ⟨_, rfl⟩

/-- A block start in either direction loads the pending copies; the middle of a block does not. -/
theorem witness_EffectiveCopies_loads :
    let s := onSdcch.setChan 0 13 { ChanState.zero with active := true, modeP := amrMode }
    let t := after (execIn bench (.tick 0) s)
    let u := after (execIn bench .rxBurst (hears s (heard 8 0 [])))
    t.stat.code = 0 ∧ (t.chan 0 13).modeDl = amrMode ∧ (t.chan 0 13).modeUl = Mode.zero ∧
    u.stat.code = 0 ∧ (u.chan 0 13).modeUl = amrMode ∧ (u.chan 0 13).modeDl = Mode.zero ∧
    ((after (execIn bench (.tick 1) s)).chan 0 13).modeDl = Mode.zero := by decide +kernel

theorem witness_FrameNumberLaws : (loop 13 4).wf = true ∧ 2715647 < HYPER ∧
    ((loop 13 4).slot 2715647).ulChan ≠ chIdle ∧ 2 < fnSub 2715647 (ulFirstFn (loop 13 4) 2715647) := by
  decide +kernel

/-- A channel with a received burst, a listed buffer, and the host about to write `SET.BSIC`. -/
def running : State :=
  ((State.reset.setChan 0 13 (receiving 1 8 (List.replicate 928 SBit.zero))).setU
    [true, false]).withFetchWord 32 0x4A2A0000

theorem witness_StepKeepsMemory : running.MemInv ∧ ∃ t, step running = .next t :=
  ⟨by unfold State.MemInv; decide +kernel, _, rfl⟩

theorem witness_StepKeepsScheduler : running.SchedInv Config.inst where
  fn := by decide +kernel
  wamr := by decide +kernel
  pchan := by
    have h : ∀ tn : Tn, (running.ts.get tn).pchan = 0 := by decide +kernel
    exact fun tn => Or.inl (h tn)
  chan := by decide +kernel
  queue := by
    have h : ∀ (tn : Tn) (ch : Chan), running.queue tn ch = [] := by decide +kernel
    intro tn ch
    rw [h tn ch]
    simp [queueWf]

theorem witness_WindowReads :
    { State.reset with host := [.read 0x0004 4] }.host = .read 0x0004 4 :: ([] : List HostAccess) ∧
    4 ∈ [1, 2, 4] ∧ (0x0004 : BitVec 16).toNat % 4 = 0 ∧ (0xFFFF : BitVec 16).toNat % 1 = 0 ∧
    3 ∉ [1, 2, 4] ∧ (0x0006 : BitVec 16).toNat % 4 ≠ 0 := ⟨rfl, by decide⟩

theorem witness_WindowWrites :
    { State.reset with host := [.write (BitVec.ofNat 16 (0x0080 + 63)) 1 0xFF] }.host =
      .write (BitVec.ofNat 16 (0x0080 + 63)) 1 0xFF :: ([] : List HostAccess) ∧
    1 < ((2 : Word).extractLsb' 0 8).toNat ∧ (0xFFFFFF80 : Word).extractLsb' 0 8 = 0x80 ∧
    928 < ((929 : Word).extractLsb' 0 10).toNat := ⟨rfl, by decide⟩

/-- The host accesses `s` once. -/
def accessed (a : HostAccess) (s : State) : State := after (step { s with host := [a] })

/-- Offsets at the ends of rows: the first reserved offset, the last byte of the status rows, the last
element of each end, both sides of the capacity of each kind of buffer. -/
theorem witness_WindowReads_rows :
    ¬inRows writableRows 0x0038 ∧ ¬inRows readOnlyRows 0x0038 ∧ inRows readOnlyRows 0x0023 ∧
    ¬inRows readOnlyRows 0x0024 ∧ inRows writableRows 0x0037 ∧
    ByteOfRow 0x004C 3 0x0040 15 ∧ ByteOfRow 0x00BC 3 0x0080 63 ∧
    ByteOfRow 0x17A0 0 HardBuf.e.base 0x3A0 ∧ ¬0x3A0 < HardBuf.e.cap ∧
    ByteOfRow 0x179C 3 HardBuf.e.base 927 ∧ 927 < HardBuf.e.cap ∧
    ByteOfRow 0x0100 0 SoftBuf.hs.base 0 ∧ ByteOfRow 0x1DF8 3 0x1C40 443 ∧
    ByteOfRow 0x8070 3 0x8050 (9 * 3 + 1 + 7) ∧ ByteOfRow 0x879C 3 0x8400 927 ∧
    ByteOfRow 0x8B9C 3 0x8800 927 := by
  unfold inRows ByteOfRow
  decide

/-- Reads of `RES`, `WAMR`, the head event, a timeslot and the selected channel; the channel after the last
reads 0. -/
theorem witness_WindowReads_values :
    let s := { activeOn 2 6 amrMode with
      res := { Res.zero with nerr := 3, cs := 4 }
      wamr := { n := 8, list := Vector.replicate 8 5, ft := 7, cmr := 0 }
      evq := [.log .nomem 3 6 2715647, .rtsInd 0 13 4], csselTn := 0, csselCh := 6 }
    (accessed (.read 0x0010 4) s).hostRead = 3 ∧ (accessed (.read 0x0014 4) s).hostRead = 0x40 ∧
    (accessed (.read 0x001C 4) s).hostRead = 0x78 ∧
    (accessed (.read 0x0020 4) s).hostRead = 0x55555555 ∧
    (accessed (.read 0x0050 4) s).hostRead = 2 ∧
    (accessed (.read 0x2004 4) s).hostRead.extractLsb' 0 22 = 2715647 ∧
    (accessed (.read 0x4000 4) s).hostRead = 2 ∧ (accessed (.read 0x8004 4) s).hostRead = 1 ∧
    (accessed (.read 0x8030 4) s).hostRead = 0x20300 ∧
    (accessed (.read 0x8004 4) { s with csselCh := 38 }).hostRead = 0 ∧
    (accessed (.read 0x8004 4) { s with csselCh := 39 }).hostRead = 0 := by decide +kernel

/-- Writes at the ends of rows: the last element of a buffer, a length at its capacity and one above it,
the mailboxes, the selector, a narrow write of a register, a read-only row and a reserved offset. -/
theorem witness_WindowWrites_rows :
    (accessed (.write 0x0028 4 0x04000200) State.reset).mem.u.len = 512 ∧
    (accessed (.write 0x0028 4 0x04000200) State.reset).mem.c.len = 1024 ∧
    step { State.reset with host := [.write 0x0028 4 0x04010000] } = .fault .badValue ∧
    step { State.reset with host := [.write 0x0024 4 0x11000000] } = .fault .badValue ∧
    ((accessed (.write 0x17A0 1 1) (accessed (.write 0x179F 1 1) State.reset)).mem.e.get
      Config.freeBit 927) = true ∧
    (accessed (.write 0x004F 1 0xAA) State.reset).prmAt 15 = 0xAA ∧
    ((accessed (.write 0x1DFB 1 0x7F) State.reset).rxind.bits[443]?).map SBit.val = some 0x7F ∧
    (accessed (.write 0x1C0E 2 444) State.reset).rxind.nbits = 444 ∧
    (accessed (.write 0x8000 4 0x2607) State.reset).csselCh = 38 ∧
    (accessed (.write 0x8001 1 0x26) { State.reset with csselTn := 7 }).csselTn = 7 ∧
    accessed (.write 0x0004 4 1) State.reset = State.reset ∧
    accessed (.write 0x0038 4 1) State.reset = State.reset ∧
    ¬inRows writableRows 0x0004 ∧ ¬inRows writableRows 0x0038 ∧ ¬inRows writableRows 0x17A0 := by
  unfold inRows
  refine ⟨by decide +kernel, by decide +kernel, rfl, rfl, by decide +kernel, by decide +kernel,
    by decide +kernel, by decide +kernel, by decide +kernel, by decide +kernel, rfl, rfl, by decide,
    by decide, by decide⟩

end Sys2Proof.Tests
end

