-- ==== Sys2Proof/Proofs/Outcomes.lean ====
section
/-! How a command ends (00_scope.md R14, 60_exceptions.md R300, R301): which bodies can meet a `refuse`, and
what `STAT.CODE` a finished command leaves. -/

namespace Sys2Proof.Machine

/-! ### Commands that meet no `refuse` -/

/-- The body runs through or raises an error: it meets no `refuse` (00_scope.md R14). -/
def Cmd.Answers (c : Cmd) : Prop := ∀ r, c ≠ .refused r

namespace Cmd.Answers

theorem done (s : State) : (Cmd.done s).Answers := nofun

theorem raised (e : ErrCode) (info : Nat) (s : State) : (Cmd.raised e info s).Answers := nofun

theorem rejected (i : Instr) (s : State) : (illegal i s).Answers := raised _ _ _

/-- The shape of every check of an operation rule: both branches answer. -/
theorem check {p : Prop} [Decidable p] {c d : Cmd} (hc : c.Answers) (hd : d.Answers) :
    (if p then c else d).Answers := by
  split
  · exact hc
  · exact hd

theorem scratched {c : Cmd} (hc : c.Answers) : c.scratched.Answers := by
  cases c with
  | done s => exact done _
  | raised e info s => exact raised _ _ _
  | refused r => exact absurd rfl (hc r)

end Cmd.Answers

/-- A body answers exactly when the finished command has a next state. -/
theorem Cmd.answers_iff (c : Cmd) : c.Answers ↔ ∃ t, c.finish = .next t := by
  cases c with
  | done s => exact iff_of_true (Answers.done s) ⟨_, rfl⟩
  | raised e info s => exact iff_of_true (Answers.raised e info s) ⟨_, rfl⟩
  | refused r => exact iff_of_false (fun h => h r rfl) nofun

open Cmd.Answers

/-! #### The units -/

theorem crcGenBody_answers (x : CrcSel) (n : Nat) (s : State) : (crcGenBody x n s).Answers :=
  check (raised _ _ _) (done _)

theorem crcChkBody_answers (x : CrcSel) (n : Nat) (s : State) : (crcChkBody x n s).Answers :=
  check (raised _ _ _) (check (done _) (raised _ _ _))

theorem uappParBody_answers (s : State) : (uappParBody s).Answers :=
  check (raised _ _ _) (check (done _) (done _))

theorem uappZeroBody_answers (n : Nat) (s : State) : (uappZeroBody n s).Answers :=
  check (raised _ _ _) (done _)

theorem parLdBody_answers (r n : Nat) (s : State) : (parLdBody r n s).Answers :=
  check (raised _ _ _) (done _)

theorem convEncBody_answers (P : Params) (e : Fin 16) (s : State) : (convEncBody P e s).Answers := by
  unfold convEncBody
  split
  · exact rejected _ _
  · exact check (raised _ _ _) (done _)

theorem convDecBody_answers (P : Params) (e : Fin 16) (kd : Nat) (s : State) :
    (convDecBody P e kd s).Answers := by
  unfold convDecBody
  split
  · exact rejected _ _
  · exact check (done _) (raised _ _ _)

theorem puncBody_answers (P : Params) (e : Fin 16) (s : State) : (puncBody P e s).Answers := by
  unfold puncBody
  split
  · exact rejected _ _
  · exact check (raised _ _ _) (done _)

theorem depuncBody_answers (P : Params) (e : Fin 16) (s : State) : (depuncBody P e s).Answers := by
  unfold depuncBody
  split
  · exact rejected _ _
  · exact check (raised _ _ _) (check (raised _ _ _) (done _))

theorem intlvBody_answers (x : ISel) (s : State) : (intlvBody x s).Answers := check (raised _ _ _) (done _)

theorem deintlvBody_answers (x : ISel) (s : State) : (deintlvBody x s).Answers :=
  check (raised _ _ _) (done _)

theorem mapBody_answers (nb : Nat) (s : State) : (mapBody nb s).Answers := check (raised _ _ _) (done _)

theorem unmapBody_answers (nb : Nat) (s : State) : (unmapBody nb s).Answers := check (raised _ _ _) (done _)

theorem hSetBody_answers (nb pattern : Nat) (s : State) : (hSetBody nb pattern s).Answers := done _

theorem unpackBody_answers (o : BitOrder) (n : Nat) (s : State) : (unpackBody o n s).Answers :=
  check (raised _ _ _) (done _)

theorem packBody_answers (o : BitOrder) (n : Nat) (s : State) : (packBody o n s).Answers :=
  check (raised _ _ _) (done _)

theorem matchBody_answers (P : Params) (x : TSel) (s : State) : (matchBody P x s).Answers := by
  unfold matchBody
  refine check (rejected _ _) ?_
  split
  · exact raised _ _ _
  · exact done _

/-! #### The codecs -/

theorem xcchEncBody_answers (s : State) : (xcchEncBody s).Answers := check (raised _ _ _) (done _)

theorem rachEncBody_answers (bsic : BitVec 6) (s : State) : (rachEncBody bsic s).Answers :=
  check (raised _ _ _) (done _)

theorem schEncBody_answers (s : State) : (schEncBody s).Answers := check (raised _ _ _) (done _)

theorem pdtchEncBody_answers (s : State) : (pdtchEncBody s).Answers := by
  unfold pdtchEncBody
  split
  · exact raised _ _ _
  · exact done _

theorem amrCfgBody_answers (s : State) : (amrCfgBody s).Answers := check (raised _ _ _) (done _)

theorem tchfrEncBody_answers (P : Params) (speech : Efr) (s : State) :
    (tchfrEncBody P speech s).Answers :=
  check (done _) (check (done _) (raised _ _ _))

theorem tchafsEncBody_answers (P : Params) (phase : Phase) (s : State) :
    (tchafsEncBody P phase s).Answers := by
  unfold tchafsEncBody
  refine check (done _) ?_
  split
  · exact raised _ _ _
  · exact done _

/-- The bodies of the decoders (R175), which the receive path also runs. -/
theorem bodyIn_answers_of_isDecoder (P : Params) (i : Instr) (hi : isDecoder i = true) (s : State) :
    (bodyIn P i s).Answers :=
  (Cmd.answers_iff _).2 (decoder_answers P i hi s)

theorem xcchDecBody_answers (P : Params) (s : State) : (xcchDecBody P s).Answers :=
  bodyIn_answers_of_isDecoder P .xcchDec rfl s

theorem rachDecBody_answers (P : Params) (bsic : BitVec 6) (s : State) :
    (rachDecBody P bsic s).Answers :=
  bodyIn_answers_of_isDecoder P (.rachDec bsic) rfl s

theorem pdtchDecBody_answers (P : Params) (s : State) : (pdtchDecBody P s).Answers :=
  bodyIn_answers_of_isDecoder P .pdtchDec rfl s

theorem tchfrDecBody_answers (P : Params) (speech : Efr) (s : State) :
    (tchfrDecBody P speech s).Answers :=
  bodyIn_answers_of_isDecoder P (.tchfrDec speech) rfl s

theorem tchafsDecBody_answers (P : Params) (phase : Phase) (s : State) :
    (tchafsDecBody P phase s).Answers :=
  bodyIn_answers_of_isDecoder P (.tchafsDec phase) rfl s

/-! #### The scheduler's configuration -/

theorem setPchanBody_answers (P : Params) (tn : Tn) (pchan : BitVec 4) (tsc : BitVec 3) (s : State) :
    (setPchanBody P tn pchan tsc s).Answers :=
  check (rejected _ _) (done _)

theorem chActBody_answers (P : Params) (tn : Tn) (ch : Chan) (linksel : LinkSel) (s : State) :
    (chActBody P tn ch linksel s).Answers :=
  check (raised _ _ _) (done _)

theorem chDeactBody_answers (tn : Tn) (ch : Chan) (linksel : LinkSel) (s : State) :
    (chDeactBody tn ch linksel s).Answers :=
  check (raised _ _ _) (done _)

theorem setModeBody_answers (tn : Tn) (ch : Chan) (s : State) : (setModeBody tn ch s).Answers := by
  unfold setModeBody
  split
  · exact raised _ _ _
  · exact check (raised _ _ _) (done _)

theorem setCipherBody_answers (tn : Tn) (ch : Chan) (dir : Dir) (s : State) :
    (setCipherBody tn ch dir s).Answers :=
  check (raised _ _ _) (check (raised _ _ _) (done _))

theorem pduEnqBody_answers (P : Params) (tn : Tn) (ch : Chan) (aux : Byte) (s : State) :
    (pduEnqBody P tn ch aux s).Answers :=
  check (raised _ _ _) (check (raised _ _ _) (done _))

/-! #### The receive path -/

/-- Whatever its channel's family and mode, a completed block is decoded (R273). -/
theorem runDecoder_answers (P : Params) (ch : Chan) (x : ChanState) (s : State) :
    (runDecoder P ch x s).Answers := by
  unfold runDecoder
  cases ulFamily ch with
  | xcch => exact xcchDecBody_answers P s
  | pdtch => exact pdtchDecBody_answers P s
  | tch =>
    cases x.modeUl.tchMode with
    | fr => exact tchfrDecBody_answers P .fr s
    | efr => exact tchfrDecBody_answers P .efr s
    | amr => exact tchafsDecBody_answers P _ _
    | sign =>
      have hdec := tchfrDecBody_answers P .fr s
      dsimp only
      split
      · exact check (done _) (raised _ _ _)
      · exact raised _ _ _
      · next h => exact absurd h (hdec _)
  | none | fcch | sch | rach | unsupp => exact done s

theorem completeUl_answers (P : Params) (tn : Tn) (ch : Chan) (nb : Nat) (x : ChanState) (s : State) :
    (completeUl P tn ch nb x s).Answers := by
  unfold completeUl
  dsimp only
  split
  · exact done _
  · exact done _
  · exact done _
  · next h => exact absurd h (runDecoder_answers _ _ _ _ _)

theorem assembleUl_answers (P : Params) (tn : Tn) (ch : Chan) (bid : Fin 8) (f0 : Fn) (s : State) :
    (assembleUl P tn ch bid f0 s).Answers :=
  check (completeUl_answers _ _ _ _ _ _) (done _)

theorem accessUl_answers (P : Params) (tn : Tn) (ch : Chan) (s : State) :
    (accessUl P tn ch s).Answers := by
  unfold accessUl
  dsimp only
  split
  · exact done _
  · exact done _
  · next h => exact absurd h (rachDecBody_answers _ _ _ _)

theorem allocAssemble_answers (P : Params) (tn : Tn) (ch : Chan) (bid : Fin 8) (f0 : Fn) (s : State) :
    (allocAssemble P tn ch bid f0 s).Answers := by
  unfold allocAssemble
  refine check (assembleUl_answers _ _ _ _ _ _) ?_
  split
  · exact assembleUl_answers _ _ _ _ _ _
  · exact raised _ _ _

theorem routeUl_answers (P : Params) (l : Layout) (tn : Tn) (s : State) : (routeUl P l tn s).Answers :=
  check (done _) (check (scratched (accessUl_answers _ _ _ _))
    (check (done _) (scratched (allocAssemble_answers _ _ _ _ _ _))))

theorem rxBurstBody_answers (P : Params) (s : State) : (rxBurstBody P s).Answers := by
  unfold rxBurstBody
  split
  · exact raised _ _ _
  · split
    · exact done _
    · exact routeUl_answers _ _ _ _

/-! ### The clock contract -/

/-- `TICK` refuses exactly the frame numbers that break the clock contract (47_scheduler.md R278 (1)). -/
theorem tickBody_cases (P : Params) (fn : Fn) (s : State) :
    (s.ClockOk fn ∧ (tickBody P fn s).Answers) ∨
      (s.fnValid = true ∧ fn.toNat ≠ fnAdd s.fn.toNat 1 ∧ tickBody P fn s = .refused .clock) := by
  by_cases hbad : s.fnValid = true ∧ fn.toNat ≠ fnAdd s.fn.toNat 1
  · obtain ⟨hvalid, hfn⟩ := hbad
    exact .inr ⟨hvalid, hfn, if_pos ⟨hvalid, hfn⟩⟩
  · have hclock : s.ClockOk fn := by
      unfold State.ClockOk
      cases hvalid : s.fnValid with
      | false => exact .inl rfl
      | true => exact .inr (not_not.1 fun hfn => hbad ⟨hvalid, hfn⟩)
    refine .inl ⟨hclock, ?_⟩
    rw [tickBody, if_neg hbad]
    split
    · exact done _
    · exact raised _ _ _

/-! ### All commands -/

/-- A command answers, whatever the open parameters, but for a `TICK` that breaks the clock contract. -/
theorem bodyIn_cases (P : Params) (i : Instr) (s : State) :
    (bodyIn P i s).Answers ∨
      ∃ fn, i = .tick fn ∧ s.fnValid = true ∧ fn.toNat ≠ fnAdd s.fn.toNat 1 ∧
        bodyIn P i s = .refused .clock := by
  cases i with
  | crcGen x n => exact .inl (crcGenBody_answers x _ s)
  | crcChk x n => exact .inl (crcChkBody_answers x _ s)
  | uappPar => exact .inl (uappParBody_answers s)
  | uappZero n => exact .inl (uappZeroBody_answers _ s)
  | parLd r n => exact .inl (parLdBody_answers _ _ s)
  | convEnc e => exact .inl (convEncBody_answers P e s)
  | convDec e kd => exact .inl (convDecBody_answers P e _ s)
  | punc e => exact .inl (puncBody_answers P e s)
  | depunc e => exact .inl (depuncBody_answers P e s)
  | intlv x => exact .inl (intlvBody_answers x s)
  | deintlv x => exact .inl (deintlvBody_answers x s)
  | map nb => exact .inl (mapBody_answers _ s)
  | unmap nb => exact .inl (unmapBody_answers _ s)
  | hSet nb p => exact .inl (hSetBody_answers _ _ s)
  | unpack o n => exact .inl (unpackBody_answers o _ s)
  | pack o n => exact .inl (packBody_answers o _ s)
  | matchPat x => exact .inl (matchBody_answers P x s)
  | xcchEnc => exact .inl (xcchEncBody_answers s)
  | rachEnc bsic => exact .inl (rachEncBody_answers bsic s)
  | schEnc => exact .inl (schEncBody_answers s)
  | pdtchEnc => exact .inl (pdtchEncBody_answers s)
  | amrCfg => exact .inl (amrCfgBody_answers s)
  | tchfrEnc speech => exact .inl (tchfrEncBody_answers P speech s)
  | tchafsEnc phase => exact .inl (tchafsEncBody_answers P phase s)
  | xcchDec | rachDec | schDec | pdtchDec | tchfrDec | tchafsDec =>
    exact .inl (bodyIn_answers_of_isDecoder P _ rfl s)
  | schedInit | setAtt | setBsic => exact .inl (done _)
  | setPchan tn p tsc => exact .inl (setPchanBody_answers P tn p tsc s)
  | chAct tn ch k => exact .inl (chActBody_answers P tn ch k s)
  | chDeact tn ch k => exact .inl (chDeactBody_answers tn ch k s)
  | setMode tn ch => exact .inl (setModeBody_answers tn ch s)
  | setCipher tn ch dir => exact .inl (setCipherBody_answers tn ch dir s)
  | pduEnq tn ch aux => exact .inl (pduEnqBody_answers P tn ch aux s)
  | rxBurst => exact .inl (rxBurstBody_answers P s)
  | tick fn =>
    obtain ⟨-, hans⟩ | ⟨hvalid, hfn, hrefused⟩ := tickBody_cases P fn s
    · exact .inl hans
    · exact .inr ⟨fn, rfl, hvalid, hfn, hrefused⟩

/-- The dispatch runs the meaning of a command under the parameters of the block. -/
theorem exec_eq_execIn (i : Instr) (s : State) : exec i s = execIn Config.inst i s := by
  cases i <;> rfl

/-- The status codes of R301 are 0 to 9. -/
theorem ErrCode.code_toNat_le (e : ErrCode) : e.code.toNat ≤ 9 := by
  cases e <;> decide

/-- A finished command leaves a status code of R301. -/
theorem Cmd.finish_code_le {c : Cmd} {t : State} (h : c.finish = .next t) : t.stat.code.toNat ≤ 9 := by
  obtain ⟨s, -, rfl⟩ | ⟨e, info, s, -, rfl⟩ := (c.finish_eq_next t).1 h
  · exact ErrCode.code_toNat_le .none
  · exact ErrCode.code_toNat_le e

end Sys2Proof.Machine

namespace Sys2Proof.Proofs

open Sys2Proof.Machine

/-- Settles O6: only a `TICK` that breaks the clock contract has a body that does not answer, and a body
that answers ends with one of the status codes. -/
theorem commandOutcomes : Obligations.CommandOutcomes := by
  unfold Obligations.CommandOutcomes
  intro i s
  rw [exec_eq_execIn, execIn]
  obtain hans | ⟨fn, htick, hvalid, hfn, hrefused⟩ := bodyIn_cases Config.inst i s
  · obtain ⟨t, ht⟩ := (Cmd.answers_iff _).1 hans
    exact .inl ⟨t, ht, Cmd.finish_code_le ht⟩
  · exact .inr ⟨fn, htick, hvalid, hfn, by rw [hrefused, Cmd.finish_refused]⟩

end Sys2Proof.Proofs
end

