-- ==== Sys2Proof/Proofs/FrameNumbers.lean ====
section
/-! Frame numbers and layouts (00_scope.md R12, 10_state.md R41, 47_scheduler.md R251, R252): the arithmetic
modulo the hyperframe against the period of a layout, and the blocks of a well-formed layout. -/

namespace Sys2Proof.Machine

/-! ### Arithmetic modulo the hyperframe (R12) -/

theorem fnSub_lt (a b : Nat) : fnSub a b < HYPER := by
  unfold fnSub HYPER
  omega

/-- The frames elapsed since the frame `k` frames back are `k`. -/
theorem fnSub_fnSub {fn k : Nat} (hfn : fn < HYPER) (hk : k < HYPER) : fnSub fn (fnSub fn k) = k := by
  unfold fnSub HYPER at *
  omega

/-- A period that divides the hyperframe does not see its wrap. -/
theorem hyperMod_mod {p : Nat} (hp : p ∣ HYPER) (x : Int) :
    (((x % (HYPER : Int)).toNat % p : Nat) : Int) = x % p := by
  have hpos : 0 ≤ x % (HYPER : Int) := Int.emod_nonneg x (by decide)
  rw [Int.natCast_mod, Int.toNat_of_nonneg hpos, Int.emod_emod_of_dvd x (Int.natCast_dvd_natCast.2 hp)]

theorem fnAdd_mod {p : Nat} (hp : p ∣ HYPER) (fn n : Nat) : fnAdd fn n % p = (fn % p + n) % p := by
  have h := hyperMod_mod hp ((fn : Int) + (n : Int))
  rw [Nat.mod_add_mod]
  unfold fnAdd
  exact_mod_cast h

/-- The frame of index `j` in the period that is nearest before `fn` (R252). -/
theorem fnSub_mod {p j : Nat} (hp : p ∣ HYPER) (hj : j < p) (fn : Nat) :
    fnSub fn ((fn + (p - j)) % p) % p = j := by
  have h : ((fnSub fn ((fn + (p - j)) % p) % p : Nat) : Int) = (j : Int) := by
    unfold fnSub
    rw [hyperMod_mod hp, Int.natCast_mod, Int.sub_emod_emod, Nat.cast_add, Nat.cast_sub hj.le]
    rw [show (fn : Int) - ((fn : Int) + ((p : Int) - (j : Int))) = (j : Int) + (p : Int) * (-1) by ring,
      Int.add_mul_emod_self_left]
    exact Int.emod_eq_of_lt (by omega) (by omega)
  exact_mod_cast h

/-! ### Well-formed layouts (R41) -/

namespace Layout

/-- W1 of R41. -/
theorem period_pos_of_wf {l : Layout} (h : l.wf = true) : 0 < l.period := by
  simp only [wf, Bool.and_eq_true, decide_eq_true_eq] at h
  obtain ⟨⟨⟨hpos, -⟩, -⟩, -⟩ := h
  exact hpos

/-- W1 of R41. -/
theorem period_dvd_of_wf {l : Layout} (h : l.wf = true) : l.period ∣ HYPER := by
  simp only [wf, Bool.and_eq_true, decide_eq_true_eq] at h
  obtain ⟨⟨⟨-, hdvd⟩, -⟩, -⟩ := h
  exact Nat.dvd_of_mod_eq_zero hdvd

/-- The `bid`s of the uplink slots of a channel, in the order of the slots. -/
def ulBids (l : Layout) (ch : Chan) : List Nat :=
  (l.slots.filter fun y => y.ulChan = ch).map fun y => y.ulBid.val

theorem mem_ulBids {l : Layout} {ch : Chan} {b : Nat} :
    b ∈ l.ulBids ch ↔ ∃ x ∈ l.slots, x.ulChan = ch ∧ x.ulBid.val = b := by
  simp [ulBids, and_assoc]

/-- W2 and W4 of R41 for the uplink tag of a slot. -/
theorem ulBid_lt_of_wf {l : Layout} (h : l.wf = true) {x : Slot} (hx : x ∈ l.slots)
    (hch : x.ulChan ≠ chIdle) : x.ulBid.val < nbUl x.ulChan := by
  simp only [wf, Bool.and_eq_true, List.all_eq_true] at h
  obtain ⟨⟨-, htags⟩, -⟩ := h
  obtain ⟨-, hul⟩ := htags x hx
  simpa [tagOk, hch] using hul

/-- W3 of R41 for the uplink slots of a channel. -/
theorem cyclicBids_of_wf {l : Layout} (h : l.wf = true) {x : Slot} (hx : x ∈ l.slots)
    (hch : x.ulChan ≠ chIdle) : cyclicBids (nbUl x.ulChan) (l.ulBids x.ulChan) = true := by
  simp only [wf, Bool.and_eq_true, List.all_eq_true] at h
  obtain ⟨-, hcyclic⟩ := h
  obtain ⟨-, hul⟩ := hcyclic x hx
  simpa [hch, ulBids] using hul

/-- The slot of a frame is one of the layout's. -/
theorem slot_mem {l : Layout} (hpos : 0 < l.period) (fn : Nat) : l.slot fn ∈ l.slots := by
  have hlt : fn % l.period < l.slots.length := Nat.mod_lt _ hpos
  rw [slot, List.getD_eq_getElem _ _ hlt]
  exact List.getElem_mem hlt

/-- Every slot of the layout is that of a frame less than a period before `fn` (R251). -/
theorem exists_slot_fnSub_eq {l : Layout} (hdvd : l.period ∣ HYPER) (fn : Nat) {x : Slot}
    (hx : x ∈ l.slots) : ∃ k < l.period, l.slot (fnSub fn k) = x := by
  obtain ⟨j, hj, rfl⟩ := List.getElem_of_mem hx
  refine ⟨(fn + (l.period - j)) % l.period, Nat.mod_lt _ (Nat.zero_lt_of_lt hj), ?_⟩
  rw [slot, fnSub_mod hdvd hj, List.getD_eq_getElem _ _ hj]

end Layout

/-! ### The first frame of a block -/

/-- Reading on cyclically from index `i`, the `bid`s count on modulo `nb` (W3). -/
theorem getD_of_cyclicBids {nb : Nat} {bids : List Nat} (h : cyclicBids nb bids = true) {i : Nat}
    (hi : i < bids.length) (hb : bids.getD i 0 < nb) (t : Nat) :
    bids.getD ((i + t) % bids.length) 0 = (bids.getD i 0 + t) % nb := by
  have hstep : ∀ j < bids.length,
      bids.getD ((j + 1) % bids.length) 0 = (bids.getD j 0 + 1) % nb := by
    simpa [cyclicBids] using h
  induction t with
  | zero => rw [Nat.add_zero, Nat.add_zero, Nat.mod_eq_of_lt hi, Nat.mod_eq_of_lt hb]
  | succ t ih =>
    have hnext := hstep ((i + t) % bids.length) (Nat.mod_lt _ (Nat.zero_lt_of_lt hi))
    rw [ih, Nat.mod_add_mod, Nat.mod_add_mod] at hnext
    exact hnext

/-- A cyclic run of `bid`s passes through 0. -/
theorem zero_mem_of_cyclicBids {nb b : Nat} {bids : List Nat} (h : cyclicBids nb bids = true)
    (hmem : b ∈ bids) (hb : b < nb) : 0 ∈ bids := by
  obtain ⟨i, hi, rfl⟩ := List.getElem_of_mem hmem
  rw [← List.getD_eq_getElem _ 0 hi] at hb
  have hzero := getD_of_cyclicBids h hi hb (nb - bids.getD i 0)
  rw [Nat.add_sub_cancel' hb.le, Nat.mod_self] at hzero
  have hlt := Nat.mod_lt (i + (nb - bids.getD i 0)) (Nat.zero_lt_of_lt hi)
  rw [List.getD_eq_getElem _ _ hlt] at hzero
  exact hzero ▸ List.getElem_mem hlt

/-- The frame carries burst 0 of the uplink channel `ch`. -/
def Layout.StartsUl (l : Layout) (ch : Chan) (fn : Nat) : Prop :=
  (l.slot fn).ulChan = ch ∧ (l.slot fn).ulBid = 0

/-- In a well-formed layout a block of every uplink channel begins less than a period before any of its
bursts. -/
theorem Layout.exists_startsUl {l : Layout} (h : l.wf = true) {fn : Nat}
    (hch : (l.slot fn).ulChan ≠ chIdle) :
    ∃ k < l.period, l.StartsUl (l.slot fn).ulChan (fnSub fn k) := by
  have hx : l.slot fn ∈ l.slots := slot_mem (period_pos_of_wf h) fn
  have hmem : (l.slot fn).ulBid.val ∈ l.ulBids (l.slot fn).ulChan := mem_ulBids.2 ⟨_, hx, rfl, rfl⟩
  have hzero := zero_mem_of_cyclicBids (cyclicBids_of_wf h hx hch) hmem (ulBid_lt_of_wf h hx hch)
  obtain ⟨y, hy, hych, hybid⟩ := mem_ulBids.1 hzero
  obtain ⟨k, hk, hslot⟩ := exists_slot_fnSub_eq (period_dvd_of_wf h) fn hy
  exact ⟨k, hk, by rw [hslot]; exact hych, by rw [hslot]; exact Fin.ext hybid⟩

/-- `ul_first_fn` (R252): the nearest frame back that begins a block of the channel, if one does within a
period. -/
theorem ulFirstFn_spec {l : Layout} {fn : Nat}
    (h : ∃ k < l.period, l.StartsUl (l.slot fn).ulChan (fnSub fn k)) :
    ∃ k < l.period, ulFirstFn l fn = fnSub fn k ∧ l.StartsUl (l.slot fn).ulChan (fnSub fn k) ∧
      ∀ j < k, ¬l.StartsUl (l.slot fn).ulChan (fnSub fn j) := by
  unfold Layout.StartsUl at *
  unfold ulFirstFn
  dsimp only
  split
  · next k hfind =>
    obtain ⟨hstart, hmem, hleast⟩ := List.find?_range_eq_some.1 hfind
    refine ⟨k, List.mem_range.1 hmem, rfl, by simpa using hstart, fun j hj => ?_⟩
    exact not_and_or.2 (by simpa using hleast j hj)
  · next hfind =>
    obtain ⟨k, hk, hstart⟩ := h
    have hnot := List.find?_range_eq_none.1 hfind k hk
    exact absurd hstart (not_and_or.2 (by simpa using hnot))

end Sys2Proof.Machine

namespace Sys2Proof.Proofs

open Sys2Proof.Machine

/-- Settles O55: the period divides the hyperframe (W1), so the wrap does not show; the `bid`s of a channel
run cyclically (W3), so burst 0 stands within a period before every burst. -/
theorem frameNumberLaws : Obligations.FrameNumberLaws := by
  unfold Obligations.FrameNumberLaws
  constructor
  · intro l fn n hwf _
    have hmod := fnAdd_mod (Layout.period_dvd_of_wf hwf) fn n
    exact ⟨hmod, by rw [Layout.slot, hmod]⟩
  · intro l fn hwf hfn hch
    obtain ⟨k, hk, hfirst, ⟨hchan, hbid⟩, hleast⟩ := ulFirstFn_spec (Layout.exists_startsUl hwf hch)
    have hperiod : l.period ≤ HYPER := Nat.le_of_dvd (by decide) (Layout.period_dvd_of_wf hwf)
    have hback : fnSub fn (fnSub fn k) = k := fnSub_fnSub hfn (hk.trans_le hperiod)
    rw [hfirst, hback]
    exact ⟨fnSub_lt fn k, hk, hchan, hbid, hleast⟩

end Sys2Proof.Proofs
end

