-- ==== Sys2Proof/Proofs/CodecFrame.lean ====
section
/-! What the units and the channel codecs write (10_state.md R50, R51; 30_encoding.md R95): working buffers
within their capacities, `RES`, and nothing else. -/

namespace Sys2Proof.Machine

/-! ### Where a body can end -/

/-- Every state in which the body ends, by running through or by raising an error, has the property. -/
inductive Cmd.Ends (p : State → Prop) : Cmd → Prop
  | done {s : State} (h : p s) : Cmd.Ends p (.done s)
  | raised {e : ErrCode} {info : Nat} {s : State} (h : p s) : Cmd.Ends p (.raised e info s)
  | refused (r : Refusal) : Cmd.Ends p (.refused r)

namespace Cmd.Ends

theorem rejected {p : State → Prop} {i : Instr} {s : State} (h : p s) : (illegal i s).Ends p :=
  raised h

theorem of_done {p : State → Prop} {s : State} (h : (Cmd.done s).Ends p) : p s := by
  cases h; assumption

theorem of_raised {p : State → Prop} {e : ErrCode} {info : Nat} {s : State}
    (h : (Cmd.raised e info s).Ends p) : p s := by
  cases h; assumption

theorem check {q : State → Prop} {p : Prop} [Decidable p] {c d : Cmd} (hc : p → c.Ends q)
    (hd : ¬p → d.Ends q) : (if p then c else d).Ends q := by
  split
  · next h => exact hc h
  · next h => exact hd h

theorem mono {p q : State → Prop} {c : Cmd} (hc : c.Ends p) (h : ∀ s, p s → q s) : c.Ends q := by
  cases hc with
  | done hs => exact done (h _ hs)
  | raised hs => exact raised (h _ hs)
  | refused r => exact refused r

/-- The next state is the end of the body with `STAT` written. -/
theorem finish {p : State → Prop} {c : Cmd} {t : State} (hc : c.Ends p) (h : c.finish = .next t) :
    ∃ u e info, p u ∧ t = u.raise e info := by
  obtain ⟨u, rfl, rfl⟩ | ⟨e, info, u, rfl, rfl⟩ := (c.finish_eq_next t).1 h
  · exact ⟨u, _, _, hc.of_done, rfl⟩
  · exact ⟨u, _, _, hc.of_raised, rfl⟩

end Cmd.Ends

/-! ### Lengths -/

theorem readFrom_length {α : Type} (free : Nat → Nat → α) (rest n idx : Nat) (es : List (Elem α)) :
    (readFrom free rest n idx es).length = n := by
  induction n generalizing idx es with
  | zero => rfl
  | succ n ih => cases es <;> simp [readFrom, ih]

@[simp] theorem Buf.read_length {α : Type} (free : Nat → Nat → α) (b : Buf α) :
    (b.read free).length = b.len :=
  readFrom_length _ _ _ _ _

@[simp] theorem State.pdu_length (s : State) : s.pdu.length = s.mem.pdu.len := Buf.read_length _ _
@[simp] theorem State.u_length (s : State) : s.u.length = s.mem.u.len := Buf.read_length _ _
@[simp] theorem State.par_length (s : State) : s.par.length = s.mem.par.len := Buf.read_length _ _
@[simp] theorem State.c_length (s : State) : s.c.length = s.mem.c.len := Buf.read_length _ _
@[simp] theorem State.i_length (s : State) : s.i.length = s.mem.i.len := Buf.read_length _ _

theorem crcWidth_le (x : CrcSel) : crcWidth x ≤ capPar := by cases x <;> decide

@[simp] theorem packLsb_length (bits : List UBit) : (packLsb bits).length = (bits.length + 7) / 8 := by
  simp [packLsb]

@[simp] theorem packMsb_length (bits : List UBit) : (packMsb bits).length = (bits.length + 7) / 8 := by
  simp [packMsb]

@[simp] theorem unpackLsb_length (bytes : List Byte) (n : Nat) : (unpackLsb bytes n).length = n := by
  simp [unpackLsb]

@[simp] theorem unpackMsb_length (bytes : List Byte) (n : Nat) : (unpackMsb bytes n).length = n := by
  simp [unpackMsb]

@[simp] theorem xorBsic_length (bsic : BitVec 6) (p : List UBit) : (xorBsic bsic p).length = 6 := by
  simp [xorBsic]

@[simp] theorem infoWord_length (d p : List UBit) : (infoWord d p).length = d.length + p.length + 4 := by
  simp [infoWord, Nat.add_assoc]

@[simp] theorem class1Word_length (d p : List UBit) :
    (class1Word d p).length = 186 + p.length := by
  simp [class1Word]
  omega

theorem cs2Mask_full : cs2Mask.full = 588 := by simp [Mask.full, cs2Mask]

theorem cs3Mask_full : cs3Mask.full = 676 := by simp [Mask.full, cs3Mask]

@[simp] theorem tchFlags_length (h : UBit) : (tchFlags h).length = 16 := rfl

theorem Scheme.header_length (x : Scheme) : x.header.length = 8 := by cases x <;> rfl

theorem Scheme.np_le (x : Scheme) : x.np ≤ 431 := by cases x <;> decide

theorem afsMode_bits_le (m : BitVec 3) : (afsMode m).bits ≤ 244 := by revert m; decide

theorem afsMode_n1a_le (m : BitVec 3) : (afsMode m).n1a ≤ (afsMode m).bits := by revert m; decide

theorem nbiOf_le (x : ISel) : nbiOf x ≤ 8 := by cases x <;> decide

theorem nbOf_le (x : NBursts) : nbOf x ≤ 8 := by cases x <;> decide

/-- The coded bits of a control block (R176). -/
@[simp] theorem controlCoded_length (pdu : List Byte) : (controlCoded pdu).length = 456 := by
  simp [controlCoded, infoWord_coded_length, controlBits, crcWidth]

/-- The flag pattern in front of an info word has at most 12 bits (R200). -/
theorem Scheme.flagTable_getD_length_le (x : Scheme) (k : BitVec 3) :
    (x.flagTable.getD k.toNat []).length ≤ 12 := by
  revert k; cases x <;> decide

/-- The info word of a packet-data block fits `U` and its code fits `C` (R204, R205). -/
theorem packetWord_length_le (x : Scheme) (pdu : List Byte) : (packetWord x pdu).length ≤ 463 := by
  have hflag := x.flagTable_getD_length_le (usfOf pdu)
  have hnp := x.np_le
  have htail : x.tail ≤ 4 := by cases x <;> decide
  simp only [packetWord, packetBits, List.length_append, List.length_drop, unpackLsb_length,
    crcGen_length, List.length_replicate, crcWidth]
  omega

theorem convEnc_xcch_length (u : List UBit) : (convEnc xcchCode u).length = 2 * u.length := by
  simp [convEnc_length, xcchCode, Code.n, Code.steps]

/-- The info word of a punctured scheme is shorter still (R204). -/
theorem packetWord_coded_length_le {x : Scheme} (hx : x = .cs2 ∨ x = .cs3) (pdu : List Byte) :
    (packetWord x pdu).length ≤ 344 := by
  have hflag := x.flagTable_getD_length_le (usfOf pdu)
  have hnp : x.np ≤ 315 := by rcases hx with rfl | rfl <;> decide
  have htail : x.tail ≤ 4 := by cases x <;> decide
  simp only [packetWord, packetBits, List.length_append, List.length_drop, unpackLsb_length,
    crcGen_length, List.length_replicate, crcWidth]
  omega

theorem punctured_packetWord_length_le {x : Scheme} (hx : x = .cs2 ∨ x = .cs3) (mask : Mask)
    (pdu : List Byte) : (punct mask (convEnc xcchCode (packetWord x pdu))).length ≤ capC := by
  have hpunct := punct_length_le mask (convEnc xcchCode (packetWord x pdu))
  have hword := packetWord_coded_length_le hx pdu
  rw [convEnc_xcch_length] at hpunct
  rw [capC]
  omega

theorem packetCoded_length_le (x : Scheme) (pdu : List Byte) : (packetCoded x pdu).length ≤ capC := by
  cases x with
  | cs1 => simp [packetCoded, capC]
  | cs2 => exact punctured_packetWord_length_le (.inl rfl) cs2Mask pdu
  | cs3 => exact punctured_packetWord_length_le (.inr rfl) cs3Mask pdu
  | cs4 => exact (packetWord_length_le .cs4 pdu).trans (by decide)

theorem speechCoded_length_le (d p : List UBit) (hp : p.length ≤ 40) :
    (speechCoded d p).length ≤ capC := by
  have := slice_length_le d 182 78
  simp only [speechCoded, List.length_append, convEnc_xcch_length, class1Word_length, capC]
  omega

@[simp] theorem afsWord_length (m : BitVec 3) (d : List UBit) :
    (afsWord m d).length = d.length + 6 := by
  simp [afsWord, crcWidth]
  omega

/-- The coded block of an AMR mode fits `C` (R237, R239). -/
theorem afsCoded_length_le {P : Params} (hP : P.WF) (m : BitVec 3) (idx : Nat) (d : List UBit)
    (hd : d.length = (afsMode m).bits) : (afsCoded P m idx d).length ≤ capC := by
  have hrow : (P.afsIc.rows.getD idx []).length ≤ 16 := by
    have hwf := hP.afsIc
    simp only [AfsIc.wf, Bool.and_eq_true, decide_eq_true_eq, List.all_eq_true] at hwf
    obtain ⟨⟨⟨-, hw, -⟩, hrows⟩, -⟩ := hwf
    rw [List.getD_eq_getElem?_getD]
    cases hget : P.afsIc.rows[idx]? with
    | none => simp
    | some r =>
      have := hrows r (List.mem_of_getElem? hget)
      simp only [Option.getD_some]
      omega
  have hcode := ((hP.afsCode m).1 (afsWord m d) (by simp [hd])).2
  simp only [afsCoded, List.length_append, hcode, capC]
  omega

theorem foldl_set_length {β : Type} (pos : β → Nat) (val : β → UBit) (ks : List β) (b : List UBit) :
    (ks.foldl (fun b k => b.set (pos k) (val k)) b).length = b.length := by
  induction ks generalizing b with
  | nil => rfl
  | cons k ks ih => rw [List.foldl_cons, ih, List.length_set]

theorem scatter_length (n : Nat) (idx : List Nat) (xs : List UBit) : (scatter n idx xs).length = n := by
  rw [scatter, foldl_set_length, List.length_replicate]

theorem vote_length_le (rep : List Nat) (w : List UBit) : (vote rep w).length ≤ 244 := by
  rw [vote, foldl_set_length, List.length_take]
  exact Nat.min_le_left _ _

theorem speechPdu_length_le {P : Params} {speech : Efr} {d : List UBit} {pdu : List Byte}
    (h : speechPdu P speech d = some pdu) : pdu.length ≤ capPdu := by
  cases speech with
  | fr =>
    obtain rfl : _ = pdu := Option.some.inj h
    simp [scatter_length, capPdu]
  | efr =>
    have hvote := vote_length_le P.efrMap.rep (scatter 260 P.efrMap.order d)
    simp only [speechPdu] at h
    split at h
    · obtain rfl := Option.some.inj h
      simp only [packMsb_length, List.length_append, List.length_cons, List.length_nil, capPdu]
      omega
    · cases h

@[simp] theorem restoreFlags_length (o usf : Nat) (u : List UBit) :
    (restoreFlags o usf u).length = u.length := by
  simp [restoreFlags]

/-! ### The footprint of a codec -/

/-- From `s` to `t` nothing but working buffers, their numbering of free values and `RES` changed, and the
memory kept its canonical form. -/
structure State.CodecTo (s t : State) : Prop where
  frame : t = { s with mem := t.mem, free := t.free, res := t.res }
  memInv : s.MemInv → t.MemInv

namespace State.CodecTo

theorem refl (s : State) : s.CodecTo s := ⟨rfl, id⟩

theorem trans {s t u : State} (h : s.CodecTo t) (h' : t.CodecTo u) : s.CodecTo u :=
  ⟨h'.frame.trans (by rw [h.frame]), h'.memInv ∘ h.memInv⟩

variable {s t : State} (h : s.CodecTo t)
include h

theorem fn_eq : t.fn = s.fn := by rw [h.frame]
theorem bsic_eq : t.bsic = s.bsic := by rw [h.frame]
theorem wamr_eq : t.wamr = s.wamr := by rw [h.frame]
theorem ts_eq : t.ts = s.ts := by rw [h.frame]
theorem cs_eq : t.cs = s.cs := by rw [h.frame]
theorem q_eq : t.q = s.q := by rw [h.frame]
theorem evq_eq : t.evq = s.evq := by rw [h.frame]
theorem allocs_eq : t.allocs = s.allocs := by rw [h.frame]

theorem setRes (r : Res) : s.CodecTo { t with res := r } := h.trans ⟨rfl, id⟩

theorem setErrors (a b : Nat) : s.CodecTo (t.setErrors a b) := h.setRes _
theorem setMatch (m : Nat × Nat) : s.CodecTo (t.setMatch m) := h.setRes _
theorem setScheme (x : Scheme) (usf : BitVec 3) : s.CodecTo (t.setScheme x usf) := h.setRes _
theorem setUsf (usf : BitVec 3) : s.CodecTo (t.setUsf usf) := h.setRes _
theorem setCs (x : Scheme) : s.CodecTo (t.setCs x) := h.setRes _
theorem setSteal (b : Bool) : s.CodecTo (t.setSteal b) := h.setRes _
theorem setIndices (ft cmr : BitVec 3) : s.CodecTo (t.setIndices ft cmr) := h.setRes _

theorem setPdu {xs : List Byte} (hx : xs.length ≤ capPdu) : s.CodecTo (t.setPdu xs) :=
  h.trans ⟨rfl, fun hm => setPdu_memInv hm hx⟩
theorem setU {xs : List UBit} (hx : xs.length ≤ capU) : s.CodecTo (t.setU xs) :=
  h.trans ⟨rfl, fun hm => setU_memInv hm hx⟩
theorem setPar {xs : List UBit} (hx : xs.length ≤ capPar) : s.CodecTo (t.setPar xs) :=
  h.trans ⟨rfl, fun hm => setPar_memInv hm hx⟩
theorem setC {xs : List UBit} (hx : xs.length ≤ capC) : s.CodecTo (t.setC xs) :=
  h.trans ⟨rfl, fun hm => setC_memInv hm hx⟩
theorem setSoftC {xs : List SBit} (hx : xs.length ≤ capC) : s.CodecTo (t.setSoftC xs) :=
  h.trans ⟨rfl, fun hm => setSoftC_memInv hm hx⟩
theorem setI {xs : List UBit} (hx : xs.length ≤ capI) : s.CodecTo (t.setI xs) :=
  h.trans ⟨rfl, fun hm => setI_memInv hm hx⟩
theorem setSoftI {xs : List SBit} (hx : xs.length ≤ capI) : s.CodecTo (t.setSoftI xs) :=
  h.trans ⟨rfl, fun hm => setSoftI_memInv hm hx⟩
theorem setE {xs : List UBit} (hx : xs.length ≤ capE) : s.CodecTo (t.setE xs) :=
  h.trans ⟨rfl, fun hm => setE_memInv hm hx⟩
theorem setSoftE {xs : List SBit} (hx : xs.length ≤ capE) : s.CodecTo (t.setSoftE xs) :=
  h.trans ⟨rfl, fun hm => setSoftE_memInv hm hx⟩
theorem setH {xs : List UBit} (hx : xs.length ≤ capH) : s.CodecTo (t.setH xs) :=
  h.trans ⟨rfl, fun hm => setH_memInv hm hx⟩
theorem setSoftH {xs : List SBit} (hx : xs.length ≤ capH) : s.CodecTo (t.setSoftH xs) :=
  h.trans ⟨rfl, fun hm => setSoftH_memInv hm hx⟩

/-- The decode step (R126, R127). -/
theorem trellis (P : Params) (code : Code) (soft : List SBit) {kd : Nat} (hkd : kd ≤ capU) :
    s.CodecTo (t.trellis P code soft kd) :=
  (h.setU (by simpa using hkd)).setErrors _ _

/-- The first stages of a block encoder (R177). -/
theorem codeBlock {d p : List UBit} (hp : p.length ≤ capPar) (hd : d.length ≤ 256) :
    s.CodecTo (t.codeBlock d p) := by
  simp only [capPar] at hp
  refine ((h.setPar hp).setU ?_).setC ?_
  · simp only [infoWord_length, capU]; omega
  · simp only [infoWord_coded_length, capC]; omega

theorem codeControl (pdu : List Byte) : s.CodecTo (t.codeControl pdu) :=
  h.codeBlock (by simp [crcWidth, capPar]) (by simp [controlBits])

/-- The last stages of a block encoder. -/
theorem spread (isel : ISel) (c : List UBit) {f : List UBit} (hf : f.length ≤ capH) :
    s.CodecTo (t.spread isel c f) := by
  have := nbiOf_le isel
  refine ((h.setI ?_).setH hf).setE ?_
  · simp only [interleave_length, capI]; omega
  · rw [← blockBursts, blockBursts_length]; simp only [capE]; omega

theorem spreadTraffic (c : List UBit) (f : UBit) : s.CodecTo (t.spreadTraffic c f) :=
  h.spread .t8 c (by simp [capH])

theorem codeStolen (pdu : List Byte) : s.CodecTo (t.codeStolen pdu) :=
  (h.codeControl pdu).spreadTraffic _ _

/-- `U`, `PAR` and `C` by scheme (R206). -/
theorem codePacket (x : Scheme) (pdu : List Byte) : s.CodecTo (t.codePacket x pdu) := by
  have hcode : s.CodecTo (((t.setU (packetWord x pdu)).setPar
      (crcGen .crc16 (packetBits x pdu))).setC (packetCoded x pdu)) :=
    ((h.setU ((packetWord_length_le x pdu).trans (by decide))).setPar
      (by simp [crcWidth, capPar])).setC (packetCoded_length_le x pdu)
  cases x with
  | cs1 => exact h.codeControl pdu
  | cs2 | cs3 | cs4 => exact hcode

/-- The unmapped bits and flags of a block (R157). -/
theorem setUnmapped {nb : Nat} (hnb : nb ≤ 8) (es : List SBit) : s.CodecTo (t.setUnmapped nb es) := by
  have hbits := unmapBits_length_le nb es
  have hflags := unmapFlags_length_le nb es
  refine (h.setSoftI ?_).setSoftH ?_
  · simp only [capI]; omega
  · simp only [capH]; omega

/-- The first stages of a block decoder. -/
theorem gather (isel : ISel) (es : List SBit) : s.CodecTo (t.gather isel es) :=
  (h.setUnmapped (nbiOf_le isel) es).setSoftC (by simp [softCoded, capC])

/-- The checksum stage (R175 (c)). -/
theorem checkBlock (x : CrcSel) (d : List UBit) {p : List UBit} {pdu : List Byte}
    (hp : p.length ≤ capPar) (hpdu : pdu.length ≤ capPdu) :
    (t.checkBlock x d p pdu).Ends s.CodecTo :=
  Cmd.Ends.check (fun _ => .done ((h.setPar hp).setPdu hpdu)) fun _ => .raised (h.setPar hp)

theorem decodeControl (P : Params) (cs : List SBit) : (t.decodeControl P cs).Ends s.CodecTo := by
  refine (h.trellis P xcchCode cs (show 224 ≤ capU by decide)).checkBlock .fire40 _ ?_ ?_
  · exact (slice_length_le _ _ _).trans (by decide)
  · simp [capPdu]

/-- The stages of schemes 2 to 4 after the info word is known (R208 to R210). -/
theorem finishPacket (x : Scheme) (wd : Nat) {u : List UBit} (hu : u.length ≤ capU) :
    (t.finishPacket x wd u).Ends s.CodecTo := by
  refine ((h.setUsf _).setU (by simpa using hu)).checkBlock .crc16 _ ?_ ?_
  · exact (slice_length_le _ _ _).trans (by decide)
  · have hslice := slice_length_le
      (restoreFlags x.offset (matchHard x.flagTable (u.take wd)).1 u) x.offset x.np
    have hnp := x.np_le
    simp only [packLsb_length, capPdu]
    omega

theorem decodeScheme1 (P : Params) (cs : List SBit) : (t.decodeScheme1 P cs).Ends s.CodecTo := by
  have hctl := h.decodeControl P cs
  unfold State.decodeScheme1
  split
  · next hd => rw [hd] at hctl; exact .done (hctl.of_done.setUsf _)
  · next hd => rw [hd] at hctl; exact .raised (hctl.of_raised.setUsf _)
  · exact .refused _

theorem decodeCoded (P : Params) (x : Scheme) {mask : Mask} (hmask : mask.full ≤ capC)
    (cs : List SBit) : (t.decodeCoded P x mask cs).Ends s.CodecTo := by
  have hnp := x.np_le
  have hkd : x.np + 19 ≤ capU := by simp only [capU]; omega
  exact ((h.setSoftC (by simpa using hmask)).trellis P _ _ hkd).finishPacket x 6 (by simpa using hkd)

theorem decodePlain {cs : List SBit} (hcs : cs.length = 456) :
    (t.decodePlain cs).Ends s.CodecTo :=
  ((h.setU (by simp [hcs, capU])).setErrors _ _).finishPacket .cs4 12 (by simp [hcs, capU])

theorem decodeSpeech (P : Params) (speech : Efr) (cs : List SBit) :
    (t.decodeSpeech P speech cs).Ends s.CodecTo := by
  have hpar := (h.trellis P xcchCode (cs.take 378) (show 185 ≤ capU by decide)).setPar
    (xs := slice (convDecP P xcchCode (cs.take 378) 185) 91 3)
    ((slice_length_le _ _ _).trans (by decide))
  unfold State.decodeSpeech
  dsimp only
  refine Cmd.Ends.check (fun _ => ?_) fun _ => .raised hpar
  split
  · next hpdu => exact .done (hpar.setPdu (speechPdu_length_le hpdu))
  · exact .raised hpar

theorem decodeAfs (P : Params) (phase : Phase) (m : BitVec 3) (idx : Nat) {soft : List SBit}
    (hsoft : soft.length ≤ capC) : (t.decodeAfs P phase m idx soft).Ends s.CodecTo := by
  have hbits := afsMode_bits_le m
  have hn1a := afsMode_n1a_le m
  have hblock := ((h.setSoftC hsoft).trellis P (afsCodeOf P m).1 soft
      (show (afsMode m).bits + 6 ≤ capU by simp only [capU]; omega)).checkBlock .crc6
    ((convDecP P (afsCodeOf P m).1 soft ((afsMode m).bits + 6)).take (afsMode m).n1a)
    (p := slice (convDecP P (afsCodeOf P m).1 soft ((afsMode m).bits + 6)) (afsMode m).n1a 6)
    (pdu := packMsb ((convDecP P (afsCodeOf P m).1 soft ((afsMode m).bits + 6)).take (afsMode m).n1a ++
      (convDecP P (afsCodeOf P m).1 soft ((afsMode m).bits + 6)).drop ((afsMode m).n1a + 6)))
    ((slice_length_le _ _ _).trans (by decide))
    (by simp only [packMsb_length, List.length_append, List.length_take, List.length_drop,
          convDecP_length, capPdu]
        omega)
  unfold State.decodeAfs
  dsimp only
  split
  · next hd =>
    rw [hd] at hblock
    cases phase <;> exact .done (hblock.of_done.setIndices _ _)
  · next hd => rw [hd] at hblock; exact .raised hblock.of_raised
  · exact .refused _

end State.CodecTo

open Cmd.Ends State.CodecTo

/-! ### The units -/

theorem crcGenBody_ends (x : CrcSel) (n : Nat) (s : State) : (crcGenBody x n s).Ends s.CodecTo :=
  check (fun _ => raised (refl s)) fun _ => done ((refl s).setPar (by simpa using crcWidth_le x))

theorem crcChkBody_ends (x : CrcSel) (n : Nat) (s : State) : (crcChkBody x n s).Ends s.CodecTo :=
  check (fun _ => raised (refl s)) fun _ => check (fun _ => done (refl s)) fun _ => raised (refl s)

theorem uappParBody_ends (s : State) : (uappParBody s).Ends s.CodecTo :=
  check (fun _ => raised (refl s)) fun hfit => check (fun _ => done (refl s)) fun _ =>
    done ((refl s).setU (by simpa using hfit))

theorem uappZeroBody_ends (n : Nat) (s : State) : (uappZeroBody n s).Ends s.CodecTo :=
  check (fun _ => raised (refl s)) fun hfit => done ((refl s).setU (by simpa using hfit))

theorem parLdBody_ends {r : Nat} (hr : r ≤ 40) (n : Nat) (s : State) :
    (parLdBody r n s).Ends s.CodecTo :=
  check (fun _ => raised (refl s)) fun _ => done ((refl s).setPar ((slice_length_le _ _ _).trans hr))

theorem convEncBody_ends (P : Params) (e : Fin 16) (s : State) :
    (convEncBody P e s).Ends s.CodecTo := by
  unfold convEncBody
  split
  · exact rejected (refl s)
  · exact check (fun _ => raised (refl s)) fun hfit =>
      done ((refl s).setC (by simpa [convEnc_length] using hfit))

theorem convDecBody_ends (P : Params) (e : Fin 16) {kd : Nat} (hkd : kd ≤ 512) (s : State) :
    (convDecBody P e kd s).Ends s.CodecTo := by
  unfold convDecBody
  split
  · exact rejected (refl s)
  · exact check (fun _ => done ((refl s).trellis P _ _ hkd)) fun _ => raised (refl s)

/-- Puncturing shortens `C` in place: the only unit whose result fits because its input did. -/
theorem puncBody_ends (P : Params) (e : Fin 16) (s : State) : (puncBody P e s).Ends s.CodecTo := by
  unfold puncBody
  split
  · exact rejected (refl s)
  · refine check (fun _ => raised (refl s)) fun _ => done ⟨rfl, fun hm => State.setC_memInv hm ?_⟩
    obtain ⟨-, -, -, hc, -⟩ := (Memory.wf_iff _ _).1 hm
    have hlen := ((Buf.wf_iff _ _ _).1 hc).1
    exact (punct_length_le _ _).trans (by simpa using hlen)

theorem depuncBody_ends (P : Params) (e : Fin 16) (s : State) :
    (depuncBody P e s).Ends s.CodecTo := by
  unfold depuncBody
  split
  · exact rejected (refl s)
  · exact check (fun _ => raised (refl s)) fun _ => check (fun _ => raised (refl s)) fun hfit =>
      done ((refl s).setSoftC (by simpa using hfit))

theorem intlvBody_ends (x : ISel) (s : State) : (intlvBody x s).Ends s.CodecTo :=
  check (fun _ => raised (refl s)) fun _ => done ((refl s).setI (by cases x <;> simp [nbiOf, capI]))

theorem deintlvBody_ends (x : ISel) (s : State) : (deintlvBody x s).Ends s.CodecTo :=
  check (fun _ => raised (refl s)) fun _ => done ((refl s).setSoftC (by simp [capC]))

theorem mapBody_ends {nb : Nat} (hnb : nb ≤ 8) (s : State) : (mapBody nb s).Ends s.CodecTo := by
  refine check (fun _ => raised (refl s)) fun hlen => done ((refl s).setE ?_)
  obtain ⟨hi, -⟩ := not_or.1 hlen
  rw [mapBlock_length _ _ _ (by simpa using hi), capE]
  omega

theorem unmapBody_ends {nb : Nat} (hnb : nb ≤ 8) (s : State) : (unmapBody nb s).Ends s.CodecTo :=
  check (fun _ => raised (refl s)) fun _ => done ((refl s).setUnmapped hnb _)

theorem hSetBody_ends {nb : Nat} (hnb : nb ≤ 8) (pattern : Nat) (s : State) :
    (hSetBody nb pattern s).Ends s.CodecTo :=
  done ((refl s).setH (by simp only [hPattern_length, capH]; omega))

theorem unpackBody_ends (o : BitOrder) {n : Nat} (hn : n ≤ 512) (s : State) :
    (unpackBody o n s).Ends s.CodecTo :=
  check (fun _ => raised (refl s)) fun _ => done ((refl s).setU (by simpa [capU] using hn))

theorem packBody_ends (o : BitOrder) {n : Nat} (hn : n ≤ 512) (s : State) :
    (packBody o n s).Ends s.CodecTo :=
  check (fun _ => raised (refl s)) fun _ => done ((refl s).setPdu
    (by simp only [packBits_length, List.length_take, capPdu]; omega))

theorem matchBody_ends (P : Params) (x : TSel) (s : State) : (matchBody P x s).Ends s.CodecTo := by
  refine check (fun _ => rejected (refl s)) fun _ => ?_
  split
  · exact raised (refl s)
  · exact done ((refl s).setMatch _)

/-! ### The codecs -/

theorem xcchEncBody_ends (s : State) : (xcchEncBody s).Ends s.CodecTo :=
  check (fun _ => raised (refl s)) fun _ => done (((refl s).codeControl _).spread _ _ (by simp [capH]))

theorem rachEncBody_ends (bsic : BitVec 6) (s : State) : (rachEncBody bsic s).Ends s.CodecTo :=
  check (fun _ => raised (refl s)) fun _ => done ((refl s).codeBlock (by simp [capPar]) (by simp))

theorem schEncBody_ends (s : State) : (schEncBody s).Ends s.CodecTo :=
  check (fun _ => raised (refl s)) fun _ =>
    done ((refl s).codeBlock (by simp [crcWidth, capPar]) (by simp))

theorem pdtchEncBody_ends (s : State) : (pdtchEncBody s).Ends s.CodecTo := by
  unfold pdtchEncBody
  split
  · exact raised (refl s)
  · next x _ =>
    exact done ((((refl s).setScheme _ _).codePacket _ _).spread _ _
      (by simp [x.header_length, capH]))

theorem tchfrEncBody_ends (P : Params) (speech : Efr) (s : State) :
    (tchfrEncBody P speech s).Ends s.CodecTo := by
  refine check (fun _ => done ((refl s).codeStolen _)) fun _ =>
    check (fun _ => ?_) fun _ => raised (refl s)
  refine done (((((refl s).setPar ?_).setU ?_).setC ?_).spreadTraffic _ _)
  · simp [crcWidth, capPar]
  · simp [crcWidth, capU]
  · exact speechCoded_length_le _ _ (by simp [crcWidth])

theorem tchafsEncBody_ends {P : Params} (hP : P.WF) (phase : Phase) (s : State) :
    (tchafsEncBody P phase s).Ends s.CodecTo := by
  unfold tchafsEncBody
  refine check (fun _ => done ((refl s).codeStolen _)) fun _ => ?_
  split
  · exact raised (refl s)
  · have hbits := afsMode_bits_le (listAt s.wamr.list s.wamr.ft.toNat)
    refine done (((((refl s).setPar ?_).setU ?_).setC ?_).spreadTraffic _ _)
    · simp [crcWidth, capPar]
    · simp only [afsWord_length, unpackMsb_length, capU]; omega
    · exact afsCoded_length_le hP _ _ _ (by simp)

theorem xcchDecBody_ends (P : Params) (s : State) : (xcchDecBody P s).Ends s.CodecTo :=
  check (fun _ => raised (refl s)) fun _ => ((refl s).gather _ _).decodeControl P _

theorem rachDecBody_ends (P : Params) (bsic : BitVec 6) (s : State) :
    (rachDecBody P bsic s).Ends s.CodecTo :=
  check (fun _ => raised (refl s)) fun _ => ((refl s).trellis P _ _ (by decide)).checkBlock _ _
    (by simp [capPar]) (by simp [capPdu])

theorem schDecBody_ends (P : Params) (s : State) : (schDecBody P s).Ends s.CodecTo :=
  check (fun _ => raised (refl s)) fun _ => ((refl s).trellis P _ _ (by decide)).checkBlock _ _
    ((slice_length_le _ _ _).trans (by decide)) (by simp [capPdu])

theorem pdtchDecBody_ends (P : Params) (s : State) : (pdtchDecBody P s).Ends s.CodecTo := by
  refine check (fun _ => raised (refl s)) fun _ => ?_
  have hstart := (((refl s).gather .x4 s.softE).setMatch
    (matchSoft tCs ((unmapFlags 4 s.softE).take 8))).setCs
      (schemeOfIdx (matchSoft tCs ((unmapFlags 4 s.softE).take 8)).1)
  dsimp only
  split
  · exact hstart.decodeScheme1 P _
  · exact hstart.decodeCoded P .cs2 (by rw [cs2Mask_full]; decide) _
  · exact hstart.decodeCoded P .cs3 (by rw [cs3Mask_full]; decide) _
  · exact hstart.decodePlain (by simp [softCoded])

theorem tchfrDecBody_ends (P : Params) (speech : Efr) (s : State) :
    (tchfrDecBody P speech s).Ends s.CodecTo :=
  check (fun _ => raised (refl s)) fun _ => check
    (fun _ => (((refl s).gather _ _).setSteal _).decodeControl P _)
    fun _ => (((refl s).gather _ _).setSteal _).decodeSpeech P speech _

theorem tchafsDecBody_ends (P : Params) (phase : Phase) (s : State) :
    (tchafsDecBody P phase s).Ends s.CodecTo := by
  have hstart := (((refl s).gather .t8 s.softE).setSteal
    (stolen (unmapFlags 8 s.softE))).setIndices s.wamr.ft s.wamr.cmr
  refine check (fun _ => raised (refl s)) fun _ => check (fun _ => hstart.decodeControl P _) fun _ => ?_
  dsimp only
  split
  · exact raised (hstart.setMatch _)
  · exact check (fun _ => raised (refl s)) fun hfit =>
      (hstart.setMatch _).decodeAfs P phase _ _ (Nat.not_lt.1 hfit)

/-- The stand-alone unit and codec commands but `AMR.CFG`, which writes `WAMR`. -/
theorem bodyIn_ends_codecTo {P : Params} (hP : P.WF) {i : Instr} (hwf : i.WellFormed)
    (hi : isCodecCommand i = true) (hcfg : i ≠ .amrCfg) (s : State) :
    (bodyIn P i s).Ends s.CodecTo := by
  cases i with
  | crcGen x n => exact crcGenBody_ends x _ s
  | crcChk x n => exact crcChkBody_ends x _ s
  | uappPar => exact uappParBody_ends s
  | uappZero n => exact uappZeroBody_ends _ s
  | parLd r n => exact parLdBody_ends (of_decide_eq_true hwf).2 _ s
  | convEnc e => exact convEncBody_ends P e s
  | convDec e kd => exact convDecBody_ends P e (of_decide_eq_true hwf) s
  | punc e => exact puncBody_ends P e s
  | depunc e => exact depuncBody_ends P e s
  | intlv x => exact intlvBody_ends x s
  | deintlv x => exact deintlvBody_ends x s
  | map nb => exact mapBody_ends (nbOf_le nb) s
  | unmap nb => exact unmapBody_ends (nbOf_le nb) s
  | hSet nb p => exact hSetBody_ends (nbOf_le nb) _ s
  | unpack o n => exact unpackBody_ends o (of_decide_eq_true hwf) s
  | pack o n => exact packBody_ends o (of_decide_eq_true hwf) s
  | matchPat x => exact matchBody_ends P x s
  | xcchEnc => exact xcchEncBody_ends s
  | xcchDec => exact xcchDecBody_ends P s
  | rachEnc bsic => exact rachEncBody_ends bsic s
  | rachDec bsic => exact rachDecBody_ends P bsic s
  | schEnc => exact schEncBody_ends s
  | schDec => exact schDecBody_ends P s
  | pdtchEnc => exact pdtchEncBody_ends s
  | pdtchDec => exact pdtchDecBody_ends P s
  | amrCfg => exact absurd rfl hcfg
  | tchfrEnc speech => exact tchfrEncBody_ends P speech s
  | tchfrDec speech => exact tchfrDecBody_ends P speech s
  | tchafsEnc phase => exact tchafsEncBody_ends hP phase s
  | tchafsDec phase => exact tchafsDecBody_ends P phase s
  | schedInit | setPchan | chAct | chDeact | setMode | setCipher | pduEnq | setAtt | tick | rxBurst
  | setBsic => simp [isCodecCommand] at hi

end Sys2Proof.Machine
end

