-- ==== Sys2Proof/Proofs/StepCases.lean ====
section
/-! What one step can be (20_memory.md R74 to R78, 30_encoding.md R96): an idle step, a host read, a command,
or a host write to a row of the data window. -/

namespace Sys2Proof.Machine

/-! ### Accesses -/

theorem accessOk_iff (off n : Nat) : accessOk off n = true ↔ n ∈ [1, 2, 4] ∧ off % n = 0 := by
  simp [accessOk, or_assoc]

theorem step_idle {s : State} (h : s.host = []) : step s = .next s := by
  simp [step, runNext, h]

theorem step_read {s : State} {rest : List HostAccess} {off : BitVec 16} {n : Nat}
    (h : s.host = .read off n :: rest) :
    step s = if accessOk off.toNat n then .next (hostReadAt { s with host := rest } off.toNat n)
      else .fault .badAccess := by
  simp [step, runNext, h, access]

theorem step_write {s : State} {rest : List HostAccess} {off : BitVec 16} {n : Nat} {v : Word}
    (h : s.host = .write off n v :: rest) :
    step s = if accessOk off.toNat n = false then .fault .badAccess
      else if off = 0 ∧ n = 4 then command v { s with host := rest }
      else hostWriteAt { s with host := rest } off.toNat n v := by
  simp [step, runNext, h, access]

/-- A command that the port runs is well formed (R96). -/
theorem wellFormed_of_decode {w : Word} {i : Instr} (h : decode w = .ok i) : i.WellFormed := by
  unfold decode at h
  split at h
  · cases h
  · split at h
    · next hwf => cases h; exact hwf
    · cases h

/-- A command word is illegal or runs the meaning of a well-formed command. -/
theorem command_cases {w : Word} {s t : State} (h : command w s = .next t) :
    t = s.raise .illegal w.high.toNat ∨
      ∃ i : Instr, i.WellFormed ∧ execIn Config.inst i s = .next t := by
  unfold command at h
  split at h
  · exact .inl (Host.Outcome.next.inj h).symm
  · next i hdecode => exact .inr ⟨i, wellFormed_of_decode hdecode, by rwa [← exec_eq_execIn]⟩

theorem hostWriteAt_eq_next {s t : State} {off n : Nat} {v : Word}
    (h : hostWriteAt s off n v = .next t) : writeBytes s off (bytesOf v n) = some t := by
  unfold hostWriteAt at h
  split at h
  · cases h
  · split at h
    · cases h
    · next hw => rw [hw, Host.Outcome.next.inj h]

/-- What a step that goes on has done. -/
inductive State.StepsTo (s t : State) : Prop
  | idle (h : t = s)
  | read (rest : List HostAccess) (off n : Nat) (h : t = hostReadAt { s with host := rest } off n)
  | illegal (rest : List HostAccess) (info : Nat)
      (h : t = State.raise { s with host := rest } .illegal info)
  | command (rest : List HostAccess) (i : Instr) (hwf : i.WellFormed)
      (h : execIn Config.inst i { s with host := rest } = .next t)
  | write (rest : List HostAccess) (off n : Nat) (v : Word) (hok : accessOk off n = true)
      (h : writeBytes { s with host := rest } off (bytesOf v n) = some t)

theorem stepsTo_of_step {s t : State} (h : step s = .next t) : s.StepsTo t := by
  rcases hhost : s.host with _ | ⟨⟨off, n⟩ | ⟨off, n, v⟩, rest⟩
  · rw [step_idle hhost] at h
    exact .idle (Host.Outcome.next.inj h).symm
  · rw [step_read hhost] at h
    split at h
    · exact .read rest off.toNat n (Host.Outcome.next.inj h).symm
    · cases h
  · rw [step_write hhost] at h
    split at h
    · cases h
    · next hok =>
      split at h
      · obtain hill | ⟨i, hwf, hi⟩ := command_cases h
        · exact .illegal rest _ hill
        · exact .command rest i hwf hi
      · exact .write rest off.toNat n v (by simpa using hok) (hostWriteAt_eq_next h)

/-! ### Places -/

/-- The byte at `off` is element `k` of a row of `n` bytes from `base`. -/
def InRow (off base n k : Nat) : Prop := off = base + k ∧ k < n

/-- The row and the element that a place names (R75). -/
def Place.StandsAt (off : Nat) : Place → Prop
  | .word base => base = off - off % 4
  | .prm k => InRow off 0x0040 16 k
  | .pdu k => InRow off 0x0080 64 k
  | .par k => InRow off 0x00C0 40 k
  | .h k => InRow off 0x00F0 16 k
  | .hs k => InRow off 0x0100 16 k
  | .u k => InRow off 0x0200 512 k
  | .c k => InRow off 0x0400 1024 k
  | .cs k => InRow off 0x0800 1024 k
  | .i k => InRow off 0x0C00 912 k
  | .is k => InRow off 0x1000 912 k
  | .e k => InRow off 0x1400 928 k
  | .es k => InRow off 0x1800 928 k
  | .rxBits k => InRow off 0x1C40 444 k
  | .headData k => InRow off 0x2040 444 k
  | .cipher k => InRow off 0x8050 36 k
  | .ulBuf k => InRow off 0x8400 928 k
  | .dlBuf k => InRow off 0x8800 928 k

theorem inRow_of_within {off base n : Nat} (h : within off base n = true) :
    InRow off base n (off - base) := by
  obtain ⟨hlo, hhi⟩ := of_decide_eq_true h
  exact ⟨by omega, by omega⟩

theorem InRow.within {off base n k : Nat} (h : InRow off base n k) : within off base n = true := by
  obtain ⟨rfl, hk⟩ := h
  exact decide_eq_true ⟨by omega, by omega⟩

/-- One row of the map and the rows after it. -/
theorem Place.standsAt_ite {off base n : Nat} {p q : Place}
    (hp : within off base n = true → p.StandsAt off) (hq : q.StandsAt off) :
    (if within off base n then p else q).StandsAt off := by
  split
  · next h => exact hp h
  · exact hq

theorem placeOf_standsAt (off : Nat) : (placeOf off).StandsAt off := by
  unfold placeOf
  iterate 17 refine Place.standsAt_ite inRow_of_within ?_
  exact rfl

/-- An aligned access of `n` bytes stays within a row whose ends are multiples of 4. -/
theorem InRow.aligned_le {off base m k n : Nat} (h : InRow off base m k) (hok : accessOk off n = true)
    (hbase : base % 4 = 0) (hm : m % 4 = 0) : k + n ≤ m := by
  obtain ⟨rfl, hk⟩ := h
  obtain ⟨hn, hoff⟩ := (accessOk_iff _ _).1 hok
  simp only [List.mem_cons, List.not_mem_nil, or_false] at hn
  rcases hn with rfl | rfl | rfl <;> omega

@[simp] theorem bytesOf_length (v : Word) (n : Nat) : (bytesOf v n).length = n := by
  simp [bytesOf]

end Sys2Proof.Machine
end

