-- ==== Sys2Proof/Proofs/MemoryInvariant.lean ====
section
/-! Every step keeps the canonical form of the working buffers (10_state.md R50, R51, R53; 20_memory.md
R76). -/

namespace Sys2Proof.Machine

/-! ### The rows of hard and of soft bits -/

/-- The place of element `k` of a buffer of hard bits. -/
def HardBuf.place (k : Nat) : HardBuf → Place
  | .par => .par k | .h => .h k | .u => .u k | .c => .c k | .i => .i k | .e => .e k

/-- The place of element `k` of a buffer of soft bits. -/
def SoftBuf.place (k : Nat) : SoftBuf → Place
  | .hs => .hs k | .cs => .cs k | .is => .is k | .es => .es k

theorem HardBuf.inRow {b : HardBuf} {off k : Nat} (h : placeOf off = b.place k) :
    InRow off b.base b.cap k := by
  have hstands := placeOf_standsAt off
  rw [h] at hstands
  cases b <;> exact hstands

theorem SoftBuf.inRow {b : SoftBuf} {off k : Nat} (h : placeOf off = b.place k) :
    InRow off b.base b.cap k := by
  have hstands := placeOf_standsAt off
  rw [h] at hstands
  cases b <;> exact hstands

theorem writeBytes_hard {b : HardBuf} {off k : Nat} (h : placeOf off = b.place k) (s : State)
    (bytes : List Byte) : writeBytes s off bytes =
      (putBytes ubitOf? (b.of s.mem) k bytes).map fun x => { s with mem := b.into s.mem x } := by
  unfold writeBytes
  rw [h]
  cases b <;> rfl

theorem writeBytes_soft {b : SoftBuf} {off k : Nat} (h : placeOf off = b.place k) (s : State)
    (bytes : List Byte) : writeBytes s off bytes =
      (putBytes SBit.ofByte? (b.of s.mem) k bytes).map fun x => { s with mem := b.into s.mem x } := by
  unfold writeBytes
  rw [h]
  cases b <;> rfl

theorem HardBuf.wf_of {free : Nat} {m : Memory} (h : m.wf free = true) (b : HardBuf) :
    (b.of m).wf b.cap free = true := by
  obtain ⟨-, hu, hpar, hc, -, hi, -, he, -, hh, -⟩ := (Memory.wf_iff _ _).1 h
  cases b <;> assumption

theorem SoftBuf.wf_of {free : Nat} {m : Memory} (h : m.wf free = true) (b : SoftBuf) :
    (b.of m).wf b.cap free = true := by
  obtain ⟨-, -, -, -, hcs, -, his, -, hes, -, hhs⟩ := (Memory.wf_iff _ _).1 h
  cases b <;> assumption

theorem HardBuf.wf_into {free : Nat} {m : Memory} (h : m.wf free = true) (b : HardBuf) {x : Buf UBit}
    (hx : x.wf b.cap free = true) : (b.into m x).wf free = true := by
  rw [Memory.wf_iff] at h ⊢
  obtain ⟨hpdu, hu, hpar, hc, hcs, hi, his, he, hes, hh, hhs⟩ := h
  cases b <;> exact ⟨by assumption, by assumption, by assumption, by assumption, by assumption,
    by assumption, by assumption, by assumption, by assumption, by assumption, by assumption⟩

theorem SoftBuf.wf_into {free : Nat} {m : Memory} (h : m.wf free = true) (b : SoftBuf) {x : Buf SBit}
    (hx : x.wf b.cap free = true) : (b.into m x).wf free = true := by
  rw [Memory.wf_iff] at h ⊢
  obtain ⟨hpdu, hu, hpar, hc, hcs, hi, his, he, hes, hh, hhs⟩ := h
  cases b <;> exact ⟨by assumption, by assumption, by assumption, by assumption, by assumption,
    by assumption, by assumption, by assumption, by assumption, by assumption, by assumption⟩

theorem HardBuf.base_mod (b : HardBuf) : b.base % 4 = 0 := by cases b <;> rfl
theorem HardBuf.cap_mod (b : HardBuf) : b.cap % 4 = 0 := by cases b <;> rfl
theorem SoftBuf.base_mod (b : SoftBuf) : b.base % 4 = 0 := by cases b <;> rfl
theorem SoftBuf.cap_mod (b : SoftBuf) : b.cap % 4 = 0 := by cases b <;> rfl

theorem Memory.wf_mono {free free' : Nat} {m : Memory} (h : m.wf free = true) (hf : free ≤ free') :
    m.wf free' = true := by
  obtain ⟨hpdu, hu, hpar, hc, hcs, hi, his, he, hes, hh, hhs⟩ := (Memory.wf_iff _ _).1 h
  exact (Memory.wf_iff _ _).2 ⟨Buf.wf_mono hpdu hf, Buf.wf_mono hu hf, Buf.wf_mono hpar hf,
    Buf.wf_mono hc hf, Buf.wf_mono hcs hf, Buf.wf_mono hi hf, Buf.wf_mono his hf, Buf.wf_mono he hf,
    Buf.wf_mono hes hf, Buf.wf_mono hh hf, Buf.wf_mono hhs hf⟩

/-! ### Host writes -/

theorem putBytes_wf {α : Type} {conv : Byte → Option α} {cap free : Nat} {bytes : List Byte}
    {b b' : Buf α} {k : Nat} (hb : b.wf cap free = true) (hk : k + bytes.length ≤ cap)
    (h : putBytes conv b k bytes = some b') : b'.wf cap free = true := by
  induction bytes generalizing b k with
  | nil => cases h; exact hb
  | cons x xs ih =>
    rw [List.length_cons] at hk
    simp only [putBytes] at h
    split at h
    · cases h
    · exact ih (Buf.wf_put hb k (by omega) _) (by omega) h

theorem writeBytes_hard_memInv {s t : State} {b : HardBuf} {off k n : Nat} {bytes : List Byte}
    (hs : s.MemInv) (hok : accessOk off n = true) (hn : bytes.length = n)
    (hplace : placeOf off = b.place k) (h : writeBytes s off bytes = some t) : t.MemInv := by
  rw [writeBytes_hard hplace, Option.map_eq_some_iff] at h
  obtain ⟨x, hx, rfl⟩ := h
  have hfit := (HardBuf.inRow hplace).aligned_le hok b.base_mod b.cap_mod
  exact b.wf_into hs (putBytes_wf (b.wf_of hs) (by rwa [hn]) hx)

theorem writeBytes_soft_memInv {s t : State} {b : SoftBuf} {off k n : Nat} {bytes : List Byte}
    (hs : s.MemInv) (hok : accessOk off n = true) (hn : bytes.length = n)
    (hplace : placeOf off = b.place k) (h : writeBytes s off bytes = some t) : t.MemInv := by
  rw [writeBytes_soft hplace, Option.map_eq_some_iff] at h
  obtain ⟨x, hx, rfl⟩ := h
  have hfit := (SoftBuf.inRow hplace).aligned_le hok b.base_mod b.cap_mod
  exact b.wf_into hs (putBytes_wf (b.wf_of hs) (by rwa [hn]) hx)

/-- The length rows: every length that is set takes a number of its own for what it loses. -/
theorem setLens_memInv {s t : State} {base : Nat} {w : Word} (hs : s.MemInv)
    (h : setLens s base w = some t) : t.MemInv := by
  obtain ⟨hpdu, hu, hpar, hc, hcs, hi, his, he, hes, hh, hhs⟩ := (Memory.wf_iff _ _).1 hs
  have hmono : s.free ≤ s.free + 4 := by omega
  have hset {α : Type} {cap : Nat} {b : Buf α} (hb : b.wf cap s.free = true) (k : Nat) (hk : k < 4)
      {n : Nat} (hn : n ≤ cap) : (b.setLen (s.free + k) n).wf cap (s.free + 4) = true :=
    Buf.wf_setLen hb (by omega) (by omega) n hn
  unfold setLens at h
  dsimp only at h
  split at h <;> split at h
  · next hfit =>
    obtain ⟨hn0, hn1, hn2, hn3⟩ := hfit
    cases h
    exact (Memory.wf_iff _ _).2 ⟨hset hpdu 0 (by decide) hn0, Buf.wf_mono hu hmono,
      hset hpar 1 (by decide) hn1, Buf.wf_mono hc hmono, Buf.wf_mono hcs hmono,
      Buf.wf_mono hi hmono, Buf.wf_mono his hmono, Buf.wf_mono he hmono, Buf.wf_mono hes hmono,
      hset hh 2 (by decide) hn2, hset hhs 3 (by decide) hn3⟩
  · cases h
  · next hfit =>
    obtain ⟨hn0, hn1⟩ := hfit
    cases h
    exact (Memory.wf_iff _ _).2 ⟨Buf.wf_mono hpdu hmono, hset hu 0 (by decide) hn0,
      Buf.wf_mono hpar hmono, hset hc 1 (by decide) hn1, Buf.wf_mono hcs hmono,
      Buf.wf_mono hi hmono, Buf.wf_mono his hmono, Buf.wf_mono he hmono, Buf.wf_mono hes hmono,
      Buf.wf_mono hh hmono, Buf.wf_mono hhs hmono⟩
  · cases h
  · next hfit =>
    obtain ⟨hn0, hn1⟩ := hfit
    cases h
    exact (Memory.wf_iff _ _).2 ⟨Buf.wf_mono hpdu hmono, Buf.wf_mono hu hmono,
      Buf.wf_mono hpar hmono, Buf.wf_mono hc hmono, hset hcs 0 (by decide) hn0,
      hset hi 1 (by decide) hn1, Buf.wf_mono his hmono, Buf.wf_mono he hmono,
      Buf.wf_mono hes hmono, Buf.wf_mono hh hmono, Buf.wf_mono hhs hmono⟩
  · cases h
  · next hfit =>
    obtain ⟨hn0, hn1⟩ := hfit
    cases h
    exact (Memory.wf_iff _ _).2 ⟨Buf.wf_mono hpdu hmono, Buf.wf_mono hu hmono,
      Buf.wf_mono hpar hmono, Buf.wf_mono hc hmono, Buf.wf_mono hcs hmono, Buf.wf_mono hi hmono,
      hset his 0 (by decide) hn0, hset he 1 (by decide) hn1, Buf.wf_mono hes hmono,
      Buf.wf_mono hh hmono, Buf.wf_mono hhs hmono⟩
  · cases h
  · next hfit =>
    cases h
    exact (Memory.wf_iff _ _).2 ⟨Buf.wf_mono hpdu hmono, Buf.wf_mono hu hmono,
      Buf.wf_mono hpar hmono, Buf.wf_mono hc hmono, Buf.wf_mono hcs hmono, Buf.wf_mono hi hmono,
      Buf.wf_mono his hmono, Buf.wf_mono he hmono, hset hes 0 (by decide) hfit,
      Buf.wf_mono hh hmono, Buf.wf_mono hhs hmono⟩
  · cases h

theorem writeWord_memInv {s t : State} {base : Nat} {w : Word} (hs : s.MemInv)
    (h : writeWord s base w = some t) : t.MemInv := by
  unfold writeWord at h
  split at h
  iterate 5 exact setLens_memInv hs h
  all_goals cases h; exact hs

theorem writeBytes_memInv {s t : State} {off n : Nat} {bytes : List Byte} (hs : s.MemInv)
    (hok : accessOk off n = true) (hn : bytes.length = n) (h : writeBytes s off bytes = some t) :
    t.MemInv := by
  have hstands := placeOf_standsAt off
  cases hplace : placeOf off with
  | par k => exact writeBytes_hard_memInv (b := .par) hs hok hn hplace h
  | h k => exact writeBytes_hard_memInv (b := .h) hs hok hn hplace h
  | u k => exact writeBytes_hard_memInv (b := .u) hs hok hn hplace h
  | c k => exact writeBytes_hard_memInv (b := .c) hs hok hn hplace h
  | i k => exact writeBytes_hard_memInv (b := .i) hs hok hn hplace h
  | e k => exact writeBytes_hard_memInv (b := .e) hs hok hn hplace h
  | hs k => exact writeBytes_soft_memInv (b := .hs) hs hok hn hplace h
  | cs k => exact writeBytes_soft_memInv (b := .cs) hs hok hn hplace h
  | is k => exact writeBytes_soft_memInv (b := .is) hs hok hn hplace h
  | es k => exact writeBytes_soft_memInv (b := .es) hs hok hn hplace h
  | pdu k =>
    rw [hplace] at hstands
    simp only [writeBytes, hplace, Option.map_eq_some_iff] at h
    obtain ⟨x, hx, rfl⟩ := h
    have hfit := InRow.aligned_le hstands hok (by decide) (by decide)
    obtain ⟨hpdu, hrest⟩ := (Memory.wf_iff _ _).1 hs
    exact (Memory.wf_iff _ _).2 ⟨putBytes_wf hpdu (by rwa [hn]) hx, hrest⟩
  | rxBits k =>
    simp only [writeBytes, hplace, Option.map_eq_some_iff] at h
    obtain ⟨x, -, rfl⟩ := h
    exact hs
  | word base =>
    simp only [writeBytes, hplace] at h
    exact writeWord_memInv hs h
  | prm k | headData k | cipher k | ulBuf k | dlBuf k =>
    simp only [writeBytes, hplace, Option.some.injEq] at h
    subst h
    exact hs

/-! ### Commands -/

theorem completeUl_ne_raised (P : Params) (tn : Tn) (ch : Chan) (nb : Nat) (x : ChanState) (s : State)
    (e : ErrCode) (info : Nat) (t : State) : completeUl P tn ch nb x s ≠ .raised e info t := by
  unfold completeUl
  dsimp only
  split <;> simp

theorem assembleUl_ne_raised (P : Params) (tn : Tn) (ch : Chan) (bid : Fin 8) (f0 : Fn) (s : State)
    (e : ErrCode) (info : Nat) (t : State) : assembleUl P tn ch bid f0 s ≠ .raised e info t := by
  unfold assembleUl
  dsimp only
  split
  · exact completeUl_ne_raised _ _ _ _ _ _ _ _ _
  · simp

theorem accessUl_ne_raised (P : Params) (tn : Tn) (ch : Chan) (s : State)
    (e : ErrCode) (info : Nat) (t : State) : accessUl P tn ch s ≠ .raised e info t := by
  unfold accessUl
  dsimp only
  split <;> simp

/-- Only a failed allocation lets the receive path raise an error past the burst's checks (R270 (7)). -/
theorem allocAssemble_eq_raised {P : Params} {tn : Tn} {ch : Chan} {bid : Fin 8} {f0 : Fn}
    {s t : State} {e : ErrCode} {info : Nat} (h : allocAssemble P tn ch bid f0 s = .raised e info t) :
    t = { s with allocs := s.allocs + 1 } := by
  unfold allocAssemble at h
  rw [State.alloc_eq] at h
  split at h
  · exact absurd h (assembleUl_ne_raised _ _ _ _ _ _ _ _ _)
  · split at h
    · exact absurd h (assembleUl_ne_raised _ _ _ _ _ _ _ _ _)
    · next halloc => cases h; exact (congrArg Prod.snd halloc).symm

open Cmd.Ends

theorem Cmd.scratched_ends_memInv {c : Cmd} (h : ∀ e info t, c = .raised e info t → t.MemInv) :
    c.scratched.Ends State.MemInv := by
  cases c with
  | done s => exact .done s.scratch_memInv
  | raised e info s => exact .raised (h e info s rfl)
  | refused r => exact .refused r

theorem rxBurstBody_ends_memInv (P : Params) {s : State} (hs : s.MemInv) :
    (rxBurstBody P s).Ends State.MemInv := by
  unfold rxBurstBody
  split
  · exact raised hs
  · split
    · exact done hs
    · refine check (fun _ => done hs) fun _ => check (fun _ => ?_) fun _ =>
        check (fun _ => done hs) fun _ => ?_
      · exact Cmd.scratched_ends_memInv fun e info t h => absurd h (accessUl_ne_raised _ _ _ _ _ _ _)
      · refine Cmd.scratched_ends_memInv fun e info t h => ?_
        rw [allocAssemble_eq_raised h]
        exact hs

theorem tickBody_ends_memInv (P : Params) (fn : Fn) (s : State) :
    (tickBody P fn s).Ends State.MemInv := by
  refine check (fun _ => refused _) fun _ => ?_
  split
  · exact done (State.scratch_memInv _)
  · exact raised (State.scratch_memInv _)

theorem foldl_activate_memInv (tn : Tn) (chs : List Chan) {s : State} (hs : s.MemInv) :
    (chs.foldl (fun t x => t.activate tn x) s).MemInv := by
  induction chs generalizing s with
  | nil => exact hs
  | cons ch chs ih => exact ih (s := s.activate tn ch) hs

theorem foldl_clearChan_memInv (tn : Tn) (chs : List Chan) {s : State} (hs : s.MemInv) :
    (chs.foldl (fun t x => t.clearChan tn x) s).MemInv := by
  induction chs generalizing s with
  | nil => exact hs
  | cons ch chs ih => exact ih (s := s.clearChan tn ch) hs

theorem setModeBody_ends_memInv (tn : Tn) (ch : Chan) {s : State} (hs : s.MemInv) :
    (setModeBody tn ch s).Ends State.MemInv := by
  unfold setModeBody
  split
  · exact raised hs
  · exact check (fun _ => raised hs) fun _ => done hs

/-- Every command keeps the canonical form of the memory. -/
theorem bodyIn_ends_memInv {P : Params} (hP : P.WF) {i : Instr} (hwf : i.WellFormed) {s : State}
    (hs : s.MemInv) : (bodyIn P i s).Ends State.MemInv := by
  have hcodec (hi : isCodecCommand i = true) (hcfg : i ≠ .amrCfg) :=
    (bodyIn_ends_codecTo hP hwf hi hcfg s).mono fun t ht => ht.memInv hs
  cases i with
  | amrCfg => exact check (fun _ => raised hs) fun _ => done hs
  | schedInit | setAtt | setBsic => exact done hs
  | setPchan tn p tsc => exact check (fun _ => rejected hs) fun _ => done hs
  | chAct tn ch k => exact check (fun _ => raised hs) fun _ => done (foldl_activate_memInv tn _ hs)
  | chDeact tn ch k =>
    exact check (fun _ => raised hs) fun _ => done (foldl_clearChan_memInv tn _ hs)
  | setMode tn ch => exact setModeBody_ends_memInv tn ch hs
  | setCipher tn ch dir =>
    exact check (fun _ => raised hs) fun _ => check (fun _ => raised hs) fun _ => done hs
  | pduEnq tn ch aux =>
    exact check (fun _ => raised hs) fun _ => check (fun _ => raised hs) fun _ => done hs
  | tick fn => exact tickBody_ends_memInv P fn s
  | rxBurst => exact rxBurstBody_ends_memInv P hs
  | _ => exact hcodec rfl nofun

end Sys2Proof.Machine

namespace Sys2Proof.Proofs

open Sys2Proof.Machine

/-- Settles O56: a rule writes only vectors that fit their buffers, each with a fresh number for what it
loses; a host write stays within its row. -/
theorem stepKeepsMemory : Obligations.StepKeepsMemory := by
  unfold Obligations.StepKeepsMemory
  intro s t hs hstep
  cases stepsTo_of_step hstep with
  | idle h => rwa [h]
  | read rest off n h =>
    rw [h]
    exact Memory.wf_mono hs (Nat.le_succ _)
  | illegal rest info h => rw [h]; exact hs
  | command rest i hwf h =>
    obtain ⟨u, e, info, hu, rfl⟩ := (bodyIn_ends_memInv Config.model.wf hwf
      (s := { s with host := rest }) hs).finish h
    exact hu
  | write rest off n v hok h => exact writeBytes_memInv (s := { s with host := rest }) hs hok (by simp) h

end Sys2Proof.Proofs
end

