-- ==== Sys2Proof/Proofs/SchedulerInvariant.lean ====
section
/-! Every step keeps the shape of the scheduler state (10_state.md R21, R26, R33, R34, R37, R43, R44;
47_scheduler.md R255 to R285). -/

namespace Sys2Proof.Machine

/-! ### The shape of a channel state -/

/-- `ChanState.wf` with a name for each of its parts. -/
structure ChanState.Shaped (ch : Chan) (x : ChanState) : Prop where
  ulBuf : x.ulBuf.length = if x.ulAlloc then 928 else 0
  ulMask : x.ulMask = 0 ∨ x.ulAlloc = true
  dlBuf : x.dlBuf.length = if x.dlAlloc then 116 * nbDl ch else 0
  dlMod : x.dlMod = false
  ulFirstFn : x.ulFirstFn.toNat < HYPER
  lastFn : x.lastFn.toNat < HYPER
  modeP : x.modeP.amrN.toNat ≤ 8
  modeUl : x.modeUl.amrN.toNat ≤ 8
  modeDl : x.modeDl.amrN.toNat ≤ 8

theorem ChanState.wf_iff_shaped (ch : Chan) (x : ChanState) : x.wf ch = true ↔ x.Shaped ch := by
  simp only [ChanState.wf, Bool.and_eq_true, decide_eq_true_eq, Bool.not_eq_true']
  constructor
  · rintro ⟨⟨⟨⟨⟨hul, hmask⟩, hdl⟩, hmod⟩, hfirst, hlast⟩, hp, hu, hd⟩
    exact ⟨hul, hmask, hdl, hmod, hfirst, hlast, hp, hu, hd⟩
  · rintro ⟨hul, hmask, hdl, hmod, hfirst, hlast, hp, hu, hd⟩
    exact ⟨⟨⟨⟨⟨hul, hmask⟩, hdl⟩, hmod⟩, hfirst, hlast⟩, hp, hu, hd⟩

namespace ChanState.Shaped

theorem zero (ch : Chan) : ChanState.zero.Shaped ch := by
  constructor <;> simp [ChanState.zero, Mode.zero, HYPER]

variable {ch : Chan} {x : ChanState} (h : x.Shaped ch)
include h

theorem activate : ChanState.Shaped ch { x with active := true } := { h with }

theorem lose (n : Nat) : (x.lose n).Shaped ch := { h with }

theorem count {fn : Fn} (hfn : fn.toNat < HYPER) : (x.count fn).Shaped ch := { h with lastFn := hfn }

theorem clearMask : ChanState.Shaped ch { x with ulMask := 0 } := { h with ulMask := .inl rfl }

theorem takeUlIndices (amr : Bool) (r : Res) : (x.takeUlIndices amr r).Shaped ch := by
  cases amr with
  | false => exact h
  | true => exact { h with }

theorem setCipherP (dir : Dir) (c : Cipher) : (x.setCipherP dir c).Shaped ch := by
  cases dir <;> exact { h with }

theorem allocUl : x.allocUl.Shaped ch := 
  { h with ulBuf := by simp only [ChanState.allocUl, List.length_replicate, if_true], ulMask := .inl rfl }

/-- A block start within a buffer of 928 elements (R271 (a)). -/
theorem startUl (halloc : x.ulAlloc = true) {nb : Nat} (hnb : nb ≤ 8) (bid : Fin 8) {f0 : Fn}
    (hf0 : f0.toNat < HYPER) : (x.startUl nb bid f0).Shaped ch := by
  have hlen : x.ulBuf.length = 928 := by simpa [halloc] using h.ulBuf
  refine { h with ulBuf := ?_, ulMask := .inl rfl, ulFirstFn := hf0, modeUl := h.modeP }
  simp only [ChanState.startUl, ChanState.latchUl, halloc, List.length_append, List.length_replicate,
    List.length_drop, hlen, if_true]
  omega

/-- A stored burst replaces 116 elements by 116 (R271 (b)). -/
theorem storeUl (halloc : x.ulAlloc = true) {r : RxInd} (hr : r.fn.toNat < HYPER) (bid : Fin 8)
    (tag : Nat) : (x.storeUl r bid tag).Shaped ch := by
  have hlen : x.ulBuf.length = 928 := by simpa [halloc] using h.ulBuf
  refine { h with ulBuf := ?_, ulMask := .inr halloc, lastFn := hr }
  have hunwrap : (unwrap r.bits.toList).length = 116 := by simp [unwrap, slice]
  have hbid := bid.isLt
  simp only [ChanState.storeUl, ChanState.count, halloc, List.length_append, List.length_take,
    List.length_drop, hlen, hunwrap, if_true]
  omega

theorem startDl : x.startDl.Shaped ch := { h with dlBuf := rfl, modeDl := h.modeP }

theorem takeDlIndices (e : QElem) : (x.takeDlIndices ch e).Shaped ch := by
  unfold ChanState.takeDlIndices
  split
  · exact { h with }
  · exact h

theorem loadDl {xs : List UBit} (hxs : xs.length = 116 * nbDl ch) :
    ChanState.Shaped ch { x with dlAlloc := true, dlMod := false, dlBuf := xs } :=
  { h with dlBuf := by simpa using hxs, dlMod := rfl }

theorem releaseDl : ChanState.Shaped ch { x with dlAlloc := false, dlBuf := [] } :=
  { h with dlBuf := rfl }

end ChanState.Shaped

/-! ### The shape under the operations of the state -/

theorem queueWf_iff (P : Params) (q : List QElem) :
    queueWf P q = true ↔ q.length ≤ P.qdepth ∧ ∀ x ∈ q, x.bytes.length ≤ 64 := by
  simp [queueWf]

namespace State.SchedInv

theorem shaped {P : Params} {s : State} (h : s.SchedInv P) (tn : Tn) (ch : Chan) :
    (s.chan tn ch).Shaped ch :=
  (ChanState.wf_iff_shaped _ _).1 (h.chan tn ch)

variable {P : Params} {s t : State} (h : s.SchedInv P)
include h

/-- The shape reads only `FN`, `WAMR` and the arrays of the timeslots. -/
theorem congr (hfn : t.fn = s.fn) (hwamr : t.wamr = s.wamr) (hts : t.ts = s.ts) (hcs : t.cs = s.cs)
    (hq : t.q = s.q) : t.SchedInv P where
  fn := by rw [hfn]; exact h.fn
  wamr := by rw [hwamr]; exact h.wamr
  pchan := by rw [hts]; exact h.pchan
  chan := by unfold State.chan; rw [hcs]; exact h.chan
  queue := by unfold State.queue; rw [hq]; exact h.queue

theorem codecTo (hc : s.CodecTo t) : t.SchedInv P :=
  h.congr hc.fn_eq hc.wamr_eq hc.ts_eq hc.cs_eq hc.q_eq

theorem raise (e : ErrCode) (info : Nat) : (s.raise e info).SchedInv P := h.congr rfl rfl rfl rfl rfl

theorem emit (e : Event) : (s.emit e).SchedInv P := h.congr rfl rfl rfl rfl rfl

theorem setFn {fn : Fn} (hfn : fn.toNat < HYPER) (b : Bool) :
    State.SchedInv P { s with fn := fn, fnValid := b } :=
  { h with fn := hfn }

theorem setWamr {w : Wamr} (hw : w.n.toNat ≤ 8) : State.SchedInv P { s with wamr := w } :=
  { h with wamr := hw }

theorem scratch : s.scratch.SchedInv P where
  fn := h.fn
  wamr := by
    simp only [State.scratch, BitVec.toNat_ofNat]
    omega
  pchan := h.pchan
  chan := h.chan
  queue := h.queue

theorem setTs (tn : Tn) {r : TsRegs} (hr : r.pchan = 0 ∨ r.pchan.toNat < npchan P) :
    (s.setTs tn r).SchedInv P := by
  refine { h with pchan := fun k => ?_ }
  by_cases hk : k = tn
  · rw [hk, State.setTs_get]; exact hr
  · have hne : tn.val ≠ k.val := fun heq => hk (Fin.ext heq.symm)
    have hget : (s.setTs tn r).ts.get k = s.ts.get k := by
      simp [State.setTs, Vector.get_eq_getElem, hne]
    rw [hget]; exact h.pchan k

theorem setChan (tn : Tn) (ch : Chan) {x : ChanState} (hx : x.Shaped ch) :
    (s.setChan tn ch x).SchedInv P := by
  refine { h with chan := fun k c => ?_ }
  by_cases hkc : k = tn ∧ c = ch
  · obtain ⟨rfl, rfl⟩ := hkc
    rw [State.setChan_chan]
    exact (ChanState.wf_iff_shaped _ _).2 hx
  · rw [State.setChan_chan_ne _ _ _ _ _ _ (not_and_or.1 hkc)]
    exact h.chan k c

theorem setQueue (tn : Tn) (ch : Chan) {x : List QElem} (hx : queueWf P x = true) :
    (s.setQueue tn ch x).SchedInv P := by
  refine { h with queue := fun k c => ?_ }
  by_cases hkc : k = tn ∧ c = ch
  · obtain ⟨rfl, rfl⟩ := hkc
    rw [State.setQueue_queue]
    exact hx
  · rw [State.setQueue_queue_ne _ _ _ _ _ _ (not_and_or.1 hkc)]
    exact h.queue k c

theorem clearChan (tn : Tn) (ch : Chan) : (s.clearChan tn ch).SchedInv P :=
  (h.setChan tn ch (ChanState.Shaped.zero ch)).setQueue tn ch (by simp [queueWf])

theorem clearSlot (tn : Tn) : (s.clearSlot tn).SchedInv P := by
  refine { h with chan := fun k c => ?_, queue := fun k c => ?_ }
  · by_cases hk : tn.val = k.val
    · simp [State.clearSlot, State.chan, chanStatesZero, Vector.get_eq_getElem, hk,
        (ChanState.wf_iff_shaped _ _).2 (ChanState.Shaped.zero c)]
    · simpa [State.clearSlot, State.chan, Vector.get_eq_getElem, Vector.getElem_set, hk] using h.chan k c
  · by_cases hk : tn.val = k.val
    · simp [State.clearSlot, State.queue, queuesEmpty, Vector.get_eq_getElem, hk, queueWf]
    · simpa [State.clearSlot, State.queue, Vector.get_eq_getElem, Vector.getElem_set, hk] using
        h.queue k c

end State.SchedInv

theorem ChanState.wf_zero (ch : Chan) : ChanState.zero.wf ch = true :=
  (ChanState.wf_iff_shaped _ _).2 (ChanState.Shaped.zero ch)

/-- The scheduler state of R66 has the shape. -/
theorem State.schedInv_of_initial {P : Params} {s : State} (hfn : s.fn = 0) (hwamr : s.wamr.n.toNat ≤ 8)
    (hts : s.ts = Vector.replicate 8 TsRegs.zero) (hcs : s.cs = Vector.replicate 8 chanStatesZero)
    (hq : s.q = Vector.replicate 8 queuesEmpty) : s.SchedInv P where
  fn := by rw [hfn]; decide
  wamr := hwamr
  pchan := by simp [hts, Vector.get_eq_getElem, TsRegs.zero]
  chan := by simp [State.chan, hcs, Vector.get_eq_getElem, chanStatesZero, ChanState.wf_zero]
  queue := by simp [State.queue, hq, Vector.get_eq_getElem, queuesEmpty, queueWf]

theorem State.reset_schedInv (P : Params) : State.reset.SchedInv P :=
  schedInv_of_initial rfl (by decide) rfl rfl rfl

end Sys2Proof.Machine

namespace Sys2Proof.Proofs

open Sys2Proof.Machine

/-- Settles O58: the base case of both invariants. -/
theorem resetInvariants : Obligations.ResetInvariants :=
  ⟨Memory.unset_wf, State.reset_schedInv Config.inst⟩

end Sys2Proof.Proofs
end

