-- ==== Sys2Proof/Proofs/SchedulerSteps.lean ====
section
/-! The scheduler's shape under every command and every host access: configuration (47_scheduler.md R255 to
R269), the receive path (R270 to R276) and the transmit path (R278 to R285). -/

namespace Sys2Proof.Machine

open Cmd.Ends

theorem bind_ends_scratched {P : Params} {c : Cmd} (hc : c.Ends (State.SchedInv P)) :
    c.scratched.Ends (State.SchedInv P) := by
  cases hc with
  | done h => exact .done h.scratch
  | raised h => exact .raised h
  | refused r => exact .refused r

/-! ### Configuration -/

theorem foldl_activate_schedInv {P : Params} (tn : Tn) (chs : List Chan) {s : State}
    (hs : s.SchedInv P) : (chs.foldl (fun t x => t.activate tn x) s).SchedInv P := by
  induction chs generalizing s with
  | nil => exact hs
  | cons ch chs ih => exact ih (hs.setChan tn ch (hs.shaped tn ch).activate)

theorem foldl_clearChan_schedInv {P : Params} (tn : Tn) (chs : List Chan) {s : State}
    (hs : s.SchedInv P) : (chs.foldl (fun t x => t.clearChan tn x) s).SchedInv P := by
  induction chs generalizing s with
  | nil => exact hs
  | cons ch chs ih => exact ih (hs.clearChan tn ch)

theorem chActBody_ends_schedInv {P : Params} (tn : Tn) (ch : Chan) (k : LinkSel) {s : State}
    (hs : s.SchedInv P) : (chActBody P tn ch k s).Ends (State.SchedInv P) :=
  check (fun _ => raised hs) fun _ => done (foldl_activate_schedInv tn _ hs)

theorem chDeactBody_ends_schedInv {P : Params} (tn : Tn) (ch : Chan) (k : LinkSel) {s : State}
    (hs : s.SchedInv P) : (chDeactBody tn ch k s).Ends (State.SchedInv P) :=
  check (fun _ => raised hs) fun _ => done (foldl_clearChan_schedInv tn _ hs)

theorem amrCfgBody_ends_schedInv {P : Params} {s : State} (hs : s.SchedInv P) :
    (amrCfgBody s).Ends (State.SchedInv P) := by
  refine check (fun _ => raised hs) fun hlegal => done (hs.setWamr ?_)
  obtain ⟨hn, -⟩ := not_or.1 hlegal
  simp only [BitVec.toNat_setWidth]
  omega

theorem schedInitBody_ends_schedInv {P : Params} {s : State} (hs : s.SchedInv P) :
    (schedInitBody s).Ends (State.SchedInv P) :=
  done (State.schedInv_of_initial rfl hs.wamr rfl rfl rfl)

theorem setBsicBody_ends_schedInv {P : Params} (bsic : BitVec 6) {s : State} (hs : s.SchedInv P) :
    (setBsicBody bsic s).Ends (State.SchedInv P) :=
  done (hs.congr rfl rfl rfl rfl rfl)

theorem setAttBody_ends_schedInv {P : Params} (tn : Tn) (att : Byte) {s : State} (hs : s.SchedInv P) :
    (setAttBody tn att s).Ends (State.SchedInv P) :=
  done (hs.setTs tn (hs.pchan tn))

theorem setPchanBody_ends_schedInv {P : Params} (tn : Tn) (p : BitVec 4) (tsc : BitVec 3) {s : State}
    (hs : s.SchedInv P) : (setPchanBody P tn p tsc s).Ends (State.SchedInv P) := by
  refine check (fun _ => rejected hs) fun hlegal => done ((hs.setTs tn ?_).clearSlot tn)
  dsimp only
  by_cases hp : p = 0
  · exact .inl hp
  · exact .inr (Nat.lt_of_not_le fun hle => hlegal ⟨hp, hle⟩)

theorem prmMode_amrN_le {s : State} {m : Mode} (h : prmMode s = some m) : m.amrN.toNat ≤ 8 := by
  unfold prmMode at h
  split at h
  · cases h
  · split at h
    · cases h
    · next hlegal =>
      cases h
      obtain ⟨hn, -⟩ := not_or.1 hlegal
      simp only [BitVec.toNat_setWidth]
      omega

theorem setModeBody_ends_schedInv {P : Params} (tn : Tn) (ch : Chan) {s : State}
    (hs : s.SchedInv P) : (setModeBody tn ch s).Ends (State.SchedInv P) := by
  unfold setModeBody
  split
  · exact raised hs
  · next m hm =>
    exact check (fun _ => raised hs) fun _ =>
      done (hs.setChan tn ch { hs.shaped tn ch with modeP := prmMode_amrN_le hm })

theorem setCipherBody_ends_schedInv {P : Params} (tn : Tn) (ch : Chan) (dir : Dir) {s : State}
    (hs : s.SchedInv P) : (setCipherBody tn ch dir s).Ends (State.SchedInv P) :=
  check (fun _ => raised hs) fun _ => check (fun _ => raised hs) fun _ =>
    done (hs.setChan tn ch ((hs.shaped tn ch).setCipherP dir _))

/-- The length of the block put into a queue is `PDULEN` (R269), at most 64 (R51). -/
theorem pduEnqBody_ends_schedInv {P : Params} (tn : Tn) (ch : Chan) (aux : Byte) {s : State}
    (hs : s.SchedInv P) (hm : s.MemInv) : (pduEnqBody P tn ch aux s).Ends (State.SchedInv P) := by
  refine check (fun _ => raised hs) fun _ => check (fun _ => raised hs) fun hroom =>
    done (hs.setQueue tn ch ?_)
  obtain ⟨hdepth, hbytes⟩ := (queueWf_iff _ _).1 (hs.queue tn ch)
  obtain ⟨hpdu, -⟩ := (Memory.wf_iff _ _).1 hm
  obtain ⟨hlen, -⟩ := (Buf.wf_iff _ _ _).1 hpdu
  refine (queueWf_iff _ _).2 ⟨?_, fun x hx => ?_⟩
  · simp only [List.length_append, List.length_cons, List.length_nil]
    omega
  · obtain hx | hx := List.mem_append.1 hx
    · exact hbytes x hx
    · rw [List.mem_singleton.1 hx]
      simpa [capPdu] using hlen

/-! ### Receive -/

theorem toNat_toFn {a : Nat} (h : a < HYPER) : (toFn a).toNat = a := by
  have hhyper : HYPER < 2 ^ 22 := by decide
  exact Nat.mod_eq_of_lt (h.trans hhyper)

theorem ulFirstFn_lt {l : Layout} {fn : Nat} (h : fn < HYPER) : ulFirstFn l fn < HYPER := by
  unfold ulFirstFn
  dsimp only
  split
  · exact fnSub_lt _ _
  · exact h

theorem nbUl_le (ch : Chan) : nbUl ch ≤ 8 := by
  unfold nbUl
  cases ulFamily ch <;> decide

theorem runDecoder_ends_schedInv {P : Params} {ch : Chan} {x : ChanState} (hx : x.Shaped ch)
    {s : State} (hs : s.SchedInv P) : (runDecoder P ch x s).Ends (State.SchedInv P) := by
  unfold runDecoder
  cases ulFamily ch with
  | xcch => exact (xcchDecBody_ends P s).mono fun _ ht => hs.codecTo ht
  | pdtch => exact (pdtchDecBody_ends P s).mono fun _ ht => hs.codecTo ht
  | tch =>
    have hfr (speech : Efr) : (tchfrDecBody P speech s).Ends (State.SchedInv P) :=
      (tchfrDecBody_ends P speech s).mono fun _ ht => hs.codecTo ht
    cases x.modeUl.tchMode with
    | fr => exact hfr .fr
    | efr => exact hfr .efr
    | amr =>
      exact (tchafsDecBody_ends P _ _).mono fun _ ht =>
        (hs.setWamr (w := wamrOf x.modeUl x.ulFt x.ulCmr) hx.modeUl).codecTo ht
    | sign =>
      have hdec := hfr .fr
      dsimp only
      split
      · next hd =>
        rw [hd] at hdec
        exact check (fun _ => done hdec.of_done) fun _ => raised hdec.of_done
      · next hd => rw [hd] at hdec; exact hdec
      · exact refused _
  | none | fcch | sch | rach | unsupp => exact done hs

theorem completeUl_ends_schedInv {P : Params} (tn : Tn) {ch : Chan} (nb : Nat) {x : ChanState}
    (hx : x.Shaped ch) {s : State} (hs : s.SchedInv P) :
    (completeUl P tn ch nb x s).Ends (State.SchedInv P) := by
  unfold completeUl
  extract_lets got part x1 s1
  have hx1 : x1.Shaped ch := by
    unfold x1
    split
    · exact hx.lose _
    · exact hx
  have hs1 : s1.SchedInv P := by
    unfold s1
    split
    · exact hs.emit _
    · exact hs
  have hdec := runDecoder_ends_schedInv (P := P) hx1
    (s := s1.setSoftE (x1.ulBuf.take (116 * nb))) (hs1.congr rfl rfl rfl rfl rfl)
  split
  · next hd =>
    rw [hd] at hdec
    exact done ((hdec.of_done.emit _).setChan tn ch (hx1.takeUlIndices _ _).clearMask)
  · next hd =>
    rw [hd] at hdec
    exact done ((hdec.of_raised.emit _).setChan tn ch (hx1.lose _).clearMask)
  · next hd =>
    rw [hd] at hdec
    exact done (hdec.of_raised.setChan tn ch (hx1.lose _).clearMask)
  · exact refused _

theorem assembleUl_ends_schedInv {P : Params} {tn : Tn} {ch : Chan} (bid : Fin 8) {f0 : Fn}
    (hf0 : f0.toNat < HYPER) {s : State} (hs : s.SchedInv P) (hfn : s.rxind.fn.toNat < HYPER)
    (halloc : (s.chan tn ch).ulAlloc = true) :
    (assembleUl P tn ch bid f0 s).Ends (State.SchedInv P) := by
  unfold assembleUl
  extract_lets nb x start s1 x1 t s2
  have hx : x.Shaped ch := hs.shaped tn ch
  have hx1 : x1.Shaped ch := by
    unfold x1
    split
    · exact (hx.startUl halloc (nbUl_le ch) bid hf0).storeUl halloc hfn bid _
    · exact hx.storeUl halloc hfn bid _
  have hs1 : s1.SchedInv P := by
    unfold s1
    split
    · exact hs.emit _
    · exact hs
  have hs2 : s2.SchedInv P := (hs1.setChan tn ch hx1).congr rfl rfl rfl rfl rfl
  exact check (fun _ => completeUl_ends_schedInv tn nb hx1 hs2) fun _ => done hs2

theorem allocAssemble_ends_schedInv {P : Params} {tn : Tn} {ch : Chan} (bid : Fin 8) {f0 : Fn}
    (hf0 : f0.toNat < HYPER) {s : State} (hs : s.SchedInv P) (hfn : s.rxind.fn.toNat < HYPER) :
    (allocAssemble P tn ch bid f0 s).Ends (State.SchedInv P) := by
  refine check (fun halloc => assembleUl_ends_schedInv bid hf0 hs hfn halloc) fun _ => ?_
  rw [State.alloc_eq]
  have hcount : State.SchedInv P { s with allocs := s.allocs + 1 } := hs.congr rfl rfl rfl rfl rfl
  cases P.allocOk s.allocs with
  | true =>
    refine assembleUl_ends_schedInv bid hf0 (hcount.setChan tn ch (hs.shaped tn ch).allocUl) hfn ?_
    rw [State.setChan_chan]
    rfl
  | false => exact raised hcount

theorem accessUl_ends_schedInv {P : Params} (tn : Tn) (ch : Chan) {s : State} (hs : s.SchedInv P)
    (hfn : s.rxind.fn.toNat < HYPER) : (accessUl P tn ch s).Ends (State.SchedInv P) := by
  unfold accessUl
  extract_lets s1
  have hs1 : s1.SchedInv P :=
    State.SchedInv.setChan (s := s.setSoftC (accessBits s.rxind.bits.toList))
      (hs.congr rfl rfl rfl rfl rfl) tn ch ((hs.shaped tn ch).count hfn)
  have hdec := (rachDecBody_ends P s.bsic s1).mono fun _ ht => hs1.codecTo ht
  split
  · next hd => rw [hd] at hdec; exact done (hdec.of_done.emit _)
  · next hd =>
    rw [hd] at hdec
    exact done (hdec.of_raised.setChan tn ch ((hdec.of_raised.shaped tn ch).lose 1))
  · exact refused _

theorem rxBurstBody_ends_schedInv {P : Params} {s : State} (hs : s.SchedInv P) :
    (rxBurstBody P s).Ends (State.SchedInv P) := by
  unfold rxBurstBody
  split
  · exact raised hs
  · next hgood =>
    have hfn : s.rxind.fn.toNat < HYPER := by
      refine Nat.lt_of_not_le fun hle => ?_
      rw [badInd, if_pos hle] at hgood
      cases hgood
    have hf0 (l : Layout) : (toFn (ulFirstFn l s.rxind.fn.toNat)).toNat < HYPER := by
      rw [toNat_toFn (ulFirstFn_lt hfn)]
      exact ulFirstFn_lt hfn
    split
    · exact done hs
    · next l _ =>
      refine check (fun _ => done hs) fun _ => check (fun _ => ?_) fun _ =>
        check (fun _ => done hs) fun _ => ?_
      · exact bind_ends_scratched (accessUl_ends_schedInv _ _ hs hfn)
      · exact bind_ends_scratched (allocAssemble_ends_schedInv _ (hf0 l) hs hfn)

/-! ### Transmit -/

theorem rtsSlot_schedInv {P : Params} (fn : Nat) {s : State} (hs : s.SchedInv P) (tn : Tn) :
    (rtsSlot P fn s tn).SchedInv P := by
  unfold rtsSlot
  split
  · exact hs
  · dsimp only
    split
    · exact hs.emit _
    · exact hs

theorem foldl_rtsSlot_schedInv {P : Params} (fn : Nat) (tns : List Tn) {s : State}
    (hs : s.SchedInv P) : (tns.foldl (rtsSlot P fn) s).SchedInv P := by
  induction tns generalizing s with
  | nil => exact hs
  | cons tn tns ih => exact ih (rtsSlot_schedInv fn hs tn)

/-- An encoder of a channel writes working buffers, `RES` and, for AMR, `WAMR`. -/
theorem runEncoder_ends_schedInv {P : Params} (hP : P.WF) {ch : Chan} {y : ChanState}
    (hy : y.Shaped ch) (fn : Fn) {s : State} (hs : s.SchedInv P) :
    (runEncoder P ch y fn s).Ends (State.SchedInv P) := by
  unfold runEncoder
  cases dlFamily ch with
  | xcch => exact (xcchEncBody_ends s).mono fun _ ht => hs.codecTo ht
  | pdtch => exact (pdtchEncBody_ends s).mono fun _ ht => hs.codecTo ht
  | tch =>
    have hfr (speech : Efr) : (tchfrEncBody P speech s).Ends (State.SchedInv P) :=
      (tchfrEncBody_ends P speech s).mono fun _ ht => hs.codecTo ht
    cases y.modeDl.tchMode with
    | sign | fr => exact hfr .fr
    | efr => exact hfr .efr
    | amr =>
      exact (tchafsEncBody_ends hP _ _).mono fun _ ht =>
        (hs.setWamr (w := wamrOf y.modeDl y.dlFt y.dlCmr) hy.modeDl).codecTo ht
  | none | fcch | sch | rach | unsupp => exact done hs

theorem spread_e_length {s t : State} {isel : ISel} {c h : List UBit}
    (ht : Cmd.done (s.spread isel c h) = .done t) : t.e.length = 116 * nbiOf isel := by
  cases ht
  rw [State.spread_e, blockBursts_length]

theorem xcchEncBody_e_length {s t : State} (h : xcchEncBody s = .done t) : t.e.length = 464 := by
  unfold xcchEncBody at h
  split at h
  · cases h
  · exact spread_e_length h

theorem pdtchEncBody_e_length {s t : State} (h : pdtchEncBody s = .done t) : t.e.length = 464 := by
  unfold pdtchEncBody at h
  split at h
  · cases h
  · exact spread_e_length h

theorem tchfrEncBody_e_length {P : Params} {speech : Efr} {s t : State}
    (h : tchfrEncBody P speech s = .done t) : t.e.length = 928 := by
  unfold tchfrEncBody at h
  split at h
  · exact spread_e_length h
  · split at h
    · exact spread_e_length h
    · cases h

theorem tchafsEncBody_e_length {P : Params} {phase : Phase} {s t : State}
    (h : tchafsEncBody P phase s = .done t) : t.e.length = 928 := by
  unfold tchafsEncBody at h
  split at h
  · exact spread_e_length h
  · split at h
    · cases h
    · exact spread_e_length h

/-- The encoder of a channel fills the bursts of its family (R34). -/
theorem runEncoder_e_length {P : Params} {ch : Chan} (hch : (dlFamily ch).queued = true)
    {y : ChanState} {fn : Fn} {s t : State} (h : runEncoder P ch y fn s = .done t) :
    t.e.length = 116 * nbDl ch := by
  unfold runEncoder at h
  unfold nbDl
  cases hfam : dlFamily ch with
  | xcch => rw [hfam] at h; exact xcchEncBody_e_length h
  | pdtch => rw [hfam] at h; exact pdtchEncBody_e_length h
  | tch =>
    rw [hfam] at h
    dsimp only at h
    split at h
    · exact tchfrEncBody_e_length h
    · exact tchfrEncBody_e_length h
    · exact tchfrEncBody_e_length h
    · exact tchafsEncBody_e_length h
  | none | fcch | sch | rach | unsupp => rw [hfam] at hch; cases hch

theorem dequeue_schedInv {P : Params} (tn : Tn) (ch : Chan) (mode : Mode) {s : State}
    (hs : s.SchedInv P) : (dequeue P tn ch mode s).2.SchedInv P := by
  unfold dequeue
  split
  · exact hs
  · next x xs hq =>
    obtain ⟨hdepth, hbytes⟩ := (queueWf_iff _ _).1 (hs.queue tn ch)
    rw [hq] at hdepth hbytes
    refine hs.setQueue tn ch ((queueWf_iff _ _).2 ⟨?_, fun y hy => ?_⟩)
    · exact (Nat.le_succ _).trans hdepth
    · exact hbytes y (List.mem_cons_of_mem _ hy)

theorem usable_schedInv {P : Params} (tn : Tn) (ch : Chan) (mode : Mode) (fn : Fn) (x : Option QElem)
    {s : State} (hs : s.SchedInv P) : (usable P tn ch mode fn x s).2.SchedInv P := by
  unfold usable
  split
  · exact hs
  · split
    · exact hs
    · exact hs.emit _

theorem startBlock_schedInv {P : Params} (hP : P.WF) (tn : Tn) {ch : Chan}
    (hch : (dlFamily ch).queued = true) (fn : Fn) {s : State} (hs : s.SchedInv P) :
    (startBlock P tn ch fn s).2.SchedInv P := by
  have hy := (hs.shaped tn ch).startDl
  have hqueue := usable_schedInv tn ch (s.chan tn ch).startDl.modeDl fn
    (dequeue P tn ch (s.chan tn ch).startDl.modeDl (s.setChan tn ch (s.chan tn ch).startDl)).1
    (dequeue_schedInv tn ch (s.chan tn ch).startDl.modeDl (hs.setChan tn ch hy))
  unfold startBlock
  dsimp only
  split
  · next hu => rw [hu] at hqueue; exact hqueue
  · next x t hu =>
    rw [hu] at hqueue
    have hcount : State.SchedInv P { t with allocs := t.allocs + 1 } :=
      State.SchedInv.congr hqueue rfl rfl rfl rfl rfl
    rw [State.alloc_eq]
    cases P.allocOk t.allocs with
    | false => exact hcount.emit _
    | true =>
      have henc := runEncoder_ends_schedInv hP (hy.takeDlIndices x) fn
        (s := State.setPdu { t with allocs := t.allocs + 1 } x.bytes)
        (hcount.congr rfl rfl rfl rfl rfl)
      dsimp only
      split
      · next hd =>
        have hlen := runEncoder_e_length hch hd
        rw [hd] at henc
        refine henc.of_done.setChan tn ch ((hy.takeDlIndices x).loadDl ?_)
        rw [List.length_take, hlen, Nat.min_self]
      · next hd => rw [hd] at henc; exact henc.of_raised.setChan tn ch (hy.takeDlIndices x)
      · exact hcount

theorem sendBurst_schedInv {P : Params} (tn : Tn) (ch : Chan) (bid : Fin 8) (fn : Fn) {s : State}
    (hs : s.SchedInv P) : (sendBurst P tn ch bid fn s).SchedInv P := by
  unfold sendBurst
  extract_lets y t
  have ht : t.SchedInv P := by
    unfold t
    split
    · exact hs.emit _
    · exact hs
  split
  · exact ht.setChan tn ch (hs.shaped tn ch).releaseDl
  · exact ht

theorem blockDl_schedInv {P : Params} (hP : P.WF) (tn : Tn) {ch : Chan}
    (hch : (dlFamily ch).queued = true) (bid : Fin 8) (fn : Fn) {s : State} (hs : s.SchedInv P) :
    (blockDl P tn ch bid fn s).2.SchedInv P := by
  have hstart : (if bid = 0 then startBlock P tn ch fn s else (false, s)).2.SchedInv P := by
    split
    · exact startBlock_schedInv hP tn hch fn hs
    · exact hs
  unfold blockDl
  split
  · exact hs
  · split
    · next hd => rw [hd] at hstart; exact hstart
    · next hd => rw [hd] at hstart; exact sendBurst_schedInv tn ch bid fn hstart

theorem schDl_schedInv {P : Params} (tn : Tn) (fn : Fn) {s : State} (hs : s.SchedInv P) :
    (schDl P tn fn s).SchedInv P := by
  have hpdu : (s.setPdu (schPdu P fn s.bsic)).SchedInv P := hs.congr rfl rfl rfl rfl rfl
  have henc := (schEncBody_ends (s.setPdu (schPdu P fn s.bsic))).mono fun _ ht => hpdu.codecTo ht
  unfold schDl
  split
  · next hd => rw [hd] at henc; exact henc.of_done.emit _
  · next hd => rw [hd] at henc; exact henc.of_raised
  · exact hs

theorem dlSlot_schedInv {P : Params} (hP : P.WF) (fn : Nat) {s : State} (hs : s.SchedInv P) (tn : Tn) :
    (dlSlot P fn s tn).2.SchedInv P := by
  unfold dlSlot
  split
  · exact hs
  · next l _ =>
    dsimp only
    cases hfam : dlFamily (l.slot fn).dlChan with
    | fcch => exact hs.emit _
    | sch => exact schDl_schedInv tn _ hs
    | xcch | pdtch | tch => exact blockDl_schedInv hP tn (by rw [hfam]; rfl) _ _ hs
    | none | rach | unsupp => exact hs

theorem transmit_schedInv {P : Params} (hP : P.WF) (fn : Nat) (tns : List Tn) (failed : Nat)
    {s : State} (hs : s.SchedInv P) : (transmit P fn tns failed s).2.SchedInv P := by
  induction tns generalizing failed s with
  | nil => exact hs
  | cons tn tns ih =>
    have hslot := dlSlot_schedInv hP fn hs tn
    unfold transmit
    split
    · next hd => rw [hd] at hslot; exact ih _ hslot
    · next hd => rw [hd] at hslot; exact ih _ hslot

theorem toNat_lt_of_tick_wellFormed {fn : Fn} (h : (Instr.tick fn).WellFormed) : fn.toNat < HYPER := by
  simpa [Instr.WellFormed, Instr.wellFormed] using h

theorem tickBody_ends_schedInv {P : Params} (hP : P.WF) {fn : Fn} (hfn : fn.toNat < HYPER) {s : State}
    (hs : s.SchedInv P) : (tickBody P fn s).Ends (State.SchedInv P) := by
  have hrun : (runTick P fn s).2.SchedInv P :=
    transmit_schedInv hP _ _ _ (foldl_rtsSlot_schedInv _ _ (hs.setFn hfn true))
  refine check (fun _ => refused _) fun _ => ?_
  split
  · next hd => rw [hd] at hrun; exact done hrun.scratch
  · next hd => rw [hd] at hrun; exact raised hrun.scratch

/-! ### Commands and host accesses -/

theorem bodyIn_ends_schedInv {P : Params} (hP : P.WF) {i : Instr} (hwf : i.WellFormed) {s : State}
    (hm : s.MemInv) (hs : s.SchedInv P) : (bodyIn P i s).Ends (State.SchedInv P) := by
  have hcodec (hi : isCodecCommand i = true) (hcfg : i ≠ .amrCfg) :=
    (bodyIn_ends_codecTo hP hwf hi hcfg s).mono fun t ht => hs.codecTo ht
  cases i with
  | amrCfg => exact amrCfgBody_ends_schedInv hs
  | schedInit => exact schedInitBody_ends_schedInv hs
  | setAtt tn att => exact setAttBody_ends_schedInv tn att hs
  | setBsic bsic => exact setBsicBody_ends_schedInv bsic hs
  | setPchan tn p tsc => exact setPchanBody_ends_schedInv tn p tsc hs
  | chAct tn ch k => exact chActBody_ends_schedInv tn ch k hs
  | chDeact tn ch k => exact chDeactBody_ends_schedInv tn ch k hs
  | setMode tn ch => exact setModeBody_ends_schedInv tn ch hs
  | setCipher tn ch dir => exact setCipherBody_ends_schedInv tn ch dir hs
  | pduEnq tn ch aux => exact pduEnqBody_ends_schedInv tn ch aux hs hm
  | tick fn =>
    have hfn := toNat_lt_of_tick_wellFormed hwf
    have htick := tickBody_ends_schedInv hP hfn hs
    exact htick
  | rxBurst => exact rxBurstBody_ends_schedInv hs
  | _ => exact hcodec rfl nofun

theorem setLens_keeps {s t : State} {base : Nat} {w : Word} (h : setLens s base w = some t) :
    t.fn = s.fn ∧ t.wamr = s.wamr ∧ t.ts = s.ts ∧ t.cs = s.cs ∧ t.q = s.q := by
  unfold setLens at h
  dsimp only at h
  split at h <;> split at h
  all_goals cases h
  all_goals exact ⟨rfl, rfl, rfl, rfl, rfl⟩

theorem writeWord_keeps {s t : State} {base : Nat} {w : Word} (h : writeWord s base w = some t) :
    t.fn = s.fn ∧ t.wamr = s.wamr ∧ t.ts = s.ts ∧ t.cs = s.cs ∧ t.q = s.q := by
  unfold writeWord at h
  split at h
  iterate 5 exact setLens_keeps h
  all_goals cases h; exact ⟨rfl, rfl, rfl, rfl, rfl⟩

/-- A host write leaves every register that only commands write (20_memory.md R76). -/
theorem writeBytes_keeps {s t : State} {off : Nat} {bytes : List Byte}
    (h : writeBytes s off bytes = some t) :
    t.fn = s.fn ∧ t.wamr = s.wamr ∧ t.ts = s.ts ∧ t.cs = s.cs ∧ t.q = s.q := by
  unfold writeBytes at h
  split at h
  · exact writeWord_keeps h
  all_goals
    simp only [Option.map_eq_some_iff, Option.some.injEq] at h
  all_goals first
    | subst h; exact ⟨rfl, rfl, rfl, rfl, rfl⟩
    | obtain ⟨x, -, rfl⟩ := h; exact ⟨rfl, rfl, rfl, rfl, rfl⟩

end Sys2Proof.Machine

namespace Sys2Proof.Proofs

open Sys2Proof.Machine

/-- Settles O57: each operation that writes a channel state, a queue or a timeslot gives it its shape; the
codecs and the host write none of them. -/
theorem stepKeepsScheduler : Obligations.StepKeepsScheduler := by
  unfold Obligations.StepKeepsScheduler
  intro s t hm hs hstep
  cases stepsTo_of_step hstep with
  | idle h => rwa [h]
  | read rest off n h => rw [h]; exact hs.congr rfl rfl rfl rfl rfl
  | illegal rest info h => rw [h]; exact hs.congr rfl rfl rfl rfl rfl
  | command rest i hwf h =>
    obtain ⟨u, e, info, hu, rfl⟩ := (bodyIn_ends_schedInv Config.model.wf hwf
      (s := { s with host := rest }) hm (hs.congr rfl rfl rfl rfl rfl)).finish h
    exact hu.raise e info
  | write rest off n v hok h =>
    obtain ⟨hfn, hwamr, hts, hcs, hq⟩ := writeBytes_keeps h
    exact hs.congr hfn hwamr hts hcs hq

end Sys2Proof.Proofs
end

