-- ==== Sys2Proof/Proofs/ResetAndTurnedAway.lean ====
section
/-! The reset state (10_state.md R66, 47_scheduler.md R255) and the bursts that `RX.BURST` turns away
(47_scheduler.md R270, 60_exceptions.md R308). -/

namespace Sys2Proof.Machine

/-! ### The reset state -/

theorem get_replicate_ts (tn : Tn) : (Vector.replicate 8 TsRegs.zero).get tn = TsRegs.zero := by
  simp [Vector.get_eq_getElem]

theorem State.chan_of_initial {s : State} (h : s.cs = Vector.replicate 8 chanStatesZero) (tn : Tn)
    (ch : Chan) : s.chan tn ch = ChanState.zero := by
  simp [State.chan, h, chanStatesZero, Vector.get_eq_getElem]

theorem State.queue_of_initial {s : State} (h : s.q = Vector.replicate 8 queuesEmpty) (tn : Tn)
    (ch : Chan) : s.queue tn ch = [] := by
  simp [State.queue, h, queuesEmpty, Vector.get_eq_getElem]

/-! ### The checks of an indication -/

theorem execIn_rxBurst_of_badInd {P : Params} {s : State} {k : Nat} (h : badInd s.rxind = some k) :
    execIn P .rxBurst s = .next (s.raise .badInd k) := by
  simp [execIn, bodyIn, rxBurstBody, h]

theorem badInd_of_accepted {r : RxInd} (h : r.Accepted) : badInd r = none := by
  obtain ⟨hfn, hnbits, hlevel⟩ := h
  simp [badInd, hnbits, hlevel, Nat.not_le.2 hfn]

theorem execIn_rxBurst_of_unconfigured {P : Params} {s : State} (h : s.rxind.Accepted)
    (hl : s.layout P s.rxind.slot = none) : execIn P .rxBurst s = .next (s.raise .none 0) := by
  simp only [execIn, bodyIn, rxBurstBody, badInd_of_accepted h, hl, Cmd.finish_done]

/-- A burst in a configured timeslot is routed by its slot (R270 (3)). -/
theorem execIn_rxBurst_of_routedTo {P : Params} {s : State} {l : Layout} {ch : Chan} {bid : Fin 8}
    (h : s.RoutedTo P l ch bid) :
    execIn P .rxBurst s = (routeUl P l s.rxind.slot s).finish := by
  simp only [execIn, bodyIn, rxBurstBody, badInd_of_accepted h.accepted, h.layout]

/-- The cases of a routed burst, by its slot's channel and burst number (R270 (3) to (8)). -/
theorem routeUl_of_routedTo {P : Params} {s : State} {l : Layout} {ch : Chan} {bid : Fin 8}
    (h : s.RoutedTo P l ch bid) : routeUl P l s.rxind.slot s =
      if ulFamily ch = .none ∨ s.isActive s.rxind.slot ch = false then .done s
      else if ulFamily ch = .rach then (accessUl P s.rxind.slot ch s).scratched
      else if (s.chan s.rxind.slot ch).ulSync = false ∧ bid ≠ 0 then .done s
      else (allocAssemble P s.rxind.slot ch bid (s.rxFirst l) s).scratched := by
  obtain ⟨-, -, rfl, rfl⟩ := h
  rfl

end Sys2Proof.Machine

namespace Sys2Proof.Proofs

open Sys2Proof.Machine

/-- Settles O39: the created state of every timeslot, channel and queue. -/
theorem initialValues : Obligations.InitialValues := by
  unfold Obligations.InitialValues
  refine ⟨fun s => ⟨_, rfl, rfl, rfl, rfl, get_replicate_ts, fun tn ch =>
    ⟨State.chan_of_initial rfl tn ch, State.queue_of_initial rfl tn ch⟩, rfl⟩, rfl, rfl, rfl,
    get_replicate_ts, fun tn ch =>
    ⟨State.chan_of_initial rfl tn ch, State.queue_of_initial rfl tn ch⟩, rfl, rfl, rfl, rfl,
    fun k hk => ?_, rfl, rfl, rfl, rfl⟩
  simp [State.reset, hk]

/-- Settles O49: each check of R270 answers before anything is written. -/
theorem rxTurnedAway : Obligations.RxTurnedAway := by
  unfold Obligations.RxTurnedAway
  simp only [exec_eq_execIn]
  refine ⟨fun s hfn => ?_, fun s hfn h148 h444 => ?_, fun s hfn hlevel => ?_, fun s hacc hts => ?_,
    fun P s l ch bid hroute => ⟨fun hnone => ?_, fun hfam hact hsync hbid => ?_,
      fun hfam hact hstart halloc hnomem => ?_⟩⟩
  · exact execIn_rxBurst_of_badInd (by simp [badInd, hfn])
  · exact execIn_rxBurst_of_badInd (by simp [badInd, Nat.not_le.2 hfn, h148, h444])
  · refine execIn_rxBurst_of_badInd ?_
    obtain h444 | ⟨h148, hpresent, hmod⟩ := hlevel
    · simp [badInd, Nat.not_le.2 hfn, h444]
    · simp [badInd, Nat.not_le.2 hfn, h148, RxInd.eightLevel, hpresent, hmod]
  · exact execIn_rxBurst_of_unconfigured hacc (if_pos hts)
  · rw [execIn_rxBurst_of_routedTo hroute, routeUl_of_routedTo hroute, if_pos hnone]
    rfl
  all_goals
    have hcodec : ulFamily ch ≠ .none ∧ ulFamily ch ≠ .rach := by
      constructor <;> rintro h <;> simp [h] at hfam
    obtain ⟨hnone, hrach⟩ := hcodec
    rw [execIn_rxBurst_of_routedTo hroute, routeUl_of_routedTo hroute,
      if_neg (by simp [hnone, hact]), if_neg hrach]
  · rw [if_pos ⟨hsync, hbid⟩]
    rfl
  · have hgo : ¬((s.chan s.rxind.slot ch).ulSync = false ∧ bid ≠ 0) := by
      rcases hstart with h | h <;> simp [h]
    rw [if_neg hgo, allocAssemble, if_neg (by simp [halloc]), State.alloc_eq, hnomem]
    rfl

end Sys2Proof.Proofs
end

