-- ==== Sys2Proof/Proofs/TransmitSlots.lean ====
section
/-! The transmit phase of `TICK` slot by slot (47_scheduler.md R278 (3) to (5), R279): every timeslot is
served from its own registers, channel states and queues, so what one timeslot does is seen whole whatever
the others do. -/

namespace Sys2Proof.Machine

/-! ### The end of `TICK` -/

theorem toFn_toNat (fn : Fn) : toFn fn.toNat = fn := BitVec.ofNat_toNat 22 fn

/-- `STAT` and the scratch rule after the transmit phase: `STAT.AUX` is the set of the failed timeslots. -/
def tickEnd (r : Nat × State) : State :=
  r.2.scratch.raise (if r.1 = 0 then .none else .nomem) r.1

theorem execIn_tick_of_clockOk {P : Params} {fn : Fn} {s : State} (h : s.ClockOk fn) :
    execIn P (.tick fn) s = .next (tickEnd (runTick P fn s)) := by
  have hgood : ¬(s.fnValid = true ∧ fn.toNat ≠ fnAdd s.fn.toNat 1) := by
    rintro ⟨hvalid, hne⟩
    obtain hinvalid | heq := h
    · rw [hinvalid] at hvalid; cases hvalid
    · exact hne heq
  simp only [execIn, bodyIn, tickBody, if_neg hgood]
  rcases runTick P fn s with ⟨_ | failed, t⟩ <;> rfl

/-! ### Ready-to-send -/

theorem queued_iff (f : Family) : f.queued = true ↔ f ∈ [Family.xcch, .pdtch, .tch] := by
  cases f <;> decide

theorem rtsSlot_eq (P : Params) (fn : Fn) (s : State) (tn : Tn) :
    rtsSlot P fn.toNat s tn = { s with evq := s.evq ++ (rtsFor P fn s tn).toList } := by
  unfold rtsSlot rtsFor
  cases s.layout P tn with
  | none => simp
  | some l =>
    simp only [Option.bind_some, ← queued_iff]
    split
    · rfl
    · simp

theorem foldl_rtsSlot_eq (P : Params) (fn : Fn) (tns : List Tn) (s : State) :
    tns.foldl (rtsSlot P fn.toNat) s =
      { s with evq := s.evq ++ tns.filterMap (rtsFor P fn s) } := by
  induction tns generalizing s with
  | nil => simp
  | cons tn tns ih =>
    rw [List.foldl_cons, rtsSlot_eq, ih, List.filterMap_cons]
    have hsame : rtsFor P fn { s with evq := s.evq ++ (rtsFor P fn s tn).toList } = rtsFor P fn s := rfl
    rw [hsame]
    cases rtsFor P fn s tn <;> simp

/-! ### What serving one channel does -/

/-- From `s` to `t` the events `evs`, all of timeslot `tn`, were emitted and the allocation oracle was
consulted `n` times; of the scheduler state only channel `ch` of the timeslot changed. -/
structure State.ServesChan (tn : Tn) (ch : Chan) (s t : State) (evs : List Event) (n : Nat) : Prop where
  evq : t.evq = s.evq ++ evs
  own : ∀ e ∈ evs, e.tn = tn
  ts : t.ts = s.ts
  bsic : t.bsic = s.bsic
  allocs : t.allocs = s.allocs + n
  others : ∀ (k : Tn) (c : Chan), ¬(k = tn ∧ c = ch) → t.chan k c = s.chan k c ∧ t.queue k c = s.queue k c

namespace State.ServesChan

variable {tn : Tn} {ch : Chan}

theorem refl (s : State) : ServesChan tn ch s s [] 0 :=
  ⟨by simp, by simp, rfl, rfl, rfl, fun _ _ _ => ⟨rfl, rfl⟩⟩

theorem trans {s t u : State} {evs evs' : List Event} {n n' : Nat} (h : ServesChan tn ch s t evs n)
    (h' : ServesChan tn ch t u evs' n') : ServesChan tn ch s u (evs ++ evs') (n + n') where
  evq := by rw [h'.evq, h.evq, List.append_assoc]
  own e he := by
    obtain he | he := List.mem_append.1 he
    · exact h.own e he
    · exact h'.own e he
  ts := h'.ts.trans h.ts
  bsic := h'.bsic.trans h.bsic
  allocs := by rw [h'.allocs, h.allocs, Nat.add_assoc]
  others k c hkc := by
    obtain ⟨hchan, hqueue⟩ := h.others k c hkc
    obtain ⟨hchan', hqueue'⟩ := h'.others k c hkc
    exact ⟨hchan'.trans hchan, hqueue'.trans hqueue⟩

variable {s t : State} {evs : List Event} {n : Nat} (h : ServesChan tn ch s t evs n)
include h

theorem emit {e : Event} (he : e.tn = tn) : ServesChan tn ch s (t.emit e) (evs ++ [e]) n :=
  h.trans (n' := 0) ⟨rfl, by simpa using he, rfl, rfl, rfl, fun _ _ _ => ⟨rfl, rfl⟩⟩

theorem setChan (x : ChanState) : ServesChan tn ch s (t.setChan tn ch x) evs n := by
  have hset : ServesChan tn ch t (t.setChan tn ch x) [] 0 :=
    ⟨by simp, by simp, rfl, rfl, rfl,
      fun k c hkc => ⟨State.setChan_chan_ne _ _ _ _ _ _ (not_and_or.1 hkc), rfl⟩⟩
  simpa using h.trans hset

theorem setQueue (x : List QElem) : ServesChan tn ch s (t.setQueue tn ch x) evs n := by
  have hset : ServesChan tn ch t (t.setQueue tn ch x) [] 0 :=
    ⟨by simp, by simp, rfl, rfl, rfl,
      fun k c hkc => ⟨rfl, State.setQueue_queue_ne _ _ _ _ _ _ (not_and_or.1 hkc)⟩⟩
  simpa using h.trans hset

theorem alloc : ServesChan tn ch s { t with allocs := t.allocs + 1 } evs (n + 1) := by
  have hset : ServesChan tn ch t { t with allocs := t.allocs + 1 } [] 1 :=
    ⟨by simp, by simp, rfl, rfl, rfl, fun _ _ _ => ⟨rfl, rfl⟩⟩
  simpa using h.trans hset

end State.ServesChan

/-! ### What an encoder leaves -/

/-- The state that serving a channel looks at is as before. -/
structure State.CodingFrame (s t : State) : Prop where
  evq : t.evq = s.evq
  ts : t.ts = s.ts
  bsic : t.bsic = s.bsic
  allocs : t.allocs = s.allocs
  cs : t.cs = s.cs
  q : t.q = s.q

theorem State.CodingFrame.trans {s t u : State} (h : s.CodingFrame t) (h' : t.CodingFrame u) :
    s.CodingFrame u :=
  ⟨h'.evq.trans h.evq, h'.ts.trans h.ts, h'.bsic.trans h.bsic, h'.allocs.trans h.allocs,
    h'.cs.trans h.cs, h'.q.trans h.q⟩

theorem State.CodecTo.codingFrame {s t : State} (h : s.CodecTo t) : s.CodingFrame t :=
  ⟨h.evq_eq, h.ts_eq, h.bsic_eq, h.allocs_eq, h.cs_eq, h.q_eq⟩

theorem State.ServesChan.coding {tn : Tn} {ch : Chan} {s t u : State} {evs : List Event} {n : Nat}
    (h : ServesChan tn ch s t evs n) (hf : t.CodingFrame u) : ServesChan tn ch s u evs n := by
  have hcode : ServesChan tn ch t u [] 0 :=
    ⟨by simp [hf.evq], by simp, hf.ts, hf.bsic, hf.allocs,
      fun k c _ => ⟨by rw [State.chan, hf.cs, State.chan], by rw [State.queue, hf.q, State.queue]⟩⟩
  simpa using h.trans hcode

theorem State.CodingFrame.chan {s t : State} (h : s.CodingFrame t) (tn : Tn) (ch : Chan) :
    t.chan tn ch = s.chan tn ch := by
  rw [State.chan, h.cs, State.chan]

theorem State.CodingFrame.queue {s t : State} (h : s.CodingFrame t) (tn : Tn) (ch : Chan) :
    t.queue tn ch = s.queue tn ch := by
  rw [State.queue, h.q, State.queue]

open Cmd.Ends

theorem tchafsEncBody_ends_codingFrame (P : Params) (phase : Phase) (s : State) :
    (tchafsEncBody P phase s).Ends s.CodingFrame := by
  unfold tchafsEncBody
  refine check (fun _ => done ((State.CodecTo.refl s).codeStolen _).codingFrame) fun _ => ?_
  split
  · exact raised (State.CodecTo.refl s).codingFrame
  · have hcode (p u c : List UBit) : s.CodingFrame (((s.setPar p).setU u).setC c) :=
      ⟨rfl, rfl, rfl, rfl, rfl, rfl⟩
    exact done ((hcode _ _ _).trans ((State.CodecTo.refl _).spreadTraffic _ _).codingFrame)

theorem runEncoder_ends_codingFrame (P : Params) (ch : Chan) (y : ChanState) (fn : Fn) (s : State) :
    (runEncoder P ch y fn s).Ends s.CodingFrame := by
  have hfr (speech : Efr) : (tchfrEncBody P speech s).Ends s.CodingFrame :=
    (tchfrEncBody_ends P speech s).mono fun _ ht => ht.codingFrame
  unfold runEncoder
  cases dlFamily ch with
  | xcch => exact (xcchEncBody_ends s).mono fun _ ht => ht.codingFrame
  | pdtch => exact (pdtchEncBody_ends s).mono fun _ ht => ht.codingFrame
  | tch =>
    cases y.modeDl.tchMode with
    | sign | fr => exact hfr .fr
    | efr => exact hfr .efr
    | amr =>
      exact (tchafsEncBody_ends_codingFrame P _ _).mono fun _ ht =>
        ⟨ht.evq, ht.ts, ht.bsic, ht.allocs, ht.cs, ht.q⟩
  | none | fcch | sch | rach | unsupp => exact done ⟨rfl, rfl, rfl, rfl, rfl, rfl⟩

/-! ### What there is to send (R280 (a), R281, R282) -/

theorem afsReject_eq_none_iff (P : Params) (phase : Phase) (w : Wamr) (len : Nat) :
    afsReject P phase w len = none ↔ w.ft.toNat < w.n.toNat ∧
      (phaseIndex phase w).toNat < w.n.toNat ∧ (phaseIndex phase w).toNat < nIc P ∧
      len = (afsMode (listAt w.list w.ft.toNat)).bytes := by
  unfold afsReject
  split
  · simp only [reduceCtorEq, false_iff]
    omega
  · split
    · simp only [reduceCtorEq, false_iff]
      omega
    · split
      · next hlen => simp [hlen]
      · next hlen => exact iff_of_true rfl ⟨by omega, by omega, by omega, not_not.1 hlen⟩

theorem phaseIndex_wamrOf (P : Params) (mode : Mode) (fn : Fn) (x : QElem) :
    phaseIndex (P.amrPhase fn) (wamrOf mode x.ft x.cmr) = dlIndex P fn x := by
  unfold phaseIndex dlIndex
  cases P.amrPhase fn <;> rfl

theorem afsReject_wamrOf_eq_none_iff (P : Params) (mode : Mode) (fn : Fn) (x : QElem) (len : Nat) :
    afsReject P (P.amrPhase fn) (wamrOf mode x.ft x.cmr) len = none ↔
      (x.aux.extractLsb' 0 3).toNat < mode.amrN.toNat ∧
      (dlIndex P fn x).toNat < mode.amrN.toNat ∧ (dlIndex P fn x).toNat < nIc P ∧
      len = (afsMode (listAt mode.amrList (x.aux.extractLsb' 0 3).toNat)).bytes := by
  rw [afsReject_eq_none_iff, phaseIndex_wamrOf]
  rfl

/-- The machine's length check is R282's. -/
theorem lenOk_iff (P : Params) (ch : Chan) (mode : Mode) (fn : Fn) (x : QElem) :
    lenOk P ch mode fn x = true ↔ PduFits P ch mode fn x := by
  unfold lenOk PduFits
  cases dlFamily ch with
  | xcch => simp
  | pdtch =>
    unfold schemeOfLen
    split_ifs <;> simp_all
  | tch =>
    cases hmode : mode.tchMode with
    | sign | fr | efr => simp
    | amr =>
      simp [afsReject_wamrOf_eq_none_iff]
  | none | fcch | sch | rach | unsupp => simp

/-- The element a block start has to send, and the state that has taken it from the queue and logged a
length that does not fit: the first part of `startBlock`. -/
def State.offer (P : Params) (tn : Tn) (ch : Chan) (fn : Fn) (s : State) : Option QElem × State :=
  let y := (s.chan tn ch).startDl
  let d := dequeue P tn ch y.modeDl (s.setChan tn ch y)
  usable P tn ch y.modeDl fn d.1 d.2

/-- The event of a length that does not fit. -/
def badLenLog (bad : Bool) (tn : Tn) (ch : Chan) (fn : Fn) : List Event :=
  if bad then [.log .badPduLen tn ch fn] else []

theorem State.exists_offered (P : Params) (s : State) (tn : Tn) (ch : Chan) (fn : Fn) :
    ∃ x bad xs, s.Offered P tn ch fn x bad xs := by
  cases hq : s.queue tn ch with
  | nil =>
    cases hfill : P.filler ch (s.chan tn ch).modeP with
    | none => exact ⟨_, _, _, .nothing hq hfill⟩
    | some x =>
      by_cases hx : PduFits P ch (s.chan tn ch).modeP fn x
      · exact ⟨_, _, _, .filler x hq hfill hx⟩
      · exact ⟨_, _, _, .unfit x hq hfill hx⟩
  | cons x xs =>
    by_cases hx : PduFits P ch (s.chan tn ch).modeP fn x
    · exact ⟨_, _, _, .queued x xs hq hx⟩
    · by_cases hy : ∃ y, P.filler ch (s.chan tn ch).modeP = some y ∧
        PduFits P ch (s.chan tn ch).modeP fn y
      · obtain ⟨y, hfill, hy⟩ := hy
        exact ⟨_, _, _, .replaced x y xs hq hx hfill hy⟩
      · exact ⟨_, _, _, .dropped x xs hq hx fun y hfill hfit => hy ⟨y, hfill, hfit⟩⟩

theorem dequeue_nil {P : Params} {tn : Tn} {ch : Chan} {mode : Mode} {s : State}
    (h : s.queue tn ch = []) : dequeue P tn ch mode s = (P.filler ch mode, s) := by
  simp [dequeue, h]

theorem dequeue_cons {P : Params} {tn : Tn} {ch : Chan} {mode : Mode} {s : State} {x : QElem}
    {xs : List QElem} (h : s.queue tn ch = x :: xs) :
    dequeue P tn ch mode s = (some x, s.setQueue tn ch xs) := by
  simp [dequeue, h]

/-- The element that is sent fits (R282). -/
theorem State.Offered.fits {P : Params} {s : State} {tn : Tn} {ch : Chan} {fn : Fn} {x : QElem}
    {bad : Bool} {xs : List QElem} (h : s.Offered P tn ch fn (some x) bad xs) :
    PduFits P ch (s.chan tn ch).modeP fn x := by
  cases h <;> assumption

/-- `State.Offered` is what the machine does: `evs` and the queue it leaves. -/
theorem State.Offered.offer_eq {P : Params} {s : State} {tn : Tn} {ch : Chan} {fn : Fn}
    {x : Option QElem} {bad : Bool} {xs : List QElem} (h : s.Offered P tn ch fn x bad xs) :
    ∃ v, s.offer P tn ch fn = (x, v) ∧ ServesChan tn ch s v (badLenLog bad tn ch fn) 0 ∧
      v.chan tn ch = (s.chan tn ch).startDl ∧ v.queue tn ch = xs := by
  have hlatch := (ServesChan.refl (tn := tn) (ch := ch) s).setChan (s.chan tn ch).startDl
  have hmode : (s.chan tn ch).startDl.modeDl = (s.chan tn ch).modeP := rfl
  unfold State.offer
  dsimp only
  rw [hmode]
  cases h with
  | queued x xs hq hfit =>
    rw [dequeue_cons (s := s.setChan tn ch _) hq]
    simp only [usable, (lenOk_iff _ _ _ _ _).2 hfit, if_true]
    exact ⟨_, rfl, hlatch.setQueue xs, State.setChan_chan _ _ _ _, State.setQueue_queue _ _ _ _⟩
  | filler x hq hfill hfit =>
    rw [dequeue_nil (s := s.setChan tn ch _) hq, hfill]
    simp only [usable, (lenOk_iff _ _ _ _ _).2 hfit, if_true]
    exact ⟨_, rfl, hlatch, State.setChan_chan _ _ _ _, hq⟩
  | nothing hq hfill =>
    rw [dequeue_nil (s := s.setChan tn ch _) hq, hfill]
    exact ⟨_, rfl, hlatch, State.setChan_chan _ _ _ _, hq⟩
  | replaced x y xs hq hbad hfill hfit =>
    rw [dequeue_cons (s := s.setChan tn ch _) hq]
    simp only [usable, mt (lenOk_iff _ _ _ _ _).1 hbad, hfill, Option.filter_some,
      (lenOk_iff _ _ _ _ _).2 hfit, if_true]
    exact ⟨_, rfl, (hlatch.setQueue xs).emit rfl, State.setChan_chan _ _ _ _,
      State.setQueue_queue _ _ _ _⟩
  | dropped x xs hq hbad hfill =>
    have hnone : (P.filler ch (s.chan tn ch).modeP).filter
        (fun f => lenOk P ch (s.chan tn ch).modeP fn f) = none :=
      Option.filter_eq_none_iff.2 fun y hy => mt (lenOk_iff _ _ _ _ _).1 (hfill y hy)
    rw [dequeue_cons (s := s.setChan tn ch _) hq]
    simp only [usable, mt (lenOk_iff _ _ _ _ _).1 hbad, hnone]
    exact ⟨_, rfl, (hlatch.setQueue xs).emit rfl, State.setChan_chan _ _ _ _,
      State.setQueue_queue _ _ _ _⟩
  | unfit x hq hfill hbad =>
    have hlen := mt (lenOk_iff _ _ _ _ _).1 hbad
    rw [dequeue_nil (s := s.setChan tn ch _) hq, hfill]
    simp only [usable, hlen, hfill, Option.filter_some]
    exact ⟨_, rfl, hlatch.emit rfl, State.setChan_chan _ _ _ _, hq⟩

end Sys2Proof.Machine
end

