-- ==== Sys2Proof/Proofs/TransmitPhase.lean ====
section
/-! The transmit phase of `TICK` as a whole (47_scheduler.md R278 (4), (5)): the lower timeslots, the timeslot
a statement is about, and the higher ones. -/

namespace Sys2Proof.Machine

open State

/-! ### A block start (R280 (a)) -/

theorem startBlock_of_none {P : Params} {tn : Tn} {ch : Chan} {fn : Fn} {s v : State}
    (h : s.offer P tn ch fn = (none, v)) : startBlock P tn ch fn s = (false, v) := by
  unfold State.offer at h
  unfold startBlock
  dsimp only at h ⊢
  rw [h]

theorem startBlock_of_nomem {P : Params} {tn : Tn} {ch : Chan} {fn : Fn} {s v : State} {x : QElem}
    (h : s.offer P tn ch fn = (some x, v)) (halloc : P.allocOk v.allocs = false) :
    startBlock P tn ch fn s =
      (true, State.emit { v with allocs := v.allocs + 1 } (.log .nomem tn ch fn)) := by
  unfold State.offer at h
  unfold startBlock
  dsimp only at h ⊢
  rw [h]
  simp only [State.alloc_eq, halloc]

/-- The encoder's run for an element whose allocation succeeded (R282), with the channel state `z`. -/
def codeElement (P : Params) (ch : Chan) (fn : Fn) (z : ChanState) (x : QElem) (v : State) : Cmd :=
  runEncoder P ch z fn (State.setPdu { v with allocs := v.allocs + 1 } x.bytes)

/-- The end of a block start, from the run of the encoder. -/
def blockCoded (tn : Tn) (ch : Chan) (z : ChanState) (v : State) : Cmd → Bool × State
  | .done t => (false, t.setChan tn ch
      { z with dlAlloc := true, dlMod := false, dlBuf := t.e.take (116 * nbDl ch) })
  | .raised _ _ t => (false, t.setChan tn ch z)
  | .refused _ => (false, { v with allocs := v.allocs + 1 })

theorem startBlock_of_alloc {P : Params} {tn : Tn} {ch : Chan} {fn : Fn} {s v : State} {x : QElem}
    (h : s.offer P tn ch fn = (some x, v)) (halloc : P.allocOk v.allocs = true) :
    startBlock P tn ch fn s =
      blockCoded tn ch ((s.chan tn ch).startDl.takeDlIndices ch x) v
        (codeElement P ch fn ((s.chan tn ch).startDl.takeDlIndices ch x) x v) := by
  unfold State.offer at h
  unfold startBlock
  dsimp only at h ⊢
  rw [h]
  simp only [State.alloc_eq, halloc]
  rfl

theorem codeElement_ends (P : Params) (ch : Chan) (fn : Fn) (z : ChanState) (x : QElem) (v : State) :
    (codeElement P ch fn z x v).Ends (State.CodingFrame { v with allocs := v.allocs + 1 }) :=
  (runEncoder_ends_codingFrame P ch z fn _).mono fun _ ht =>
    ⟨ht.evq, ht.ts, ht.bsic, ht.allocs, ht.cs, ht.q⟩

/-- A block start serves its channel, and consults the oracle once if there is an element to send. -/
theorem startBlock_serves {P : Params} {tn : Tn} {ch : Chan} {fn : Fn} {s : State} {x : Option QElem}
    {bad : Bool} {xs : List QElem} (h : s.Offered P tn ch fn x bad xs) :
    ∃ evs, ServesChan tn ch s (startBlock P tn ch fn s).2 evs (if x.isSome then 1 else 0) := by
  obtain ⟨v, hoffer, hserves, -, -⟩ := h.offer_eq
  cases x with
  | none =>
    rw [startBlock_of_none hoffer]
    exact ⟨_, hserves⟩
  | some x =>
    cases halloc : P.allocOk v.allocs with
    | false =>
      rw [startBlock_of_nomem hoffer halloc]
      exact ⟨_, hserves.alloc.emit rfl⟩
    | true =>
      rw [startBlock_of_alloc hoffer halloc]
      generalize (s.chan tn ch).startDl.takeDlIndices ch x = z
      have hcode := codeElement_ends P ch fn z x v
      cases hc : codeElement P ch fn z x v with
      | done t => rw [hc] at hcode; exact ⟨_, (hserves.alloc.coding hcode.of_done).setChan _⟩
      | raised e info t => rw [hc] at hcode; exact ⟨_, (hserves.alloc.coding hcode.of_raised).setChan _⟩
      | refused r => exact ⟨_, hserves.alloc⟩

/-! ### One timeslot (R280) -/

open Classical in
/-- The consultations of the allocation oracle by timeslot `tn` (log 4). -/
noncomputable def State.asking (P : Params) (fn : Fn) (s : State) (tn : Tn) : Nat :=
  if s.Asks P fn tn then 1 else 0

/-- What is offered is a function of the state. -/
theorem State.Offered.unique {P : Params} {s : State} {tn : Tn} {ch : Chan} {fn : Fn}
    {x x' : Option QElem} {bad bad' : Bool} {xs xs' : List QElem}
    (h : s.Offered P tn ch fn x bad xs) (h' : s.Offered P tn ch fn x' bad' xs') : x = x' := by
  obtain ⟨v, hoffer, -⟩ := h.offer_eq
  obtain ⟨v', hoffer', -⟩ := h'.offer_eq
  exact congrArg Prod.fst (hoffer.symm.trans hoffer')

/-- The slot of timeslot `tn` in frame `fn` begins a block of an active channel with a PDU family. -/
def State.Begins (s : State) (l : Layout) (fn : Fn) (tn : Tn) : Prop :=
  (l.slot fn.toNat).dlBid = 0 ∧ dlFamily (l.slot fn.toNat).dlChan ∈ [Family.xcch, .pdtch, .tch] ∧
    s.isActive tn (l.slot fn.toNat).dlChan = true

theorem State.asking_of_begins {P : Params} {s : State} {l : Layout} {fn : Fn} {tn : Tn}
    (hl : s.layout P tn = some l) (h : s.Begins l fn tn) {x : Option QElem} {bad : Bool}
    {xs : List QElem} (hx : s.Offered P tn (l.slot fn.toNat).dlChan fn x bad xs) :
    s.asking P fn tn = if x.isSome then 1 else 0 := by
  obtain ⟨hbid, hfam, hact⟩ := h
  have hasks : s.Asks P fn tn ↔ x.isSome = true := by
    constructor
    · rintro ⟨l', y, bad', xs', hl', -, -, -, hy⟩
      obtain rfl := Option.some.inj (hl.symm.trans hl')
      rw [hx.unique hy]
      rfl
    · intro hsome
      obtain ⟨y, rfl⟩ := Option.isSome_iff_exists.1 hsome
      exact ⟨l, y, bad, xs, hl, hbid, hfam, hact, hx⟩
  simp only [State.asking, hasks]

theorem State.asking_of_not_begins {P : Params} {s : State} {l : Layout} {fn : Fn} {tn : Tn}
    (hl : s.layout P tn = some l) (h : ¬s.Begins l fn tn) : s.asking P fn tn = 0 := by
  refine if_neg ?_
  rintro ⟨l', x, bad, xs, hl', hbid, hfam, hact, -⟩
  obtain rfl := Option.some.inj (hl.symm.trans hl')
  exact h ⟨hbid, hfam, hact⟩

theorem State.asking_of_unconfigured {P : Params} {s : State} {fn : Fn} {tn : Tn}
    (hl : s.layout P tn = none) : s.asking P fn tn = 0 := by
  refine if_neg ?_
  rintro ⟨l, x, bad, xs, hl', -⟩
  rw [hl] at hl'
  cases hl'

theorem sendBurst_serves (P : Params) (tn : Tn) (ch : Chan) (bid : Fin 8) (fn : Fn) (s : State) :
    ∃ evs, ServesChan tn ch s (sendBurst P tn ch bid fn s) evs 0 := by
  unfold sendBurst
  extract_lets y t
  have ht : ∃ evs, ServesChan tn ch s t evs 0 := by
    unfold t
    split
    · exact ⟨_, (ServesChan.refl s).emit rfl⟩
    · exact ⟨_, ServesChan.refl s⟩
  obtain ⟨evs, ht⟩ := ht
  split
  · exact ⟨evs, ht.setChan _⟩
  · exact ⟨evs, ht⟩

/-- The blocks that carry PDUs. -/
theorem blockDl_serves {P : Params} {s : State} {l : Layout} {fn : Fn} {tn : Tn}
    (hl : s.layout P tn = some l)
    (hfam : dlFamily (l.slot fn.toNat).dlChan ∈ [Family.xcch, .pdtch, .tch]) :
    ∃ evs, ServesChan tn (l.slot fn.toNat).dlChan s
      (blockDl P tn (l.slot fn.toNat).dlChan (l.slot fn.toNat).dlBid fn s).2 evs
      (s.asking P fn tn) := by
  unfold blockDl
  by_cases hact : s.isActive tn (l.slot fn.toNat).dlChan = true
  · rw [if_neg (by simp [hact])]
    by_cases hbid : (l.slot fn.toNat).dlBid = 0
    · rw [if_pos hbid]
      obtain ⟨x, bad, xs, hx⟩ := s.exists_offered P tn (l.slot fn.toNat).dlChan fn
      rw [State.asking_of_begins hl ⟨hbid, hfam, hact⟩ hx]
      obtain ⟨evs, hstart⟩ := startBlock_serves hx
      split
      · next ht => rw [ht] at hstart; exact ⟨evs, hstart⟩
      · next ht =>
        rw [ht] at hstart
        obtain ⟨evs', hsend⟩ := sendBurst_serves P tn _ (l.slot fn.toNat).dlBid fn _
        exact ⟨_, hstart.trans hsend⟩
    · rw [if_neg hbid, State.asking_of_not_begins hl fun h => hbid h.1]
      exact sendBurst_serves _ _ _ _ _ _
  · rw [if_pos (by simpa using hact), State.asking_of_not_begins hl fun h => hact h.2.2]
    exact ⟨_, ServesChan.refl s⟩

theorem schDl_serves (P : Params) (tn : Tn) (ch : Chan) (fn : Fn) (s : State) :
    ∃ evs, ServesChan tn ch s (schDl P tn fn s) evs 0 := by
  have hpdu : s.CodingFrame (s.setPdu (schPdu P fn s.bsic)) := ⟨rfl, rfl, rfl, rfl, rfl, rfl⟩
  have henc := (schEncBody_ends (s.setPdu (schPdu P fn s.bsic))).mono fun _ ht =>
    hpdu.trans ht.codingFrame
  unfold schDl
  split
  · next hd => rw [hd] at henc; exact ⟨_, ((ServesChan.refl s).coding henc.of_done).emit rfl⟩
  · next hd => rw [hd] at henc; exact ⟨_, (ServesChan.refl s).coding henc.of_raised⟩
  · exact ⟨_, ServesChan.refl s⟩

theorem dlSlot_of_unconfigured {P : Params} {fn : Nat} {s : State} {tn : Tn}
    (h : s.layout P tn = none) : dlSlot P fn s tn = (false, s) := by
  unfold dlSlot
  rw [h]

/-- Every timeslot serves one of its channels at most. -/
theorem dlSlot_serves (P : Params) (fn : Fn) (s : State) (tn : Tn) :
    ∃ ch evs, ServesChan tn ch s (dlSlot P fn.toNat s tn).2 evs (s.asking P fn tn) := by
  cases hl : s.layout P tn with
  | none =>
    rw [dlSlot_of_unconfigured hl, State.asking_of_unconfigured hl]
    exact ⟨chIdle, [], ServesChan.refl s⟩
  | some l =>
    have hnot (hfam : dlFamily (l.slot fn.toNat).dlChan ∉ [Family.xcch, .pdtch, .tch]) :
        s.asking P fn tn = 0 :=
      State.asking_of_not_begins hl fun h => hfam h.2.1
    refine ⟨(l.slot fn.toNat).dlChan, ?_⟩
    unfold dlSlot
    rw [hl]
    dsimp only
    rw [toFn_toNat]
    cases hfam : dlFamily (l.slot fn.toNat).dlChan with
    | fcch =>
      rw [hnot (by rw [hfam]; decide)]
      exact ⟨_, (ServesChan.refl s).emit rfl⟩
    | sch =>
      rw [hnot (by rw [hfam]; decide)]
      exact schDl_serves _ _ _ _ _
    | xcch | pdtch | tch => exact blockDl_serves hl (by rw [hfam]; decide)
    | none | rach | unsupp =>
      rw [hnot (by rw [hfam]; decide)]
      exact ⟨[], ServesChan.refl s⟩

/-! ### A run of timeslots -/

/-- The state of timeslot `k` is the same in `s` and `t`. -/
def State.SameSlot (s t : State) (k : Tn) : Prop :=
  ∀ c : Chan, t.chan k c = s.chan k c ∧ t.queue k c = s.queue k c

/-- What is offered depends on the channel and its queue alone. -/
theorem State.Offered.congr {P : Params} {s t : State} {tn : Tn} {ch : Chan} {fn : Fn}
    (hsame : s.SameSlot t tn) {x : Option QElem} {bad : Bool} {xs : List QElem}
    (h : s.Offered P tn ch fn x bad xs) : t.Offered P tn ch fn x bad xs := by
  obtain ⟨hchan, hqueue⟩ := hsame ch
  cases h with
  | queued x xs hq hfit => exact .queued x xs (hqueue.trans hq) (by rwa [hchan])
  | filler x hq hfill hfit => exact .filler x (hqueue.trans hq) (by rwa [hchan]) (by rwa [hchan])
  | nothing hq hfill => exact .nothing (hqueue.trans hq) (by rwa [hchan])
  | replaced x y xs hq hbad hfill hfit =>
    exact .replaced x y xs (hqueue.trans hq) (by rwa [hchan]) (by rwa [hchan]) (by rwa [hchan])
  | dropped x xs hq hbad hfill =>
    exact .dropped x xs (hqueue.trans hq) (by rwa [hchan]) (by rwa [hchan])
  | unfit x hq hfill hbad => exact .unfit x (hqueue.trans hq) (by rwa [hchan]) (by rwa [hchan])

theorem State.SameSlot.symm {s t : State} {k : Tn} (h : s.SameSlot t k) : t.SameSlot s k :=
  fun c => ⟨(h c).1.symm, (h c).2.symm⟩

theorem State.SameSlot.trans {s t u : State} {k : Tn} (h : s.SameSlot t k) (h' : t.SameSlot u k) :
    s.SameSlot u k :=
  fun c => ⟨(h' c).1.trans (h c).1, (h' c).2.trans (h c).2⟩

theorem State.layout_congr {P : Params} {s t : State} (hts : t.ts = s.ts) (tn : Tn) :
    t.layout P tn = s.layout P tn := by
  unfold State.layout
  rw [hts]

theorem State.SameSlot.isActive {s t : State} {k : Tn} (h : s.SameSlot t k) (c : Chan) :
    t.isActive k c = s.isActive k c := by
  rw [State.isActive, (h c).1, State.isActive]

theorem State.Asks.congr {P : Params} {s t : State} {fn : Fn} {k : Tn} (hts : t.ts = s.ts)
    (hsame : s.SameSlot t k) (h : s.Asks P fn k) : t.Asks P fn k := by
  obtain ⟨l, x, bad, xs, hl, hbid, hfam, hact, hx⟩ := h
  exact ⟨l, x, bad, xs, (State.layout_congr hts k).trans hl, hbid, hfam,
    (hsame.isActive _).trans hact, hx.congr hsame⟩

theorem State.asking_congr {P : Params} {s t : State} {fn : Fn} {k : Tn} (hts : t.ts = s.ts)
    (hsame : s.SameSlot t k) : t.asking P fn k = s.asking P fn k := by
  have hasks : t.Asks P fn k ↔ s.Asks P fn k :=
    ⟨fun h => h.congr hts.symm hsame.symm, fun h => h.congr hts hsame⟩
  by_cases hs : s.Asks P fn k
  · rw [State.asking, State.asking, if_pos hs, if_pos (hasks.2 hs)]
  · rw [State.asking, State.asking, if_neg hs, if_neg (mt hasks.1 hs)]

/-- From `s` to `t` the timeslots of `tns` were served: the events `evs` were emitted, each of one of them, the
allocation oracle was consulted `n` times, and no other timeslot changed. -/
structure State.ServesSlots (tns : List Tn) (s t : State) (evs : List Event) (n : Nat) : Prop where
  evq : t.evq = s.evq ++ evs
  own : ∀ e ∈ evs, e.tn ∈ tns
  ts : t.ts = s.ts
  bsic : t.bsic = s.bsic
  allocs : t.allocs = s.allocs + n
  others : ∀ k, k ∉ tns → s.SameSlot t k

theorem State.ServesSlots.refl (s : State) : ServesSlots [] s s [] 0 :=
  ⟨by simp, by simp, rfl, rfl, rfl, fun _ _ _ => ⟨rfl, rfl⟩⟩

theorem State.ServesChan.sameSlot {tn : Tn} {ch : Chan} {s t : State} {evs : List Event} {n : Nat}
    (h : ServesChan tn ch s t evs n) {k : Tn} (hk : k ≠ tn) : s.SameSlot t k :=
  fun c => h.others k c fun hkc => hk hkc.1

theorem State.ServesSlots.cons {tn : Tn} {tns : List Tn} {ch : Chan} {s t u : State}
    {evs evs' : List Event} {n n' : Nat} (h : ServesChan tn ch s t evs n)
    (h' : ServesSlots tns t u evs' n') : ServesSlots (tn :: tns) s u (evs ++ evs') (n + n') where
  evq := by rw [h'.evq, h.evq, List.append_assoc]
  own e he := by
    obtain he | he := List.mem_append.1 he
    · rw [h.own e he]; exact List.mem_cons_self
    · exact List.mem_cons_of_mem _ (h'.own e he)
  ts := h'.ts.trans h.ts
  bsic := h'.bsic.trans h.bsic
  allocs := by rw [h'.allocs, h.allocs, Nat.add_assoc]
  others k hk := by
    obtain ⟨hne, hmem⟩ := not_or.1 (mt List.mem_cons.2 hk)
    exact (h.sameSlot hne).trans (h'.others k hmem)

theorem transmit_cons (P : Params) (fn : Nat) (tn : Tn) (tns : List Tn) (failed : Nat) (s : State) :
    transmit P fn (tn :: tns) failed s =
      transmit P fn tns (failed + if (dlSlot P fn s tn).1 then 2 ^ tn.val else 0) (dlSlot P fn s tn).2 := by
  rw [transmit]
  rcases dlSlot P fn s tn with ⟨_ | _, t⟩ <;> rfl

theorem transmit_append (P : Params) (fn : Nat) (tns tns' : List Tn) (failed : Nat) (s : State) :
    transmit P fn (tns ++ tns') failed s =
      transmit P fn tns' (transmit P fn tns failed s).1 (transmit P fn tns failed s).2 := by
  induction tns generalizing failed s with
  | nil => rfl
  | cons tn tns ih => rw [List.cons_append, transmit_cons, ih, transmit_cons]

theorem transmit_serves (P : Params) (fn : Fn) {tns : List Tn} (hnodup : tns.Nodup) (failed : Nat)
    (s : State) : ∃ evs, ServesSlots tns s (transmit P fn.toNat tns failed s).2 evs
      (tns.map (s.asking P fn)).sum := by
  induction tns generalizing failed s with
  | nil => exact ⟨[], ServesSlots.refl s⟩
  | cons tn tns ih =>
    obtain ⟨hnot, hnodup⟩ := List.nodup_cons.1 hnodup
    obtain ⟨ch, evs, hslot⟩ := dlSlot_serves P fn s tn
    rw [transmit_cons]
    obtain ⟨evs', hrest⟩ := ih hnodup
      (failed + if (dlSlot P fn.toNat s tn).1 then 2 ^ tn.val else 0) (dlSlot P fn.toNat s tn).2
    have hasking : tns.map (State.asking P fn (dlSlot P fn.toNat s tn).2) =
        tns.map (s.asking P fn) :=
      List.map_congr_left fun k hk => State.asking_congr hslot.ts
        (hslot.sameSlot fun heq => hnot (heq ▸ hk))
    rw [hasking] at hrest
    exact ⟨_, ServesSlots.cons hslot hrest⟩

theorem transmit_of_unconfigured {P : Params} {fn : Nat} {tns : List Tn} {failed : Nat} {s : State}
    (h : ∀ k ∈ tns, (s.ts.get k).pchan = 0) : transmit P fn tns failed s = (failed, s) := by
  induction tns with
  | nil => rfl
  | cons tn tns ih =>
    rw [transmit_cons, dlSlot_of_unconfigured (if_pos (h tn List.mem_cons_self))]
    exact ih fun k hk => h k (List.mem_cons_of_mem _ hk)

/-! ### The set of failed timeslots -/

theorem transmit_failed_le (P : Params) (fn : Nat) (tns : List Tn) (failed : Nat) (s : State) :
    (transmit P fn tns failed s).1 ≤ failed + (tns.map fun k => 2 ^ k.val).sum := by
  induction tns generalizing failed s with
  | nil => exact Nat.le_refl _
  | cons tn tns ih =>
    rw [transmit_cons, List.map_cons, List.sum_cons]
    have hrest := ih (failed + if (dlSlot P fn s tn).1 then 2 ^ tn.val else 0) (dlSlot P fn s tn).2
    have hbit : (if (dlSlot P fn s tn).1 then 2 ^ tn.val else 0) ≤ 2 ^ tn.val := by
      split
      · exact Nat.le_refl _
      · exact Nat.zero_le _
    omega

/-- Timeslots from `d` on do not touch the bits below `d`. -/
theorem transmit_failed_mod (P : Params) (fn : Nat) {d : Nat} {tns : List Tn}
    (h : ∀ k ∈ tns, d ≤ k.val) (failed : Nat) (s : State) :
    (transmit P fn tns failed s).1 % 2 ^ d = failed % 2 ^ d := by
  induction tns generalizing failed s with
  | nil => rfl
  | cons tn tns ih =>
    have hdvd : 2 ^ d ∣ if (dlSlot P fn s tn).1 then 2 ^ tn.val else 0 := by
      split
      · exact pow_dvd_pow 2 (h tn List.mem_cons_self)
      · exact dvd_zero _
    rw [transmit_cons, ih fun k hk => h k (List.mem_cons_of_mem _ hk), Nat.add_mod,
      Nat.mod_eq_zero_of_dvd hdvd, Nat.add_zero, Nat.mod_mod]

/-! ### The timeslots below and above one timeslot -/

/-- The timeslots served before `tn`. -/
def tnsBelow (tn : Tn) : List Tn := allTn.take tn.val

/-- The timeslots served after `tn`. -/
def tnsAbove (tn : Tn) : List Tn := allTn.drop (tn.val + 1)

theorem allTn_split (tn : Tn) : allTn = tnsBelow tn ++ tn :: tnsAbove tn := by revert tn; decide

theorem mem_tnsBelow (tn k : Tn) : k ∈ tnsBelow tn ↔ k.val < tn.val := by revert tn k; decide

theorem mem_tnsAbove (tn k : Tn) : k ∈ tnsAbove tn ↔ tn.val < k.val := by revert tn k; decide

theorem tnsBelow_nodup (tn : Tn) : (tnsBelow tn).Nodup := by revert tn; decide

theorem tnsAbove_nodup (tn : Tn) : (tnsAbove tn).Nodup := by revert tn; decide

theorem sum_tnsBelow (tn : Tn) : ((tnsBelow tn).map fun k => 2 ^ k.val).sum + 1 = 2 ^ tn.val := by
  revert tn; decide

theorem sum_tnsBelow_le (tn : Tn) :
    2 ^ tn.val + 2 ^ tn.val + ((tnsAbove tn).map fun k => 2 ^ k.val).sum = 256 := by
  revert tn; decide

/-- The lower timeslots that consult the oracle, counted (log 4). -/
theorem sum_asking_below {P : Params} {s : State} {fn : Fn} {tn : Tn} {before : List Tn}
    (hnodup : before.Nodup) (hmem : ∀ k, k ∈ before ↔ k.val < tn.val ∧ s.Asks P fn k) :
    ((tnsBelow tn).map (s.asking P fn)).sum = before.length := by
  classical
  have hcount (tns : List Tn) : (tns.map (s.asking P fn)).sum =
      (tns.filter fun k => decide (s.Asks P fn k)).length := by
    induction tns with
    | nil => rfl
    | cons k tns ih =>
      rw [List.map_cons, List.sum_cons, ih, State.asking, List.filter_cons]
      split
      · simp [*, Nat.add_comm]
      · simp [*]
  rw [hcount]
  refine ((List.perm_ext_iff_of_nodup ((tnsBelow_nodup tn).filter _) hnodup).2 fun k => ?_).length_eq
  simp [hmem, mem_tnsBelow]

/-! ### The whole phase -/

/-- The bit of a timeslot in the set of the failed ones (R278 (5)). -/
theorem testBit_failed {tn : Tn} {below total : Nat} {b : Bool} (hbelow : below < 2 ^ tn.val)
    (htotal : total % 2 ^ (tn.val + 1) = (below + if b then 2 ^ tn.val else 0) % 2 ^ (tn.val + 1)) :
    total.testBit tn.val = b := by
  have hbit := congrArg (Nat.testBit · tn.val) htotal
  simp only [Nat.testBit_mod_two_pow, Nat.lt_succ_self, decide_true, Bool.true_and] at hbit
  rw [hbit]
  cases b with
  | false => simpa using Nat.testBit_lt_two_pow hbelow
  | true => simp [Nat.add_comm below, Nat.testBit_two_pow_add_eq, Nat.testBit_lt_two_pow hbelow]

/-- The state in which the transmit phase begins (R278 (2), (3)). -/
def tickStart (P : Params) (fn : Fn) (s : State) : State :=
  { s with fn := fn, fnValid := true, evq := s.evq ++ allTn.filterMap (rtsFor P fn s) }

theorem runTick_eq (P : Params) (fn : Fn) (s : State) :
    runTick P fn s = transmit P fn.toNat allTn 0 (tickStart P fn s) := by
  rw [runTick, foldl_rtsSlot_eq]
  rfl

theorem tickEnd_status {r : Nat × State} (h : r.1 < 256) :
    (tickEnd r).stat.aux.toNat = r.1 ∧ (tickEnd r).stat.code =
      if (tickEnd r).stat.aux = 0 then ErrCode.none.code else ErrCode.nomem.code := by
  have haux : (tickEnd r).stat.aux.toNat = r.1 := by
    simp only [tickEnd, State.raise_stat, BitVec.toNat_ofNat]
    omega
  have hzero : (tickEnd r).stat.aux = 0 ↔ r.1 = 0 := by
    rw [← haux, ← BitVec.toNat_inj]
    rfl
  have hcode : (tickEnd r).stat.code = (if r.1 = 0 then ErrCode.none else .nomem).code := rfl
  refine ⟨haux, ?_⟩
  rw [hcode]
  by_cases hr : r.1 = 0
  · rw [if_pos hr, if_pos (hzero.2 hr)]
  · rw [if_neg hr, if_neg (mt hzero.1 hr)]

theorem rtsFor_of_unconfigured {P : Params} {fn : Fn} {s : State} {k : Tn}
    (h : (s.ts.get k).pchan = 0) : rtsFor P fn s k = none := by
  have hl : s.layout P k = none := if_pos h
  rw [rtsFor, hl]
  rfl

/-- With one timeslot configured there is at most its own ready-to-send signal. -/
theorem filterMap_rtsFor_of_onlySlot {P : Params} {fn : Fn} {s : State} {tn : Tn}
    (h : s.OnlySlot tn) : allTn.filterMap (rtsFor P fn s) = (rtsFor P fn s tn).toList := by
  have hnone {tns : List Tn} (hne : ∀ k ∈ tns, k ≠ tn) : tns.filterMap (rtsFor P fn s) = [] :=
    List.filterMap_eq_nil_iff.2 fun k hk => rtsFor_of_unconfigured (h k (hne k hk))
  have hbelow := hnone (tns := tnsBelow tn) fun k hk heq =>
    absurd ((mem_tnsBelow tn k).1 hk) (by simp [heq])
  have habove := hnone (tns := tnsAbove tn) fun k hk heq =>
    absurd ((mem_tnsAbove tn k).1 hk) (by simp [heq])
  rw [allTn_split tn, List.filterMap_append, List.filterMap_cons, hbelow, habove]
  cases rtsFor P fn s tn <;> rfl

/-- The transmit phase around timeslot `tn`: the lower timeslots lead to `u` with the failed ones `below`, its
own turn to `v`, and the higher ones to the end. -/
structure TickRun (P : Params) (fn : Fn) (s : State) (tn : Tn) (u v w : State)
    (below total : Nat) (failed : Bool) : Prop where
  lower : transmit P fn.toNat (tnsBelow tn) 0 (tickStart P fn s) = (below, u)
  own : dlSlot P fn.toNat u tn = (failed, v)
  upper : transmit P fn.toNat (tnsAbove tn) (below + if failed then 2 ^ tn.val else 0) v = (total, w)

namespace TickRun

theorem exists_of_runTick (P : Params) (fn : Fn) (s : State) (tn : Tn) :
    ∃ u v w below total failed, TickRun P fn s tn u v w below total failed ∧
      runTick P fn s = (total, w) := by
  rcases hlower : transmit P fn.toNat (tnsBelow tn) 0 (tickStart P fn s) with ⟨below, u⟩
  rcases hown : dlSlot P fn.toNat u tn with ⟨failed, v⟩
  rcases hupper : transmit P fn.toNat (tnsAbove tn) (below + if failed then 2 ^ tn.val else 0) v with
    ⟨total, w⟩
  refine ⟨u, v, w, below, total, failed, ⟨hlower, hown, hupper⟩, ?_⟩
  rw [runTick_eq, congrArg (fun tns => transmit P fn.toNat tns 0 (tickStart P fn s)) (allTn_split tn),
    transmit_append, hlower, transmit_cons, hown, hupper]

variable {P : Params} {fn : Fn} {s : State} {tn : Tn} {u v w : State} {below total : Nat}
  {failed : Bool} (h : TickRun P fn s tn u v w below total failed)
include h

theorem lower_serves : ∃ evs, ServesSlots (tnsBelow tn) (tickStart P fn s) u evs
    ((tnsBelow tn).map (s.asking P fn)).sum := by
  have hserves := transmit_serves P fn (tnsBelow_nodup tn) 0 (tickStart P fn s)
  have hasking : State.asking P fn (tickStart P fn s) = s.asking P fn :=
    funext fun _ => State.asking_congr rfl fun _ => ⟨rfl, rfl⟩
  rw [h.lower, hasking] at hserves
  exact hserves

theorem upper_serves : ∃ evs n, ServesSlots (tnsAbove tn) v w evs n := by
  obtain ⟨evs, hserves⟩ := transmit_serves P fn (tnsAbove_nodup tn)
    (below + if failed then 2 ^ tn.val else 0) v
  rw [h.upper] at hserves
  exact ⟨evs, _, hserves⟩

theorem lower_sameSlot : s.SameSlot u tn := by
  obtain ⟨evs, hlower⟩ := h.lower_serves
  exact hlower.others tn (by simp [mem_tnsBelow])

theorem upper_sameSlot : v.SameSlot w tn := by
  obtain ⟨evs, n, hupper⟩ := h.upper_serves
  exact hupper.others tn (by simp [mem_tnsAbove])

theorem below_lt : below < 2 ^ tn.val := by
  have hle := transmit_failed_le P fn.toNat (tnsBelow tn) 0 (tickStart P fn s)
  rw [h.lower] at hle
  have hsum := sum_tnsBelow tn
  dsimp only at hle
  omega

theorem total_lt : total < 256 := by
  have hle := transmit_failed_le P fn.toNat (tnsAbove tn) (below + if failed then 2 ^ tn.val else 0) v
  rw [h.upper] at hle
  have hbelow := h.below_lt
  have hsum := sum_tnsBelow_le tn
  dsimp only at hle
  split at hle <;> omega

theorem total_testBit : total.testBit tn.val = failed := by
  have hmod := transmit_failed_mod P fn.toNat (d := tn.val + 1) (tns := tnsAbove tn)
    (fun k hk => (mem_tnsAbove tn k).1 hk) (below + if failed then 2 ^ tn.val else 0) v
  rw [h.upper] at hmod
  exact testBit_failed h.below_lt hmod

/-- With no other timeslot configured, the phase is the turn of the one timeslot. -/
theorem of_onlySlot (honly : s.OnlySlot tn) (hts : v.ts = u.ts) :
    u = tickStart P fn s ∧ w = v ∧ total = if failed then 2 ^ tn.val else 0 := by
  have hlower : transmit P fn.toNat (tnsBelow tn) 0 (tickStart P fn s) = (0, tickStart P fn s) :=
    transmit_of_unconfigured fun k hk => honly k fun heq =>
      absurd ((mem_tnsBelow tn k).1 hk) (by simp [heq])
  obtain ⟨rfl, rfl⟩ := Prod.mk.inj (h.lower.symm.trans hlower)
  have hupper := transmit_of_unconfigured (P := P) (fn := fn.toNat)
    (failed := 0 + if failed then 2 ^ tn.val else 0) (s := v) fun k hk => by
      rw [hts]
      exact honly k fun heq => absurd ((mem_tnsAbove tn k).1 hk) (by simp [heq])
  obtain ⟨rfl, rfl⟩ := Prod.mk.inj (h.upper.symm.trans hupper)
  exact ⟨rfl, rfl, Nat.zero_add _⟩

theorem served {ch : Chan} {evs : List Event} {n : Nat} (hown : ServesChan tn ch u v evs n) :
    Served P fn s (tickEnd (total, w)) tn ch evs failed where
  events := by
    obtain ⟨lower, hlower⟩ := h.lower_serves
    obtain ⟨upper, m, hupper⟩ := h.upper_serves
    refine ⟨lower, upper, ?_, fun e he => (mem_tnsBelow tn _).1 (hlower.own e he),
      fun e he => (mem_tnsAbove tn _).1 (hupper.own e he)⟩
    show w.evq = _
    rw [hupper.evq, hown.evq, hlower.evq]
    rfl
  status := by
    obtain ⟨haux, hcode⟩ := tickEnd_status (r := (total, w)) h.total_lt
    refine ⟨?_, haux ▸ h.total_lt, hcode⟩
    rw [BitVec.getLsbD, haux]
    exact h.total_testBit
  others c hc := by
    obtain ⟨hchan, hqueue⟩ := h.lower_sameSlot c
    obtain ⟨hchan', hqueue'⟩ := hown.others tn c fun heq => hc heq.2
    obtain ⟨hchan'', hqueue''⟩ := h.upper_sameSlot c
    exact ⟨hchan''.trans (hchan'.trans hchan), hqueue''.trans (hqueue'.trans hqueue)⟩
  alone honly := by
    obtain ⟨rfl, rfl, rfl⟩ := h.of_onlySlot honly hown.ts
    refine ⟨?_, ?_, fun k c hk => hown.others k c fun heq => hk heq.1⟩
    · show w.evq = _
      rw [hown.evq, tickStart, filterMap_rtsFor_of_onlySlot honly]
    · cases failed with
      | false => rfl
      | true => simp [tickEnd, Stat.error]

end TickRun

end Sys2Proof.Machine
end

