-- ==== Sys2Proof/Proofs/BlockStart.lean ====
section
/-! A downlink block start (47_scheduler.md R280 (a), R281, R282): the encoder of the element that is sent,
its first burst, and the turn of its timeslot. -/

namespace Sys2Proof.Machine

open State

/-! ### The encoder of an element that fits (R282) -/

theorem xcchEncBody_of_len {s : State} (h : s.mem.pdu.len = 23) : xcchEncBody s =
    .done ((s.codeControl s.pdu).spread .x4 (controlCoded s.pdu) (List.replicate 8 true)) :=
  if_neg (not_not.2 h)

theorem pdtchEncBody_of_scheme {s : State} {x : Scheme} (h : schemeOfLen s.mem.pdu.len = some x) :
    pdtchEncBody s = .done (((s.setScheme x (usfOf s.pdu)).codePacket x s.pdu).spread .x4
      (packetCoded x s.pdu) x.header) := by
  unfold pdtchEncBody
  rw [h]

theorem tchfrEncBody_of_stolen {P : Params} {speech : Efr} {s : State} (h : s.mem.pdu.len = 23) :
    tchfrEncBody P speech s = .done (s.codeStolen s.pdu) :=
  if_pos h

theorem tchfrEncBody_of_speech {P : Params} {speech : Efr} {s : State}
    (h : s.mem.pdu.len = speechLen speech) :
    ∃ t, tchfrEncBody P speech s = .done t ∧ t.e = speechBlock P speech s.pdu := by
  have hspeech : s.mem.pdu.len ≠ 23 := by rw [h]; cases speech <;> decide
  exact ⟨_, (if_neg hspeech).trans (if_pos h), State.spread_e _ _ _ _⟩

theorem tchafsEncBody_of_stolen {P : Params} {phase : Phase} {s : State} (h : s.mem.pdu.len = 23) :
    tchafsEncBody P phase s = .done (s.codeStolen s.pdu) :=
  if_pos h

theorem tchafsEncBody_of_fits {P : Params} {phase : Phase} {s : State} (hlen : s.mem.pdu.len ≠ 23)
    (h : afsReject P phase s.wamr s.mem.pdu.len = none) :
    ∃ t, tchafsEncBody P phase s = .done t ∧
      t.e = blockBursts .t8 (afsCoded P (listAt s.wamr.list s.wamr.ft.toNat)
        (phaseIndex phase s.wamr).toNat
        (unpackMsb s.pdu (afsMode (listAt s.wamr.list s.wamr.ft.toNat)).bits)) (tchFlags false) := by
  unfold tchafsEncBody
  rw [if_neg hlen, h]
  exact ⟨_, rfl, State.spread_e _ _ _ _⟩

theorem codeStolen_e (s : State) (pdu : List Byte) :
    (s.codeStolen pdu).e = blockBursts .t8 (controlCoded pdu) (tchFlags true) :=
  State.spread_e _ _ _ _

/-- The channel state an element is coded with: the latched one, with the element's indices (R282). -/
def sendState (ch : Chan) (x : ChanState) (e : QElem) : ChanState := x.startDl.takeDlIndices ch e

theorem sendState_eq (ch : Chan) (x : ChanState) (e : QElem) : sendState ch x e =
    { x.startDl with
      dlFt := if isAmrSpeech ch x.modeP e then e.aux.extractLsb' 0 3 else x.dlFt
      dlCmr := if isAmrSpeech ch x.modeP e then e.aux.extractLsb' 3 3 else x.dlCmr } := by
  have hcond : (dlFamily ch == .tch && x.startDl.modeDl.tchMode == .amr && e.bytes.length != 23) =
      isAmrSpeech ch x.modeP e := by
    rw [Bool.eq_iff_iff]
    simp [isAmrSpeech, ChanState.startDl, and_assoc]
  unfold sendState ChanState.takeDlIndices
  rw [hcond]
  split <;> rfl

theorem runEncoder_of_fits {P : Params} {ch : Chan} {fn : Fn} {x : ChanState} {e : QElem} {s : State}
    (hpdu : s.pdu = e.bytes) (hfit : PduFits P ch x.modeP fn e) :
    ∃ t, runEncoder P ch (sendState ch x e) fn s = .done t ∧ t.e = dlBlock P ch x.modeP fn e := by
  have hlen : s.mem.pdu.len = e.bytes.length := by rw [← hpdu, State.pdu_length]
  have hmode : (sendState ch x e).modeDl = x.modeP := by rw [sendState_eq]; rfl
  unfold PduFits at hfit
  unfold runEncoder dlBlock
  cases hfam : dlFamily ch with
  | xcch =>
    rw [hfam] at hfit
    exact ⟨_, xcchEncBody_of_len (hlen.trans hfit), by rw [State.spread_e, hpdu]⟩
  | pdtch =>
    rw [hfam] at hfit
    have hsome : (schemeOfLen e.bytes.length).isSome = true := by
      simp only [List.mem_cons, List.not_mem_nil, or_false] at hfit
      rcases hfit with h | h | h | h <;> rw [h] <;> rfl
    obtain ⟨scheme, hscheme⟩ := Option.isSome_iff_exists.1 hsome
    dsimp only
    rw [hscheme]
    exact ⟨_, pdtchEncBody_of_scheme (by rw [hlen, hscheme]), by rw [State.spread_e, hpdu]⟩
  | tch =>
    rw [hfam] at hfit
    dsimp only at hfit ⊢
    rw [hmode]
    by_cases h23 : e.bytes.length = 23
    · have hstolen := codeStolen_e s s.pdu
      rw [if_pos h23, ← hpdu]
      cases x.modeP.tchMode with
      | sign | fr | efr => exact ⟨_, tchfrEncBody_of_stolen (hlen.trans h23), hstolen⟩
      | amr => exact ⟨_, tchafsEncBody_of_stolen (hlen.trans h23), codeStolen_e _ s.pdu⟩
    · rw [if_neg h23]
      simp only [h23, false_or] at hfit
      obtain ⟨htch, h33⟩ | ⟨htch, h31⟩ | ⟨htch, hft, hidx, hnic, hbytes⟩ := hfit
      · rw [htch, ← hpdu]
        exact tchfrEncBody_of_speech (hlen.trans h33)
      · rw [htch, ← hpdu]
        exact tchfrEncBody_of_speech (hlen.trans h31)
      · have hspeech : isAmrSpeech ch x.modeP e = true := decide_eq_true ⟨hfam, htch, h23⟩
        have hwamr : wamrOf x.modeP (sendState ch x e).dlFt (sendState ch x e).dlCmr =
            wamrOf x.modeP e.ft e.cmr := by
          simp only [sendState_eq, hspeech, if_true]
          rfl
        rw [htch, hwamr]
        obtain ⟨t, ht, he⟩ := tchafsEncBody_of_fits (P := P) (phase := P.amrPhase fn)
          (s := { s with wamr := wamrOf x.modeP e.ft e.cmr }) (hlen ▸ h23)
          (by rw [afsReject_wamrOf_eq_none_iff]; exact ⟨hft, hidx, hnic, hlen.trans hbytes⟩)
        refine ⟨t, ht, he.trans ?_⟩
        rw [phaseIndex_wamrOf, ← hpdu]
        rfl
  | none | fcch | sch | rach | unsupp => rw [hfam] at hfit; exact hfit.elim

/-! ### The first burst -/

theorem one_lt_nbDl {ch : Chan} (h : dlFamily ch ∈ [Family.xcch, .pdtch, .tch]) : 1 < nbDl ch := by
  unfold nbDl
  generalize dlFamily ch = f at h
  revert f
  decide

/-- After burst 0 the buffer is kept, and a burst request was emitted if it exists (R280 (b), (c)). -/
theorem sendBurst_zero {P : Params} {tn : Tn} {ch : Chan} {fn : Fn} {s : State}
    (h : dlFamily ch ∈ [Family.xcch, .pdtch, .tch]) : sendBurst P tn ch 0 fn s =
      if (s.chan tn ch).dlAlloc then s.emit (burstReq P tn 0 fn (s.chan tn ch) s) else s := by
  have hlast : ¬(0 : Fin 8).val + 1 = nbDl ch := (one_lt_nbDl h).ne
  unfold sendBurst
  exact if_neg hlast

/-- The burst of R283 from a payload of at most 116 bits. -/
theorem wrap_eq_burstOf (xs t : List UBit) : wrap (slice xs 0 116) t = burstOf (xs.take 116) t := by
  have hrest : ((xs.take 116).drop 58).take 58 = (xs.take 116).drop 58 :=
    List.take_of_length_le (by simp only [List.length_drop, List.length_take]; omega)
  simp only [wrap, burstOf, slice, tail3, List.drop_zero, hrest]

/-! ### The block start of an active channel, by what there is to send -/

section BlockStart

variable {P : Params} {tn : Tn} {ch : Chan} {fn : Fn} {s : State} {bad : Bool} {xs : List QElem}

theorem dlSlot_of_block {l : Layout} (hl : s.layout P tn = some l)
    (hfam : dlFamily (l.slot fn.toNat).dlChan ∈ [Family.xcch, .pdtch, .tch]) :
    dlSlot P fn.toNat s tn =
      blockDl P tn (l.slot fn.toNat).dlChan (l.slot fn.toNat).dlBid fn s := by
  unfold dlSlot
  rw [hl]
  dsimp only
  rw [toFn_toNat]
  simp only [List.mem_cons, List.not_mem_nil, or_false] at hfam
  rcases hfam with h | h | h <;> rw [h]

variable (hfam : dlFamily ch ∈ [Family.xcch, .pdtch, .tch]) (hact : s.isActive tn ch = true)
include hact

theorem blockDl_start : blockDl P tn ch 0 fn s =
    if (startBlock P tn ch fn s).1 then (true, (startBlock P tn ch fn s).2)
    else (false, sendBurst P tn ch 0 fn (startBlock P tn ch fn s).2) := by
  unfold blockDl
  rw [if_neg (by simp [hact]), if_pos rfl]
  rcases startBlock P tn ch fn s with ⟨_ | _, t⟩ <;> rfl

/-- An allocation that fails ends the turn of the timeslot. -/
theorem blockDl_of_nomem {e : QElem} (hx : s.Offered P tn ch fn (some e) bad xs)
    (halloc : P.allocOk s.allocs = false) :
    ∃ w, blockDl P tn ch 0 fn s = (true, w) ∧
      ServesChan tn ch s w (badLenLog bad tn ch fn ++ [.log .nomem tn ch fn]) 1 ∧
      w.chan tn ch = (s.chan tn ch).startDl ∧ w.queue tn ch = xs := by
  obtain ⟨v, hoffer, hserves, hchan, hqueue⟩ := hx.offer_eq
  rw [← Nat.add_zero s.allocs, ← hserves.allocs] at halloc
  refine ⟨_, ?_, hserves.alloc.emit rfl, hchan, hqueue⟩
  rw [blockDl_start hact, startBlock_of_nomem hoffer halloc]
  rfl

include hfam

/-- Without an element nothing is sent. -/
theorem blockDl_of_nothing (hx : s.Offered P tn ch fn none bad xs) :
    ∃ w, blockDl P tn ch 0 fn s = (false, w) ∧
      ServesChan tn ch s w (badLenLog bad tn ch fn) 0 ∧
      w.chan tn ch = (s.chan tn ch).startDl ∧ w.queue tn ch = xs := by
  obtain ⟨v, hoffer, hserves, hchan, hqueue⟩ := hx.offer_eq
  refine ⟨v, ?_, hserves, hchan, hqueue⟩
  rw [blockDl_start hact, startBlock_of_none hoffer, sendBurst_zero hfam, hchan]
  rfl

/-- The element is coded, its block fills the buffer, and the first burst is sent. -/
theorem blockDl_of_alloc {e : QElem} (hx : s.Offered P tn ch fn (some e) bad xs)
    (halloc : P.allocOk s.allocs = true) :
    ∃ w, blockDl P tn ch 0 fn s = (false, w) ∧
      ServesChan tn ch s w (badLenLog bad tn ch fn ++ [.txReq fn tn (s.ts.get tn).att
        (burstOf ((dlBlock P ch (s.chan tn ch).modeP fn e).take 116)
          (P.tscTable (s.ts.get tn).tsc).toList)]) 1 ∧
      w.chan tn ch = { sendState ch (s.chan tn ch) e with
        dlAlloc := true, dlMod := false, dlBuf := dlBlock P ch (s.chan tn ch).modeP fn e } ∧
      w.queue tn ch = xs := by
  obtain ⟨v, hoffer, hserves, -, hqueue⟩ := hx.offer_eq
  rw [← Nat.add_zero s.allocs, ← hserves.allocs] at halloc
  obtain ⟨t, ht, he⟩ := runEncoder_of_fits (P := P)
    (s := State.setPdu { v with allocs := v.allocs + 1 } e.bytes) (State.setPdu_pdu _ _) hx.fits
  have hcode := codeElement_ends P ch fn (sendState ch (s.chan tn ch) e) e v
  have hlen := runEncoder_e_length ((queued_iff _).2 hfam) ht
  have hdone : codeElement P ch fn (sendState ch (s.chan tn ch) e) e v = .done t := ht
  rw [hdone] at hcode
  have hframe := hcode.of_done
  have hblock : t.e.take (116 * nbDl ch) = dlBlock P ch (s.chan tn ch).modeP fn e := by
    rw [List.take_of_length_le hlen.le, he]
  have hstart : startBlock P tn ch fn s = (false, t.setChan tn ch
      { sendState ch (s.chan tn ch) e with
        dlAlloc := true, dlMod := false, dlBuf := dlBlock P ch (s.chan tn ch).modeP fn e }) := by
    rw [startBlock_of_alloc hoffer halloc, ← hblock]
    exact congrArg (blockCoded tn ch (sendState ch (s.chan tn ch) e) v) hdone
  have hsent := (hserves.alloc.coding hframe).setChan
    { sendState ch (s.chan tn ch) e with
      dlAlloc := true, dlMod := false, dlBuf := dlBlock P ch (s.chan tn ch).modeP fn e }
  have hts : t.ts = s.ts := hframe.ts.trans hserves.ts
  refine ⟨_, ?_, hsent.emit (e := .txReq fn tn (s.ts.get tn).att
    (burstOf ((dlBlock P ch (s.chan tn ch).modeP fn e).take 116)
      (P.tscTable (s.ts.get tn).tsc).toList)) rfl, State.setChan_chan _ _ _ _, ?_⟩
  · rw [blockDl_start hact, hstart, sendBurst_zero hfam]
    simp only [State.setChan_chan, if_true, burstReq, State.setChan_ts, hts, wrap_eq_burstOf,
      Fin.val_zero, Nat.mul_zero, Bool.false_eq_true, if_false]
  · exact (hframe.queue tn ch).trans hqueue

end BlockStart

end Sys2Proof.Machine

namespace Sys2Proof.Proofs

open Sys2Proof.Machine

/-- Settles O48: the turn of the timeslot depends on its own state, which the lower timeslots leave as it
was; only the count of consultations of the oracle comes from them. -/
theorem tickBlockStart : Obligations.TickBlockStart := by
  unfold Obligations.TickBlockStart
  intro P fn s tn l ch x bad xs before logged idle hclock hl hch hbid hfam hact _ hx hnodup hmem
    hlogged hidle
  obtain ⟨u, v, w, below, total, failed, hrun, htick⟩ := TickRun.exists_of_runTick P fn s tn
  obtain ⟨evs, hlower⟩ := hrun.lower_serves
  have hsame := hrun.lower_sameSlot
  obtain ⟨hchan, -⟩ := hsame ch
  have hallocs : u.allocs = s.allocs + before.length := by
    rw [hlower.allocs, sum_asking_below hnodup hmem]
    rfl
  have hact' : u.isActive tn ch = true := (hsame.isActive ch).trans hact
  have hx' := hx.congr hsame
  have hown : blockDl P tn ch 0 fn u = (failed, v) := by
    rw [← hrun.own, dlSlot_of_block ((State.layout_congr hlower.ts tn).trans hl) (hch ▸ hfam), hch, hbid]
  have hnext := execIn_tick_of_clockOk (P := P) hclock
  rw [htick] at hnext
  have hidle' : idle = (u.chan tn ch).startDl := by rw [hidle, hchan]; rfl
  have hfinish {b : Bool} {v' : State} {evs : List Event} {n : Nat}
      (hrun' : blockDl P tn ch 0 fn u = (b, v')) (hserves : State.ServesChan tn ch u v' evs n)
      (hqueue : v'.queue tn ch = xs) : (tickEnd (total, w)).queue tn ch = xs ∧
        (tickEnd (total, w)).chan tn ch = v'.chan tn ch ∧
        Served P fn s (tickEnd (total, w)) tn ch evs b := by
    obtain ⟨rfl, rfl⟩ := Prod.mk.inj (hown.symm.trans hrun')
    obtain ⟨hchan', hqueue'⟩ := hrun.upper_sameSlot ch
    exact ⟨hqueue'.trans hqueue, hchan', hrun.served hserves⟩
  refine ⟨_, hnext, fun hP => by rw [exec_eq_execIn, ← hP]; exact hnext, ?_⟩
  cases x with
  | none =>
    obtain ⟨v', hrun', hserves, hchan', hqueue⟩ := blockDl_of_nothing hfam hact' hx'
    obtain ⟨hq, hc, hserved⟩ := hfinish hrun' hserves hqueue
    exact ⟨hq, fun _ => ⟨by rw [hc, hchan', hidle'], hlogged ▸ hserved⟩, nofun, nofun⟩
  | some e =>
    cases halloc : P.allocOk (s.allocs + before.length) with
    | false =>
      obtain ⟨v', hrun', hserves, hchan', hqueue⟩ :=
        blockDl_of_nomem hact' hx' (by rw [hallocs, halloc])
      obtain ⟨hq, hc, hserved⟩ := hfinish hrun' hserves hqueue
      exact ⟨hq, nofun, fun _ _ _ => ⟨by rw [hc, hchan', hidle'], hlogged ▸ hserved⟩, nofun⟩
    | true =>
      obtain ⟨v', hrun', hserves, hchan', hqueue⟩ :=
        blockDl_of_alloc hfam hact' hx' (by rw [hallocs, halloc])
      rw [hchan, hlower.ts] at hserves
      obtain ⟨hq, hc, hserved⟩ := hfinish hrun' hserves hqueue
      refine ⟨hq, nofun, nofun, fun e' he _ => ?_⟩
      cases he
      exact ⟨by rw [hc, hchan', hchan, sendState_eq, hidle]; rfl, hlogged ▸ hserved⟩

end Sys2Proof.Proofs
end

