-- ==== Sys2Proof/Proofs/WindowBytes.lean ====
section
/-! Bytes and fields of the words of the data window (20_memory.md R73 to R75), and the place of every offset
of a row. -/

namespace Sys2Proof.Machine

/-! ### Fields of a word -/

@[simp] theorem extract_field_same {k : Nat} (v : BitVec k) (lo : Nat) (h : lo + k ≤ 32) :
    (field v lo).extractLsb' lo k = v := by
  apply BitVec.eq_of_getLsbD_eq
  intro i hi
  have hin : lo + i < 32 := by omega
  have hlo : ¬lo + i < lo := by omega
  simp [field, hi, hin, hlo]

@[simp] theorem extract_field_disjoint {k k' : Nat} (v : BitVec k') (lo lo' : Nat)
    (h : lo + k ≤ lo' ∨ lo' + k' ≤ lo) : (field v lo').extractLsb' lo k = 0 := by
  apply BitVec.eq_of_getLsbD_eq
  intro i hi
  simp only [field, BitVec.getLsbD_extractLsb', BitVec.getLsbD_shiftLeft, BitVec.getLsbD_setWidth]
  rcases h with h | h
  · have hlt : lo + i < lo' := by omega
    simp [hlt]
  · have hout : v.getLsbD (lo + i - lo') = false := BitVec.getLsbD_of_ge _ _ (by omega)
    simp [hout]

theorem getLsbD_field_same {k : Nat} (v : BitVec k) (lo i : Nat) (h : lo + i < 32) :
    (field v lo).getLsbD (lo + i) = v.getLsbD i := by
  have hlo : ¬lo + i < lo := by omega
  simp [field, h, hlo]

theorem getLsbD_field_disjoint {k : Nat} (v : BitVec k) (lo i : Nat) (h : i < lo ∨ lo + k ≤ i) :
    (field v lo).getLsbD i = false := by
  simp only [field, BitVec.getLsbD_shiftLeft, BitVec.getLsbD_setWidth]
  rcases h with h | h
  · simp [h]
  · have hout : v.getLsbD (i - lo) = false := BitVec.getLsbD_of_ge _ _ (by omega)
    simp [hout]

theorem getLsbD_flag_same (b : Bool) (lo : Nat) (h : lo < 32) : (flag b lo).getLsbD lo = b := by
  have hbit := getLsbD_field_same (BitVec.ofBool b) lo 0 (by omega)
  rw [Nat.add_zero] at hbit
  rw [flag, hbit]
  cases b <;> rfl

@[simp] theorem getElem_field_disjoint {k : Nat} (v : BitVec k) (lo i : Nat) (hi : i < 32)
    (h : i < lo ∨ lo + k ≤ i) : (field v lo)[i] = false :=
  getLsbD_field_disjoint v lo i h

@[simp] theorem getElem_flag_same (b : Bool) (lo : Nat) (h : lo < 32) : (flag b lo)[lo] = b :=
  getLsbD_flag_same b lo h

@[simp] theorem getElem_flag_disjoint (b : Bool) (lo i : Nat) (hi : i < 32) (h : i < lo ∨ lo + 1 ≤ i) :
    (flag b lo)[i] = false :=
  getLsbD_field_disjoint _ _ _ h

@[simp] theorem extract_flag_disjoint {k : Nat} (b : Bool) (lo lo' : Nat) (h : lo + k ≤ lo' ∨ lo' + 1 ≤ lo) :
    (flag b lo').extractLsb' lo k = 0 :=
  extract_field_disjoint _ _ _ h

/-- A length that fits its field. -/
theorem lenField_eq_field {n k : Nat} (hn : n < 2 ^ k) (lo : Nat) :
    lenField n lo = field (BitVec.ofNat k n) lo := by
  have hset : (BitVec.ofNat k n).setWidth 32 = BitVec.ofNat 32 n := by
    apply BitVec.eq_of_toNat_eq
    simp [Nat.mod_eq_of_lt hn]
  rw [lenField, field, hset]

/-! ### Bytes of a word -/

theorem extract_field_byte (v : Byte) {j n : Nat} (hn : n < 4) :
    (field v (8 * n)).extractLsb' (8 * j) 8 = if j = n then v else 0 := by
  by_cases hj : j = n
  · rw [if_pos hj, hj]
    exact extract_field_same v (8 * n) (by omega)
  · rw [if_neg hj]
    exact extract_field_disjoint v (8 * j) (8 * n) (by omega)

theorem word_ext {x y : Word} (h : ∀ j, j < 4 → x.extractLsb' (8 * j) 8 = y.extractLsb' (8 * j) 8) :
    x = y := by
  apply BitVec.eq_of_getLsbD_eq
  intro i hi
  have hbyte := congrArg (fun b : Byte => b.getLsbD (i % 8)) (h (i / 8) (by omega))
  have hsplit : 8 * (i / 8) + i % 8 = i := Nat.div_add_mod i 8
  have hmod : i % 8 < 8 := Nat.mod_lt _ (by decide)
  simpa [BitVec.getLsbD_extractLsb', hsplit, hmod] using hbyte

theorem extract_readWord (s : State) (off : Nat) {n j : Nat} (hn : n ≤ 4) :
    (readWord s off n).extractLsb' (8 * j) 8 = if j < n then byteAt s (off + j) else 0 := by
  induction n with
  | zero => simp [readWord]
  | succ n ih =>
    rw [readWord, BitVec.extractLsb'_or, ih (by omega), extract_field_byte _ (by omega)]
    by_cases hlt : j < n
    · simp [hlt, hlt.ne, Nat.lt_succ_of_lt hlt]
    · by_cases heq : j = n
      · simp [heq]
      · have hnot : ¬j < n + 1 := by omega
        simp [hlt, heq, hnot]

theorem extract_not (x : Word) {lo k : Nat} (h : lo + k ≤ 32) :
    (~~~x).extractLsb' lo k = ~~~x.extractLsb' lo k := by
  apply BitVec.eq_of_getLsbD_eq
  intro i hi
  have hin : lo + i < 32 := by omega
  simp [hi, hin]

/-- One byte of a word is replaced. -/
theorem extract_mergeByte (old : Word) (b : Byte) {i j : Nat} (hi : i < 4) (hj : j < 4) :
    ((old &&& ~~~(field (0xFF : Byte) (8 * j))) ||| field b (8 * j)).extractLsb' (8 * i) 8 =
      if i = j then b else old.extractLsb' (8 * i) 8 := by
  rw [BitVec.extractLsb'_or, BitVec.extractLsb'_and, extract_not _ (by omega), extract_field_byte _ hj,
    extract_field_byte _ hj]
  have hones : ~~~(0 : Byte) = BitVec.allOnes 8 := rfl
  by_cases hij : i = j
  · simp [hij]
  · rw [if_neg hij, if_neg hij, if_neg hij, hones, BitVec.and_allOnes]
    exact BitVec.or_zero

theorem extract_mergeWord {bytes : List Byte} (old : Word) {i j : Nat} (hi : i < 4)
    (hj : j + bytes.length ≤ 4) : (mergeWord old j bytes).extractLsb' (8 * i) 8 =
      if j ≤ i ∧ i < j + bytes.length then bytes.getD (i - j) 0 else old.extractLsb' (8 * i) 8 := by
  induction bytes generalizing old j with
  | nil =>
    have hnot : ¬(j ≤ i ∧ i < j + ([] : List Byte).length) := by simp
    rw [mergeWord, if_neg hnot]
  | cons b bs ih =>
    rw [List.length_cons] at hj ⊢
    rw [mergeWord, ih _ (by omega), extract_mergeByte _ _ hi (by omega)]
    rcases Nat.lt_trichotomy i j with hlt | rfl | hgt
    · rw [if_neg (by omega), if_neg (by omega), if_neg (by omega)]
    · rw [if_neg (by omega), if_pos rfl, if_pos (by omega), Nat.sub_self, List.getD_cons_zero]
    · have hsub : i - j = i - (j + 1) + 1 := by omega
      rw [hsub, List.getD_cons_succ, if_neg hgt.ne']
      by_cases hin : i < j + 1 + bs.length
      · rw [if_pos (by omega), if_pos (by omega)]
      · rw [if_neg (by omega), if_neg (by omega)]

theorem bytesOf_getD (v : Word) {n i : Nat} (h : i < n) :
    (bytesOf v n).getD i 0 = v.extractLsb' (8 * i) 8 := by
  simp [bytesOf, h]

/-- All four bytes are replaced. -/
theorem mergeWord_all (old v : Word) : mergeWord old 0 (bytesOf v 4) = v := by
  refine word_ext fun i hi => ?_
  rw [extract_mergeWord old hi (by simp), if_pos (by simpa using hi), Nat.sub_zero, bytesOf_getD v hi]

/-! ### The place of an offset (R75) -/

theorem within_below {off base n : Nat} (h : off < base) : within off base n = false := by
  simp [within]; omega

theorem within_above {off base n : Nat} (h : base + n ≤ off) : within off base n = false := by
  simp [within]; omega

theorem within_inside {base n k : Nat} (h : k < n) : within (base + k) base n = true := by
  simp [within, h]

/-- An element of a row has its place: the rows do not overlap. -/
theorem placeOf_eq {p : Place} {off : Nat} (h : p.StandsAt off) (hword : ∀ base, p ≠ .word base) :
    placeOf off = p := by
  unfold placeOf
  cases p with
  | word base => exact absurd rfl (hword base)
  | _ k =>
    obtain ⟨rfl, hk⟩ := h
    simp (disch := omega) only [within_below, within_above, within_inside, if_true,
      Bool.false_eq_true, if_false, Nat.add_sub_cancel_left]

theorem HardBuf.placeOf_eq (b : HardBuf) {k : Nat} (h : k < b.cap) :
    placeOf (b.base + k) = b.place k := by
  cases b <;> exact Machine.placeOf_eq ⟨rfl, h⟩ nofun

theorem SoftBuf.placeOf_eq (b : SoftBuf) {k : Nat} (h : k < b.cap) :
    placeOf (b.base + k) = b.place k := by
  cases b <;> exact Machine.placeOf_eq ⟨rfl, h⟩ nofun

/-- The first offsets of the words that some row lists. -/
def wordBases : List Nat :=
  [0x0000, 0x0004, 0x0008, 0x000C, 0x0010, 0x0014, 0x0018, 0x001C, 0x0020, 0x0024, 0x0028, 0x002C,
    0x0030, 0x0034, 0x0050, 0x0054, 0x1C00, 0x1C04, 0x1C08, 0x1C0C, 0x2000, 0x2004, 0x2008, 0x200C,
    0x2010, 0x2014, 0x4000, 0x4004, 0x4008, 0x400C, 0x4010, 0x4014, 0x4018, 0x401C, 0x8000, 0x8004,
    0x8008, 0x800C, 0x8010, 0x8014, 0x8018, 0x801C, 0x8020, 0x8024, 0x8028, 0x802C, 0x8030, 0x8034,
    0x8038, 0x803C, 0x8040, 0x8044, 0x8048]

theorem placeOf_wordBases : ∀ base ∈ wordBases, base % 4 = 0 ∧ ∀ j < 4, placeOf (base + j) = .word base := by
  decide

/-! ### Reading and writing a word row -/

theorem byteAt_of_word {s : State} {off base : Nat} (h : placeOf off = .word base) :
    byteAt s off = (wordAt s base).extractLsb' (8 * (off % 4)) 8 := by
  rw [byteAt, h]

/-- A 4-byte read of a listed word reads the word. -/
theorem readWord_of_mem {s : State} {base : Nat} (h : base ∈ wordBases) :
    readWord s base 4 = wordAt s base := by
  obtain ⟨hbase, hplace⟩ := placeOf_wordBases base h
  refine word_ext fun j hj => ?_
  have hmod : (base + j) % 4 = j := by omega
  rw [extract_readWord s base (Nat.le_refl 4), if_pos hj, byteAt_of_word (hplace j hj), hmod]

/-- A write of some bytes of a listed word writes the word that keeps the others. -/
theorem writeBytes_of_mem {s : State} {base j : Nat} {bytes : List Byte} (h : base ∈ wordBases)
    (hj : j < 4) : writeBytes s (base + j) bytes =
      writeWord s base (mergeWord (wordAt s base) j bytes) := by
  obtain ⟨hbase, hplace⟩ := placeOf_wordBases base h
  have hmod : (base + j) % 4 = j := by omega
  rw [writeBytes, hplace j hj, hmod]

end Sys2Proof.Machine
end

