-- ==== Sys2Proof/Proofs/WindowWrites.lean ====
section
/-! Host writes row by row (20_memory.md R73 to R76): elements of the buffers and mailboxes, the length
registers, and the words of the other rows. -/

namespace Sys2Proof.Machine

/-! ### The outcome of a write -/

/-- A write goes on or meets a value outside its type or capacity (R306 (4)). -/
def writeOutcome : Option State → Host.Outcome State Fault Refusal
  | none => .fault .badValue
  | some t => .next t

theorem step_write_of_ok {s : State} {rest : List HostAccess} {off : BitVec 16} {n : Nat} {v : Word}
    (h : s.host = .write off n v :: rest) (hok : accessOk off.toNat n = true) (h4 : 4 ≤ off.toNat) :
    step s = writeOutcome (writeBytes { s with host := rest } off.toNat (bytesOf v n)) := by
  have hne : ¬(off = 0 ∧ n = 4) := by
    rintro ⟨rfl, -⟩
    exact absurd h4 (by decide)
  have hcmd : touchesCmd off.toNat = false := decide_eq_false (by omega)
  rw [step_write h, if_neg (by simp [hok]), if_neg hne, hostWriteAt, hcmd]
  cases writeBytes { s with host := rest } off.toNat (bytesOf v n) <;> rfl

theorem aligned_fits {n k m : Nat} (hn : n ∈ [1, 2, 4]) (hk : k % n = 0) (hm : m % 4 = 0) (hlt : k < m) :
    k + n ≤ m := by
  simp only [List.mem_cons, List.not_mem_nil, or_false] at hn
  rcases hn with rfl | rfl | rfl <;> omega

/-- A write of some elements of a row. -/
theorem step_write_row {s : State} {rest : List HostAccess} {base n k : Nat} {v : Word}
    (h : s.host = .write (BitVec.ofNat 16 (base + k)) n v :: rest) (hn : n ∈ [1, 2, 4])
    (hk : k % n = 0) (hbase : base % 4 = 0) (h4 : 4 ≤ base) (hlt : base + k < 65536) :
    step s = writeOutcome (writeBytes { s with host := rest } (base + k) (bytesOf v n)) := by
  have hoff : (BitVec.ofNat 16 (base + k)).toNat = base + k := Nat.mod_eq_of_lt hlt
  have hal : (base + k) % n = 0 := by
    simp only [List.mem_cons, List.not_mem_nil, or_false] at hn
    rcases hn with rfl | rfl | rfl <;> omega
  have hstep := step_write_of_ok h (by rw [hoff]; exact (accessOk_iff _ _).2 ⟨hn, hal⟩) (by omega)
  rwa [hoff] at hstep

/-- A 4-byte write of a listed word. -/
theorem step_write_word {s : State} {rest : List HostAccess} {off : BitVec 16} {v : Word}
    (h : s.host = .write off 4 v :: rest) (hmem : off.toNat ∈ wordBases) (h4 : 4 ≤ off.toNat) :
    step s = writeOutcome (writeWord { s with host := rest } off.toNat v) := by
  have hok : accessOk off.toNat 4 = true :=
    (accessOk_iff _ _).2 ⟨by simp, (placeOf_wordBases _ hmem).1⟩
  have hbytes := writeBytes_of_mem (s := { s with host := rest }) (bytes := bytesOf v 4) hmem
    (show 0 < 4 by decide)
  rw [Nat.add_zero, mergeWord_all] at hbytes
  rw [step_write_of_ok h hok h4, hbytes]

/-! ### Elements of a buffer -/

theorem putElem_getElem? {α : Type} (rest : Nat) (es : List (Elem α)) (idx : Nat) (v : α) (k : Nat) :
    (putElem rest es idx v)[k]? = if k = idx then some (.val v)
      else if k < idx ∧ es.length ≤ k then some (.any rest) else es[k]? := by
  induction es generalizing idx k with
  | nil =>
    induction idx generalizing k with
    | zero => cases k <;> simp [putElem]
    | succ n ih =>
      cases k with
      | zero => simp [putElem]
      | succ k => simpa [putElem] using ih k
  | cons e es ih =>
    cases idx with
    | zero => cases k <;> simp [putElem]
    | succ n =>
      cases k with
      | zero => simp [putElem]
      | succ k => simpa [putElem] using ih n k

theorem Buf.get_put {α : Type} (free : Nat → Nat → α) (b : Buf α) (idx k : Nat) (v : α) :
    (b.put idx v).get free k = if k = idx then v else b.get free k := by
  unfold Buf.get Buf.put
  dsimp only
  rw [putElem_getElem?]
  by_cases hk : k = idx
  · simp [hk, Elem.read]
  · by_cases hgap : k < idx ∧ b.elems.length ≤ k
    · simp [hk, hgap, Elem.read]
    · simp [hk, hgap]

/-- Bytes that all stand for values are written to the elements from `k` on. -/
theorem putBytes_eq_some {α : Type} {conv : Byte → Option α} (free : Nat → Nat → α) {bytes : List Byte}
    (val : Byte → α) (h : ∀ x ∈ bytes, conv x = some (val x)) (b : Buf α) (k : Nat) :
    ∃ b', putBytes conv b k bytes = some b' ∧ b'.len = b.len ∧
      (∀ j, j < bytes.length → b'.get free (k + j) = val (bytes.getD j 0)) ∧
      ∀ i, i < k ∨ k + bytes.length ≤ i → b'.get free i = b.get free i := by
  induction bytes generalizing b k with
  | nil => exact ⟨b, rfl, rfl, by simp, fun _ _ => rfl⟩
  | cons x xs ih =>
    obtain ⟨b', hput, hlen, hnew, hold⟩ :=
      ih (fun y hy => h y (List.mem_cons_of_mem _ hy)) (b.put k (val x)) (k + 1)
    refine ⟨b', ?_, hlen, fun j hj => ?_, fun i hi => ?_⟩
    · rw [putBytes, h x List.mem_cons_self]
      exact hput
    · cases j with
      | zero => rw [Nat.add_zero, hold k (by omega), Buf.get_put, if_pos rfl, List.getD_cons_zero]
      | succ j =>
        rw [List.length_cons] at hj
        have hshift : k + (j + 1) = k + 1 + j := by omega
        rw [hshift, hnew j (by omega), List.getD_cons_succ]
    · rw [List.length_cons] at hi
      rw [hold i (by omega), Buf.get_put, if_neg (by omega)]

theorem putBytes_eq_none {α : Type} {conv : Byte → Option α} {bytes : List Byte}
    (h : ∃ x ∈ bytes, conv x = none) (b : Buf α) (k : Nat) : putBytes conv b k bytes = none := by
  induction bytes generalizing b k with
  | nil => simp at h
  | cons y ys ih =>
    obtain ⟨x, hx, hnone⟩ := h
    rw [putBytes]
    split
    · rfl
    · next v hv =>
      obtain rfl | hx := List.mem_cons.1 hx
      · rw [hnone] at hv; cases hv
      · exact ih ⟨x, hx, hnone⟩ _ _

theorem mem_bytesOf {v : Word} {n : Nat} {x : Byte} :
    x ∈ bytesOf v n ↔ ∃ j, j < n ∧ v.extractLsb' (8 * j) 8 = x := by
  simp [bytesOf]

theorem ubitOf?_of_le {x : Byte} (h : x.toNat ≤ 1) : ubitOf? x = some (x.getLsbD 0) := by
  revert x
  decide

theorem ubitOf?_of_lt {x : Byte} (h : 1 < x.toNat) : ubitOf? x = none := by
  revert x
  decide

theorem ofByte?_of_ne {x : Byte} (h : x ≠ 0x80) : SBit.ofByte? x = some (SBit.clamp x) :=
  (dif_pos h).trans (congrArg some (dif_pos h).symm)

theorem ofByte?_min : SBit.ofByte? 0x80 = none := rfl

theorem clamp_val {x : Byte} (h : x ≠ 0x80) : (SBit.clamp x).val = x :=
  congrArg SBit.val (dif_pos h)

theorem HardBuf.of_into (b : HardBuf) (m : Memory) (x : Buf UBit) : b.of (b.into m x) = x := by
  cases b <;> rfl

theorem SoftBuf.of_into (b : SoftBuf) (m : Memory) (x : Buf SBit) : b.of (b.into m x) = x := by
  cases b <;> rfl

/-! ### The mailboxes -/

theorem putPrm_getElem? {bytes : List Byte} (v : Vector Byte 16) {k : Nat} (hk : k + bytes.length ≤ 16)
    (i : Nat) : (putPrm v k bytes)[i]? =
      if k ≤ i ∧ i < k + bytes.length then bytes[i - k]? else v[i]? := by
  induction bytes generalizing v k with
  | nil =>
    have hnot : ¬(k ≤ i ∧ i < k + ([] : List Byte).length) := by simp
    rw [putPrm, if_neg hnot]
  | cons x xs ih =>
    rw [List.length_cons] at hk ⊢
    rw [putPrm, ih _ (by omega), Vector.getElem?_setIfInBounds]
    rcases Nat.lt_trichotomy i k with hlt | rfl | hgt
    · rw [if_neg (by omega), if_neg (by omega), if_neg (by omega)]
    · rw [if_neg (by omega), if_pos rfl, if_pos (by omega), if_pos (by omega), Nat.sub_self]
      rfl
    · have hsub : i - k = i - (k + 1) + 1 := by omega
      rw [hsub, List.getElem?_cons_succ, if_neg hgt.ne]
      by_cases hin : i < k + 1 + xs.length
      · rw [if_pos (by omega), if_pos (by omega)]
      · rw [if_neg (by omega), if_neg (by omega)]

/-- Soft bits that are all legal are written from `k` on. -/
theorem putBits_eq_some {bytes : List Byte} (h : ∀ x ∈ bytes, x ≠ 0x80) (v : Vector SBit 444) {k : Nat}
    (hk : k + bytes.length ≤ 444) : ∃ v', putBits v k bytes = some v' ∧
      (∀ j, j < bytes.length → v'[k + j]?.map SBit.val = some (bytes.getD j 0)) ∧
      ∀ i : Nat, i < k ∨ k + bytes.length ≤ i → v'[i]? = v[i]? := by
  induction bytes generalizing v k with
  | nil => exact ⟨v, rfl, by simp, fun _ _ => rfl⟩
  | cons x xs ih =>
    have hx : x ≠ 0x80 := h x List.mem_cons_self
    rw [List.length_cons] at hk ⊢
    obtain ⟨v', hput, hnew, hold⟩ := ih (fun y hy => h y (List.mem_cons_of_mem _ hy))
      (v.setIfInBounds k (SBit.clamp x)) (k := k + 1) (by omega)
    refine ⟨v', ?_, fun j hj => ?_, fun i hi => ?_⟩
    · rw [putBits, ofByte?_of_ne hx]
      exact hput
    · cases j with
      | zero =>
        rw [Nat.add_zero, hold k (by omega), Vector.getElem?_setIfInBounds, if_pos rfl,
          if_pos (by omega), Option.map_some, clamp_val hx, List.getD_cons_zero]
      | succ j =>
        have hshift : k + (j + 1) = k + 1 + j := by omega
        rw [hshift, hnew j (by omega), List.getD_cons_succ]
    · rw [hold i (by omega), Vector.getElem?_setIfInBounds, if_neg (by omega)]

theorem putBits_eq_none {bytes : List Byte} (h : (0x80 : Byte) ∈ bytes) (v : Vector SBit 444) (k : Nat) :
    putBits v k bytes = none := by
  induction bytes generalizing v k with
  | nil => simp at h
  | cons y ys ih =>
    rw [putBits]
    split
    · rfl
    · next b hb =>
      obtain rfl | hy := List.mem_cons.1 h
      · cases hb
      · exact ih hy _ _

/-! ### Lengths -/

/-- A host write of a length register (R50, R76). -/
theorem Buf.lenSet_setLen {α : Type} (free : Nat → Nat → α) (b : Buf α) (tag n : Nat) :
    LenSet free b (b.setLen tag n) n := by
  unfold Buf.setLen
  split
  · next hlow =>
    refine ⟨rfl, fun k hk hkn => ?_, fun hle => absurd hlow (Nat.not_lt.2 hle)⟩
    unfold Buf.get
    dsimp only
    by_cases hin : k < b.elems.length
    · have htake : (b.elems.take n ++ List.replicate (n - b.elems.length) (.any b.rest) ++
          List.replicate (b.len - n) (.any tag) ++ b.elems.drop b.len)[k]? = b.elems[k]? := by
        rw [List.append_assoc, List.append_assoc, List.getElem?_append_left, List.getElem?_take_of_lt hkn]
        simp only [List.length_take]
        omega
      rw [htake]
    · have hnone : b.elems[k]? = none := List.getElem?_eq_none (Nat.not_lt.1 hin)
      have hpad : (b.elems.take n ++ List.replicate (n - b.elems.length) (.any b.rest) ++
          List.replicate (b.len - n) (.any tag) ++ b.elems.drop b.len)[k]? =
            some (Elem.any b.rest : Elem α) := by
        rw [List.append_assoc, List.append_assoc, List.getElem?_append_right (by
          simp only [List.length_take]; omega), List.getElem?_append_left (by
          simp only [List.length_take, List.length_replicate]; omega), List.getElem?_replicate, if_pos]
        simp only [List.length_take]
        omega
      rw [hpad, hnone]
      rfl
  · exact ⟨rfl, fun _ _ _ => rfl, fun _ _ => rfl⟩

/-! ### The rows of elements -/

section Rows

variable {s : State} {rest : List HostAccess} {n k : Nat} {v : Word} (hn : n ∈ [1, 2, 4])
  (hkn : k % n = 0)
include hn hkn

theorem step_write_pdu (h : s.host = .write (BitVec.ofNat 16 (0x0080 + k)) n v :: rest) (hk : k < 64) :
    step s = writeOutcome ((putBytes some s.mem.pdu k (bytesOf v n)).map fun x =>
      { s with host := rest, mem := { s.mem with pdu := x } }) := by
  rw [step_write_row h hn hkn (by decide) (by decide) (by omega), writeBytes,
    placeOf_eq (p := .pdu k) ⟨rfl, hk⟩ nofun]

theorem step_write_hard (b : HardBuf) (h : s.host = .write (BitVec.ofNat 16 (b.base + k)) n v :: rest)
    (hk : k < b.cap) : step s = writeOutcome ((putBytes ubitOf? (b.of s.mem) k (bytesOf v n)).map
      fun x => { s with host := rest, mem := b.into s.mem x }) := by
  have hrow : 4 ≤ b.base ∧ b.base + b.cap < 65536 := by cases b <;> decide
  rw [step_write_row h hn hkn b.base_mod hrow.1 (by omega), writeBytes_hard (b.placeOf_eq hk)]

theorem step_write_soft (b : SoftBuf) (h : s.host = .write (BitVec.ofNat 16 (b.base + k)) n v :: rest)
    (hk : k < b.cap) : step s = writeOutcome ((putBytes SBit.ofByte? (b.of s.mem) k (bytesOf v n)).map
      fun x => { s with host := rest, mem := b.into s.mem x }) := by
  have hrow : 4 ≤ b.base ∧ b.base + b.cap < 65536 := by cases b <;> decide
  rw [step_write_row h hn hkn b.base_mod hrow.1 (by omega), writeBytes_soft (b.placeOf_eq hk)]

theorem step_write_prm (h : s.host = .write (BitVec.ofNat 16 (0x0040 + k)) n v :: rest) (hk : k < 16) :
    step s = .next { s with host := rest, prm := putPrm s.prm k (bytesOf v n) } := by
  rw [step_write_row h hn hkn (by decide) (by decide) (by omega), writeBytes,
    placeOf_eq (p := .prm k) ⟨rfl, hk⟩ nofun]
  rfl

theorem step_write_rxBits (h : s.host = .write (BitVec.ofNat 16 (0x1C40 + k)) n v :: rest)
    (hk : k < 444) : step s = writeOutcome ((putBits s.rxind.bits k (bytesOf v n)).map fun x =>
      { s with host := rest, rxind := { s.rxind with bits := x } }) := by
  rw [step_write_row h hn hkn (by decide) (by decide) (by omega), writeBytes,
    placeOf_eq (p := .rxBits k) ⟨rfl, hk⟩ nofun]

end Rows

/-! ### Offsets that no writable row holds -/

theorem inRows_of_inRow {rows : List (Nat × Nat)} {off base n k : Nat} (h : InRow off base n k)
    (hmem : (base, n) ∈ rows) : inRows rows off := by
  obtain ⟨rfl, hk⟩ := h
  exact ⟨_, hmem, by dsimp only; omega, by dsimp only; omega⟩

/-- The rows of words hold whole words. -/
theorem inRows_of_word {rows : List (Nat × Nat)} {off base lo n : Nat} (h : base = off - off % 4)
    (hmem : (lo, n) ∈ rows) (hlo : lo ≤ base) (hhi : base + 4 ≤ lo + n) : inRows rows off :=
  ⟨_, hmem, by dsimp only; omega, by dsimp only; omega⟩

theorem writeWord_of_not_mem {s : State} {off base : Nat} {w : Word} (hbase : base = off - off % 4)
    (h : ¬inRows writableRows off) : writeWord s base w = some s := by
  unfold writeWord
  split
  iterate 5
    exact absurd (inRows_of_word (lo := 0x24) (n := 20) hbase (by decide) (by decide) (by decide)) h
  · exact absurd (inRows_of_word (lo := 0x54) (n := 4) hbase (by decide) (by decide) (by decide)) h
  iterate 4
    exact absurd (inRows_of_word (lo := 0x1C00) (n := 16) hbase (by decide) (by decide) (by decide)) h
  · exact absurd (inRows_of_word (lo := 0x8000) (n := 4) hbase (by decide) (by decide) (by decide)) h
  · rfl

/-- A write of a read-only row or of a reserved offset is ignored (R71, R75). -/
theorem writeBytes_of_not_mem {s : State} {off : Nat} {bytes : List Byte}
    (h : ¬inRows writableRows off) : writeBytes s off bytes = some s := by
  have hstands := placeOf_standsAt off
  unfold writeBytes
  cases hplace : placeOf off with
  | word base =>
    rw [hplace] at hstands
    exact writeWord_of_not_mem hstands h
  | headData k | cipher k | ulBuf k | dlBuf k => rfl
  | prm k | pdu k | par k | h k | hs k | u k | c k | cs k | i k | is k | e k | es k | rxBits k =>
    rw [hplace] at hstands
    exact absurd (inRows_of_inRow hstands (by decide)) h

end Sys2Proof.Machine
end

