-- ==== Sys2Proof/Proofs/WindowWritesSettled.lean ====
section
/-! The host writes of 20_memory.md R73 to R76 together: elements of the rows of soft and of hard bits, narrow
writes of the word rows, and the obligation. -/

namespace Sys2Proof.Machine

theorem forall_mem_bytesOf {v : Word} {n : Nat} {p : Byte → Prop}
    (h : ∀ j, j < n → p (v.extractLsb' (8 * j) 8)) : ∀ x ∈ bytesOf v n, p x := by
  intro x hx
  obtain ⟨j, hj, rfl⟩ := mem_bytesOf.1 hx
  exact h j hj

/-- What a write of `n` bytes from element `k` on leaves of a buffer. -/
structure ElemsSet {α : Type} (free : Nat → Nat → α) (val : Byte → α) (v : Word) (n k : Nat)
    (b b' : Buf α) : Prop where
  set : ∀ j, j < n → b'.get free (k + j) = val (v.extractLsb' (8 * j) 8)
  kept : ∀ i, i < k ∨ k + n ≤ i → b'.get free i = b.get free i
  len : b'.len = b.len

theorem putBytes_bytesOf {α : Type} {conv : Byte → Option α} (free : Nat → Nat → α) (val : Byte → α)
    {v : Word} {n : Nat}
    (h : ∀ j, j < n → conv (v.extractLsb' (8 * j) 8) = some (val (v.extractLsb' (8 * j) 8)))
    (b : Buf α) (k : Nat) :
    ∃ b', putBytes conv b k (bytesOf v n) = some b' ∧ ElemsSet free val v n k b b' := by
  obtain ⟨b', hput, hlen, hset, hkept⟩ :=
    putBytes_eq_some free val (forall_mem_bytesOf (p := fun x => conv x = some (val x)) h) b k
  rw [bytesOf_length] at hset hkept
  exact ⟨b', hput, fun j hj => by rw [hset j hj, bytesOf_getD v hj], hkept, hlen⟩

theorem putBytes_bytesOf_eq_none {α : Type} {conv : Byte → Option α} {v : Word} {n : Nat}
    (h : ∃ j, j < n ∧ conv (v.extractLsb' (8 * j) 8) = none) (b : Buf α) (k : Nat) :
    putBytes conv b k (bytesOf v n) = none := by
  obtain ⟨j, hj, hnone⟩ := h
  exact putBytes_eq_none ⟨_, mem_bytesOf.2 ⟨j, hj, rfl⟩, hnone⟩ b k

/-- The mailbox bytes that a write sets. -/
theorem prmAt_putPrm {s t : State} {v : Word} {n k : Nat} (hk : k + n ≤ 16)
    (ht : t.prm = putPrm s.prm k (bytesOf v n)) (i : Nat) :
    t.prmAt i = if k ≤ i ∧ i < k + n then v.extractLsb' (8 * (i - k)) 8 else s.prmAt i := by
  have hbytes : k + (bytesOf v n).length ≤ 16 := by rwa [bytesOf_length]
  have hat := putPrm_getElem? (bytes := bytesOf v n) s.prm hbytes i
  rw [← ht, bytesOf_length] at hat
  unfold State.prmAt
  rw [List.getD_eq_getElem?_getD, List.getD_eq_getElem?_getD, Vector.getElem?_toList,
    Vector.getElem?_toList, hat]
  split
  · next hin =>
    rw [← List.getD_eq_getElem?_getD, bytesOf_getD v (by omega)]
  · rfl

/-! ### Narrow writes of the word rows -/

/-- The word rows whose bytes the host can write one by one. -/
theorem writable_words : ∀ base ∈ [0x0024#16, 0x0028#16, 0x002C#16, 0x0030#16, 0x0034#16, 0x1C00#16,
    0x1C04#16, 0x1C08#16, 0x1C0C#16, 0x8000#16],
    base.toNat ∈ wordBases ∧ 4 ≤ base.toNat ∧ base.toNat ≤ 0x8000 := by
  intro base h
  simp only [List.mem_cons, List.not_mem_nil, or_false] at h
  rcases h with rfl | rfl | rfl | rfl | rfl | rfl | rfl | rfl | rfl | rfl <;>
    exact ⟨by decide, by decide, by decide⟩

/-- A 4-byte read of a listed word returns the word. -/
theorem hostRead_of_mem {s t : State} {rest : List HostAccess} {off : BitVec 16}
    (h : s.host = .read off 4 :: rest) (hmem : off.toNat ∈ wordBases) (hstep : step s = .next t) :
    t.hostRead = wordAt { s with host := rest } off.toNat := by
  have hok : accessOk off.toNat 4 = true :=
    (accessOk_iff _ _).2 ⟨by simp, (placeOf_wordBases _ hmem).1⟩
  rw [step_read h, if_pos hok] at hstep
  rw [← Host.Outcome.next.inj hstep, hostReadAt, readWord_of_mem hmem]

/-- A write of bytes `j` to `j + n - 1` of a listed word (log 10). -/
theorem step_write_narrow {s : State} {rest : List HostAccess} {off : BitVec 16} {base n j : Nat}
    {v : Word} (h : s.host = .write off n v :: rest) (hoff : off.toNat = base + j)
    (hmem : base ∈ wordBases) (h4 : 4 ≤ base) (hn : n ∈ [1, 2, 4]) (hj : j % n = 0) (hlt : j < 4) :
    step s = writeOutcome (writeWord { s with host := rest } base
      (mergeWord (wordAt { s with host := rest } base) j (bytesOf v n))) := by
  have hbase := (placeOf_wordBases base hmem).1
  have hal : (base + j) % n = 0 := by
    simp only [List.mem_cons, List.not_mem_nil, or_false] at hn
    rcases hn with rfl | rfl | rfl <;> omega
  have hstep := step_write_of_ok h (by rw [hoff]; exact (accessOk_iff _ _).2 ⟨hn, hal⟩) (by omega)
  rw [hstep, hoff, writeBytes_of_mem hmem hlt]

end Sys2Proof.Machine

namespace Sys2Proof.Proofs

open Sys2Proof Sys2Proof.Machine

/-- Settles O60: every row has its rule; a narrow write merges its bytes into the word that a 4-byte read
returns. -/
theorem windowWrites : Obligations.WindowWrites := by
  unfold Obligations.WindowWrites
  refine ⟨?pdu, ?hard, ?soft, ?prm, ?rxBits, ?len0, ?len1, ?len2, ?len3, ?len4, ?words, ?narrow, ?pop,
    ?ignored, ?malformed⟩
  case pdu =>
    intro s rest n k v hk hn hkn h
    obtain ⟨x, hput, hset⟩ := putBytes_bytesOf Config.freeByte id (fun _ _ => rfl) s.mem.pdu k
    rw [step_write_pdu hn hkn h hk, hput]
    exact ⟨_, rfl, hset.set, hset.kept, hset.len, rfl⟩
  case hard =>
    intro b s rest n k v hk hn hkn h
    rw [step_write_hard hn hkn b h hk]
    refine ⟨fun hle => ?_, fun ⟨j, hj, hgt⟩ => ?_⟩
    · obtain ⟨x, hput, hset⟩ := putBytes_bytesOf Config.freeBit (fun y => y.getLsbD 0)
        (fun j hj => ubitOf?_of_le (hle j hj)) (b.of s.mem) k
      refine ⟨{ s with host := rest, mem := b.into s.mem x }, by rw [hput]; rfl, ?_⟩
      dsimp only
      rw [b.of_into]
      exact ⟨fun j hj => by rw [hset.set j hj]; simp, hset.kept, hset.len, rfl⟩
    · rw [putBytes_bytesOf_eq_none ⟨j, hj, ubitOf?_of_lt hgt⟩]
      rfl
  case soft =>
    intro b s rest n k v hk hn hkn h
    rw [step_write_soft hn hkn b h hk]
    refine ⟨fun hne => ?_, fun ⟨j, hj, hmin⟩ => ?_⟩
    · obtain ⟨x, hput, hset⟩ := putBytes_bytesOf Config.freeSoft SBit.clamp
        (fun j hj => ofByte?_of_ne (hne j hj)) (b.of s.mem) k
      refine ⟨{ s with host := rest, mem := b.into s.mem x }, by rw [hput]; rfl, ?_⟩
      dsimp only
      rw [b.of_into]
      exact ⟨fun j hj => by rw [hset.set j hj, clamp_val (hne j hj)], hset.kept, hset.len, rfl⟩
    · rw [putBytes_bytesOf_eq_none ⟨j, hj, by rw [hmin, ofByte?_min]⟩]
      rfl
  case prm =>
    intro s rest n k v hk hn hkn h
    have hat := prmAt_putPrm (s := s)
      (t := { s with host := rest, prm := putPrm s.prm k (bytesOf v n) })
      (aligned_fits hn hkn (by decide) hk) rfl
    refine ⟨_, step_write_prm hn hkn h hk, fun j hj => ?_, fun i hi => ?_, rfl⟩
    · rw [hat, if_pos (by omega), Nat.add_sub_cancel_left]
    · rw [hat, if_neg (by omega)]
  case rxBits =>
    intro s rest n k v hk hn hkn h
    rw [step_write_rxBits hn hkn h hk]
    refine ⟨fun hne => ?_, fun ⟨j, hj, hmin⟩ => ?_⟩
    · obtain ⟨x, hput, hset, hkept⟩ := putBits_eq_some (forall_mem_bytesOf (p := (· ≠ 0x80)) hne)
        s.rxind.bits (k := k) (by rw [bytesOf_length]; exact aligned_fits hn hkn (by decide) hk)
      rw [bytesOf_length] at hset hkept
      rw [hput]
      exact ⟨_, rfl, fun j hj => (hset j hj).trans (by rw [bytesOf_getD v hj]), hkept, rfl⟩
    · rw [putBits_eq_none (mem_bytesOf.2 ⟨j, hj, hmin⟩)]
      rfl
  case len0 =>
    intro s rest v h
    rw [step_write_word h (by decide) (by decide)]
    refine ⟨fun h0 h1 h2 h3 => ⟨_, congrArg writeOutcome (if_pos ⟨h0, h1, h2, h3⟩),
      Buf.lenSet_setLen _ _ _ _, Buf.lenSet_setLen _ _ _ _, Buf.lenSet_setLen _ _ _ _,
      Buf.lenSet_setLen _ _ _ _, rfl⟩, fun hbad => congrArg writeOutcome (if_neg ?_)⟩
    rintro ⟨h0, h1, h2, h3⟩
    rcases hbad with hbad | hbad | hbad | hbad
    · exact absurd h0 (Nat.not_le.2 hbad)
    · exact absurd h1 (Nat.not_le.2 hbad)
    · exact absurd h2 (Nat.not_le.2 hbad)
    · exact absurd h3 (Nat.not_le.2 hbad)
  case len1 | len2 | len3 =>
    intro s rest v h
    rw [step_write_word h (by decide) (by decide)]
    refine ⟨fun h0 h1 => ⟨_, congrArg writeOutcome (if_pos ⟨h0, h1⟩), Buf.lenSet_setLen _ _ _ _,
      Buf.lenSet_setLen _ _ _ _, rfl⟩, fun hbad => congrArg writeOutcome (if_neg ?_)⟩
    rintro ⟨h0, h1⟩
    exact hbad.elim (Nat.not_lt.2 h0) (Nat.not_lt.2 h1)
  case len4 =>
    intro s rest v h
    rw [step_write_word h (by decide) (by decide)]
    exact ⟨fun h0 => ⟨_, congrArg writeOutcome (if_pos h0), Buf.lenSet_setLen _ _ _ _, rfl⟩,
      fun hbad => congrArg writeOutcome (if_neg (Nat.not_le.2 hbad))⟩
  case words =>
    intro s rest v
    refine ⟨fun h => ?_, fun h => ?_, fun h => ?_, fun h => ?_, fun h => ?_⟩ <;>
      rw [step_write_word h (by decide) (by decide)] <;> rfl
  case narrow =>
    intro s t4 rest base n j v w hbase hn hjn hfit hread hw
    obtain ⟨hmem, h4, hlt⟩ := writable_words base hbase
    have hn' : n ∈ [1, 2, 4] ∧ 0 < n := by
      simp only [List.mem_cons, List.not_mem_nil, or_false] at hn ⊢
      omega
    have hoff : (base + BitVec.ofNat 16 j).toNat = base.toNat + j := by
      rw [BitVec.toNat_add, BitVec.toNat_ofNat]
      omega
    have hmerge : mergeWord (wordAt { s with host := rest } base.toNat) j (bytesOf v n) = w := by
      refine word_ext fun i hi => ?_
      rw [extract_mergeWord _ hi (by rwa [bytesOf_length]), bytesOf_length, hw i hi,
        hostRead_of_mem rfl hmem hread]
      split
      · next hin => exact bytesOf_getD v (by omega)
      · rfl
    have hnarrow := step_write_narrow (s := { s with host := .write (base + BitVec.ofNat 16 j) n v :: rest })
      rfl hoff hmem h4 hn'.1 hjn (by omega)
    have hwide := step_write_word (s := { s with host := .write base 4 w :: rest }) rfl hmem h4
    rw [hnarrow, hwide]
    exact congrArg (fun x => writeOutcome (writeWord { s with host := rest } base.toNat x)) hmerge
  case pop =>
    intro s rest off n v h hlo hhi hn hal
    have hj : (off.toNat - 0x54) % n = 0 ∧ off.toNat = 0x54 + (off.toNat - 0x54) := by
      simp only [List.mem_cons, List.not_mem_nil, or_false] at hn
      rcases hn with rfl | rfl | rfl <;> omega
    rw [step_write_narrow h hj.2 (by decide) (by decide) hn hj.1 (by omega)]
    rfl
  case ignored =>
    intro s rest off n v h hrow hn hal
    have h4 : 4 ≤ off.toNat := by
      by_contra hlt
      exact hrow ⟨(0, 4), by decide, Nat.zero_le _, by dsimp only; omega⟩
    rw [step_write_of_ok h ((accessOk_iff _ _).2 ⟨hn, hal⟩) h4, writeBytes_of_not_mem hrow]
    rfl
  case malformed =>
    intro s rest off n v h hbad
    rw [step_write h]
    by_cases hok : accessOk off.toNat n = true
    · obtain ⟨hn, hal⟩ := (accessOk_iff _ _).1 hok
      obtain ⟨hlt, hne⟩ := (hbad.resolve_left (not_not_intro hn)).resolve_left (not_not_intro hal)
      have hcmd : touchesCmd off.toNat = true := decide_eq_true hlt
      rw [if_neg (by simp [hok]), if_neg hne, hostWriteAt, if_pos hcmd]
    · rw [if_pos (by simpa using hok)]

end Sys2Proof.Proofs
end

