-- ==== Sys2Proof/Proofs/WindowReads.lean ====
section
/-! Host reads row by row (20_memory.md R73 to R75): the words of the map, the elements of the buffers and the
reserved offsets. -/

namespace Sys2Proof.Machine

/-! ### A read -/

theorem byteAt_host (s : State) (rest : List HostAccess) (off : Nat) :
    byteAt { s with host := rest } off = byteAt s off := rfl

theorem readWord_host (s : State) (rest : List HostAccess) (off n : Nat) :
    readWord { s with host := rest } off n = readWord s off n := by
  induction n with
  | zero => rfl
  | succ n ih => rw [readWord, readWord, ih, byteAt_host]

/-- What a 4-byte read returns. -/
theorem hostRead_eq {s t : State} {rest : List HostAccess} {off : BitVec 16}
    (h : s.host = .read off 4 :: rest) (hstep : step s = .next t) :
    off.toNat % 4 = 0 ∧ t.hostRead = readWord s off.toNat 4 := by
  rw [step_read h] at hstep
  split at hstep
  · next hok =>
    rw [← Host.Outcome.next.inj hstep, hostReadAt, readWord_host]
    exact ⟨((accessOk_iff _ _).1 hok).2, rfl⟩
  · cases hstep

theorem word_of_row {s : State} {off c : BitVec 16} {w : Word} (hw : w = readWord s off.toNat 4)
    (hoff : off = c) (hmem : c.toNat ∈ wordBases) : w = wordAt s c.toNat := by
  rw [hw, hoff, readWord_of_mem hmem]

/-- A byte of a row is read at its offset. -/
theorem byte_of_row {s : State} {off : BitVec 16} {w : Word} {j base k : Nat}
    (hw : w = readWord s off.toNat 4) (h : ByteOfRow off j base k) :
    w.extractLsb' (8 * j) 8 = byteAt s (base + k) := by
  obtain ⟨hj, hoff⟩ := h
  rw [hw, extract_readWord s _ (Nat.le_refl 4), if_pos hj, hoff]

theorem byteAt_hard (s : State) (b : HardBuf) {k : Nat} (hk : k < b.cap) :
    byteAt s (b.base + k) = bitByte ((b.of s.mem).hostGet Config.freeBit s.free k) := by
  rw [byteAt, b.placeOf_eq hk]
  cases b <;> rfl

theorem byteAt_soft (s : State) (b : SoftBuf) {k : Nat} (hk : k < b.cap) :
    byteAt s (b.base + k) = ((b.of s.mem).hostGet Config.freeSoft s.free k).val := by
  rw [byteAt, b.placeOf_eq hk]
  cases b <;> rfl

theorem Buf.hostGet_of_lt {α : Type} (free : Nat → Nat → α) (tag : Nat) {b : Buf α} {k : Nat}
    (hk : k < b.len) : b.hostGet free tag k = b.get free k :=
  if_pos hk

/-! ### Reserved offsets -/

theorem inRows_of_wordBases : ∀ base ∈ wordBases, inRows writableRows base ∨ inRows readOnlyRows base := by
  unfold inRows
  decide

theorem csvWord_of_not_mem {tag : Nat} {x : ChanState} {q : List QElem} {base : Nat}
    (h : base ∉ wordBases) : csvWord tag x q base = 0 := by
  unfold csvWord
  split
  iterate 18 exact absurd (by decide) h
  rfl

/-- A word that no row lists reads 0 (R75). -/
theorem wordAt_of_reserved {s : State} {base : Nat} (hwr : ¬inRows writableRows base)
    (hro : ¬inRows readOnlyRows base) : wordAt s base = 0 := by
  have hmem : base ∉ wordBases := fun h => (inRows_of_wordBases base h).elim hwr hro
  unfold wordAt
  split
  · next hts =>
    exact absurd (inRows_of_inRow (inRow_of_within hts) (by decide)) hro
  · split
    · split
      · rfl
      · exact csvWord_of_not_mem hmem
    · dsimp only
      split
      iterate 25 exact absurd (by decide) hmem
      rfl

/-- The rows hold whole words. -/
theorem InRow.word {off base n k j : Nat} (h : InRow (off + j) base n k) (hoff : off % 4 = 0) (hj : j < 4)
    (hbase : base % 4 = 0) (hn : n % 4 = 0) : InRow off base n (k - j) := by
  obtain ⟨hk, hlt⟩ := h
  exact ⟨by omega, by omega⟩

theorem readWord_of_reserved {s : State} {off : Nat} (hoff : off % 4 = 0)
    (hwr : ¬inRows writableRows off) (hro : ¬inRows readOnlyRows off) : readWord s off 4 = 0 := by
  refine word_ext fun j hj => ?_
  have hstands := placeOf_standsAt (off + j)
  rw [extract_readWord s off (Nat.le_refl 4), if_pos hj]
  cases hplace : placeOf (off + j) with
  | word base =>
    rw [hplace] at hstands
    have hbase : base = off := hstands.trans (by omega)
    rw [byteAt_of_word hplace, hbase, wordAt_of_reserved hwr hro]
    simp
  | prm k | pdu k | par k | h k | hs k | u k | c k | cs k | i k | is k | e k | es k | rxBits k =>
    rw [hplace] at hstands
    exact absurd (inRows_of_inRow (hstands.word hoff hj (by decide) (by decide)) (by decide)) hwr
  | headData k | cipher k | ulBuf k | dlBuf k =>
    rw [hplace] at hstands
    exact absurd (inRows_of_inRow (hstands.word hoff hj (by decide) (by decide)) (by decide)) hro

/-! ### Fields of words -/

theorem extract_listWord (list : Vector (BitVec 3) 8) {k : Nat} (hk : k < 8) :
    (listWord list).extractLsb' (4 * k) 3 = listAt list k := by
  have hfold (n : Nat) (hn : n ≤ 8) :
      ((List.range n).foldl (fun w i => w ||| field (list.toList.getD i 0) (4 * i)) (0 : Word)).extractLsb'
        (4 * k) 3 = if k < n then listAt list k else 0 := by
    induction n with
    | zero => simp
    | succ n ih =>
      rw [List.range_succ, List.foldl_append, List.foldl_cons, List.foldl_nil, BitVec.extractLsb'_or,
        ih (by omega)]
      rcases Nat.lt_trichotomy k n with hlt | rfl | hgt
      · rw [if_pos hlt, if_pos (by omega), extract_field_disjoint _ _ _ (by omega)]
        exact BitVec.or_zero
      · rw [if_neg (by omega), if_pos (by omega), extract_field_same _ _ (by omega)]
        exact BitVec.zero_or
      · rw [if_neg (by omega), if_neg (by omega), extract_field_disjoint _ _ _ (by omega)]
        exact BitVec.or_zero
  rw [listWord, hfold 8 (Nat.le_refl 8), if_pos hk]

/-! ### The selected channel -/

theorem selected_eq {s : State} {tn : Tn} {ch : Chan} (htn : tn.val = s.csselTn.toNat)
    (hch : ch.val = s.csselCh.toNat) : s.selected = some (tn, ch) := by
  have hlt : s.csselCh.toNat < 39 := hch ▸ ch.isLt
  have htn' : s.csselTn.toFin = tn := Fin.ext htn.symm
  have hch' : (⟨s.csselCh.toNat, hlt⟩ : Chan) = ch := Fin.ext hch.symm
  rw [State.selected, dif_pos hlt, htn', hch']

theorem selected_eq_none {s : State} (h : 38 < s.csselCh.toNat) : s.selected = none :=
  dif_neg (by omega)

theorem wordAt_selected {s : State} {base : Nat} (h : InRow base 0x8004 0x0FFC (base - 0x8004)) :
    wordAt s base = match s.selected with
      | none => 0
      | some (tn, ch) => csvWord s.free (s.chan tn ch) (s.queue tn ch) base := by
  have hts : within base 0x4000 32 = false := within_above (by have := h.1; omega)
  rw [wordAt, hts, h.within]
  rfl

theorem wordAt_csv {s : State} {tn : Tn} {ch : Chan} {base : Nat} (hsel : s.selected = some (tn, ch))
    (hlo : 0x8004 ≤ base) (hhi : base < 0x9000) :
    wordAt s base = csvWord s.free (s.chan tn ch) (s.queue tn ch) base := by
  rw [wordAt_selected ⟨by omega, by omega⟩, hsel]

/-- Every place of the selected channel state. -/
theorem byteAt_of_none {s : State} {off : Nat} (hsel : s.selected = none) (hlo : 0x8004 ≤ off)
    (hhi : off < 0x9000) : byteAt s off = 0 := by
  have hstands := placeOf_standsAt off
  cases hplace : placeOf off with
  | word base =>
    rw [hplace] at hstands
    have hbase : base = off - off % 4 := hstands
    rw [byteAt_of_word hplace, wordAt_selected ⟨by omega, by omega⟩, hsel]
    simp
  | cipher k | ulBuf k | dlBuf k =>
    simp only [byteAt, hplace, State.viewed, hsel]
  | prm k | pdu k | par k | h k | hs k | u k | c k | cs k | i k | is k | e k | es k | rxBits k | headData k =>
    rw [hplace] at hstands
    obtain ⟨hoff, hk⟩ := hstands
    omega

theorem readWord_of_none {s : State} {off : Nat} (hsel : s.selected = none) (hoff : off % 4 = 0)
    (hlo : 0x8004 ≤ off) (hhi : off < 0x9000) : readWord s off 4 = 0 := by
  refine word_ext fun j hj => ?_
  rw [extract_readWord s off (Nat.le_refl 4), if_pos hj, byteAt_of_none hsel (by omega) (by omega)]
  simp

/-- Elements of the selected channel state. -/
theorem viewed_of_selected {s : State} {tn : Tn} {ch : Chan} (hsel : s.selected = some (tn, ch))
    (f : ChanState → Byte) : s.viewed f = f (s.chan tn ch) := by
  rw [State.viewed, hsel]

/-! ### Rows of elements -/

theorem byteAt_prm (s : State) {k : Nat} (hk : k < 16) : byteAt s (0x0040 + k) = s.prmAt k := by
  rw [byteAt, placeOf_eq (p := .prm k) ⟨rfl, hk⟩ nofun]

theorem byteAt_pdu (s : State) {k : Nat} (hk : k < 64) :
    byteAt s (0x0080 + k) = s.mem.pdu.hostGet Config.freeByte s.free k := by
  rw [byteAt, placeOf_eq (p := .pdu k) ⟨rfl, hk⟩ nofun]

theorem byteAt_rxBits {s : State} {k : Nat} {b : SBit} (hk : s.rxind.bits[k]? = some b) :
    byteAt s (0x1C40 + k) = b.val := by
  obtain ⟨hlt, -⟩ := Vector.getElem?_eq_some_iff.1 hk
  rw [byteAt, placeOf_eq (p := .rxBits k) ⟨rfl, hlt⟩ nofun]
  dsimp only
  rw [List.getD_eq_getElem?_getD, Vector.getElem?_toList, hk, Option.getD_some]

theorem byteAt_headData (s : State) {k : Nat} (hk : k < 444) :
    byteAt s (0x2040 + k) = headDataByte s.free s.evq.head? k := by
  rw [byteAt, placeOf_eq (p := .headData k) ⟨rfl, hk⟩ nofun]

section Selected

variable {s : State} {tn : Tn} {ch : Chan} (hsel : s.selected = some (tn, ch))
include hsel

theorem byteAt_cipher {k : Nat} (hk : k < 36) :
    byteAt s (0x8050 + k) = cipherByte (s.chan tn ch) k := by
  rw [byteAt, placeOf_eq (p := .cipher k) ⟨rfl, hk⟩ nofun]
  exact viewed_of_selected hsel _

theorem byteAt_ulBuf {k : Nat} (hk : k < 928) :
    byteAt s (0x8400 + k) = ulBufByte (s.chan tn ch) k := by
  rw [byteAt, placeOf_eq (p := .ulBuf k) ⟨rfl, hk⟩ nofun]
  exact viewed_of_selected hsel _

theorem byteAt_dlBuf {k : Nat} (hk : k < 928) :
    byteAt s (0x8800 + k) = dlBufByte s.free (s.chan tn ch) k := by
  rw [byteAt, placeOf_eq (p := .dlBuf k) ⟨rfl, hk⟩ nofun]
  exact viewed_of_selected hsel _

end Selected

/-- The four cipher records: the algorithm and the key bytes of record `i`. -/
theorem cipherByte_record {x : ChanState} {i : Nat} {c : Cipher}
    (hc : [x.ciphUlP, x.ciphUl, x.ciphDlP, x.ciphDl][i]? = some c) :
    i < 4 ∧ cipherByte x (9 * i) = c.algo.setWidth 8 ∧
      ∀ k, k < 8 → cipherByte x (9 * i + 1 + k) = c.key.toList.getD k 0 := by
  have hi : i < 4 := (List.getElem?_eq_some_iff.1 hc).1
  have hrec (k : Nat) (hk : k < 9) : cipherByte x (9 * i + k) =
      if k = 0 then c.algo.setWidth 8 else c.key.toList.getD (k - 1) 0 := by
    have hdiv : (9 * i + k) / 9 = i := by omega
    have hmod : (9 * i + k) % 9 = k := by omega
    rw [cipherByte, hdiv, hmod]
    interval_cases i <;> obtain rfl := Option.some.inj hc <;> rfl
  refine ⟨hi, hrec 0 (by decide), fun k hk => ?_⟩
  have hstep := hrec (1 + k) (by omega)
  rwa [if_neg (by omega), Nat.add_sub_cancel_left, ← Nat.add_assoc] at hstep

end Sys2Proof.Machine
end

