-- ==== Sys2Proof/Proofs/WindowReadsSettled.lean ====
section
/-! The words of the map field by field (20_memory.md R75), and what the host reads. -/

namespace Sys2Proof.Machine

variable {s : State} {off : BitVec 16} {w : Word}

/-! ### Lengths -/

theorem lens_lt (h : s.MemInv) : s.mem.pdu.len ≤ 64 ∧ s.mem.u.len ≤ 512 ∧ s.mem.par.len ≤ 40 ∧
    s.mem.c.len ≤ 1024 ∧ s.mem.cs.len ≤ 1024 ∧ s.mem.i.len ≤ 912 ∧ s.mem.is.len ≤ 912 ∧
    s.mem.e.len ≤ 928 ∧ s.mem.es.len ≤ 928 ∧ s.mem.h.len ≤ 16 ∧ s.mem.hs.len ≤ 16 := by
  obtain ⟨hpdu, hu, hpar, hc, hcs, hi, his, he, hes, hh, hhs⟩ := (Memory.wf_iff _ _).1 h
  have hlen {α : Type} {cap : Nat} {b : Buf α} (hb : b.wf cap s.free = true) : b.len ≤ cap :=
    ((Buf.wf_iff _ _ _).1 hb).1
  exact ⟨hlen hpdu, hlen hu, hlen hpar, hlen hc, hlen hcs, hlen hi, hlen his, hlen he, hlen hes,
    hlen hh, hlen hhs⟩

/-- The length registers return the lengths, which fit their fields (R51). -/
theorem reads_lens (hw : w = readWord s off.toNat 4) (hs : s.MemInv) :
    (off = 0x0024 → (w.extractLsb' 0 7).toNat = s.mem.pdu.len ∧
      (w.extractLsb' 8 6).toNat = s.mem.par.len ∧ (w.extractLsb' 16 5).toNat = s.mem.h.len ∧
      (w.extractLsb' 24 5).toNat = s.mem.hs.len) ∧
    (off = 0x0028 → (w.extractLsb' 0 10).toNat = s.mem.u.len ∧
      (w.extractLsb' 16 11).toNat = s.mem.c.len) ∧
    (off = 0x002C → (w.extractLsb' 0 11).toNat = s.mem.cs.len ∧
      (w.extractLsb' 16 10).toNat = s.mem.i.len) ∧
    (off = 0x0030 → (w.extractLsb' 0 10).toNat = s.mem.is.len ∧
      (w.extractLsb' 16 10).toNat = s.mem.e.len) ∧
    (off = 0x0034 → (w.extractLsb' 0 10).toNat = s.mem.es.len) := by
  obtain ⟨hpdu, hu, hpar, hc, hcs, hi, his, he, hes, hh, hhs⟩ := lens_lt hs
  refine ⟨fun h => ?_, fun h => ?_, fun h => ?_, fun h => ?_, fun h => ?_⟩ <;>
    rw [word_of_row hw h (by decide)]
  · have hword : wordAt s 0x0024 = field (BitVec.ofNat 7 s.mem.pdu.len) 0 |||
        field (BitVec.ofNat 6 s.mem.par.len) 8 ||| field (BitVec.ofNat 5 s.mem.h.len) 16 |||
        field (BitVec.ofNat 5 s.mem.hs.len) 24 := by
      rw [← lenField_eq_field (by omega), ← lenField_eq_field (by omega), ← lenField_eq_field (by omega),
        ← lenField_eq_field (by omega)]
      rfl
    simp [hword, BitVec.extractLsb'_or]
    omega
  · have hword : wordAt s 0x0028 = field (BitVec.ofNat 10 s.mem.u.len) 0 |||
        field (BitVec.ofNat 11 s.mem.c.len) 16 := by
      rw [← lenField_eq_field (by omega), ← lenField_eq_field (by omega)]
      rfl
    simp [hword, BitVec.extractLsb'_or]
    omega
  · have hword : wordAt s 0x002C = field (BitVec.ofNat 11 s.mem.cs.len) 0 |||
        field (BitVec.ofNat 10 s.mem.i.len) 16 := by
      rw [← lenField_eq_field (by omega), ← lenField_eq_field (by omega)]
      rfl
    simp [hword, BitVec.extractLsb'_or]
    omega
  · have hword : wordAt s 0x0030 = field (BitVec.ofNat 10 s.mem.is.len) 0 |||
        field (BitVec.ofNat 10 s.mem.e.len) 16 := by
      rw [← lenField_eq_field (by omega), ← lenField_eq_field (by omega)]
      rfl
    simp [hword, BitVec.extractLsb'_or]
    omega
  · have hword : wordAt s 0x0034 = field (BitVec.ofNat 10 s.mem.es.len) 0 := by
      rw [← lenField_eq_field (by omega)]
      rfl
    simp [hword]
    omega

/-! ### The selected channel -/

theorem fillField_toNat (tag : Nat) {n : Nat} (h : n < 65536) : (fillField tag n).toNat = n := by
  rw [fillField, if_pos h]
  exact Nat.mod_eq_of_lt h

section Selected

variable {tn : Tn} {ch : Chan} (hsel : s.selected = some (tn, ch))
include hsel

theorem word_of_csv {c : BitVec 16} {v : Word} (hw : w = readWord s off.toNat 4) (hoff : off = c)
    (hmem : c.toNat ∈ wordBases) (hlo : 0x8004 ≤ c.toNat) (hhi : c.toNat < 0x9000)
    (hv : csvWord s.free (s.chan tn ch) (s.queue tn ch) c.toNat = v) : w = v := by
  rw [word_of_row hw hoff hmem, wordAt_csv hsel hlo hhi, hv]

theorem reads_flags (hw : w = readWord s off.toNat 4) (hoff : off = 0x8004) :
    w = csvFlags s.free (s.chan tn ch) (s.queue tn ch) :=
  word_of_csv hsel hw hoff (by decide) (by decide) (by decide) rfl

/-- The mode registers of the selected channel and their codec lists. -/
theorem reads_modes {a : BitVec 16} {m : Mode} (hw : w = readWord s off.toNat 4)
    (ha : (a, m) ∈ [(0x8030#16, (s.chan tn ch).modeP), (0x8034#16, (s.chan tn ch).modeUl),
      (0x8038#16, (s.chan tn ch).modeDl)]) :
    (off = a → w = modeWord m) ∧ (off = a + 12 → w = listWord m.amrList) := by
  simp only [List.mem_cons, List.not_mem_nil, or_false, Prod.mk.injEq] at ha
  rcases ha with ⟨rfl, rfl⟩ | ⟨rfl, rfl⟩ | ⟨rfl, rfl⟩ <;>
    exact ⟨fun h => word_of_csv hsel hw h (by decide) (by decide) (by decide) rfl,
      fun h => word_of_csv hsel hw h (by decide) (by decide) (by decide) rfl⟩

end Selected

/-! ### Timeslots -/

theorem wordAt_ts (s : State) (tn : Tn) : wordAt s (0x4000 + 4 * tn.val) =
    field (s.ts.get tn).pchan 0 ||| field (s.ts.get tn).tsc 4 ||| field (s.ts.get tn).att 8 := by
  have hin : within (0x4000 + 4 * tn.val) 0x4000 32 = true := within_inside (by omega)
  have hidx : (0x4000 + 4 * tn.val - 0x4000) / 4 = tn.val := by omega
  have hget : s.ts.toList.getD tn.val TsRegs.zero = s.ts.get tn := by
    rw [List.getD_eq_getElem?_getD, Vector.getElem?_toList, Vector.getElem?_eq_getElem tn.isLt,
      Option.getD_some]
    rfl
  rw [wordAt, hin, if_pos rfl, hidx]
  dsimp only
  rw [hget]

theorem mem_wordBases_ts : ∀ tn : Tn, 0x4000 + 4 * tn.val ∈ wordBases := by
  decide

end Sys2Proof.Machine

namespace Sys2Proof.Proofs

open Sys2Proof Sys2Proof.Machine

/-- Settles O59: a 4-byte read of a word row is the word, field by field; a read of an element row is its
bytes; and a narrower read has the same bytes. -/
theorem windowReads : Obligations.WindowReads := by
  unfold Obligations.WindowReads
  refine ⟨?narrow, ?malformed, fun s t rest off w hhost hstep hw => ?_⟩
  case narrow =>
    intro s rest off n h hn hal
    have hn4 : off.toNat % 4 + n ≤ 4 ∧ n ≤ 4 := by
      simp only [List.mem_cons, List.not_mem_nil, or_false] at hn
      rcases hn with rfl | rfl | rfl <;> omega
    refine ⟨_, by rw [step_read h, if_pos ((accessOk_iff _ _).2 ⟨hn, hal⟩)], rfl, fun t4 hstep j hj => ?_⟩
    obtain ⟨-, hread⟩ := hostRead_eq rfl hstep
    have hbase : (BitVec.ofNat 16 (off.toNat - off.toNat % 4)).toNat = off.toNat - off.toNat % 4 :=
      Nat.mod_eq_of_lt (by omega)
    rw [hread, hbase, readWord_host, hostReadAt]
    dsimp only
    rw [readWord_host, extract_readWord s _ hn4.2]
    split
    · next hjn =>
      have hsplit : off.toNat - off.toNat % 4 + (off.toNat % 4 + j) = off.toNat + j := by omega
      rw [extract_readWord s _ (Nat.le_refl 4), if_pos (by omega), hsplit]
    · rfl
  case malformed =>
    intro s rest off n h hbad
    rw [step_read h, if_neg]
    intro hok
    obtain ⟨hn, hal⟩ := (accessOk_iff _ _).1 hok
    exact hbad.elim (absurd hn) (absurd hal)
  obtain ⟨haligned, hread⟩ := hostRead_eq hhost hstep
  rw [hread] at hw
  refine ⟨?writeOnly, ?reserved, ?stat, ?fn, ?bsic, ?resErr, ?resFields, ?resIdx, ?wamr, ?wamrList,
    reads_lens hw, ?prm, ?evqCount, ?pdu, ?hard, ?soft, ?rxFn, ?rxSlot, ?rxToa, ?rxCi, ?rxBits, ?evqEmpty,
    ?txReq, ?dataInd, ?rtsInd, ?log, ?modeInd, ?ts, ?cssel, ?unselected, ?selected⟩
  case writeOnly =>
    rintro (h | h)
    · exact word_of_row hw h (by decide)
    · exact word_of_row hw h (by decide)
  case reserved =>
    intro hwr hro
    rw [hw, readWord_of_reserved haligned hwr hro]
  case stat | fn | bsic | resErr | resFields | resIdx | wamr | rxFn | rxSlot | rxToa | rxCi | cssel =>
    intro h
    rw [word_of_row hw h (by decide)]
    simp [wordAt, within, csselWord, BitVec.extractLsb'_or]
  case wamrList =>
    intro h k hk
    rw [word_of_row hw h (by decide)]
    exact extract_listWord s.wamr.list hk
  case prm =>
    intro j k hk hrow
    rw [byte_of_row hw hrow, byteAt_prm s hk]
  case evqCount =>
    intro h
    have hword : w = BitVec.ofNat 32 (min s.evq.length 4294967295) := word_of_row hw h (by decide)
    rw [hword, BitVec.toNat_ofNat]
    omega
  case pdu =>
    intro j k hk hlen hrow
    rw [byte_of_row hw hrow, byteAt_pdu s hk, Buf.hostGet_of_lt _ _ hlen]
  case hard =>
    intro b j k hk hlen hrow
    rw [byte_of_row hw hrow, byteAt_hard s b hk, Buf.hostGet_of_lt _ _ hlen, bitByte]
  case soft =>
    intro b j k hk hlen hrow
    rw [byte_of_row hw hrow, byteAt_soft s b hk, Buf.hostGet_of_lt _ _ hlen]
  case rxBits =>
    intro j k b _ hk hrow
    rw [byte_of_row hw hrow, byteAt_rxBits hk]
  case evqEmpty =>
    intro hevq h
    rw [word_of_row hw h (by decide)]
    simp [wordAt, within, hevq, headA, fieldOr, BitVec.extractLsb'_or]
  case txReq =>
    intro fn tn att bits es hevq
    refine ⟨fun h => ?_, fun h => ?_, fun h => ?_, fun j k b hk hb hrow => ?_⟩
    case refine_4 =>
      rw [byte_of_row hw hrow, byteAt_headData s hk]
      simp [hevq, headDataByte, hb, bitByte]
    all_goals
      rw [word_of_row hw h (by decide)]
      simp [wordAt, within, hevq, headA, headFn, headB, fieldOr, Event.kind, Event.tn, Event.fn,
        BitVec.extractLsb'_or]
  case dataInd =>
    intro tn ch fn bytes rssi toa lq lqv ber aux es hevq
    refine ⟨fun h => ?_, fun h => ?_, fun h => ?_, fun h => ?_, fun h => ?_, fun h => ?_,
      fun j k b hk hb hrow => ?_⟩
    case refine_7 =>
      rw [byte_of_row hw hrow, byteAt_headData s hk]
      simp [hevq, headDataByte, hb]
    all_goals
      rw [word_of_row hw h (by decide)]
      simp [wordAt, within, hevq, headA, headFn, headB, headC, headD, headE, fieldOr, Event.kind, Event.tn,
        Event.chan?, Event.fn, BitVec.extractLsb'_or]
  case rtsInd =>
    intro tn ch fn es hevq
    refine ⟨fun h => ?_, fun h => ?_⟩ <;>
      rw [word_of_row hw h (by decide)] <;>
      simp [wordAt, within, hevq, headA, headFn, fieldOr, Event.kind, Event.tn, Event.chan?, Event.fn,
        BitVec.extractLsb'_or]
  case log =>
    intro code tn ch fn es hevq
    refine ⟨fun h => ?_, fun h => ?_⟩ <;>
      rw [word_of_row hw h (by decide)] <;>
      simp [wordAt, within, hevq, headA, headFn, fieldOr, Event.kind, Event.tn, Event.chan?, Event.fn,
        BitVec.extractLsb'_or]
  case modeInd =>
    intro tn ch fn idx es hevq
    refine ⟨fun h => ?_, fun h => ?_, fun h => ?_⟩ <;>
      rw [word_of_row hw h (by decide)] <;>
      simp [wordAt, within, hevq, headA, headFn, headB, fieldOr, Event.kind, Event.tn, Event.chan?, Event.fn,
        BitVec.extractLsb'_or]
  case ts =>
    intro tn h
    rw [hw, h, readWord_of_mem (mem_wordBases_ts tn), wordAt_ts]
    simp [BitVec.extractLsb'_or]
  case unselected =>
    intro hch hlo hhi
    rw [hw, readWord_of_none (selected_eq_none hch) haligned hlo hhi]
  case selected =>
    rintro tn ch x htn hch rfl
    have hsel := selected_eq htn hch
    refine ⟨?flags, ?ulFirstFn, ?lastFn, ?nproc, ?nlost, ?rssiSum, ?rssiNum, ?toaSum, ?toaNum, ?ciSum,
      ?ciNum, ?modes, ?codecs, ?ciphers, ?ulBuf, ?dlBuf⟩
    case flags =>
      intro h
      rw [reads_flags hsel hw h]
      simpa [csvFlags, BitVec.extractLsb'_or] using fillField_toNat s.free
    case ulFirstFn | lastFn | rssiNum | toaNum | ciNum | codecs =>
      intro h
      rw [word_of_csv hsel hw h (by decide) (by decide) (by decide) rfl]
      simp [csvWord, BitVec.extractLsb'_or]
    case nproc | nlost | rssiSum | toaSum | ciSum =>
      exact fun h => word_of_csv hsel hw h (by decide) (by decide) (by decide) rfl
    case modes =>
      intro a m ha
      obtain ⟨hmode, hlist⟩ := reads_modes hsel hw ha
      refine ⟨fun h => ?_, fun h k hk => ?_⟩
      · rw [hmode h]
        simp [modeWord, BitVec.extractLsb'_or]
      · rw [hlist h, extract_listWord _ hk]
    case ciphers =>
      intro i j c hc
      obtain ⟨hi, halgo, hkey⟩ := cipherByte_record hc
      refine ⟨fun hrow => ?_, fun k b hk hrow => ?_⟩
      · rw [byte_of_row hw hrow, byteAt_cipher hsel (by omega), halgo]
      · obtain ⟨hlt, -⟩ := Vector.getElem?_eq_some_iff.1 hk
        rw [byte_of_row hw hrow, byteAt_cipher hsel (by omega), hkey k hlt, List.getD_eq_getElem?_getD,
          Vector.getElem?_toList, hk, Option.getD_some]
    case ulBuf =>
      intro j k hk hrow
      rw [byte_of_row hw hrow, byteAt_ulBuf hsel hk]
      refine ⟨fun hfree => by rw [ulBufByte, hfree]; rfl, fun b halloc hb => ?_⟩
      rw [ulBufByte, halloc, if_pos rfl, List.getD_eq_getElem?_getD, hb, Option.getD_some]
    case dlBuf =>
      intro j k hk hrow
      rw [byte_of_row hw hrow, byteAt_dlBuf hsel hk]
      refine ⟨fun hfree => by rw [dlBufByte, hfree]; rfl, fun b halloc hb => ?_⟩
      rw [dlBufByte, halloc, if_pos rfl, List.getD_eq_getElem?_getD, hb, Option.getD_some, bitByte]

end Sys2Proof.Proofs
end

