-- ==== Sys2Proof/Proofs/CommandPort.lean ====
section
/-! The command port (30_encoding.md R90, 20_memory.md R78; log 1, log 2): a write of a word to `CMD` is one
command. -/

namespace Sys2Proof.Machine

theorem command_of_decode {w : Word} {i : Instr} (h : decode w = .ok i) (s : State) :
    command w s = exec i s := by
  rw [command, h]

/-- The write of a legal word to `CMD` is the command that the word encodes. -/
theorem step_command {s : State} {rest : List HostAccess} {w : Word} {i : Instr}
    (hhost : s.host = .write 0 4 w :: rest) (h : decode w = .ok i) :
    step s = exec i { s with host := rest } := by
  have hok : ¬accessOk (0 : BitVec 16).toNat 4 = false := by decide
  rw [step_write hhost, if_neg hok, if_pos ⟨rfl, rfl⟩, command_of_decode h]

end Sys2Proof.Machine

namespace Sys2Proof.Proofs

open Sys2Proof.Machine

/-- Settles O5: `withFetchWord` puts one write of `CMD` before the host's accesses, and the step that makes
it leaves the host as it was. -/
theorem stepRunsCommand : Obligations.StepRunsCommand :=
  ⟨fun _ _ _ _ hhost hdecode => step_command hhost hdecode,
    fun _ _ _ _ hdecode => step_command rfl hdecode,
    fun _ hhost => step_idle hhost,
    exec_eq_execIn⟩

end Sys2Proof.Proofs
end

