-- ==== Sys2Proof/Proofs/BitPacking.lean ====
section
/-! The bit packer in both orders of 20_memory.md R72, bit by bit (43_interleaver_mapper.md R160, R161). -/

namespace Sys2Proof.Machine

/-! ### Bits of packed bytes -/

theorem byteOf_eq_ofBits (f : Nat → UBit) :
    byteOf f = BitVec.ofNat 8 (Nat.ofBits fun j : Fin 8 => f j.val) := by
  simp only [byteOf, Nat.ofBits, List.range_succ, List.range_zero, List.foldl_append, List.foldl_cons,
    List.foldl_nil, List.nil_append, Fin.foldr_succ, Fin.foldr_zero, Fin.val_succ, Fin.val_zero,
    Nat.reduceAdd]
  congr 1
  omega

theorem byteOf_getLsbD (f : Nat → UBit) {j : Nat} (hj : j < 8) : (byteOf f).getLsbD j = f j := by
  rw [byteOf_eq_ofBits, BitVec.getLsbD_ofNat, Nat.testBit_ofBits_lt _ _ hj]
  simp [hj]

/-- A bit of a vector of packed bytes; an absent byte reads 0. -/
theorem getLsbD_getD_map_byteOf (f : Nat → Nat → UBit) (n b : Nat) {k : Nat} (hk : k < 8) :
    (((List.range n).map fun b => byteOf (f b)).getD b 0).getLsbD k = if b < n then f b k else false := by
  by_cases hb : b < n
  · simp [List.getD_eq_getElem?_getD, hb, byteOf_getLsbD _ hk]
  · simp [List.getD_eq_getElem?_getD, hb]

/-- Packed bits are read back in the same order, and the unused bits of the last byte are 0 (R72). -/
theorem bitAt_packBits (o : BitOrder) (bits : List UBit) (j : Nat) :
    bitAt o (packBits o bits) j = bits.getD j false := by
  have hpos : 8 * (j / 8) + j % 8 = j := Nat.div_add_mod j 8
  have habsent (hb : ¬j / 8 < (bits.length + 7) / 8) : bits.getD j false = false :=
    List.getD_eq_default _ _ (by omega)
  cases o with
  | lsb =>
    simp only [bitAt, packBits, packLsb]
    rw [getLsbD_getD_map_byteOf _ _ _ (by omega), hpos]
    split
    · rfl
    · next hb => exact (habsent hb).symm
  | msb =>
    have hrev : 7 - (7 - j % 8) = j % 8 := by omega
    simp only [bitAt, packBits, packMsb]
    rw [getLsbD_getD_map_byteOf _ _ _ (by omega), hrev, hpos]
    split
    · rfl
    · next hb => exact (habsent hb).symm

theorem unpackBits_getElem? (o : BitOrder) (bytes : List Byte) {n j : Nat} (hj : j < n) :
    (unpackBits o bytes n)[j]? = some (bitAt o bytes j) := by
  cases o <;> simp [unpackBits, unpackLsb, unpackMsb, bitAt, hj]

theorem getD_take_false (u : List UBit) (n j : Nat) :
    (u.take n).getD j false = if j < n then u.getD j false else false := by
  simp only [List.getD_eq_getElem?_getD, List.getElem?_take]
  split <;> rfl

/-! ### The commands -/

theorem exec_unpack (o : BitOrder) {n : BitVec 16} {s : State} (h : n.toNat ≤ 8 * s.mem.pdu.len) :
    exec (.unpack o n) s = .next ((s.setU (unpackBits o s.pdu n.toNat)).raise .none 0) :=
  congrArg Cmd.finish (if_neg (Nat.not_lt.2 h))

theorem exec_unpack_short (o : BitOrder) {n : BitVec 16} {s : State}
    (h : 8 * s.mem.pdu.len < n.toNat) : exec (.unpack o n) s = .next (s.raise .len n.toNat) :=
  congrArg Cmd.finish (if_pos h)

theorem exec_pack (o : BitOrder) {n : BitVec 16} {s : State} (h : n.toNat ≤ s.mem.u.len) :
    exec (.pack o n) s = .next ((s.setPdu (packBits o (s.u.take n.toNat))).raise .none 0) :=
  congrArg Cmd.finish (if_neg (Nat.not_lt.2 h))

theorem exec_pack_short (o : BitOrder) {n : BitVec 16} {s : State} (h : s.mem.u.len < n.toNat) :
    exec (.pack o n) s = .next (s.raise .len n.toNat) :=
  congrArg Cmd.finish (if_pos h)

/-- `UNPACK` of bits that `PDU` holds (R160). -/
theorem unpack_result (o : BitOrder) {n : BitVec 16} {s : State} (h : n.toNat ≤ 8 * s.mem.pdu.len) :
    ∃ t, exec (.unpack o n) s = .next t ∧ t.mem.u.len = n.toNat ∧
      (∀ j, j < n.toNat → t.u[j]? = some (bitAt o s.pdu j)) ∧
      t = { s with mem := { s.mem with u := t.mem.u }, free := t.free, stat := Stat.ok } := by
  refine ⟨_, exec_unpack o h, unpackBits_length _ _ _, fun j hj => ?_, rfl⟩
  exact (congrArg (·[j]?) (State.setU_u _ _)).trans (unpackBits_getElem? o s.pdu hj)

/-- `PACK` of bits that `U` holds (R161). -/
theorem pack_result (o : BitOrder) {n : BitVec 16} {s : State} (h : n.toNat ≤ s.mem.u.len) :
    ∃ t, exec (.pack o n) s = .next t ∧ t.mem.pdu.len = (n.toNat + 7) / 8 ∧
      (∀ j, bitAt o t.pdu j = if j < n.toNat then s.u.getD j false else false) ∧
      t = { s with mem := { s.mem with pdu := t.mem.pdu }, free := t.free, stat := Stat.ok } := by
  refine ⟨_, exec_pack o h, ?_, fun j => ?_, rfl⟩
  · refine (packBits_length _ _).trans ?_
    rw [List.length_take, State.u_length, Nat.min_eq_left h]
  · refine (congrArg (bitAt o · j) (State.setPdu_pdu _ _)).trans ?_
    rw [bitAt_packBits, getD_take_false]

end Sys2Proof.Machine

namespace Sys2Proof.Proofs

open Sys2Proof.Machine

/-- Settles O23: each order reads back the bits it has packed, so `PACK` after `UNPACK` gives the first bits
of `PDU` again (R161). -/
theorem unpackPackResult : Obligations.UnpackPackResult := by
  unfold Obligations.UnpackPackResult
  refine ⟨fun o n s h => unpack_result o h, fun o n s h => exec_unpack_short o h,
    fun o n s h => ?pack, fun o n s h => exec_pack_short o h, fun o n s h => ?roundTrip⟩
  case pack =>
    obtain ⟨t, hexec, hlen, hbits, hframe⟩ := pack_result o h
    exact ⟨t, hexec, hlen, fun j _ => hbits j, hframe⟩
  case roundTrip =>
    obtain ⟨t, hunpack, hlen, hu, -⟩ := unpack_result o h
    obtain ⟨t', hpack, hlen', hbits, -⟩ := pack_result o hlen.ge
    refine ⟨t, t', hunpack, hpack, hlen', fun j _ => ?_⟩
    rw [hbits]
    split
    · next hj => rw [List.getD_eq_getElem?_getD, hu j hj, Option.getD_some]
    · rfl

end Sys2Proof.Proofs
end

