-- ==== Sys2Proof/Proofs/Footprints.lean ====
section
/-! What each command cannot write (47_scheduler.md R290, 20_memory.md R76): one relation for each kind of
command, from the narrowest write to the widest. -/

namespace Sys2Proof.Machine

open Cmd.Ends

/-! ### The mailboxes, the window selector and the host's side -/

/-- From `s` to `t` nothing changed that only the host writes (20_memory.md R76). -/
structure State.HostSideKept (s t : State) : Prop where
  prm : t.prm = s.prm
  rxind : t.rxind = s.rxind
  csselTn : t.csselTn = s.csselTn
  csselCh : t.csselCh = s.csselCh
  host : t.host = s.host
  hostRead : t.hostRead = s.hostRead

namespace State.HostSideKept

theorem refl (s : State) : s.HostSideKept s := ⟨rfl, rfl, rfl, rfl, rfl, rfl⟩

theorem trans {s t u : State} (h : s.HostSideKept t) (h' : t.HostSideKept u) : s.HostSideKept u :=
  ⟨h'.prm.trans h.prm, h'.rxind.trans h.rxind, h'.csselTn.trans h.csselTn, h'.csselCh.trans h.csselCh,
    h'.host.trans h.host, h'.hostRead.trans h.hostRead⟩

theorem raise {s t : State} (h : s.HostSideKept t) (e : ErrCode) (info : Nat) :
    s.HostSideKept (t.raise e info) :=
  h.trans ⟨rfl, rfl, rfl, rfl, rfl, rfl⟩

theorem emit {s t : State} (h : s.HostSideKept t) (e : Event) : s.HostSideKept (t.emit e) :=
  h.trans ⟨rfl, rfl, rfl, rfl, rfl, rfl⟩

theorem setChan {s t : State} (h : s.HostSideKept t) (tn : Tn) (ch : Chan) (x : ChanState) :
    s.HostSideKept (t.setChan tn ch x) :=
  h.trans ⟨rfl, rfl, rfl, rfl, rfl, rfl⟩

end State.HostSideKept

/-! ### Unit and codec commands -/

/-- From `s` to `t` nothing changed but `STAT`, `RES`, `WAMR`, the working buffers and their numbering of
free values. -/
def State.WritesWork (s t : State) : Prop :=
  t = { s with stat := t.stat, res := t.res, wamr := t.wamr, mem := t.mem, free := t.free }

namespace State.WritesWork

theorem refl (s : State) : s.WritesWork s := rfl

theorem trans {s t u : State} (h : s.WritesWork t) (h' : t.WritesWork u) : s.WritesWork u :=
  Eq.trans h' (by rw [h])

theorem raise {s t : State} (h : s.WritesWork t) (e : ErrCode) (info : Nat) : s.WritesWork (t.raise e info) :=
  h.trans rfl

theorem scratch {s t : State} (h : s.WritesWork t) : s.WritesWork t.scratch := h.trans rfl

theorem of_codecTo {s t : State} (h : s.CodecTo t) : s.WritesWork t := h.frame.trans (by rw [h.frame])

variable {s t : State} (h : s.WritesWork t)
include h

theorem hostSideKept : s.HostSideKept t := by rw [h]; exact ⟨rfl, rfl, rfl, rfl, rfl, rfl⟩

theorem scheduler_eq : t.fn = s.fn ∧ t.fnValid = s.fnValid ∧ t.bsic = s.bsic ∧ t.ts = s.ts ∧
    t.cs = s.cs ∧ t.q = s.q ∧ t.evq = s.evq ∧ t.allocs = s.allocs := by
  rw [h]; exact ⟨rfl, rfl, rfl, rfl, rfl, rfl, rfl, rfl⟩

end State.WritesWork

/-- Also the operands that no well-formed command has leave everything else as it was. -/
theorem bodyIn_ends_writesWork {P : Params} (hP : P.WF) {i : Instr} (hi : isCodecCommand i = true)
    (s : State) : (bodyIn P i s).Ends s.WritesWork := by
  have hcodec (hwf : i.WellFormed) (hcfg : i ≠ .amrCfg) : (bodyIn P i s).Ends s.WritesWork :=
    (bodyIn_ends_codecTo hP hwf hi hcfg s).mono fun _ ht => .of_codecTo ht
  have hkeep : s.WritesWork s := .refl s
  cases i with
  | crcGen x n => exact (crcGenBody_ends x _ s).mono fun _ ht => .of_codecTo ht
  | crcChk x n => exact (crcChkBody_ends x _ s).mono fun _ ht => .of_codecTo ht
  | hSet nb p => exact (hSetBody_ends (nbOf_le nb) _ s).mono fun _ ht => .of_codecTo ht
  | amrCfg | parLd | unpack | pack => exact check (fun _ => raised hkeep) fun _ => done rfl
  | convDec e kd =>
    change (convDecBody P e kd.toNat s).Ends s.WritesWork
    unfold convDecBody
    split
    · exact rejected hkeep
    · exact check (fun _ => done rfl) fun _ => raised hkeep
  | schedInit | setPchan | chAct | chDeact | setMode | setCipher | pduEnq | setAtt | tick | rxBurst
  | setBsic => cases hi
  | _ => exact hcodec rfl nofun

/-! ### Control commands -/

/-- From `s` to `t` nothing changed but `STAT` and the registers, channel states and queues of timeslot
`tn`. -/
structure State.ControlsSlot (tn : Tn) (s t : State) : Prop where
  frame : t = { s with stat := t.stat, ts := t.ts, cs := t.cs, q := t.q }
  ts : ∀ k : Tn, k ≠ tn → t.ts.get k = s.ts.get k
  chan : ∀ (k : Tn) (ch : Chan), k ≠ tn → t.chan k ch = s.chan k ch
  queue : ∀ (k : Tn) (ch : Chan), k ≠ tn → t.queue k ch = s.queue k ch

namespace State.ControlsSlot

variable {tn : Tn}

theorem refl (s : State) : ControlsSlot tn s s :=
  ⟨rfl, fun _ _ => rfl, fun _ _ _ => rfl, fun _ _ _ => rfl⟩

theorem trans {s t u : State} (h : ControlsSlot tn s t) (h' : ControlsSlot tn t u) :
    ControlsSlot tn s u where
  frame := h'.frame.trans (by rw [h.frame])
  ts k hk := (h'.ts k hk).trans (h.ts k hk)
  chan k ch hk := (h'.chan k ch hk).trans (h.chan k ch hk)
  queue k ch hk := (h'.queue k ch hk).trans (h.queue k ch hk)

variable {s t : State} (h : ControlsSlot tn s t)
include h

theorem raise (e : ErrCode) (info : Nat) : ControlsSlot tn s (t.raise e info) :=
  h.trans ⟨rfl, fun _ _ => rfl, fun _ _ _ => rfl, fun _ _ _ => rfl⟩

theorem setTs (r : TsRegs) : ControlsSlot tn s (t.setTs tn r) := by
  refine h.trans ⟨rfl, fun k hk => ?_, fun _ _ _ => rfl, fun _ _ _ => rfl⟩
  have hne : tn.val ≠ k.val := fun heq => hk (Fin.ext heq.symm)
  simp [State.setTs, Vector.get_eq_getElem, hne]

theorem setChan (ch : Chan) (x : ChanState) : ControlsSlot tn s (t.setChan tn ch x) :=
  h.trans ⟨rfl, fun _ _ => rfl, fun _ _ hk => State.setChan_chan_ne _ _ _ _ _ _ (.inl hk),
    fun _ _ _ => rfl⟩

theorem setQueue (ch : Chan) (x : List QElem) : ControlsSlot tn s (t.setQueue tn ch x) :=
  h.trans ⟨rfl, fun _ _ => rfl, fun _ _ _ => rfl,
    fun _ _ hk => State.setQueue_queue_ne _ _ _ _ _ _ (.inl hk)⟩

theorem clearSlot : ControlsSlot tn s (t.clearSlot tn) := by
  refine h.trans ⟨rfl, fun _ _ => rfl, fun k ch hk => ?_, fun k ch hk => ?_⟩
  all_goals
    have hne : tn.val ≠ k.val := fun heq => hk (Fin.ext heq.symm)
    simp [State.clearSlot, State.chan, State.queue, Vector.get_eq_getElem, hne]

theorem foldl {f : State → Chan → State} (hf : ∀ u ch, ControlsSlot tn u (f u ch)) (chs : List Chan) :
    ControlsSlot tn s (chs.foldl f t) := by
  induction chs generalizing t with
  | nil => exact h
  | cons ch chs ih => exact ih (h.trans (hf t ch))

theorem hostSideKept : s.HostSideKept t := by rw [h.frame]; exact ⟨rfl, rfl, rfl, rfl, rfl, rfl⟩

/-- What a control command leaves, as R290 lists it. -/
theorem rest_eq : t.fn = s.fn ∧ t.fnValid = s.fnValid ∧ t.bsic = s.bsic ∧ t.evq = s.evq ∧
    t.mem = s.mem ∧ t.res = s.res ∧ t.wamr = s.wamr := by
  rw [h.frame]; exact ⟨rfl, rfl, rfl, rfl, rfl, rfl, rfl⟩

end State.ControlsSlot

theorem setModeBody_ends_controlsSlot (tn : Tn) (ch : Chan) (s : State) :
    (setModeBody tn ch s).Ends (State.ControlsSlot tn s) := by
  have hkeep : State.ControlsSlot tn s s := .refl s
  unfold setModeBody
  split
  · exact raised hkeep
  · exact check (fun _ => raised hkeep) fun _ => done (hkeep.setChan ch _)

/-- A control command writes only the timeslot it names. -/
theorem bodyIn_ends_controlsSlot (P : Params) {i : Instr} {tn : Tn} (hi : namedSlot i = some tn)
    (s : State) : (bodyIn P i s).Ends (State.ControlsSlot tn s) := by
  have hkeep : State.ControlsSlot tn s s := .refl s
  cases i with
  | setPchan tn p tsc =>
    cases hi
    exact check (fun _ => rejected hkeep) fun _ => done (hkeep.setTs _).clearSlot
  | chAct tn ch k =>
    cases hi
    exact check (fun _ => raised hkeep) fun _ =>
      done (hkeep.foldl (fun u c => (State.ControlsSlot.refl u).setChan c _) _)
  | chDeact tn ch k =>
    cases hi
    exact check (fun _ => raised hkeep) fun _ =>
      done (hkeep.foldl (fun u c => ((State.ControlsSlot.refl u).setChan c _).setQueue c _) _)
  | setMode tn ch =>
    cases hi
    exact setModeBody_ends_controlsSlot tn ch s
  | setCipher tn ch dir =>
    cases hi
    exact check (fun _ => raised hkeep) fun _ => check (fun _ => raised hkeep) fun _ =>
      done (hkeep.setChan ch _)
  | pduEnq tn ch aux =>
    cases hi
    exact check (fun _ => raised hkeep) fun _ => check (fun _ => raised hkeep) fun _ =>
      done (hkeep.setQueue ch _)
  | setAtt tn att =>
    cases hi
    exact done (hkeep.setTs _)
  | _ => cases hi

/-! ### Receive -/

/-- From `s` to `t` nothing changed but `STAT`, the working state, channel `ch` of timeslot `tn`, the
allocation oracle's count and the events, of which some were appended. -/
structure State.Receives (tn : Tn) (ch : Chan) (s t : State) : Prop where
  frame : t = { s with
    stat := t.stat, res := t.res, wamr := t.wamr, mem := t.mem, free := t.free, allocs := t.allocs,
    evq := t.evq, cs := t.cs }
  evq : s.evq <+: t.evq
  others : ∀ (k : Tn) (c : Chan), ¬(k = tn ∧ c = ch) → t.chan k c = s.chan k c

namespace State.Receives

variable {tn : Tn} {ch : Chan}

theorem refl (s : State) : Receives tn ch s s := ⟨rfl, ⟨[], List.append_nil _⟩, fun _ _ _ => rfl⟩

theorem trans {s t u : State} (h : Receives tn ch s t) (h' : Receives tn ch t u) :
    Receives tn ch s u where
  frame := h'.frame.trans (by rw [h.frame])
  evq := h.evq.trans h'.evq
  others k c hkc := (h'.others k c hkc).trans (h.others k c hkc)

theorem of_writesWork {s t : State} (h : s.WritesWork t) : Receives tn ch s t := by
  rw [h]
  exact ⟨rfl, ⟨[], List.append_nil _⟩, fun _ _ _ => rfl⟩

variable {s t : State} (h : Receives tn ch s t)
include h

theorem writesWork {u : State} (hu : t.WritesWork u) : Receives tn ch s u := h.trans (of_writesWork hu)

theorem countAllocs (n : Nat) : Receives tn ch s { t with allocs := n } :=
  h.trans ⟨rfl, ⟨[], List.append_nil _⟩, fun _ _ _ => rfl⟩

theorem emit (e : Event) : Receives tn ch s (t.emit e) :=
  h.trans ⟨rfl, ⟨_, rfl⟩, fun _ _ _ => rfl⟩

theorem setChan (x : ChanState) : Receives tn ch s (t.setChan tn ch x) :=
  h.trans ⟨rfl, ⟨[], List.append_nil _⟩,
    fun _ _ hkc => State.setChan_chan_ne _ _ _ _ _ _ (not_and_or.1 hkc)⟩

theorem hostSideKept : s.HostSideKept t := by rw [h.frame]; exact ⟨rfl, rfl, rfl, rfl, rfl, rfl⟩

/-- What the receive path leaves in every timeslot, as R290 lists it. -/
theorem rest_eq : t.fn = s.fn ∧ t.fnValid = s.fnValid ∧ t.bsic = s.bsic ∧ t.ts = s.ts ∧ t.q = s.q := by
  rw [h.frame]; exact ⟨rfl, rfl, rfl, rfl, rfl⟩

end State.Receives

/-- The decoder of a completed block writes no scheduler state, also where it loads `WAMR` (R273). -/
theorem runDecoder_ends_writesWork (P : Params) (ch : Chan) (x : ChanState) (s : State) :
    (runDecoder P ch x s).Ends s.WritesWork := by
  have hfr (speech : Efr) : (tchfrDecBody P speech s).Ends s.WritesWork :=
    (tchfrDecBody_ends P speech s).mono fun _ ht => .of_codecTo ht
  unfold runDecoder
  cases ulFamily ch with
  | xcch => exact (xcchDecBody_ends P s).mono fun _ ht => .of_codecTo ht
  | pdtch => exact (pdtchDecBody_ends P s).mono fun _ ht => .of_codecTo ht
  | tch =>
    cases x.modeUl.tchMode with
    | fr => exact hfr .fr
    | efr => exact hfr .efr
    | amr =>
      have hload : s.WritesWork { s with wamr := wamrOf x.modeUl x.ulFt x.ulCmr } := rfl
      exact (tchafsDecBody_ends P _ _).mono fun _ ht => hload.trans (.of_codecTo ht)
    | sign =>
      have hdec := hfr .fr
      dsimp only
      split
      · next hd =>
        rw [hd] at hdec
        exact check (fun _ => done hdec.of_done) fun _ => raised hdec.of_done
      · next hd => rw [hd] at hdec; exact hdec
      · exact refused _
  | none | fcch | sch | rach | unsupp => exact done (.refl s)

theorem completeUl_ends_receives (P : Params) (tn : Tn) (ch : Chan) (nb : Nat) (x : ChanState)
    (s : State) : (completeUl P tn ch nb x s).Ends (State.Receives tn ch s) := by
  unfold completeUl
  extract_lets got part x1 s1
  have hs1 : State.Receives tn ch s s1 := by
    unfold s1
    split
    · exact (State.Receives.refl s).emit _
    · exact .refl s
  have hdec := (runDecoder_ends_writesWork P ch x1 (s1.setSoftE (x1.ulBuf.take (116 * nb)))).mono
    fun _ ht => (hs1.writesWork (u := s1.setSoftE _) rfl).writesWork ht
  split
  · next hd => rw [hd] at hdec; exact done ((hdec.of_done.emit _).setChan _)
  · next hd => rw [hd] at hdec; exact done ((hdec.of_raised.emit _).setChan _)
  · next hd => rw [hd] at hdec; exact done (hdec.of_raised.setChan _)
  · exact refused _

theorem assembleUl_ends_receives (P : Params) (tn : Tn) (ch : Chan) (bid : Fin 8) (f0 : Fn)
    (s : State) : (assembleUl P tn ch bid f0 s).Ends (State.Receives tn ch s) := by
  unfold assembleUl
  extract_lets nb x start s1 x1 t s2
  have hs1 : State.Receives tn ch s s1 := by
    unfold s1
    split
    · exact (State.Receives.refl s).emit _
    · exact .refl s
  have hs2 : State.Receives tn ch s s2 := (hs1.setChan x1).writesWork rfl
  exact check (fun _ => (completeUl_ends_receives P tn ch nb x1 s2).mono fun _ ht => hs2.trans ht)
    fun _ => done hs2

theorem allocAssemble_ends_receives (P : Params) (tn : Tn) (ch : Chan) (bid : Fin 8) (f0 : Fn)
    (s : State) : (allocAssemble P tn ch bid f0 s).Ends (State.Receives tn ch s) := by
  have hcount : State.Receives tn ch s { s with allocs := s.allocs + 1 } :=
    (State.Receives.refl s).countAllocs _
  refine check (fun _ => assembleUl_ends_receives P tn ch bid f0 s) fun _ => ?_
  rw [State.alloc_eq]
  cases P.allocOk s.allocs with
  | true =>
    exact (assembleUl_ends_receives P tn ch bid f0 _).mono fun _ ht => (hcount.setChan _).trans ht
  | false => exact raised hcount

theorem accessUl_ends_receives (P : Params) (tn : Tn) (ch : Chan) (s : State) :
    (accessUl P tn ch s).Ends (State.Receives tn ch s) := by
  unfold accessUl
  extract_lets s1
  have hs1 : State.Receives tn ch s s1 :=
    State.Receives.setChan (t := s.setSoftC _) (.of_writesWork rfl) _
  have hdec := (rachDecBody_ends P s.bsic s1).mono fun _ ht => hs1.writesWork (.of_codecTo ht)
  split
  · next hd => rw [hd] at hdec; exact done (hdec.of_done.emit _)
  · next hd => rw [hd] at hdec; exact done (hdec.of_raised.setChan _)
  · exact refused _

theorem Cmd.scratched_ends_receives {tn : Tn} {ch : Chan} {s : State} {c : Cmd}
    (h : c.Ends (State.Receives tn ch s)) : c.scratched.Ends (State.Receives tn ch s) := by
  cases h with
  | done h => exact .done (h.writesWork rfl)
  | raised h => exact .raised h
  | refused r => exact .refused r

/-- A routed burst writes only its channel (R270 (3) to (8)). -/
theorem routeUl_ends_receives (P : Params) (l : Layout) (tn : Tn) (s : State) :
    (routeUl P l tn s).Ends (State.Receives tn (l.slot s.rxind.fn.toNat).ulChan s) := by
  refine check (fun _ => done (.refl s)) fun _ => check (fun _ => ?_) fun _ =>
    check (fun _ => done (.refl s)) fun _ => ?_
  · exact Cmd.scratched_ends_receives (accessUl_ends_receives P tn _ s)
  · exact Cmd.scratched_ends_receives (allocAssemble_ends_receives P tn _ _ _ s)

theorem accepted_of_badInd {r : RxInd} (h : badInd r = none) : r.Accepted := by
  unfold badInd at h
  split at h
  · cases h
  · next hfn =>
    split at h
    · cases h
    · split at h
      · cases h
      · next hlen hlevel =>
        obtain ⟨hlong, htwo⟩ := not_or.1 hlevel
        exact ⟨Nat.lt_of_not_le hfn, by omega, by simpa using htwo⟩

/-- What `RX.BURST` does to the state: it turns the burst away, or it writes the channel that the burst is
routed to. -/
inductive State.ReceivesBurst (P : Params) (s t : State) : Prop
  | turnedAway (h : s.WritesWork t)
  | routed (l : Layout) (ch : Chan) (bid : Fin 8) (hroute : s.RoutedTo P l ch bid)
      (h : State.Receives s.rxind.slot ch s t)

theorem rxBurstBody_ends_receivesBurst (P : Params) (s : State) :
    (rxBurstBody P s).Ends (s.ReceivesBurst P) := by
  have hkeep : s.ReceivesBurst P s := .turnedAway (.refl s)
  unfold rxBurstBody
  split
  · exact raised hkeep
  · next hgood =>
    split
    · exact done hkeep
    · next l hl =>
      exact (routeUl_ends_receives P l _ s).mono fun _ ht =>
        .routed l _ _ ⟨accepted_of_badInd hgood, hl, rfl, rfl⟩ ht

namespace State.ReceivesBurst

variable {P : Params} {s t : State} (h : s.ReceivesBurst P t)
include h

theorem raise (e : ErrCode) (info : Nat) : s.ReceivesBurst P (t.raise e info) := by
  cases h with
  | turnedAway h => exact .turnedAway (h.raise e info)
  | routed l ch bid hroute h => exact .routed l ch bid hroute (h.writesWork rfl)

theorem exists_receives : ∃ ch, State.Receives s.rxind.slot ch s t := by
  cases h with
  | turnedAway h => exact ⟨0, .of_writesWork h⟩
  | routed l ch bid hroute h => exact ⟨ch, h⟩

theorem chan_eq {k : Tn} {c : Chan} (hkc : ∀ l bid, ¬(s.RoutedTo P l c bid ∧ k = s.rxind.slot)) :
    t.chan k c = s.chan k c := by
  cases h with
  | turnedAway h => rw [h]; rfl
  | routed l ch bid hroute h =>
    refine h.others k c ?_
    rintro ⟨hk, rfl⟩
    exact hkc l bid ⟨hroute, hk⟩

end State.ReceivesBurst

/-! ### Transmit -/

/-- The encoder of a block writes no scheduler state, also where it loads `WAMR` (R282). -/
theorem runEncoder_ends_writesWork {P : Params} (hP : P.WF) (ch : Chan) (y : ChanState) (fn : Fn)
    (s : State) : (runEncoder P ch y fn s).Ends s.WritesWork := by
  have hfr (speech : Efr) : (tchfrEncBody P speech s).Ends s.WritesWork :=
    (tchfrEncBody_ends P speech s).mono fun _ ht => .of_codecTo ht
  unfold runEncoder
  cases dlFamily ch with
  | xcch => exact (xcchEncBody_ends s).mono fun _ ht => .of_codecTo ht
  | pdtch => exact (pdtchEncBody_ends s).mono fun _ ht => .of_codecTo ht
  | tch =>
    cases y.modeDl.tchMode with
    | sign | fr => exact hfr .fr
    | efr => exact hfr .efr
    | amr =>
      have hload : s.WritesWork { s with wamr := wamrOf y.modeDl y.dlFt y.dlCmr } := rfl
      exact (tchafsEncBody_ends hP _ _).mono fun _ ht => hload.trans (.of_codecTo ht)
  | none | fcch | sch | rach | unsupp => exact done (.refl s)

theorem dequeue_hostSideKept (P : Params) (tn : Tn) (ch : Chan) (mode : Mode) (s : State) :
    s.HostSideKept (dequeue P tn ch mode s).2 := by
  unfold dequeue
  split
  · exact .refl s
  · exact ⟨rfl, rfl, rfl, rfl, rfl, rfl⟩

theorem usable_hostSideKept (P : Params) (tn : Tn) (ch : Chan) (mode : Mode) (fn : Fn)
    (x : Option QElem) (s : State) : s.HostSideKept (usable P tn ch mode fn x s).2 := by
  unfold usable
  split
  · exact .refl s
  · split
    · exact .refl s
    · exact (State.HostSideKept.refl s).emit _

theorem offer_hostSideKept (P : Params) (tn : Tn) (ch : Chan) (fn : Fn) (s : State) :
    s.HostSideKept (s.offer P tn ch fn).2 :=
  (((State.HostSideKept.refl s).setChan tn ch _).trans (dequeue_hostSideKept P tn ch _ _)).trans
    (usable_hostSideKept P tn ch _ fn _ _)

theorem codeElement_ends_hostSideKept {P : Params} (hP : P.WF) (ch : Chan) (fn : Fn) (z : ChanState)
    (x : QElem) (v : State) : (codeElement P ch fn z x v).Ends v.HostSideKept := by
  have hload : v.HostSideKept (State.setPdu { v with allocs := v.allocs + 1 } x.bytes) :=
    ⟨rfl, rfl, rfl, rfl, rfl, rfl⟩
  exact (runEncoder_ends_writesWork hP ch z fn _).mono fun _ ht => hload.trans ht.hostSideKept

theorem blockCoded_hostSideKept (tn : Tn) (ch : Chan) (z : ChanState) {v : State} {c : Cmd}
    (h : c.Ends v.HostSideKept) : v.HostSideKept (blockCoded tn ch z v c).2 := by
  cases h with
  | done h => exact h.setChan _ _ _
  | raised h => exact h.setChan _ _ _
  | refused r => exact ⟨rfl, rfl, rfl, rfl, rfl, rfl⟩

theorem startBlock_hostSideKept {P : Params} (hP : P.WF) (tn : Tn) (ch : Chan) (fn : Fn) (s : State) :
    s.HostSideKept (startBlock P tn ch fn s).2 := by
  have hoffered := offer_hostSideKept P tn ch fn s
  rcases hoffer : s.offer P tn ch fn with ⟨_ | x, v⟩
  all_goals rw [hoffer] at hoffered
  · rwa [startBlock_of_none hoffer]
  · cases halloc : P.allocOk v.allocs with
    | false =>
      rw [startBlock_of_nomem hoffer halloc]
      exact hoffered.trans ⟨rfl, rfl, rfl, rfl, rfl, rfl⟩
    | true =>
      rw [startBlock_of_alloc hoffer halloc]
      exact hoffered.trans
        (blockCoded_hostSideKept tn ch _ (codeElement_ends_hostSideKept hP ch fn _ x v))

theorem sendBurst_hostSideKept (P : Params) (tn : Tn) (ch : Chan) (bid : Fin 8) (fn : Fn) (s : State) :
    s.HostSideKept (sendBurst P tn ch bid fn s) := by
  unfold sendBurst
  extract_lets y t
  have ht : s.HostSideKept t := by
    unfold t
    split
    · exact (State.HostSideKept.refl s).emit _
    · exact .refl s
  split
  · exact ht.setChan _ _ _
  · exact ht

theorem blockDl_hostSideKept {P : Params} (hP : P.WF) (tn : Tn) (ch : Chan) (bid : Fin 8) (fn : Fn)
    (s : State) : s.HostSideKept (blockDl P tn ch bid fn s).2 := by
  have hstart : s.HostSideKept (if bid = 0 then startBlock P tn ch fn s else (false, s)).2 := by
    split
    · exact startBlock_hostSideKept hP tn ch fn s
    · exact .refl s
  unfold blockDl
  split
  · exact .refl s
  · split
    · next hd => rw [hd] at hstart; exact hstart
    · next hd => rw [hd] at hstart; exact hstart.trans (sendBurst_hostSideKept P tn ch bid fn _)

theorem schDl_hostSideKept (P : Params) (tn : Tn) (fn : Fn) (s : State) :
    s.HostSideKept (schDl P tn fn s) := by
  have hload : s.WritesWork (s.setPdu (schPdu P fn s.bsic)) := rfl
  have henc := (schEncBody_ends (s.setPdu (schPdu P fn s.bsic))).mono fun _ ht =>
    (hload.trans (.of_codecTo ht)).hostSideKept
  unfold schDl
  split
  · next hd => rw [hd] at henc; exact henc.of_done.emit _
  · next hd => rw [hd] at henc; exact henc.of_raised
  · exact .refl s

theorem dlSlot_hostSideKept {P : Params} (hP : P.WF) (fn : Nat) (s : State) (tn : Tn) :
    s.HostSideKept (dlSlot P fn s tn).2 := by
  unfold dlSlot
  split
  · exact .refl s
  · next l _ =>
    dsimp only
    cases dlFamily (l.slot fn).dlChan with
    | fcch => exact (State.HostSideKept.refl s).emit _
    | sch => exact schDl_hostSideKept P tn _ s
    | xcch | pdtch | tch => exact blockDl_hostSideKept hP tn _ _ _ s
    | none | rach | unsupp => exact .refl s

theorem transmit_hostSideKept {P : Params} (hP : P.WF) (fn : Nat) (tns : List Tn) (failed : Nat)
    (s : State) : s.HostSideKept (transmit P fn tns failed s).2 := by
  induction tns generalizing failed s with
  | nil => exact .refl s
  | cons tn tns ih =>
    have hslot := dlSlot_hostSideKept hP fn s tn
    unfold transmit
    split
    · next hd => rw [hd] at hslot; exact hslot.trans (ih _ _)
    · next hd => rw [hd] at hslot; exact hslot.trans (ih _ _)

theorem runTick_hostSideKept {P : Params} (hP : P.WF) (fn : Fn) (s : State) :
    s.HostSideKept (runTick P fn s).2 := by
  have hrts : s.HostSideKept (allTn.foldl (rtsSlot P fn.toNat) { s with fn := fn, fnValid := true }) := by
    rw [foldl_rtsSlot_eq]
    exact ⟨rfl, rfl, rfl, rfl, rfl, rfl⟩
  exact hrts.trans (transmit_hostSideKept hP _ _ _ _)

theorem tickBody_ends_hostSideKept {P : Params} (hP : P.WF) (fn : Fn) (s : State) :
    (tickBody P fn s).Ends s.HostSideKept := by
  have hrun := runTick_hostSideKept hP fn s
  have hscratch (u : State) : u.HostSideKept u.scratch := ⟨rfl, rfl, rfl, rfl, rfl, rfl⟩
  refine check (fun _ => refused _) fun _ => ?_
  split
  · next hd => rw [hd] at hrun; exact done (hrun.trans (hscratch _))
  · next hd => rw [hd] at hrun; exact raised (hrun.trans (hscratch _))

/-! ### Each kind of command -/

theorem writesWork_of_exec {i : Instr} {s t : State} (hi : isCodecCommand i = true)
    (h : exec i s = .next t) : s.WritesWork t := by
  rw [exec_eq_execIn] at h
  obtain ⟨u, e, info, hu, rfl⟩ := (bodyIn_ends_writesWork Config.model.wf hi s).finish h
  exact hu.raise e info

theorem controlsSlot_of_exec {i : Instr} {tn : Tn} {s t : State} (hi : namedSlot i = some tn)
    (h : exec i s = .next t) : State.ControlsSlot tn s t := by
  rw [exec_eq_execIn] at h
  obtain ⟨u, e, info, hu, rfl⟩ := (bodyIn_ends_controlsSlot Config.inst hi s).finish h
  exact hu.raise e info

theorem receivesBurst_of_exec {s t : State} (h : exec .rxBurst s = .next t) :
    s.ReceivesBurst Config.inst t := by
  obtain ⟨u, e, info, hu, rfl⟩ := (rxBurstBody_ends_receivesBurst Config.inst s).finish h
  exact hu.raise e info

theorem hostSideKept_of_tick {fn : Fn} {s t : State} (h : exec (.tick fn) s = .next t) :
    s.HostSideKept t := by
  obtain ⟨u, e, info, hu, rfl⟩ := (tickBody_ends_hostSideKept Config.model.wf fn s).finish h
  exact hu.raise e info

/-- No command writes what only the host writes (20_memory.md R76). -/
theorem hostSideKept_of_exec {i : Instr} {s t : State} (h : exec i s = .next t) :
    s.HostSideKept t := by
  cases i with
  | schedInit | setBsic =>
    cases h
    exact ⟨rfl, rfl, rfl, rfl, rfl, rfl⟩
  | setPchan | chAct | chDeact | setMode | setCipher | pduEnq | setAtt =>
    exact (controlsSlot_of_exec rfl h).hostSideKept
  | tick fn => exact hostSideKept_of_tick h
  | rxBurst =>
    obtain ⟨ch, hreceives⟩ := (receivesBurst_of_exec h).exists_receives
    exact hreceives.hostSideKept
  | _ => exact (writesWork_of_exec rfl h).hostSideKept

end Sys2Proof.Machine

namespace Sys2Proof.Proofs

open Sys2Proof.Machine

/-- Settles O53: each kind of command keeps the relation that says what it may write. -/
theorem footprints : Obligations.Footprints := by
  unfold Obligations.Footprints
  intro i s t h
  refine ⟨?host, fun hi => (writesWork_of_exec hi h).scheduler_eq, fun tn hi => ?control, ?receive⟩
  case host =>
    obtain ⟨hprm, hrxind, htn, hch, hhost, hread⟩ := hostSideKept_of_exec h
    exact ⟨hprm, hrxind, htn, hch, hhost, hread⟩
  case control =>
    have hslot := controlsSlot_of_exec hi h
    obtain ⟨hfn, hvalid, hbsic, hevq, hmem, hres, hwamr⟩ := hslot.rest_eq
    exact ⟨hfn, hvalid, hbsic, hevq, hmem, hres, hwamr, fun k hk =>
      ⟨hslot.ts k hk, fun ch => ⟨hslot.chan k ch hk, hslot.queue k ch hk⟩⟩⟩
  case receive =>
    rintro rfl
    have hburst := receivesBurst_of_exec h
    obtain ⟨ch, hreceives⟩ := hburst.exists_receives
    obtain ⟨hfn, hvalid, hbsic, hts, hq⟩ := hreceives.rest_eq
    exact ⟨hfn, hvalid, hbsic, hts, hq, hreceives.evq, fun k c hkc => hburst.chan_eq hkc⟩

end Sys2Proof.Proofs
end

