-- ==== Sys2Proof/Proofs/WordFields.lean ====
section
/-! The command word as its fields (30_encoding.md R91), and the operands that a byte carries (R93): each
selector reads exactly the codes that the encoder writes. -/

namespace Sys2Proof

/-! ### A word is its fields (R91) -/

/-- A field of a field. -/
theorem extractLsb'_extractLsb' {v n j m : Nat} (w : BitVec v) (i : Nat) (h : j + m ≤ n) :
    (w.extractLsb' i n).extractLsb' j m = w.extractLsb' (i + j) m := by
  ext k hk
  have hjk : j + k < n := by omega
  simp [hjk, Nat.add_assoc]

/-- A field that is two parts side by side. -/
theorem extractLsb'_eq_append_iff {v m n : Nat} (w : BitVec v) (i : Nat) (x : BitVec m) (y : BitVec n) :
    w.extractLsb' i (m + n) = x ++ y ↔ w.extractLsb' (i + n) m = x ∧ w.extractLsb' i n = y := by
  constructor
  · intro h
    have hx := congrArg (BitVec.extractLsb' n m) h
    have hy := congrArg (BitVec.extractLsb' 0 n) h
    rw [BitVec.extractLsb'_append_eq_left, extractLsb'_extractLsb' w i (by omega)] at hx
    rw [BitVec.extractLsb'_append_eq_right, extractLsb'_extractLsb' w i (by omega)] at hy
    exact ⟨hx, hy⟩
  · rintro ⟨rfl, rfl⟩
    exact (BitVec.extractLsb'_append_extractLsb'_eq_extractLsb' rfl).symm

/-- The whole word as a field of itself. -/
theorem word_eq_iff (v w : Word) : v = w ↔ w.extractLsb' 0 32 = v := by
  rw [BitVec.extractLsb'_eq_self, eq_comm]

/-- A word of format N is its opcode, `a` and `n`. -/
theorem wordN_eq_iff {op a : Byte} {n : BitVec 16} {w : Word} :
    wordN op a n = w ↔ w.op = op ∧ w.a = a ∧ w.n = n :=
  calc wordN op a n = w
    _ ↔ w.extractLsb' 0 32 = wordN op a n := word_eq_iff _ w
    _ ↔ w.extractLsb' 16 16 = op ++ a ∧ w.n = n := extractLsb'_eq_append_iff w 0 (op ++ a) n
    _ ↔ (w.op = op ∧ w.a = a) ∧ w.n = n := and_congr_left' (extractLsb'_eq_append_iff w 16 op a)
    _ ↔ _ := and_assoc

/-- A word of formats Z, A, T, P and V is its opcode, `a`, `b` and `c`. -/
theorem wordABC_eq_iff {op a b c : Byte} {w : Word} :
    wordABC op a b c = w ↔ w.op = op ∧ w.a = a ∧ w.b = b ∧ w.c = c :=
  calc wordABC op a b c = w
    _ ↔ w.extractLsb' 0 32 = wordABC op a b c := word_eq_iff _ w
    _ ↔ w.extractLsb' 8 24 = op ++ a ++ b ∧ w.c = c := extractLsb'_eq_append_iff w 0 (op ++ a ++ b) c
    _ ↔ (w.extractLsb' 16 16 = op ++ a ∧ w.b = b) ∧ w.c = c :=
      and_congr_left' (extractLsb'_eq_append_iff w 8 (op ++ a) b)
    _ ↔ ((w.op = op ∧ w.a = a) ∧ w.b = b) ∧ w.c = c :=
      and_congr_left' (and_congr_left' (extractLsb'_eq_append_iff w 16 op a))
    _ ↔ _ := by rw [and_assoc, and_assoc]

/-- A word of format F is its opcode, two bits 0 and `fn`. -/
theorem wordF_eq_iff {op : Byte} {fn : Fn} {w : Word} :
    (op ++ 0#2) ++ fn = w ↔ w.op = op ∧ w.extractLsb' 22 2 = 0 ∧ w.fn = fn :=
  calc (op ++ 0#2) ++ fn = w
    _ ↔ w.extractLsb' 0 32 = (op ++ 0#2) ++ fn := word_eq_iff _ w
    _ ↔ w.extractLsb' 22 10 = op ++ 0#2 ∧ w.fn = fn := extractLsb'_eq_append_iff w 0 (op ++ 0#2) fn
    _ ↔ (w.op = op ∧ w.extractLsb' 22 2 = 0) ∧ w.fn = fn :=
      and_congr_left' (extractLsb'_eq_append_iff w 22 op 0#2)
    _ ↔ _ := and_assoc

theorem Word.n_eq_zero_iff (w : Word) : w.n = 0 ↔ w.b = 0 ∧ w.c = 0 :=
  extractLsb'_eq_append_iff w 0 0#8 0#8

theorem Word.abc_eq_zero_iff (w : Word) : w.extractLsb' 0 24 = 0 ↔ w.a = 0 ∧ w.b = 0 ∧ w.c = 0 := by
  rw [← w.n_eq_zero_iff]
  exact extractLsb'_eq_append_iff w 0 0#8 0#16

/-! ### Numbers in a byte (R93) -/

/-- The upper bits of a byte are 0 when its number needs only the lower ones. -/
theorem Byte.upper_eq_zero_iff (v : Byte) {k m : Nat} (hk : k + m = 8) :
    v.extractLsb' k m = 0 ↔ v.toNat < 2 ^ k := by
  have hlt : v.toNat / 2 ^ k < 2 ^ m :=
    Nat.div_lt_of_lt_mul (by rw [← Nat.pow_add, hk]; exact v.isLt)
  rw [← BitVec.toNat_inj, BitVec.extractLsb'_toNat, Nat.shiftRight_eq_div_pow, Nat.mod_eq_of_lt hlt]
  exact Nat.div_eq_zero_iff_lt (Nat.two_pow_pos k)

/-- A number in the lower bits of a byte whose upper bits are 0. -/
theorem zeroExtend_eq_iff {k m : Nat} (hk : k + m = 8) (x : BitVec k) (v : Byte) :
    x.zeroExtend 8 = v ↔ v.extractLsb' k m = 0 ∧ v.extractLsb' 0 k = x := by
  have hx : x.toNat < 2 ^ k := x.isLt
  have hpow : 2 ^ k ≤ 2 ^ 8 := Nat.pow_le_pow_right (by decide) (by omega)
  rw [Byte.upper_eq_zero_iff v hk, ← BitVec.toNat_inj, ← BitVec.toNat_inj, BitVec.extractLsb'_toNat,
    BitVec.toNat_setWidth, Nat.mod_eq_of_lt (by omega), Nat.shiftRight_zero]
  constructor
  · intro h
    exact ⟨by omega, by rw [← h, Nat.mod_eq_of_lt hx]⟩
  · rintro ⟨hv, h⟩
    rw [← h, Nat.mod_eq_of_lt hv]

theorem byte_ofNat_eq_iff {k : Nat} (hk : k < 256) (v : Byte) : BitVec.ofNat 8 k = v ↔ v.toNat = k := by
  rw [← BitVec.toNat_inj, BitVec.toNat_ofNat, Nat.mod_eq_of_lt hk, eq_comm]

theorem tnByte_eq_iff (tn : Tn) (w : Word) :
    tnByte tn = w.a ↔ w.a.extractLsb' 3 5 = 0 ∧ tnOf w = tn := by
  have htn : tnOf w = tn ↔ w.a.toNat % 8 = tn.val := Fin.ext_iff
  rw [Byte.upper_eq_zero_iff _ rfl, htn, tnByte, byte_ofNat_eq_iff (by omega)]
  omega

theorem chanOf_eq_ok_iff (w : Word) (ch : Chan) : chanOf w = .ok ch ↔ w.b.toNat % 64 = ch.val := by
  have hlow : (w.b.extractLsb' 0 6).toNat = w.b.toNat % 64 := rfl
  unfold chanOf
  split
  · exact (Except.ok.injEq _ _).to_iff.trans Fin.ext_iff
  · next h => exact iff_of_false nofun (by omega)

theorem chanByte_eq_iff (ch : Chan) (w : Word) :
    chanByte ch = w.b ↔ w.b.extractLsb' 6 2 = 0 ∧ chanOf w = .ok ch := by
  rw [Byte.upper_eq_zero_iff _ rfl, chanOf_eq_ok_iff, chanByte, byte_ofNat_eq_iff (by omega)]
  omega

/-! ### Selectors (R93) -/

/-- The selector reads the codes that `code` writes, and no other byte. -/
def Selects {α : Type} (sel : Byte → Except Illegal α) (code : α → Byte) : Prop :=
  ∀ v x, sel v = .ok x ↔ code x = v

theorem CrcSel.selects : Selects CrcSel.ofCode CrcSel.code := fun v x => by
  cases x <;> grind [CrcSel.ofCode, CrcSel.code]

theorem ISel.selects : Selects ISel.ofCode ISel.code := fun v x => by
  cases x <;> grind [ISel.ofCode, ISel.code]

theorem NBursts.selects : Selects NBursts.ofCode NBursts.code := fun v x => by
  cases x <;> grind [NBursts.ofCode, NBursts.code]

theorem TSel.selects : Selects TSel.ofCode TSel.code := fun v x => by
  cases x <;> grind [TSel.ofCode, TSel.code]

theorem BitOrder.selects : Selects BitOrder.ofCode BitOrder.code := fun v x => by
  cases x <;> grind [BitOrder.ofCode, BitOrder.code]

theorem Efr.selects : Selects Efr.ofCode Efr.code := fun v x => by
  cases x <;> grind [Efr.ofCode, Efr.code]

theorem Phase.selects : Selects Phase.ofCode Phase.code := fun v x => by
  cases x <;> grind [Phase.ofCode, Phase.code]

theorem LinkSel.selects : Selects LinkSel.ofCode LinkSel.code := fun v x => by
  cases x <;> grind [LinkSel.ofCode, LinkSel.code]

theorem Dir.selects : Selects Dir.ofCode Dir.code := fun v x => by
  cases x <;> grind [Dir.ofCode, Dir.code]

theorem entryOf_selects : Selects entryOf entryByte := fun v e => by
  rw [entryByte, byte_ofNat_eq_iff (by omega)]
  unfold entryOf
  split
  · rw [Except.ok.injEq, Fin.ext_iff]
  · next h => exact iff_of_false nofun (by omega)

theorem bsicOf_selects : Selects bsicOf (BitVec.zeroExtend 8) := fun v x => by
  rw [zeroExtend_eq_iff (m := 2) rfl, Byte.upper_eq_zero_iff v rfl]
  unfold bsicOf
  split
  · next h => exact (Except.ok.injEq _ _).to_iff.trans (and_iff_right h).symm
  · next h => exact iff_of_false nofun fun hv => h hv.1

theorem anyField_selects : Selects anyField id := fun v x => by
  rw [anyField, Except.ok.injEq, eq_comm, id]

theorem zeroField_selects : Selects zeroField fun _ => 0 := fun v _ => by
  unfold zeroField
  split
  · next h => exact iff_of_true rfl h.symm
  · next h => exact iff_of_false nofun fun hv => h hv.symm

end Sys2Proof
end

