-- ==== Sys2Proof/Proofs/Encoding.lean ====
section
/-! `decodeFormat` and `encode` are inverse to each other (30_encoding.md R92, R94, R96): each format reads
exactly the words that the encoder writes in it, and the opcode map leads each command to its own format. -/

namespace Sys2Proof

/-! ### Formats (R92)

A format reads a word of opcode `op` as a command exactly when the word carries that command's operands. -/

section Formats

variable {α : Type} {sel : Byte → Except Illegal α} {code : α → Byte} {w : Word} {op : Byte} {i : Instr}

theorem map_eq_ok_iff {β γ : Type} {r : Except Illegal β} {f : β → γ} {y : γ} :
    r.map f = .ok y ↔ ∃ x, r = .ok x ∧ f x = y := by
  cases r <;> simp [Except.map]

theorem formatZ_eq_ok_iff (hop : w.op = op) {j : Instr} :
    formatZ w j = .ok i ↔ wordABC op 0 0 0 = w ∧ j = i := by
  rw [wordABC_eq_iff, ← w.abc_eq_zero_iff, and_iff_right hop]
  unfold formatZ
  split
  · next h => rw [Except.ok.injEq, and_iff_right h]
  · next h => exact iff_of_false nofun fun hw => h hw.1

theorem formatA_eq_ok_iff (hs : Selects sel code) (hop : w.op = op) {mk : α → Instr} :
    formatA w sel mk = .ok i ↔ ∃ x, wordABC op (code x) 0 0 = w ∧ mk x = i := by
  simp only [wordABC_eq_iff, ← w.n_eq_zero_iff, and_iff_right hop, eq_comm (a := w.a), ← hs w.a]
  unfold formatA
  split
  · next h => exact iff_of_false nofun fun ⟨_, hw, _⟩ => h hw.2
  · next h => simp [map_eq_ok_iff, not_not.1 h]

theorem formatN_eq_ok_iff (hs : Selects sel code) (hop : w.op = op) {mk : α → BitVec 16 → Instr} :
    formatN w sel mk = .ok i ↔ ∃ x n, wordN op (code x) n = w ∧ mk x n = i := by
  simp only [wordN_eq_iff, and_iff_right hop, eq_comm (a := w.a), ← hs w.a]
  simp [formatN, map_eq_ok_iff]

theorem formatT_eq_ok_iff (hs : Selects sel code) (hop : w.op = op) {mk : Tn → Chan → α → Instr} :
    formatT w sel mk = .ok i ↔
      ∃ tn ch x, wordABC op (tnByte tn) (chanByte ch) (code x) = w ∧ mk tn ch x = i := by
  simp only [wordABC_eq_iff, and_iff_right hop, eq_comm (a := w.a), eq_comm (a := w.b),
    eq_comm (a := w.c), ← hs w.c, tnByte_eq_iff, chanByte_eq_iff]
  unfold formatT
  split
  · next h => exact iff_of_false nofun fun ⟨_, _, _, ⟨⟨ha, _⟩, ⟨hb, _⟩, _⟩, _⟩ => h.elim (· ha) (· hb)
  · next h =>
    rw [not_or, not_not, not_not] at h
    obtain ⟨ha, hb⟩ := h
    cases hch : chanOf w with
    | error e => simp
    | ok ch => simp [map_eq_ok_iff, ha, hb]

theorem formatP_eq_ok_iff (hop : w.op = op) {mk : Tn → BitVec 4 → BitVec 3 → Instr} :
    formatP w mk = .ok i ↔
      ∃ tn b c, wordABC op (tnByte tn) (b.zeroExtend 8) (c.zeroExtend 8) = w ∧ mk tn b c = i := by
  simp only [wordABC_eq_iff, and_iff_right hop, eq_comm (a := w.a), eq_comm (a := w.b),
    eq_comm (a := w.c), tnByte_eq_iff, zeroExtend_eq_iff (k := 4) (m := 4) rfl,
    zeroExtend_eq_iff (k := 3) (m := 5) rfl]
  unfold formatP
  split
  · next h =>
    exact iff_of_false nofun fun ⟨_, _, _, ⟨⟨ha, _⟩, ⟨hb, _⟩, hc, _⟩, _⟩ =>
      h.elim (· ha) (·.elim (· hb) (· hc))
  · next h =>
    rw [not_or, not_or, not_not, not_not, not_not] at h
    obtain ⟨ha, hb, hc⟩ := h
    simp [ha, hb, hc]

theorem formatV_eq_ok_iff (hop : w.op = op) {mk : Tn → Byte → Instr} :
    formatV w mk = .ok i ↔ ∃ tn b, wordABC op (tnByte tn) b 0 = w ∧ mk tn b = i := by
  simp only [wordABC_eq_iff, and_iff_right hop, eq_comm (a := w.a), tnByte_eq_iff]
  unfold formatV
  split
  · next h => exact iff_of_false nofun fun ⟨_, _, ⟨⟨ha, _⟩, _, hc⟩, _⟩ => h.elim (· ha) (· hc)
  · next h =>
    rw [not_or, not_not, not_not] at h
    obtain ⟨ha, hc⟩ := h
    simp [ha, hc]

theorem formatF_eq_ok_iff (hop : w.op = op) {mk : Fn → Instr} :
    formatF w mk = .ok i ↔ ∃ fn, (op ++ 0#2) ++ fn = w ∧ mk fn = i := by
  simp only [wordF_eq_iff, and_iff_right hop]
  unfold formatF
  split
  · next h => exact iff_of_false nofun fun ⟨_, hw, _⟩ => h hw.1
  · next h => simp [not_not.1 h]

end Formats

/-! ### The opcode map (R94) -/

/-- The opcode field of a command's word. -/
theorem encode_op (i : Instr) : (encode i).op = BitVec.ofNat 8 (Laws.opcodeOf i) := by
  cases i with
  | crcGen | crcChk | uappZero | parLd | convDec | hSet | unpack | pack => exact Laws.wordN_op _ _ _
  | tick fn => exact Laws.wordF_op fn
  | _ => exact Laws.wordABC_op _ _ _ _

/-- The opcode map leads the word of a command to the command's own format. -/
theorem decodeFormat_encode (i : Instr) : decodeFormat (encode i) = .ok i := by
  have hop := encode_op i
  rw [decodeFormat, hop]
  cases i with
  | uappPar | xcchEnc | xcchDec | schEnc | schDec | pdtchEnc | pdtchDec | amrCfg | schedInit | rxBurst =>
    exact (formatZ_eq_ok_iff hop).2 ⟨rfl, rfl⟩
  | convEnc e | punc e | depunc e => exact (formatA_eq_ok_iff entryOf_selects hop).2 ⟨e, rfl, rfl⟩
  | intlv x | deintlv x => exact (formatA_eq_ok_iff ISel.selects hop).2 ⟨x, rfl, rfl⟩
  | map nb | unmap nb => exact (formatA_eq_ok_iff NBursts.selects hop).2 ⟨nb, rfl, rfl⟩
  | matchPat x => exact (formatA_eq_ok_iff TSel.selects hop).2 ⟨x, rfl, rfl⟩
  | rachEnc b | rachDec b | setBsic b => exact (formatA_eq_ok_iff bsicOf_selects hop).2 ⟨b, rfl, rfl⟩
  | tchfrEnc x | tchfrDec x => exact (formatA_eq_ok_iff Efr.selects hop).2 ⟨x, rfl, rfl⟩
  | tchafsEnc x | tchafsDec x => exact (formatA_eq_ok_iff Phase.selects hop).2 ⟨x, rfl, rfl⟩
  | crcGen x n | crcChk x n => exact (formatN_eq_ok_iff CrcSel.selects hop).2 ⟨x, n, rfl, rfl⟩
  | uappZero n => exact (formatN_eq_ok_iff zeroField_selects hop).2 ⟨(), n, rfl, rfl⟩
  | parLd r n => exact (formatN_eq_ok_iff anyField_selects hop).2 ⟨r, n, rfl, rfl⟩
  | convDec e kd => exact (formatN_eq_ok_iff entryOf_selects hop).2 ⟨e, kd, rfl, rfl⟩
  | hSet nb p => exact (formatN_eq_ok_iff NBursts.selects hop).2 ⟨nb, p, rfl, rfl⟩
  | unpack o n | pack o n => exact (formatN_eq_ok_iff BitOrder.selects hop).2 ⟨o, n, rfl, rfl⟩
  | chAct tn ch x | chDeact tn ch x =>
    exact (formatT_eq_ok_iff LinkSel.selects hop).2 ⟨tn, ch, x, rfl, rfl⟩
  | setMode tn ch => exact (formatT_eq_ok_iff zeroField_selects hop).2 ⟨tn, ch, (), rfl, rfl⟩
  | setCipher tn ch d => exact (formatT_eq_ok_iff Dir.selects hop).2 ⟨tn, ch, d, rfl, rfl⟩
  | pduEnq tn ch aux => exact (formatT_eq_ok_iff anyField_selects hop).2 ⟨tn, ch, aux, rfl, rfl⟩
  | setPchan tn b c => exact (formatP_eq_ok_iff hop).2 ⟨tn, b, c, rfl, rfl⟩
  | setAtt tn b => exact (formatV_eq_ok_iff hop).2 ⟨tn, b, rfl, rfl⟩
  | tick fn => exact (formatF_eq_ok_iff hop).2 ⟨fn, rfl, rfl⟩

/-- A word that a row of the opcode map reads is the word of that row's command; the cases carry the rows'
numbers in `decodeFormat`. -/
theorem encode_of_decodeFormat {w : Word} {i : Instr} (h : decodeFormat w = .ok i) : encode i = w := by
  unfold decodeFormat at h
  split at h
  -- Format Z
  case h_3 hop | h_18 hop | h_19 hop | h_22 hop | h_23 hop | h_24 hop | h_25 hop | h_26 hop | h_31 hop
      | h_40 hop =>
    obtain ⟨hw, rfl⟩ := (formatZ_eq_ok_iff hop).1 h
    exact hw
  -- Format A
  case h_6 hop | h_8 hop | h_9 hop =>
    obtain ⟨_, hw, rfl⟩ := (formatA_eq_ok_iff entryOf_selects hop).1 h
    exact hw
  case h_10 hop | h_11 hop =>
    obtain ⟨_, hw, rfl⟩ := (formatA_eq_ok_iff ISel.selects hop).1 h
    exact hw
  case h_12 hop | h_13 hop =>
    obtain ⟨_, hw, rfl⟩ := (formatA_eq_ok_iff NBursts.selects hop).1 h
    exact hw
  case h_17 hop =>
    obtain ⟨_, hw, rfl⟩ := (formatA_eq_ok_iff TSel.selects hop).1 h
    exact hw
  case h_20 hop | h_21 hop | h_41 hop =>
    obtain ⟨_, hw, rfl⟩ := (formatA_eq_ok_iff bsicOf_selects hop).1 h
    exact hw
  case h_27 hop | h_28 hop =>
    obtain ⟨_, hw, rfl⟩ := (formatA_eq_ok_iff Efr.selects hop).1 h
    exact hw
  case h_29 hop | h_30 hop =>
    obtain ⟨_, hw, rfl⟩ := (formatA_eq_ok_iff Phase.selects hop).1 h
    exact hw
  -- Format N
  case h_1 hop | h_2 hop =>
    obtain ⟨_, _, hw, rfl⟩ := (formatN_eq_ok_iff CrcSel.selects hop).1 h
    exact hw
  case h_4 hop =>
    obtain ⟨_, _, hw, rfl⟩ := (formatN_eq_ok_iff zeroField_selects hop).1 h
    exact hw
  case h_5 hop =>
    obtain ⟨_, _, hw, rfl⟩ := (formatN_eq_ok_iff anyField_selects hop).1 h
    exact hw
  case h_7 hop =>
    obtain ⟨_, _, hw, rfl⟩ := (formatN_eq_ok_iff entryOf_selects hop).1 h
    exact hw
  case h_14 hop =>
    obtain ⟨_, _, hw, rfl⟩ := (formatN_eq_ok_iff NBursts.selects hop).1 h
    exact hw
  case h_15 hop | h_16 hop =>
    obtain ⟨_, _, hw, rfl⟩ := (formatN_eq_ok_iff BitOrder.selects hop).1 h
    exact hw
  -- Format T
  case h_33 hop | h_34 hop =>
    obtain ⟨_, _, _, hw, rfl⟩ := (formatT_eq_ok_iff LinkSel.selects hop).1 h
    exact hw
  case h_35 hop =>
    obtain ⟨_, _, _, hw, rfl⟩ := (formatT_eq_ok_iff zeroField_selects hop).1 h
    exact hw
  case h_36 hop =>
    obtain ⟨_, _, _, hw, rfl⟩ := (formatT_eq_ok_iff Dir.selects hop).1 h
    exact hw
  case h_37 hop =>
    obtain ⟨_, _, _, hw, rfl⟩ := (formatT_eq_ok_iff anyField_selects hop).1 h
    exact hw
  -- Format P
  case h_32 hop =>
    obtain ⟨_, _, _, hw, rfl⟩ := (formatP_eq_ok_iff hop).1 h
    exact hw
  -- Format V
  case h_38 hop =>
    obtain ⟨_, _, hw, rfl⟩ := (formatV_eq_ok_iff hop).1 h
    exact hw
  -- Format F
  case h_39 hop =>
    obtain ⟨_, hw, rfl⟩ := (formatF_eq_ok_iff hop).1 h
    exact hw
  -- An opcode outside the map
  case h_42 => cases h

theorem decodeFormat_eq_ok_iff {w : Word} {i : Instr} : decodeFormat w = .ok i ↔ encode i = w :=
  ⟨encode_of_decodeFormat, fun h => h ▸ decodeFormat_encode i⟩

/-- The legal words are those of the well-formed commands (R96). -/
theorem decode_eq_ok_iff {w : Word} {i : Instr} : decode w = .ok i ↔ i.WellFormed ∧ encode i = w := by
  rw [← decodeFormat_eq_ok_iff]
  constructor
  · intro h
    refine ⟨Machine.wellFormed_of_decode h, ?_⟩
    unfold decode at h
    split at h
    · cases h
    · next j hj =>
      split at h
      · rw [hj, h]
      · cases h
  · rintro ⟨hwf, hi⟩
    rw [decode, hi]
    exact if_pos hwf

end Sys2Proof

namespace Sys2Proof.Proofs

/-- Settles O1: the word of a command is read by the command's own format. -/
theorem decodeOfEncode : Obligations.DecodeOfEncode :=
  fun _ hwf => decode_eq_ok_iff.2 ⟨hwf, rfl⟩

/-- Settles O2: the must-be-zero bits and the selectors of its format leave a legal word no other bits than
those of its command's word. -/
theorem encodeOfDecode : Obligations.EncodeOfDecode :=
  fun _ _ h => decode_eq_ok_iff.1 h

/-- Settles O3: a legal word is the encoder's word of its command; an illegal one fails at the opcode map, at
the reserved bits or at an operand. -/
theorem decodedWords : Obligations.DecodedWords := by
  unfold Obligations.DecodedWords
  have hword (i : Instr) (hwf : i.WellFormed) : decode (encode i) = .ok i := decodeOfEncode i hwf
  refine ⟨hword (.crcGen .fire40 184) rfl, hword (.tick 2715647) rfl, hword (.setPchan 2 3 5) rfl,
    hword (.chAct 1 6 .all) rfl, hword (.setMode 1 6) rfl, hword (.setCipher 1 6 .dl) rfl,
    hword (.pduEnq 0 13 0) rfl, hword (.setBsic 0x15) rfl, ?_, ?_, ?_, ?_⟩
  · decide
  · decide
  · decide
  · decide

end Sys2Proof.Proofs
end

