-- ==== Sys2Proof/Proofs/IllegalCommands.lean ====
section
/-! Illegal commands (30_encoding.md R96): nothing but `STAT` changes. -/

namespace Sys2Proof.Machine

theorem State.raise_illegal (s : State) (aux : BitVec 16) :
    s.raise .illegal aux.toNat = { s with stat := { code := 1, aux := aux } } := by
  rw [State.raise, BitVec.ofNat_toNat, BitVec.setWidth_eq]
  rfl

theorem illegal_finish (i : Instr) (s : State) :
    (illegal i s).finish = .next { s with stat := { code := 1, aux := (encode i).high } } :=
  congrArg Host.Outcome.next (s.raise_illegal _)

/-- An illegal word, whatever check it fails. -/
theorem command_of_decode_error {w : Word} {e : Illegal} (h : decode w = .error e) (s : State) :
    command w s = .next { s with stat := { code := 1, aux := w.high } } := by
  rw [command, h]
  exact congrArg Host.Outcome.next (s.raise_illegal _)

/-! ### Operands that the block's parameters do not define -/

section Undefined

variable {P : Params}

theorem convEncBody_undefined {e : Fin 16} (h : codeOf P e = none) (s : State) :
    convEncBody P e s = illegal (.convEnc e) s := by
  rw [convEncBody, h]

theorem convDecBody_undefined {e : Fin 16} (h : codeOf P e = none) (kd : BitVec 16) (s : State) :
    convDecBody P e kd.toNat s = illegal (.convDec e kd) s := by
  rw [convDecBody, h, BitVec.ofNat_toNat, BitVec.setWidth_eq]

theorem puncBody_undefined {e : Fin 16} (h : maskOf P e = none) (s : State) :
    puncBody P e s = illegal (.punc e) s := by
  rw [puncBody, h]

theorem depuncBody_undefined {e : Fin 16} (h : maskOf P e = none) (s : State) :
    depuncBody P e s = illegal (.depunc e) s := by
  rw [depuncBody, h]

theorem matchBody_undefined (h : P.definesAfsIc = false) (s : State) :
    matchBody P .afsic s = illegal (.matchPat .afsic) s :=
  if_pos ⟨rfl, h⟩

theorem setPchanBody_undefined {pchan : BitVec 4} (h0 : pchan ≠ 0) (h : npchan P ≤ pchan.toNat) (tn : Tn)
    (tsc : BitVec 3) (s : State) :
    setPchanBody P tn pchan tsc s = illegal (.setPchan tn pchan tsc) s :=
  if_pos ⟨h0, h⟩

/-- A command whose body rejects it as illegal. -/
theorem execIn_of_illegal {i : Instr} {s : State} (h : bodyIn P i s = illegal i s) :
    execIn P i s = .next { s with stat := { code := 1, aux := (encode i).high } } := by
  rw [execIn, h, illegal_finish]

end Undefined

end Sys2Proof.Machine

namespace Sys2Proof.Proofs

open Sys2Proof.Machine

/-- Settles O4: the port rejects the words that do not decode, the bodies the operands that the block's
parameters do not define. -/
theorem illegalCommands : Obligations.IllegalCommands :=
  ⟨fun _ _ s h => command_of_decode_error h s,
    fun _ _ s h => execIn_of_illegal (convEncBody_undefined h s),
    fun _ _ kd s h => execIn_of_illegal (convDecBody_undefined h kd s),
    fun _ _ s h => ⟨execIn_of_illegal (puncBody_undefined h s), execIn_of_illegal (depuncBody_undefined h s)⟩,
    fun _ s h => execIn_of_illegal (matchBody_undefined h s),
    fun _ tn _ tsc s h0 h => execIn_of_illegal (setPchanBody_undefined h0 h tn tsc s)⟩

end Sys2Proof.Proofs
end

