-- ==== Sys2Proof/Proofs/ChecksumLaws.lean ====
section
/-! The shift register of the checksum loses nothing (40_crc_unit.md R110): every `g(D)` of R111 has constant
term 1, so one clock can be undone. What differs before a common rest of the message differs at its end. -/

namespace Sys2Proof.Machine

/-! ### One clock of the register -/

section Clock

variable {r : Nat} (poly reg : BitVec r) (x : UBit)

theorem crcShift_getLsbD_zero (hr : 0 < r) :
    (crcShift poly reg x).getLsbD 0 = (x ^^ (reg.msb && poly.getLsbD 0)) := by
  cases x <;> cases hmsb : reg.msb <;> simp [crcShift, hmsb, hr]

theorem crcShift_getLsbD_succ {i : Nat} (hi : i + 1 < r) :
    (crcShift poly reg x).getLsbD (i + 1) = (reg.getLsbD i ^^ (reg.msb && poly.getLsbD (i + 1))) := by
  have hr : i < r := by omega
  cases x <;> cases hmsb : reg.msb <;> simp [crcShift, hmsb, hi, hr]

theorem crcShift_zero_false : crcShift poly 0 false = 0 := by
  simp [crcShift]

end Clock

/-- A register is its top bit and the bits below it. -/
theorem eq_of_msb_eq_of_getLsbD_eq {r : Nat} {reg reg' : BitVec r} (hmsb : reg.msb = reg'.msb)
    (hlow : ∀ i, i + 1 < r → reg.getLsbD i = reg'.getLsbD i) : reg = reg' := by
  refine BitVec.eq_of_getLsbD_eq fun i hi => ?_
  by_cases h : i + 1 < r
  · exact hlow i h
  · have htop : i = r - 1 := by omega
    rw [htop, ← BitVec.msb_eq_getLsbD_last, ← BitVec.msb_eq_getLsbD_last, hmsb]

section OddPolynomial

variable {r : Nat} {poly : BitVec r}

theorem pos_of_getLsbD_zero (hpoly : poly.getLsbD 0 = true) : 0 < r :=
  BitVec.lt_of_getLsbD hpoly

/-- With constant term 1 the lowest bit tells whether a 1 fell out, so the clock can be undone. -/
theorem crcShift_injective (hpoly : poly.getLsbD 0 = true) (x : UBit) {reg reg' : BitVec r}
    (h : crcShift poly reg x = crcShift poly reg' x) : reg = reg' := by
  have hr := pos_of_getLsbD_zero hpoly
  have hmsb : reg.msb = reg'.msb := by
    have h0 := congrArg (·.getLsbD 0) h
    simpa [crcShift_getLsbD_zero _ _ _ hr, hpoly] using h0
  refine eq_of_msb_eq_of_getLsbD_eq hmsb fun i hi => ?_
  have hsucc := congrArg (·.getLsbD (i + 1)) h
  simpa [crcShift_getLsbD_succ _ _ _ hi, hmsb] using hsucc

/-- The bit shifted in shows in the lowest bit. -/
theorem crcShift_bit_injective (hr : 0 < r) (reg : BitVec r) {x y : UBit}
    (h : crcShift poly reg x = crcShift poly reg y) : x = y := by
  have h0 := congrArg (·.getLsbD 0) h
  simpa [crcShift_getLsbD_zero _ _ _ hr] using h0

theorem foldl_crcShift_injective (hpoly : poly.getLsbD 0 = true) (d : List UBit) {reg reg' : BitVec r}
    (h : d.foldl (crcShift poly) reg = d.foldl (crcShift poly) reg') : reg = reg' := by
  induction d generalizing reg reg' with
  | nil => exact h
  | cons x xs ih => exact crcShift_injective hpoly x (ih h)

end OddPolynomial

theorem foldl_crcShift_zeros {r : Nat} (poly : BitVec r) (n : Nat) :
    (List.replicate n false).foldl (crcShift poly) 0 = 0 := by
  induction n with
  | zero => rfl
  | succ n ih => rw [List.replicate_succ, List.foldl_cons, crcShift_zero_false, ih]

/-! ### The configurations of R111 -/

/-- `D^0` is in every `g(D)`. -/
theorem crcPoly_getLsbD_zero (c : CrcSel) :
    (BitVec.ofNat (crcWidth c) (crcPoly c)).getLsbD 0 = true := by
  cases c <;> decide

theorem crcRegister_zeros (c : CrcSel) (n : Nat) : crcRegister c (List.replicate n false) = 0 := by
  rw [crcRegister, List.replicate_append_replicate, foldl_crcShift_zeros]

/-- Messages that differ in one bit leave different registers. -/
theorem bit_eq_of_crcRegister_eq (c : CrcSel) (before after : List UBit) {x y : UBit}
    (h : crcRegister c (before ++ x :: after) = crcRegister c (before ++ y :: after)) : x = y := by
  simp only [crcRegister, List.foldl_append, List.foldl_cons] at h
  have hpoly := crcPoly_getLsbD_zero c
  have hclock := foldl_crcShift_injective hpoly after (foldl_crcShift_injective hpoly _ h)
  exact crcShift_bit_injective (pos_of_getLsbD_zero hpoly) _ hclock

/-! ### The parity bits -/

/-- The parity shows every bit of the register. -/
theorem crcGen_eq_iff (c : CrcSel) (d d' : List UBit) :
    crcGen c d = crcGen c d' ↔ crcRegister c d = crcRegister c d' := by
  constructor
  · intro h
    refine BitVec.eq_of_getMsbD_eq fun i hi => ?_
    have hbit := List.map_eq_map_iff.1 h i (List.mem_range.2 hi)
    exact Bool.xor_left_inj.1 hbit
  · intro h
    rw [crcGen, crcGen, h]

/-- The parity of an all-zero message is the remainder pattern (R112 (c), (d)). -/
theorem crcGen_zeros (c : CrcSel) (n : Nat) :
    crcGen c (List.replicate n false) = List.replicate (crcWidth c) (crcRem c) := by
  simp [crcGen, crcRegister_zeros]

theorem crcChk_eq_true_iff (c : CrcSel) (d p : List UBit) : crcChk c d p = true ↔ crcGen c d = p :=
  decide_eq_true_iff

theorem crcChk_eq_false_iff (c : CrcSel) (d p : List UBit) : crcChk c d p = false ↔ crcGen c d ≠ p :=
  decide_eq_false_iff_not

/-! ### One wrong position -/

/-- A position that differs cuts both vectors into the same parts. -/
theorem DifferAt.exists_split {j : Nat} {x y : List UBit} (h : DifferAt j x y) :
    ∃ before b after, x = before ++ b :: after ∧ y = before ++ (!b) :: after := by
  obtain ⟨hj, rfl⟩ := h
  refine ⟨x.take j, x[j], x.drop (j + 1), ?_, ?_⟩
  · rw [List.getElem_cons_drop, List.take_append_drop]
  · rw [List.set_eq_take_append_cons_drop, if_pos hj, List.getD_eq_getElem _ _ hj]

theorem DifferAt.ne {j : Nat} {x y : List UBit} (h : DifferAt j x y) : x ≠ y := by
  obtain ⟨before, b, after, rfl, rfl⟩ := h.exists_split
  simp

/-- One wrong message bit changes the parity (R112 (b)). -/
theorem DifferAt.crcGen_ne {j : Nat} {d d' : List UBit} (h : DifferAt j d d') (c : CrcSel) :
    crcGen c d' ≠ crcGen c d := by
  obtain ⟨before, b, after, rfl, rfl⟩ := h.exists_split
  intro heq
  exact Bool.not_ne_self b (bit_eq_of_crcRegister_eq c before after ((crcGen_eq_iff c _ _).1 heq))

end Sys2Proof.Machine

namespace Sys2Proof.Proofs

open Sys2Proof.Machine

/-- Settles O11: a wrong message bit changes the parity because a clock of the register can be undone; zeros
never leave the zero register. -/
theorem crcLaws : Obligations.CrcLaws := by
  unfold Obligations.CrcLaws
  simp only [crcChk_eq_true_iff, crcChk_eq_false_iff]
  refine ⟨fun _ _ => trivial, ?message, ?parity, fun c => crcGen_zeros c 0, crcGen_zeros⟩
  case message =>
    rintro c d d' p j rfl hdiff
    exact hdiff.crcGen_ne c
  case parity =>
    rintro c d p p' j rfl hdiff
    exact hdiff.ne

end Sys2Proof.Proofs
end

