-- ==== Sys2Proof/Proofs/ChecksumUnit.lean ====
section
/-! The commands of the CRC unit (40_crc_unit.md R113 to R117): one equation for each outcome of a command. -/

namespace Sys2Proof.Machine

/-! ### `CRC.GEN` and `CRC.CHK` -/

section CrcGenChk

variable (c : CrcSel) {n : BitVec 16} {s : State}

theorem exec_crcGen (h : n.toNat ≤ s.mem.u.len) :
    exec (.crcGen c n) s = .next ((s.setPar (crcGen c (s.u.take n.toNat))).raise .none 0) :=
  congrArg Cmd.finish (if_neg (Nat.not_lt.2 h))

theorem exec_crcGen_short (h : s.mem.u.len < n.toNat) :
    exec (.crcGen c n) s = .next (s.raise .len n.toNat) :=
  congrArg Cmd.finish (if_pos h)

theorem exec_crcChk_len (h : s.mem.u.len < n.toNat ∨ s.mem.par.len ≠ crcWidth c) :
    exec (.crcChk c n) s = .next (s.raise .len n.toNat) :=
  congrArg Cmd.finish (if_pos h)

/-- Past the length checks `CRC.CHK` ends by the verdict. -/
theorem exec_crcChk (hn : n.toNat ≤ s.mem.u.len) (hpar : s.mem.par.len = crcWidth c) :
    exec (.crcChk c n) s = .next (if crcChk c (s.u.take n.toNat) s.par then s.raise .none 0
      else s.raise .badBlock c.code.toNat) := by
  have hlen : ¬(s.mem.u.len < n.toNat ∨ s.mem.par.len ≠ crcWidth c) :=
    not_or.2 ⟨Nat.not_lt.2 hn, not_not.2 hpar⟩
  refine (congrArg Cmd.finish (if_neg hlen)).trans ?_
  rw [apply_ite Cmd.finish, Cmd.finish_done, Cmd.finish_raised, apply_ite Host.Outcome.next]

/-- `CRC.GEN` of info bits that `U` holds (R113). -/
theorem crcGen_result (h : n.toNat ≤ s.mem.u.len) :
    ∃ t, exec (.crcGen c n) s = .next t ∧
      t.par = crcGen c (s.u.take n.toNat) ∧ t.mem.par.len = crcWidth c ∧
      t = { s with mem := { s.mem with par := t.mem.par }, free := t.free, stat := Stat.ok } :=
  ⟨_, exec_crcGen c h, State.setPar_par s _, crcGen_length c _, rfl⟩

theorem exec_crcChk_good (hn : n.toNat ≤ s.mem.u.len) (hpar : s.mem.par.len = crcWidth c)
    (h : crcGen c (s.u.take n.toNat) = s.par) : exec (.crcChk c n) s = .next (s.raise .none 0) := by
  rw [exec_crcChk c hn hpar, if_pos ((crcChk_eq_true_iff c _ _).2 h)]

theorem exec_crcChk_bad (hn : n.toNat ≤ s.mem.u.len) (hpar : s.mem.par.len = crcWidth c)
    (h : crcGen c (s.u.take n.toNat) ≠ s.par) :
    exec (.crcChk c n) s = .next (s.raise .badBlock c.code.toNat) := by
  rw [exec_crcChk c hn hpar, if_neg fun hchk => h ((crcChk_eq_true_iff c _ _).1 hchk)]

end CrcGenChk

/-! ### `UAPP.PAR` and `UAPP.ZERO` -/

/-- The state after bits were appended to the info bits, `STAT` aside. -/
theorem State.setU_append (s : State) (xs : List UBit) :
    (s.setU (s.u ++ xs)).u = s.u ++ xs ∧ (s.setU (s.u ++ xs)).mem.u.len = s.mem.u.len + xs.length := by
  refine ⟨State.setU_u s _, ?_⟩
  exact (List.length_append (as := s.u)).trans (by rw [State.u_length])

theorem exec_uappPar {s : State} (h : s.mem.u.len + s.mem.par.len ≤ 512) :
    exec .uappPar s =
      .next ((if s.mem.par.len = 0 then s else s.setU (s.u ++ s.par)).raise .none 0) := by
  refine (congrArg Cmd.finish (if_neg (Nat.not_lt.2 h))).trans ?_
  split <;> rfl

theorem exec_uappPar_long {s : State} (h : 512 < s.mem.u.len + s.mem.par.len) :
    exec .uappPar s = .next (s.raise .len (s.mem.u.len + s.mem.par.len)) :=
  congrArg Cmd.finish (if_pos h)

/-- `UAPP.PAR` of a parity that fits; an empty one leaves `U` as it is (R115). -/
theorem uappPar_result {s : State} (h : s.mem.u.len + s.mem.par.len ≤ 512) :
    ∃ t, exec .uappPar s = .next t ∧
      t.u = s.u ++ s.par ∧ t.mem.u.len = s.mem.u.len + s.mem.par.len ∧
      t = { s with mem := { s.mem with u := t.mem.u }, free := t.free, stat := Stat.ok } := by
  have hexec := exec_uappPar h
  by_cases hpar : s.mem.par.len = 0
  · rw [if_pos hpar] at hexec
    have hnil : s.par = [] := List.eq_nil_of_length_eq_zero (s.par_length.trans hpar)
    refine ⟨_, hexec, ?_, by rw [hpar]; rfl, rfl⟩
    rw [hnil, List.append_nil]
    rfl
  · rw [if_neg hpar] at hexec
    obtain ⟨hu, hlen⟩ := s.setU_append s.par
    exact ⟨_, hexec, hu, hlen.trans (by rw [State.par_length]), rfl⟩

theorem exec_uappZero {n : BitVec 16} {s : State} (h : s.mem.u.len + n.toNat ≤ 512) :
    exec (.uappZero n) s = .next ((s.setU (s.u ++ List.replicate n.toNat false)).raise .none 0) :=
  congrArg Cmd.finish (if_neg (Nat.not_lt.2 h))

theorem exec_uappZero_long {n : BitVec 16} {s : State} (h : 512 < s.mem.u.len + n.toNat) :
    exec (.uappZero n) s = .next (s.raise .len (s.mem.u.len + n.toNat)) :=
  congrArg Cmd.finish (if_pos h)

/-- `UAPP.ZERO` of zeros that fit (R116). -/
theorem uappZero_result {n : BitVec 16} {s : State} (h : s.mem.u.len + n.toNat ≤ 512) :
    ∃ t, exec (.uappZero n) s = .next t ∧
      t.u = s.u ++ List.replicate n.toNat false ∧ t.mem.u.len = s.mem.u.len + n.toNat ∧
      t = { s with mem := { s.mem with u := t.mem.u }, free := t.free, stat := Stat.ok } := by
  obtain ⟨hu, hlen⟩ := s.setU_append (List.replicate n.toNat false)
  exact ⟨_, exec_uappZero h, hu, hlen.trans (by rw [List.length_replicate]), rfl⟩

/-- `UAPP.ZERO` reads field `a` as its value set {0} (R116, R96). -/
theorem decode_uappZero_operand {w : Word} (hop : w.op = 0x04) (ha : w.a ≠ 0) :
    decode w = .error .operand := by
  have hformat : decodeFormat w = .error .operand := by
    rw [decodeFormat, hop]
    exact congrArg (Except.map fun _ => Instr.uappZero w.n) (if_neg ha)
  rw [decode, hformat]

/-! ### `PAR.LD` -/

theorem getElem?_slice {α : Type} (x : List α) (a : Nat) {n k : Nat} (hk : k < n) :
    (slice x a n)[k]? = x[a + k]? := by
  rw [slice, List.getElem?_take_of_lt hk, List.getElem?_drop]

theorem exec_parLd {r : Byte} {n : BitVec 16} {s : State} (h : n.toNat + r.toNat ≤ s.mem.u.len) :
    exec (.parLd r n) s = .next ((s.setPar (slice s.u n.toNat r.toNat)).raise .none 0) :=
  congrArg Cmd.finish (if_neg (Nat.not_lt.2 h))

theorem exec_parLd_short {r : Byte} {n : BitVec 16} {s : State} (h : s.mem.u.len < n.toNat + r.toNat) :
    exec (.parLd r n) s = .next (s.raise .len (n.toNat + r.toNat)) :=
  congrArg Cmd.finish (if_pos h)

/-- `PAR.LD` of info bits that `U` holds (R117). -/
theorem parLd_result {r : Byte} {n : BitVec 16} {s : State} (h : n.toNat + r.toNat ≤ s.mem.u.len) :
    ∃ t, exec (.parLd r n) s = .next t ∧ t.mem.par.len = r.toNat ∧
      (∀ k, k < r.toNat → t.par[k]? = s.u[n.toNat + k]?) ∧
      t = { s with mem := { s.mem with par := t.mem.par }, free := t.free, stat := Stat.ok } := by
  have hlen : n.toNat + r.toNat ≤ s.u.length := by rwa [State.u_length]
  refine ⟨_, exec_parLd h, slice_length _ _ _ hlen, fun k hk => ?_, rfl⟩
  exact (congrArg (·[k]?) (State.setPar_par _ _)).trans (getElem?_slice _ _ hk)

end Sys2Proof.Machine

namespace Sys2Proof.Proofs

open Sys2Proof.Machine

/-- Settles O8: one equation for each way the two commands end. -/
theorem crcGenAndCheck : Obligations.CrcGenAndCheck :=
  fun c _ _ => ⟨crcGen_result c, exec_crcGen_short c, exec_crcChk_good c, exec_crcChk_bad c,
    exec_crcChk_len c⟩

/-- Settles O9: each move has its result where the length fits, else its `E_LEN`. -/
theorem parityMoves : Obligations.ParityMoves :=
  ⟨fun _ h => uappPar_result h, fun _ h => exec_uappPar_long h, fun _ _ _ h => parLd_result h,
    fun _ _ _ h => exec_parLd_short h⟩

/-- Settles O10: the decoder rejects `a != 0`; `AUX` is the length whenever 16 bits hold it. -/
theorem uappZeroAppends : Obligations.UappZeroAppends := by
  unfold Obligations.UappZeroAppends
  refine ⟨fun _ => rfl, fun w s hop ha => command_of_decode_error (decode_uappZero_operand hop ha) s,
    fun n s h => uappZero_result h, fun n s h => ⟨_, exec_uappZero_long h, rfl, rfl, fun hfits => ?_⟩⟩
  exact (BitVec.toNat_ofNat _ _).trans (Nat.mod_eq_of_lt hfits)

end Sys2Proof.Proofs
end

