-- ==== Sys2Proof/Proofs/TrellisEncoder.lean ====
section
/-! The convolutional encoder (41_trellis_engine.md R122 to R124). The register of the model, a number, is the
past of R122's register sequence; flush steps are steps whose input is what the feedback gives. -/

namespace Sys2Proof.Machine

/-! ### Exclusive or over delays -/

/-- The exclusive or of the bits `f j` over the delays `taps`. -/
def xorOver (taps : List Nat) (f : Nat → Bool) : Bool := taps.foldl (fun acc j => acc ^^ f j) false

theorem tapXor_eq_xorOver (taps : List Nat) (w : Nat) : tapXor taps w = xorOver taps w.testBit := rfl

theorem tapsAt_eq_xorOver (taps : List Nat) (r : Nat → Bool) (k : Nat) :
    tapsAt taps r k = xorOver taps (past r k) := rfl

theorem xorOver_cons (j : Nat) (taps : List Nat) (f : Nat → Bool) :
    xorOver (j :: taps) f = (f j ^^ xorOver taps f) := by
  have hinit : ∀ (l : List Nat) (a b : Bool),
      l.foldl (fun acc i => acc ^^ f i) (a ^^ b) = (a ^^ l.foldl (fun acc i => acc ^^ f i) b) := by
    intro l
    induction l with
    | nil => exact fun _ _ => rfl
    | cons i is ih => intro a b; simp only [List.foldl_cons, Bool.xor_assoc, ih]
  rw [xorOver, xorOver, List.foldl_cons, Bool.xor_comm, hinit]

theorem xorOver_congr {taps : List Nat} {f g : Nat → Bool} (h : ∀ j ∈ taps, f j = g j) :
    xorOver taps f = xorOver taps g :=
  List.foldl_ext _ _ _ fun acc j hj => by rw [h j hj]

theorem xorOver_xor (taps : List Nat) (f g : Nat → Bool) :
    xorOver taps (fun j => f j ^^ g j) = (xorOver taps f ^^ xorOver taps g) := by
  induction taps with
  | nil => rfl
  | cons j taps ih =>
    simp only [xorOver_cons, ih, Bool.xor_assoc]
    rw [Bool.xor_left_comm (g j)]

theorem xorOver_zero (taps : List Nat) : xorOver taps (fun _ => false) = false := by
  induction taps with
  | nil => rfl
  | cons j taps ih => rw [xorOver_cons, ih]; rfl

/-- The delays other than 0 suffice when delay 0 contributes nothing. -/
theorem xorOver_filter {f : Nat → Bool} (h : f 0 = false) (taps : List Nat) :
    xorOver (taps.filter fun j => j ≠ 0) f = xorOver taps f := by
  induction taps with
  | nil => rfl
  | cons j taps ih =>
    by_cases hj : j = 0
    · simp [xorOver_cons, ← ih, hj, h]
    · simp [xorOver_cons, ← ih, hj]

/-- Delay 0, which stands once, taken out. -/
theorem xorOver_of_zero_mem {taps : List Nat} (hnodup : taps.Nodup) (h0 : 0 ∈ taps) (f : Nat → Bool) :
    xorOver taps f = (f 0 ^^ xorOver (taps.filter fun j => j ≠ 0) f) := by
  induction taps with
  | nil => cases h0
  | cons j taps ih =>
    obtain ⟨hj, hnodup⟩ := List.nodup_cons.1 hnodup
    by_cases hj0 : j = 0
    · subst hj0
      have hrest : taps.filter (fun j => j ≠ 0) = taps :=
        List.filter_eq_self.2 fun i hi => decide_eq_true fun h => hj (h ▸ hi)
      rw [xorOver_cons, List.filter_cons_of_neg (by simp), hrest]
    · have htaps : 0 ∈ taps := (List.mem_cons.1 h0).resolve_left (Ne.symm hj0)
      rw [List.filter_cons_of_pos (by simp [hj0]), xorOver_cons, xorOver_cons, ih hnodup htaps,
        Bool.xor_left_comm]

/-! ### One step -/

/-- The shape of a code, in propositions (R120). -/
theorem Code.wf_iff (c : Code) : c.wf = true ↔
    (1 ≤ c.n ∧ c.n ≤ 5 ∧ 2 ≤ c.k ∧ c.k ≤ 7) ∧
    (∀ g ∈ c.gens, g ≠ [] ∧ (∀ j ∈ g, j < c.k) ∧ g.Nodup) ∧
    (∀ j ∈ c.fb, j < c.k) ∧ 0 ∈ c.fb ∧ c.fb.Nodup := by
  simp [Code.wf, and_assoc]

@[simp] theorem xcchCode_wf : xcchCode.wf = true := by decide

theorem Code.window_testBit_zero (c : Code) (reg : Nat) (x : UBit) :
    (c.window reg x).testBit 0 = (x ^^ c.feedback reg) := by
  cases h : (x ^^ c.feedback reg) <;> simp [Code.window, Nat.testBit_zero, h]

theorem Code.window_testBit_succ (c : Code) (reg : Nat) (x : UBit) (j : Nat) :
    (c.window reg x).testBit (j + 1) = reg.testBit j := by
  have hdiv : c.window reg x / 2 = reg := by
    have := Bool.toNat_lt (x ^^ c.feedback reg)
    unfold Code.window
    omega
  rw [Nat.testBit_succ, hdiv]

theorem Code.shift_testBit (c : Code) (w i : Nat) :
    (c.shift w).testBit i = (decide (i < c.m) && w.testBit i) :=
  Nat.testBit_mod_two_pow w c.m i

theorem Code.shift_lt (c : Code) (w : Nat) : c.shift w < 2 ^ c.m := Nat.mod_lt _ (by positivity)

/-- The window of a step whose input is what the feedback gives: `r[k]` is 0. -/
theorem Code.window_feedback (c : Code) (reg : Nat) : c.window reg (c.feedback reg) = 2 * reg := by
  simp [Code.window]

theorem Code.outputs_length (c : Code) (w : Nat) : (c.outputs w).length = c.n := by
  simp [Code.outputs, Code.n]

/-! ### All the steps of an encoding -/

theorem Code.regAfter_append (c : Code) (reg : Nat) (u v : List UBit) :
    c.regAfter reg (u ++ v) = c.regAfter (c.regAfter reg u) v := by
  induction u generalizing reg with
  | nil => rfl
  | cons x xs ih => exact ih _

theorem Code.encodeFrom_append (c : Code) (reg : Nat) (u v : List UBit) :
    c.encodeFrom reg (u ++ v) = c.encodeFrom reg u ++ c.encodeFrom (c.regAfter reg u) v := by
  induction u generalizing reg with
  | nil => rfl
  | cons x xs ih => simp only [List.cons_append, Code.encodeFrom, ih, Code.regAfter, List.append_assoc]

/-- The inputs that keep `r[k]` at 0 for `steps` steps from register `reg` (R122). -/
def Code.flushInputs (c : Code) : Nat → Nat → List UBit
  | 0, _ => []
  | steps + 1, reg => c.feedback reg :: c.flushInputs steps (c.shift (2 * reg))

@[simp] theorem Code.flushInputs_length (c : Code) (steps reg : Nat) :
    (c.flushInputs steps reg).length = steps := by
  induction steps generalizing reg with
  | zero => rfl
  | succ n ih => simp [Code.flushInputs, ih]

theorem Code.flushFrom_eq_encodeFrom (c : Code) (steps reg : Nat) :
    c.flushFrom steps reg = c.encodeFrom reg (c.flushInputs steps reg) := by
  induction steps generalizing reg with
  | zero => rfl
  | succ n ih => rw [Code.flushFrom, Code.flushInputs, Code.encodeFrom, Code.window_feedback, ih]

/-- The inputs of all `T` steps of an encoding. -/
def Code.inputs (c : Code) (u : List UBit) : List UBit :=
  match c.term with
  | .none => u
  | .flush => u ++ c.flushInputs c.m (c.regAfter 0 u)

theorem Code.inputs_length (c : Code) (u : List UBit) : (c.inputs u).length = c.steps u.length := by
  unfold Code.inputs Code.steps
  cases c.term <;> simp

theorem convEnc_eq_encodeFrom (c : Code) (u : List UBit) :
    convEnc c u = c.encodeFrom 0 (c.inputs u) := by
  unfold convEnc Code.inputs
  cases c.term with
  | none => rfl
  | flush => simp only [Code.encodeFrom_append, Code.flushFrom_eq_encodeFrom]

/-- The coded bits of step `k`. -/
theorem Code.encodeFrom_getElem? (c : Code) (reg : Nat) {us : List UBit} {k i : Nat}
    (hk : k < us.length) (hi : i < c.n) :
    (c.encodeFrom reg us)[c.n * k + i]? =
      some (tapXor (c.gens.getD i []) (c.window (c.regAfter reg (us.take k)) (us.getD k false))) := by
  have hsplit : us = us.take k ++ us.getD k false :: us.drop (k + 1) := by
    rw [List.getD_eq_getElem _ _ hk, List.getElem_cons_drop, List.take_append_drop]
  have hbefore : (c.encodeFrom reg (us.take k)).length = c.n * k := by
    rw [encodeFrom_length, List.length_take, Nat.min_eq_left hk.le]
  conv_lhs => rw [hsplit, Code.encodeFrom_append, Code.encodeFrom]
  rw [List.getElem?_append_right (by omega), hbefore, Nat.add_sub_cancel_left,
    List.getElem?_append_left (by rwa [Code.outputs_length])]
  have hi' : i < c.gens.length := hi
  simp [Code.outputs, hi']

/-! ### The register sequence -/

/-- The register sequence of R122 for the inputs `us` of all steps. -/
def Code.regSeq (c : Code) (us : List UBit) (k : Nat) : UBit :=
  if k < us.length then us.getD k false ^^ c.feedback (c.regAfter 0 (us.take k)) else false

/-- The register before step `k` holds the past of the sequence. -/
theorem Code.regAfter_testBit (c : Code) {us : List UBit} {k i : Nat} (hk : k ≤ us.length)
    (hi : i < c.m) : (c.regAfter 0 (us.take k)).testBit i = past (c.regSeq us) k (i + 1) := by
  induction k generalizing i with
  | zero => simp [Code.regAfter, past]
  | succ k ih =>
    have hlast : us.take (k + 1) = us.take k ++ [us.getD k false] := by
      rw [List.getD_eq_getElem _ _ hk, List.take_append_getElem]
    rw [hlast, Code.regAfter_append]
    show (c.shift (c.window (c.regAfter 0 (us.take k)) (us.getD k false))).testBit i = _
    rw [Code.shift_testBit, decide_eq_true hi, Bool.true_and]
    cases i with
    | zero => rw [Code.window_testBit_zero]; simp [past, Code.regSeq, Nat.lt_of_succ_le hk]
    | succ i =>
      rw [Code.window_testBit_succ, ih (Nat.le_of_succ_le hk) (by omega)]
      simp [past]

/-- The window of step `k` holds `r[k]` and the past of the sequence. -/
theorem Code.window_testBit (c : Code) {us : List UBit} {k j : Nat} (hk : k < us.length) (hj : j ≤ c.m) :
    (c.window (c.regAfter 0 (us.take k)) (us.getD k false)).testBit j = past (c.regSeq us) k j := by
  cases j with
  | zero => rw [Code.window_testBit_zero]; simp [past, Code.regSeq, hk]
  | succ j => rw [Code.window_testBit_succ, c.regAfter_testBit hk.le hj]

/-- `f[k]` of R122. -/
theorem Code.feedback_eq_tapsAt {c : Code} (hc : c.wf = true) {us : List UBit} {k : Nat}
    (hk : k < us.length) : c.feedback (c.regAfter 0 (us.take k)) =
      tapsAt (c.fb.filter fun j => j ≠ 0) (c.regSeq us) k := by
  obtain ⟨-, -, hfb, -, -⟩ := c.wf_iff.1 hc
  rw [Code.feedback, tapXor_eq_xorOver, ← xorOver_filter (by simp), tapsAt_eq_xorOver]
  refine xorOver_congr fun j hj => ?_
  obtain ⟨hmem, hne⟩ := List.mem_filter.1 hj
  obtain ⟨j, rfl⟩ := Nat.exists_eq_succ_of_ne_zero (of_decide_eq_true hne)
  have hlt := hfb _ hmem
  rw [← c.regAfter_testBit hk.le (by unfold Code.m; omega), Nat.testBit_succ]
  simp

theorem Code.regSeq_eq {c : Code} (hc : c.wf = true) {us : List UBit} {k : Nat} (hk : k < us.length) :
    c.regSeq us k = (us.getD k false ^^ tapsAt (c.fb.filter fun j => j ≠ 0) (c.regSeq us) k) := by
  rw [← Code.feedback_eq_tapsAt hc hk, Code.regSeq, if_pos hk]

/-- The exclusive or over `fb` is the systematic bit (R122). -/
theorem Code.tapsAt_fb {c : Code} (hc : c.wf = true) {us : List UBit} {k : Nat} (hk : k < us.length) :
    tapsAt c.fb (c.regSeq us) k = us.getD k false := by
  obtain ⟨-, -, -, h0, hnodup⟩ := c.wf_iff.1 hc
  rw [tapsAt_eq_xorOver, xorOver_of_zero_mem hnodup h0, ← tapsAt_eq_xorOver]
  show (c.regSeq us k ^^ _) = _
  rw [Code.regSeq_eq hc hk, Bool.xor_assoc, Bool.xor_self, Bool.xor_false]

theorem Code.encodeFrom_getElem?_eq_tapsAt {c : Code} (hc : c.wf = true) {us : List UBit} {k i : Nat}
    (hk : k < us.length) (hi : i < c.n) :
    (c.encodeFrom 0 us)[c.n * k + i]? = some (tapsAt (c.gens.getD i []) (c.regSeq us) k) := by
  obtain ⟨⟨-, -, hk2, -⟩, hgens, -⟩ := c.wf_iff.1 hc
  have hi' : i < c.gens.length := hi
  rw [Code.encodeFrom_getElem? c 0 hk hi, tapXor_eq_xorOver, tapsAt_eq_xorOver]
  refine congrArg some (xorOver_congr fun j hj => c.window_testBit hk ?_)
  rw [List.getD_eq_getElem _ _ hi'] at hj
  obtain ⟨-, hlt, -⟩ := hgens _ (List.getElem_mem hi')
  have := hlt j hj
  unfold Code.m
  omega

theorem Code.inputs_getD (c : Code) {u : List UBit} {k : Nat} (hk : k < u.length) :
    (c.inputs u).getD k false = u.getD k false := by
  unfold Code.inputs
  cases c.term with
  | none => rfl
  | flush => exact List.getD_append _ _ _ _ hk

theorem Code.length_le_inputs (c : Code) (u : List UBit) : u.length ≤ (c.inputs u).length := by
  rw [Code.inputs_length]
  unfold Code.steps
  cases c.term <;> simp

theorem Code.flushInputs_getD (c : Code) {steps j : Nat} (reg : Nat) (hj : j < steps) :
    (c.flushInputs steps reg).getD j false =
      c.feedback (c.regAfter reg ((c.flushInputs steps reg).take j)) := by
  induction steps generalizing reg j with
  | zero => omega
  | succ n ih =>
    cases j with
    | zero => rfl
    | succ j =>
      simp only [Code.flushInputs, List.getD_cons_succ, List.take_succ_cons, Code.regAfter,
        Code.window_feedback]
      exact ih _ (by omega)

/-- In a flush step `r[k]` is 0 (R122). -/
theorem Code.regSeq_flush (c : Code) {u : List UBit} {k : Nat} (hk : u.length ≤ k) :
    c.regSeq (c.inputs u) k = false := by
  unfold Code.regSeq
  split
  · next hlt =>
    have hlen := c.inputs_length u
    unfold Code.inputs Code.steps at *
    cases hterm : c.term with
    | none => simp only [hterm] at hlt; omega
    | flush =>
      simp only [hterm, List.length_append, Code.flushInputs_length] at hlt ⊢
      rw [List.getD_append_right _ _ _ _ hk, List.take_append, List.take_of_length_le hk,
        Code.regAfter_append, ← Code.flushInputs_getD c _ (by omega), Bool.xor_self]
  · rfl

/-- The encoding is the one by the register sequence (R122). -/
theorem convEnc_encodesBy {c : Code} (hc : c.wf = true) (u : List UBit) :
    EncodesBy c u (convEnc c u) (c.regSeq (c.inputs u)) where
  input k hk := by
    rw [Code.regSeq_eq hc (hk.trans_le (c.length_le_inputs u)), c.inputs_getD hk]
  flush k hk := c.regSeq_flush hk
  length := convEnc_length c u
  output k i hk hi := by
    rw [convEnc_eq_encodeFrom]
    exact Code.encodeFrom_getElem?_eq_tapsAt hc (by rwa [Code.inputs_length]) hi

/-- The register of a non-recursive code is its input (R122). -/
theorem EncodesBy.eq_input {c : Code} {u out : List UBit} {r : Nat → Bool} (h : EncodesBy c u out r)
    (hfb : c.fb = [0]) {k : Nat} (hk : k < u.length) : r k = u.getD k false := by
  rw [h.input k hk, hfb]
  exact Bool.xor_false _

theorem EncodesBy.past_eq {u out : List UBit} {r : Nat → Bool} (h : EncodesBy xcchCode u out r) {k : Nat}
    (hk : k < u.length) (j : Nat) : past r k j = past (fun j => u.getD j false) k j := by
  unfold past
  split
  · exact h.eq_input rfl (by omega)
  · rfl

end Sys2Proof.Machine

namespace Sys2Proof.Proofs

open Sys2Proof.Machine

/-- Settles O12: the register sequence of the inputs of all steps, flush steps included. -/
theorem encoderRule : Obligations.EncoderRule := by
  unfold Obligations.EncoderRule
  refine ⟨fun c u hc => ⟨c.regSeq (c.inputs u), convEnc_encodesBy hc u, fun hfb k hk => ?nonRecursive,
    fun k hk => ?systematic⟩, fun u k hk => ⟨?first, ?second⟩⟩
  case nonRecursive => exact (convEnc_encodesBy hc u).eq_input hfb hk
  case systematic => rw [Code.tapsAt_fb hc (hk.trans_le (c.length_le_inputs u)), c.inputs_getD hk]
  all_goals
    have henc := convEnc_encodesBy xcchCode_wf u
    have hpast := henc.past_eq hk
  case first =>
    refine (henc.output k 0 hk (by decide)).trans ?_
    show some (((false ^^ past _ k 0) ^^ past _ k 3) ^^ past _ k 4) = _
    rw [hpast, hpast, hpast, Bool.false_xor]
    rfl
  case second =>
    refine (henc.output k 1 hk (by decide)).trans ?_
    show some ((((false ^^ past _ k 0) ^^ past _ k 1) ^^ past _ k 3) ^^ past _ k 4) = _
    rw [hpast, hpast, hpast, hpast, Bool.false_xor]
    rfl

end Sys2Proof.Proofs
end

