-- ==== Sys2Proof/Proofs/EncoderLaws.lean ====
section
/-! The laws of the convolutional encoder (41_trellis_engine.md R123) and `CONV.ENC` (R124). -/

namespace Sys2Proof.Machine

/-! ### Linearity (R123 (b)) -/

theorem xorBits_cons (x y : UBit) (xs ys : List UBit) :
    xorBits (x :: xs) (y :: ys) = (x ^^ y) :: xorBits xs ys := rfl

theorem xorBits_append {x y : List UBit} (h : x.length = y.length) (x' y' : List UBit) :
    xorBits (x ++ x') (y ++ y') = xorBits x y ++ xorBits x' y' :=
  List.zipWith_append h

/-- Words that differ have a position whose exclusive or is 1. -/
theorem true_mem_xorBits {x y : List UBit} (hlen : x.length = y.length) (hne : x ≠ y) :
    true ∈ xorBits x y := by
  induction x generalizing y with
  | nil => exact absurd (List.length_eq_zero_iff.1 hlen.symm).symm hne
  | cons b bs ih =>
    cases y with
    | nil => cases hlen
    | cons b' bs' =>
      rw [xorBits_cons]
      by_cases hb : b = b'
      · have hbs : bs ≠ bs' := fun h => hne (by rw [hb, h])
        exact List.mem_cons_of_mem _ (ih (Nat.succ.inj hlen) hbs)
      · have hxor : (b ^^ b') = true := bne_iff_ne.2 hb
        rw [hxor]
        exact List.mem_cons_self

section Linear

variable (c : Code) (a b : Nat)

theorem tapXor_xor (taps : List Nat) (v w : Nat) :
    tapXor taps (v ^^^ w) = (tapXor taps v ^^ tapXor taps w) := by
  simp only [tapXor_eq_xorOver, ← xorOver_xor, ← Nat.testBit_xor]

theorem Code.feedback_xor : c.feedback (a ^^^ b) = (c.feedback a ^^ c.feedback b) := by
  have hdouble : 2 * (a ^^^ b) = 2 * a ^^^ 2 * b := by
    simpa [Nat.shiftLeft_eq, Nat.mul_comm] using (Nat.shiftLeft_xor_distrib (a := a) (b := b) (i := 1))
  rw [Code.feedback, hdouble, tapXor_xor, Code.feedback, Code.feedback]

theorem Code.window_xor (x y : UBit) :
    c.window (a ^^^ b) (x ^^ y) = c.window a x ^^^ c.window b y := by
  refine Nat.eq_of_testBit_eq fun j => ?_
  rw [Nat.testBit_xor]
  cases j with
  | zero =>
    simp only [Code.window_testBit_zero, Code.feedback_xor, Bool.xor_assoc]
    rw [Bool.xor_left_comm y]
  | succ j => simp only [Code.window_testBit_succ, Nat.testBit_xor]

theorem Code.shift_xor (v w : Nat) : c.shift (v ^^^ w) = c.shift v ^^^ c.shift w :=
  Nat.xor_mod_two_pow

theorem Code.outputs_xor (v w : Nat) :
    c.outputs (v ^^^ w) = xorBits (c.outputs v) (c.outputs w) := by
  simp [Code.outputs, xorBits, tapXor_xor, List.zipWith_map, List.zipWith_self]

variable {a b}

theorem Code.regAfter_xor {u v : List UBit} (h : u.length = v.length) :
    c.regAfter (a ^^^ b) (xorBits u v) = c.regAfter a u ^^^ c.regAfter b v := by
  induction u generalizing v a b with
  | nil => rw [List.length_eq_zero_iff.1 h.symm]; rfl
  | cons x xs ih =>
    cases v with
    | nil => cases h
    | cons y ys =>
      rw [xorBits_cons, Code.regAfter, Code.window_xor, Code.shift_xor]
      exact ih (Nat.succ.inj h)

theorem Code.encodeFrom_xor {u v : List UBit} (h : u.length = v.length) :
    c.encodeFrom (a ^^^ b) (xorBits u v) = xorBits (c.encodeFrom a u) (c.encodeFrom b v) := by
  induction u generalizing v a b with
  | nil => rw [List.length_eq_zero_iff.1 h.symm]; rfl
  | cons x xs ih =>
    cases v with
    | nil => cases h
    | cons y ys =>
      rw [xorBits_cons, Code.encodeFrom, Code.window_xor, Code.shift_xor, ih (Nat.succ.inj h),
        Code.outputs_xor, Code.encodeFrom, Code.encodeFrom, xorBits_append]
      rw [Code.outputs_length, Code.outputs_length]

theorem Code.flushInputs_xor (steps : Nat) :
    c.flushInputs steps (a ^^^ b) = xorBits (c.flushInputs steps a) (c.flushInputs steps b) := by
  induction steps generalizing a b with
  | zero => rfl
  | succ n ih =>
    have hshift : c.shift (2 * (a ^^^ b)) = c.shift (2 * a) ^^^ c.shift (2 * b) := by
      rw [← c.window_feedback, Code.feedback_xor, Code.window_xor, Code.shift_xor,
        Code.window_feedback, Code.window_feedback]
    rw [Code.flushInputs, hshift, ih, Code.feedback_xor]
    rfl

theorem Code.inputs_xor {u v : List UBit} (h : u.length = v.length) :
    c.inputs (xorBits u v) = xorBits (c.inputs u) (c.inputs v) := by
  unfold Code.inputs
  cases c.term with
  | none => rfl
  | flush =>
    have hreg : c.regAfter 0 (xorBits u v) = c.regAfter 0 u ^^^ c.regAfter 0 v :=
      c.regAfter_xor (a := 0) (b := 0) h
    simp only [hreg, Code.flushInputs_xor, xorBits_append h]

theorem convEnc_xor {u v : List UBit} (h : u.length = v.length) :
    convEnc c (xorBits u v) = xorBits (convEnc c u) (convEnc c v) := by
  have hlen : (c.inputs u).length = (c.inputs v).length := by simp only [Code.inputs_length, h]
  simp only [convEnc_eq_encodeFrom, c.inputs_xor h]
  exact c.encodeFrom_xor (a := 0) (b := 0) hlen

end Linear

/-! ### Injectivity (R123 (c)) -/

/-- A generator that contains delay 0 shows the input of a step. -/
theorem Code.eq_of_tapXor_window_eq {c : Code} {g : List Nat} (hg : g.Nodup) (h0 : 0 ∈ g) {reg : Nat}
    {x y : UBit} (h : tapXor g (c.window reg x) = tapXor g (c.window reg y)) : x = y := by
  have hpast : xorOver (g.filter fun j => j ≠ 0) (c.window reg x).testBit =
      xorOver (g.filter fun j => j ≠ 0) (c.window reg y).testBit := by
    refine xorOver_congr fun j hj => ?_
    obtain ⟨j, rfl⟩ := Nat.exists_eq_succ_of_ne_zero (of_decide_eq_true (List.mem_filter.1 hj).2)
    rw [Code.window_testBit_succ, Code.window_testBit_succ]
  rw [tapXor_eq_xorOver, tapXor_eq_xorOver, xorOver_of_zero_mem hg h0, xorOver_of_zero_mem hg h0, hpast,
    Bool.xor_left_inj, Code.window_testBit_zero, Code.window_testBit_zero, Bool.xor_left_inj] at h
  exact h

theorem Code.encodeFrom_injective {c : Code} (hc : c.wf = true) (h0 : ∃ g ∈ c.gens, 0 ∈ g) {reg : Nat}
    {u v : List UBit} (hlen : u.length = v.length) (h : c.encodeFrom reg u = c.encodeFrom reg v) :
    u = v := by
  obtain ⟨g, hmem, hg0⟩ := h0
  obtain ⟨-, hgens, -⟩ := c.wf_iff.1 hc
  obtain ⟨-, -, hnodup⟩ := hgens g hmem
  induction u generalizing reg v with
  | nil => exact (List.length_eq_zero_iff.1 hlen.symm).symm
  | cons x xs ih =>
    cases v with
    | nil => cases hlen
    | cons y ys =>
      obtain ⟨hout, hrest⟩ := List.append_inj h (by rw [Code.outputs_length, Code.outputs_length])
      have hxy : x = y := Code.eq_of_tapXor_window_eq hnodup hg0 (List.map_eq_map_iff.1 hout g hmem)
      subst hxy
      rw [ih (Nat.succ.inj hlen) hrest]

theorem convEnc_injective {c : Code} (hc : c.wf = true) (h0 : ∃ g ∈ c.gens, 0 ∈ g) {u v : List UBit}
    (hlen : u.length = v.length) (h : convEnc c u = convEnc c v) : u = v := by
  rw [convEnc_eq_encodeFrom, convEnc_eq_encodeFrom] at h
  have hinputs := Code.encodeFrom_injective hc h0 (by simp only [Code.inputs_length, hlen]) h
  unfold Code.inputs at hinputs
  cases hterm : c.term with
  | none => simpa only [hterm] using hinputs
  | flush =>
    simp only [hterm] at hinputs
    exact (List.append_inj hinputs hlen).1

/-! ### Zeros (R123 (e)) -/

theorem tapXor_zero (taps : List Nat) : tapXor taps 0 = false := by
  rw [tapXor_eq_xorOver, xorOver_congr fun j _ => Nat.zero_testBit j, xorOver_zero]

theorem Code.window_zero (c : Code) : c.window 0 false = 0 := by
  simp [Code.window, Code.feedback, tapXor_zero]

theorem Code.shift_zero (c : Code) : c.shift 0 = 0 := Nat.zero_mod _

theorem Code.outputs_zero (c : Code) : c.outputs 0 = List.replicate c.n false := by
  simp [Code.outputs, tapXor_zero, Code.n]

theorem Code.flushInputs_zero (c : Code) (steps : Nat) :
    c.flushInputs steps 0 = List.replicate steps false := by
  induction steps with
  | zero => rfl
  | succ n ih => simp [Code.flushInputs, Code.shift_zero, ih, Code.feedback, tapXor_zero, List.replicate_succ]

theorem Code.regAfter_zeros (c : Code) (n : Nat) : c.regAfter 0 (List.replicate n false) = 0 := by
  induction n with
  | zero => rfl
  | succ n ih => rw [List.replicate_succ, Code.regAfter, Code.window_zero, Code.shift_zero, ih]

theorem Code.encodeFrom_zeros (c : Code) (n : Nat) :
    c.encodeFrom 0 (List.replicate n false) = List.replicate (c.n * n) false := by
  induction n with
  | zero => rfl
  | succ n ih =>
    rw [List.replicate_succ, Code.encodeFrom, Code.window_zero, Code.shift_zero, ih, Code.outputs_zero,
      List.replicate_append_replicate, Nat.mul_succ, Nat.add_comm]

theorem convEnc_zeros (c : Code) (n : Nat) :
    convEnc c (List.replicate n false) = List.replicate (c.n * c.steps n) false := by
  have hinputs : c.inputs (List.replicate n false) = List.replicate (c.steps n) false := by
    unfold Code.inputs Code.steps
    cases c.term with
    | none => rfl
    | flush => simp only [Code.regAfter_zeros, Code.flushInputs_zero, List.replicate_append_replicate]
  rw [convEnc_eq_encodeFrom, hinputs, Code.encodeFrom_zeros]

/-! ### The tail and the minimum weight of `XCCH` (R123 (d), (f)) -/

/-- `XCCH` has no flush steps. -/
theorem convEnc_xcch (u : List UBit) : convEnc xcchCode u = xcchCode.encodeFrom 0 u := rfl

theorem xcch_window (reg : Nat) (x : UBit) : xcchCode.window reg x = 2 * reg + x.toNat := by
  simp [Code.window, Code.feedback, xcchCode, tapXor, Nat.testBit_zero]

/-- Four zeros shift every bit out of the register. -/
theorem xcch_regAfter_zeros (reg : Nat) : xcchCode.regAfter reg (List.replicate 4 false) = 0 := by
  have hm : 2 ^ xcchCode.m = 16 := by decide
  simp only [List.replicate, Code.regAfter, xcch_window, Code.shift, Bool.toNat_false, hm]
  omega

/-- The least weight of the coded bits on a way from a register of `XCCH` to the zero register. -/
def xcchWeightToZero (reg : Nat) : Nat :=
  [0, 5, 4, 4, 4, 5, 4, 3, 2, 5, 5, 4, 2, 5, 2, 3].getD reg 0

/-- A step brings the zero register nearer by no more than the weight it puts out. -/
theorem xcchWeightToZero_step : ∀ reg < 16, ∀ x : UBit,
    xcchWeightToZero reg ≤ (xcchCode.outputs (xcchCode.window reg x)).count true +
      xcchWeightToZero (xcchCode.shift (xcchCode.window reg x)) := by
  decide

theorem xcchWeightToZero_le {reg : Nat} (hreg : reg < 16) (u : List UBit) :
    xcchWeightToZero reg ≤
      (xcchCode.encodeFrom reg u).count true + xcchWeightToZero (xcchCode.regAfter reg u) := by
  induction u generalizing reg with
  | nil => exact Nat.le_add_left _ _
  | cons x xs ih =>
    have hstep := xcchWeightToZero_step reg hreg x
    have hrest := ih (xcchCode.shift_lt (xcchCode.window reg x))
    rw [Code.encodeFrom, List.count_append, Code.regAfter]
    omega

/-- The first 1 puts out weight 2 and leaves a register from which zero is at least 5 away. -/
theorem xcch_weight_of_true_mem {u : List UBit} (hu : true ∈ u) (hend : xcchCode.regAfter 0 u = 0) :
    7 ≤ (convEnc xcchCode u).count true := by
  rw [convEnc_xcch]
  induction u with
  | nil => cases hu
  | cons x xs ih =>
    cases x with
    | false =>
      have hxs : true ∈ xs := (List.mem_cons.1 hu).resolve_left (by decide)
      rw [Code.encodeFrom, List.count_append]
      exact (ih hxs hend).trans (Nat.le_add_left _ _)
    | true =>
      have hstep : (xcchCode.outputs (xcchCode.window 0 true)).count true = 2 := by decide
      have hrest := xcchWeightToZero_le (by decide : xcchCode.shift (xcchCode.window 0 true) < 16) xs
      have hfirst : xcchWeightToZero (xcchCode.shift (xcchCode.window 0 true)) = 5 := by decide
      have hlast : xcchWeightToZero
          (xcchCode.regAfter (xcchCode.shift (xcchCode.window 0 true)) xs) = 0 := congrArg _ hend
      rw [Code.encodeFrom, List.count_append]
      omega

/-- A tail of at least four zeros ends in the zero register. -/
theorem xcch_regAfter_tail (u : List UBit) {n : Nat} (hn : 4 ≤ n) :
    xcchCode.regAfter 0 (u ++ List.replicate n false) = 0 := by
  obtain ⟨k, rfl⟩ := Nat.exists_eq_add_of_le' hn
  rw [← List.replicate_append_replicate, ← List.append_assoc, Code.regAfter_append, xcch_regAfter_zeros]

/-! ### `CONV.ENC` (R124) -/

section ConvEnc

variable {e : Fin 16} {code : Code} {s : State} (he : codeOf Config.inst e = some code)

include he

theorem exec_convEnc (h : code.n * code.steps s.mem.u.len ≤ 1024) :
    exec (.convEnc e) s = .next ((s.setC (convEnc code s.u)).raise .none 0) := by
  have hbody : convEncBody Config.inst e s = .done (s.setC (convEnc code s.u)) := by
    simp only [convEncBody, he]
    exact if_neg (Nat.not_lt.2 h)
  exact congrArg Cmd.finish hbody

theorem exec_convEnc_long (h : 1024 < code.n * code.steps s.mem.u.len) :
    exec (.convEnc e) s = .next (s.raise .len s.mem.u.len) := by
  have hbody : convEncBody Config.inst e s = .raised .len s.mem.u.len s := by
    simp only [convEncBody, he]
    exact if_pos h
  exact congrArg Cmd.finish hbody

theorem convEnc_result (h : code.n * code.steps s.mem.u.len ≤ 1024) :
    ∃ t, exec (.convEnc e) s = .next t ∧
      t.c = convEnc code s.u ∧ t.mem.c.len = code.n * code.steps s.mem.u.len ∧
      t = { s with mem := { s.mem with c := t.mem.c }, free := t.free, stat := Stat.ok } := by
  refine ⟨_, exec_convEnc he h, State.setC_c s _, ?_, rfl⟩
  exact (convEnc_length code s.u).trans (by rw [State.u_length])

end ConvEnc

end Sys2Proof.Machine

namespace Sys2Proof.Proofs

open Sys2Proof.Machine

/-- Settles O13: the register is linear in the input; the minimum weight is a shortest way round the trellis. -/
theorem encoderLaws : Obligations.EncoderLaws := by
  unfold Obligations.EncoderLaws
  refine ⟨convEnc_length, fun c u v _ hlen => convEnc_xor c hlen,
    fun c u v hc h0 hlen h => convEnc_injective hc h0 hlen h, fun u => xcch_regAfter_tail u (Nat.le_refl 4),
    fun c n _ => convEnc_zeros c n, fun u hu => ?_, by decide⟩
  exact xcch_weight_of_true_mem (List.mem_append_left _ hu) (xcch_regAfter_tail u (Nat.le_refl 4))

/-- Settles O14: one equation for each way `CONV.ENC` ends. -/
theorem convEncResult : Obligations.ConvEncResult :=
  fun _ _ _ he => ⟨convEnc_result he, exec_convEnc_long he⟩

end Sys2Proof.Proofs
end

