-- ==== Sys2Proof/Proofs/TrellisSearch.lean ====
section
/-! The trellis search of the decoder (41_trellis_engine.md R125, R126): its survivors are ways through the
trellis, and no way to a register is cheaper than the register's survivor, whatever the tie-break is. -/

namespace Sys2Proof.Machine

/-! ### Choosing among survivors -/

theorem better_cases (tie : Bool) (a b : Survivor) : better tie a b = a ∨ better tie a b = b := by
  cases a with
  | none => exact .inr rfl
  | some x =>
    cases b with
    | none => exact .inl rfl
    | some y =>
      rw [better]
      split
      · exact .inl rfl
      · split
        · exact .inr rfl
        · split
          · exact .inr rfl
          · exact .inl rfl

theorem better_le_left (tie : Bool) {a b : Survivor} {p : Nat × List UBit} (ha : a = some p) :
    ∃ q, better tie a b = some q ∧ q.1 ≤ p.1 := by
  subst ha
  cases b with
  | none => exact ⟨p, rfl, Nat.le_refl _⟩
  | some y =>
    rw [better]
    split
    · exact ⟨p, rfl, Nat.le_refl _⟩
    · next hp =>
      split
      · next hy => exact ⟨y, rfl, hy.le⟩
      · split
        · exact ⟨y, rfl, Nat.le_of_not_lt hp⟩
        · exact ⟨p, rfl, Nat.le_refl _⟩

theorem better_le_right (tie : Bool) {a b : Survivor} {p : Nat × List UBit} (hb : b = some p) :
    ∃ q, better tie a b = some q ∧ q.1 ≤ p.1 := by
  subst hb
  cases a with
  | none => exact ⟨p, rfl, Nat.le_refl _⟩
  | some x =>
    rw [better]
    split
    · next hx => exact ⟨x, rfl, hx.le⟩
    · split
      · exact ⟨p, rfl, Nat.le_refl _⟩
      · next hp =>
        split
        · exact ⟨p, rfl, Nat.le_refl _⟩
        · exact ⟨x, rfl, Nat.le_of_not_lt hp⟩

theorem bestOf_mem {tie : Nat → Bool} {reg : Nat} {xs : List Survivor} {b : Survivor}
    {p : Nat × List UBit} (h : bestOf tie reg xs b = some p) : b = some p ∨ some p ∈ xs := by
  induction xs generalizing reg b with
  | nil => exact .inl h
  | cons x xs ih =>
    rcases ih h with hbest | hmem
    · rcases better_cases (tie reg) b x with hb | hx
      · exact .inl (hb ▸ hbest)
      · rw [hx] at hbest
        exact .inr (by rw [hbest]; exact List.mem_cons_self)
    · exact .inr (List.mem_cons_of_mem _ hmem)

theorem bestOf_le {tie : Nat → Bool} {reg : Nat} {xs : List Survivor} {b : Survivor}
    {p : Nat × List UBit} (h : b = some p ∨ some p ∈ xs) :
    ∃ q, bestOf tie reg xs b = some q ∧ q.1 ≤ p.1 := by
  induction xs generalizing reg b p with
  | nil => exact ⟨p, h.resolve_right (by simp), Nat.le_refl _⟩
  | cons x xs ih =>
    have hfirst (h : b = some p ∨ x = some p) : ∃ q, bestOf tie reg (x :: xs) b = some q ∧ q.1 ≤ p.1 := by
      obtain ⟨q, hq, hqp⟩ : ∃ q, better (tie reg) b x = some q ∧ q.1 ≤ p.1 :=
        h.elim (better_le_left _) (better_le_right _)
      obtain ⟨q', hq', hle⟩ := ih (reg := reg + 1) (.inl hq)
      exact ⟨q', hq', hle.trans hqp⟩
    rcases h with hb | hmem
    · exact hfirst (.inl hb)
    · rcases List.mem_cons.1 hmem with hx | hxs
      · exact hfirst (.inr hx.symm)
      · exact ih (.inr hxs)

/-! ### One step of the trellis -/

/-- The input a step of the kind may have in register `reg`. -/
def StepKind.Accepts (c : Code) (reg : Nat) (x : UBit) : StepKind → Prop
  | .free => True
  | .zero => x = false
  | .flush => x = c.feedback reg

/-- The path after a step of the kind with input `x`. -/
def StepKind.push (x : UBit) (path : List UBit) : StepKind → List UBit
  | .free => x :: path
  | .zero | .flush => path

theorem Code.window_div_two (c : Code) (reg : Nat) (x : UBit) : c.window reg x / 2 = reg := by
  have := Bool.toNat_lt (x ^^ c.feedback reg)
  unfold Code.window
  omega

/-- Every number is the window of a step. -/
theorem Code.exists_window_eq (c : Code) (w : Nat) : ∃ reg x, c.window reg x = w := by
  refine ⟨w / 2, w.testBit 0 ^^ c.feedback (w / 2), ?_⟩
  have hmod : (w.testBit 0).toNat = w % 2 := by
    rw [Nat.testBit_zero]
    rcases Nat.mod_two_eq_zero_or_one w with h | h <;> rw [h] <;> rfl
  rw [Code.window, Bool.xor_assoc, Bool.xor_self, Bool.xor_false, hmod]
  omega

section OneStep

variable {c : Code} {kind : StepKind} {chunk : List SBit} {survivors : List Survivor}

theorem extend_window {reg : Nat} {x : UBit} {cost : Nat} {path : List UBit} :
    extend c kind chunk survivors (c.window reg x) = some (cost, path) ↔
      ∃ cost₀ path₀, survivors.getD reg none = some (cost₀, path₀) ∧ kind.Accepts c reg x ∧
        cost = cost₀ + wordCost chunk (c.outputs (c.window reg x)) ∧ path = kind.push x path₀ := by
  have hx : ((c.window reg x).testBit 0 ^^ c.feedback reg) = x := by
    rw [Code.window_testBit_zero, Bool.xor_assoc, Bool.xor_self, Bool.xor_false]
  simp only [extend, Code.window_div_two, hx]
  rcases survivors.getD reg none with _ | ⟨cost₁, path₁⟩
  · simp
  · cases kind with
    | free => simp [StepKind.Accepts, StepKind.push, eq_comm]
    | zero => cases x <;> simp [StepKind.Accepts, StepKind.push, eq_comm, and_comm]
    | flush =>
      rw [Code.window_testBit_zero]
      by_cases hfb : x = c.feedback reg
      · simp [StepKind.Accepts, StepKind.push, hfb, eq_comm, and_comm]
      · simp [StepKind.Accepts, hfb]

variable {tie : Nat → Bool}

theorem selectStep_getD {reg : Nat} (hreg : reg < 2 ^ c.m) :
    (selectStep c tie kind chunk survivors).getD reg none =
      better (tie reg) (extend c kind chunk survivors reg)
        (extend c kind chunk survivors (reg + 2 ^ c.m)) := by
  simp [selectStep, List.getD_eq_getElem?_getD, hreg]

theorem selectStep_length : (selectStep c tie kind chunk survivors).length = 2 ^ c.m := by
  simp [selectStep]

theorem lt_of_getD_eq_some {xs : List Survivor} {reg : Nat} {p : Nat × List UBit}
    (h : xs.getD reg none = some p) : reg < xs.length := by
  by_contra hlt
  rw [List.getD_eq_default _ _ (Nat.le_of_not_lt hlt)] at h
  cases h

/-- A survivor of a step extends an earlier one by an input the step accepts. -/
theorem selectStep_extends {reg : Nat} {cost : Nat} {path : List UBit}
    (h : (selectStep c tie kind chunk survivors).getD reg none = some (cost, path)) :
    ∃ reg₀ x cost₀ path₀, survivors.getD reg₀ none = some (cost₀, path₀) ∧ kind.Accepts c reg₀ x ∧
      c.shift (c.window reg₀ x) = reg ∧
      cost = cost₀ + wordCost chunk (c.outputs (c.window reg₀ x)) ∧ path = kind.push x path₀ := by
  have hreg : reg < 2 ^ c.m := selectStep_length (c := c) ▸ lt_of_getD_eq_some h
  have hextends {w : Nat} (hw : c.shift w = reg)
      (h : extend c kind chunk survivors w = some (cost, path)) : ∃ reg₀ x cost₀ path₀,
      survivors.getD reg₀ none = some (cost₀, path₀) ∧ kind.Accepts c reg₀ x ∧
      c.shift (c.window reg₀ x) = reg ∧
      cost = cost₀ + wordCost chunk (c.outputs (c.window reg₀ x)) ∧ path = kind.push x path₀ := by
    obtain ⟨reg₀, x, rfl⟩ := c.exists_window_eq w
    obtain ⟨cost₀, path₀, hsurv, haccepts, hcost, hpath⟩ := extend_window.1 h
    exact ⟨reg₀, x, cost₀, path₀, hsurv, haccepts, hw, hcost, hpath⟩
  rw [selectStep_getD hreg] at h
  rcases better_cases (tie reg) (extend c kind chunk survivors reg)
    (extend c kind chunk survivors (reg + 2 ^ c.m)) with heq | heq
  · exact hextends (Nat.mod_eq_of_lt hreg) (heq ▸ h)
  · exact hextends ((Nat.add_mod_right _ _).trans (Nat.mod_eq_of_lt hreg)) (heq ▸ h)

/-- A step with an admitted input leaves a survivor that is no dearer. -/
theorem selectStep_le (hlen : survivors.length = 2 ^ c.m) {reg : Nat} {x : UBit} {cost : Nat}
    {path : List UBit} (hsurv : survivors.getD reg none = some (cost, path))
    (haccepts : kind.Accepts c reg x) :
    ∃ q, (selectStep c tie kind chunk survivors).getD (c.shift (c.window reg x)) none = some q ∧
      q.1 ≤ cost + wordCost chunk (c.outputs (c.window reg x)) := by
  have hreg : reg < 2 ^ c.m := hlen ▸ lt_of_getD_eq_some hsurv
  have hext {w : Nat} (hw : c.window reg x = w) : extend c kind chunk survivors w =
      some (cost + wordCost chunk (c.outputs (c.window reg x)), kind.push x path) :=
    hw ▸ extend_window.2 ⟨cost, path, hsurv, haccepts, rfl, rfl⟩
  rw [selectStep_getD (c.shift_lt _)]
  have hw : c.window reg x = c.shift (c.window reg x) ∨
      c.window reg x = c.shift (c.window reg x) + 2 ^ c.m := by
    have hdiv := c.window_div_two reg x
    have hmod := Nat.mod_add_div (c.window reg x) (2 ^ c.m)
    have hquot : c.window reg x / 2 ^ c.m < 2 := Nat.div_lt_of_lt_mul (by omega)
    unfold Code.shift
    generalize c.window reg x / 2 ^ c.m = quot at *
    rcases (by omega : quot = 0 ∨ quot = 1) with rfl | rfl <;> omega
  rcases hw with hw | hw
  · exact better_le_left _ (hext hw)
  · exact better_le_right _ (hext hw)

end OneStep

/-! ### Ways through the trellis -/

/-- `xs` are inputs that steps of these kinds accept from register `reg` on. -/
def Code.Follows (c : Code) : List StepKind → Nat → List UBit → Prop
  | [], _, xs => xs = []
  | kind :: kinds, reg, xs => ∃ y ys, xs = y :: ys ∧ kind.Accepts c reg y ∧
      c.Follows kinds (c.shift (c.window reg y)) ys

/-- The path after steps of these kinds with inputs `xs`. -/
def pushAll : List StepKind → List UBit → List UBit → List UBit
  | kind :: kinds, x :: xs, path => pushAll kinds xs (kind.push x path)
  | _, _, path => path

theorem wordCost_append (s : List SBit) (x y : List UBit) :
    wordCost s (x ++ y) = wordCost (s.take x.length) x + wordCost (s.drop x.length) y := by
  induction s generalizing x with
  | nil => cases x <;> simp [wordCost]
  | cons b bs ih =>
    cases x with
    | nil => simp [wordCost]
    | cons b' bs' => simp [wordCost, ih, Nat.add_assoc]

theorem wordCost_encodeFrom_cons (c : Code) (s : List SBit) (reg : Nat) (x : UBit) (xs : List UBit) :
    wordCost s (c.encodeFrom reg (x :: xs)) = wordCost (s.take c.n) (c.outputs (c.window reg x)) +
      wordCost (s.drop c.n) (c.encodeFrom (c.shift (c.window reg x)) xs) := by
  rw [Code.encodeFrom, wordCost_append, Code.outputs_length]

section Search

variable {c : Code} {tie : Nat → Nat → Bool} {kinds : List StepKind} {k : Nat} {s : List SBit}
  {survivors : List Survivor}

/-- A survivor of the search is a way from an earlier one, with its cost and its free bits. -/
theorem trellis_follows {reg : Nat} {cost : Nat} {path : List UBit}
    (h : (trellis c tie kinds k s survivors).getD reg none = some (cost, path)) :
    ∃ reg₀ cost₀ path₀ xs, survivors.getD reg₀ none = some (cost₀, path₀) ∧ c.Follows kinds reg₀ xs ∧
      cost = cost₀ + wordCost s (c.encodeFrom reg₀ xs) ∧ path = pushAll kinds xs path₀ := by
  induction kinds generalizing k s survivors with
  | nil => exact ⟨reg, cost, path, [], h, rfl, by cases s <;> rfl, rfl⟩
  | cons kind kinds ih =>
    obtain ⟨reg₁, cost₁, path₁, xs, hsurv₁, hfollows, hcost, hpath⟩ := ih h
    obtain ⟨reg₀, x, cost₀, path₀, hsurv, haccepts, hshift, hcost₁, hpath₁⟩ := selectStep_extends hsurv₁
    subst hshift
    refine ⟨reg₀, cost₀, path₀, x :: xs, hsurv, ⟨x, xs, rfl, haccepts, hfollows⟩, ?_, ?_⟩
    · rw [wordCost_encodeFrom_cons, hcost, hcost₁, Nat.add_assoc]
    · rw [hpath, hpath₁, pushAll]

/-- No way from a survivor is cheaper than the survivor the search leaves. -/
theorem trellis_le (hlen : survivors.length = 2 ^ c.m) {reg : Nat} {cost : Nat} {path xs : List UBit}
    (hsurv : survivors.getD reg none = some (cost, path)) (hfollows : c.Follows kinds reg xs) :
    ∃ q, some q ∈ trellis c tie kinds k s survivors ∧ q.1 ≤ cost + wordCost s (c.encodeFrom reg xs) := by
  induction kinds generalizing k s survivors reg cost path xs with
  | nil =>
    have hmem : some (cost, path) ∈ survivors := by
      rw [← hsurv, List.getD_eq_getElem _ _ (lt_of_getD_eq_some hsurv)]
      exact List.getElem_mem _
    exact ⟨_, hmem, Nat.le_add_right _ _⟩
  | cons kind kinds ih =>
    obtain ⟨x, xs, rfl, haccepts, hfollows⟩ := hfollows
    obtain ⟨⟨cost₁, path₁⟩, hsurv₁, hcost₁⟩ :=
      selectStep_le (tie := tie k) (chunk := s.take c.n) hlen hsurv haccepts
    obtain ⟨q, hq, hle⟩ := ih (k := k + 1) (s := s.drop c.n) selectStep_length hsurv₁ hfollows
    refine ⟨q, hq, hle.trans ?_⟩
    rw [wordCost_encodeFrom_cons]
    omega

end Search

/-! ### The ways of a decoding problem are its candidates -/

section Kinds

variable (c : Code)

theorem Code.follows_append {kinds kinds' : List StepKind} {reg : Nat} {xs : List UBit} :
    c.Follows (kinds ++ kinds') reg xs ↔
      ∃ ys zs, xs = ys ++ zs ∧ c.Follows kinds reg ys ∧ c.Follows kinds' (c.regAfter reg ys) zs := by
  induction kinds generalizing reg xs with
  | nil => simp [Code.Follows, Code.regAfter]
  | cons kind kinds ih =>
    simp only [List.cons_append, Code.Follows, ih]
    constructor
    · rintro ⟨y, _, rfl, hy, ys, zs, rfl, hys, hzs⟩
      exact ⟨y :: ys, zs, rfl, ⟨y, ys, rfl, hy, hys⟩, hzs⟩
    · rintro ⟨_, zs, rfl, ⟨y, ys, rfl, hy, hys⟩, hzs⟩
      exact ⟨y, ys ++ zs, rfl, hy, ys, zs, rfl, hys, hzs⟩

theorem Code.follows_free {n reg : Nat} {xs : List UBit} :
    c.Follows (List.replicate n .free) reg xs ↔ xs.length = n := by
  induction n generalizing reg xs with
  | zero => simp [Code.Follows]
  | succ n ih =>
    simp only [List.replicate_succ, Code.Follows, ih, StepKind.Accepts, true_and]
    simp only [List.length_eq_succ_iff, eq_comm]

theorem Code.follows_zero {n reg : Nat} {xs : List UBit} :
    c.Follows (List.replicate n .zero) reg xs ↔ xs = List.replicate n false := by
  induction n generalizing reg xs with
  | zero => simp [Code.Follows]
  | succ n ih => simp [List.replicate_succ, Code.Follows, ih, StepKind.Accepts]

theorem Code.follows_flush {n reg : Nat} {xs : List UBit} :
    c.Follows (List.replicate n .flush) reg xs ↔ xs = c.flushInputs n reg := by
  induction n generalizing reg xs with
  | zero => simp [Code.Follows, Code.flushInputs]
  | succ n ih =>
    simp [List.replicate_succ, Code.Follows, ih, StepKind.Accepts, Code.flushInputs, Code.window_feedback]

end Kinds

/-- The path of free steps, and of the known steps after them. -/
theorem pushAll_free_append {kind : StepKind} (hkind : kind ≠ .free) (n : Nat) (u zs path : List UBit) :
    pushAll (List.replicate u.length .free ++ List.replicate n kind) (u ++ zs) path =
      u.reverse ++ path := by
  induction u generalizing path with
  | nil =>
    induction n generalizing zs with
    | zero => rfl
    | succ n ih =>
      cases zs with
      | nil => rfl
      | cons z zs =>
        have hpush : kind.push z path = path := by
          cases kind with
          | free => exact absurd rfl hkind
          | zero | flush => rfl
        simpa [List.replicate_succ, pushAll, hpush] using ih zs
  | cons x xs ih => simp [List.replicate_succ, pushAll, StepKind.push, ih]

/-- The inputs of all steps of the candidate with free bits `u` (R125). -/
def candidateInputs (c : Code) (len : Nat) (u : List UBit) : List UBit :=
  match c.term with
  | .none => u ++ List.replicate (len / c.n - u.length) false
  | .flush => u ++ c.flushInputs c.m (c.regAfter 0 u)

theorem candidateWord_eq_encodeFrom (c : Code) (len : Nat) (u : List UBit) :
    candidateWord c len u = c.encodeFrom 0 (candidateInputs c len u) := by
  unfold candidateWord candidateInputs
  cases hterm : c.term <;> simp only [convEnc_eq_encodeFrom, Code.inputs, hterm]

theorem follows_stepKinds (c : Code) (len kd : Nat) (xs : List UBit) :
    c.Follows (stepKinds c len kd) 0 xs ↔ ∃ u, u.length = kd ∧ xs = candidateInputs c len u := by
  unfold stepKinds candidateInputs decodeSteps
  cases c.term with
  | none =>
    simp only [Code.follows_append, Code.follows_free, Code.follows_zero]
    constructor
    · rintro ⟨u, _, rfl, rfl, rfl⟩
      exact ⟨u, rfl, rfl⟩
    · rintro ⟨u, rfl, rfl⟩
      exact ⟨u, _, rfl, rfl, rfl⟩
  | flush =>
    simp only [Code.follows_append, Code.follows_free, Code.follows_flush]
    constructor
    · rintro ⟨u, _, rfl, rfl, rfl⟩
      exact ⟨u, rfl, rfl⟩
    · rintro ⟨u, rfl, rfl⟩
      exact ⟨u, _, rfl, rfl, rfl⟩

theorem pushAll_stepKinds (c : Code) (len : Nat) (u : List UBit) :
    pushAll (stepKinds c len u.length) (candidateInputs c len u) [] = u.reverse := by
  unfold stepKinds candidateInputs
  cases c.term <;> simpa using pushAll_free_append (by simp) _ u _ []

/-! ### The decoder's answer -/

theorem startSurvivors_eq_some {c : Code} {reg : Nat} {p : Nat × List UBit}
    (h : (startSurvivors c).getD reg none = some p) : reg = 0 ∧ p = (0, []) := by
  cases reg with
  | zero => exact ⟨rfl, (Option.some.inj h).symm⟩
  | succ reg =>
    have hnone : (startSurvivors c).getD (reg + 1) none = none := by
      rw [startSurvivors, List.getD_cons_succ, List.getD_eq_getElem?_getD, List.getElem?_replicate]
      split <;> rfl
    rw [hnone] at h
    cases h

theorem startSurvivors_length (c : Code) : (startSurvivors c).length = 2 ^ c.m := by
  have := Nat.one_le_two_pow (n := c.m)
  simp only [startSurvivors, List.length_cons, List.length_replicate]
  omega

/-- The decoder's answer costs no more than any candidate (R126). -/
theorem candidateCost_convDec_le (tie : Nat → Nat → Bool) (c : Code) (s : List SBit) {kd : Nat}
    {u : List UBit} (hu : u.length = kd) :
    candidateCost c s (convDec tie c s kd) ≤ candidateCost c s u := by
  have hways : c.Follows (stepKinds c s.length kd) 0 (candidateInputs c s.length u) :=
    (follows_stepKinds c s.length kd _).2 ⟨u, hu, rfl⟩
  obtain ⟨q, hq, hqu⟩ := trellis_le (tie := tie) (k := 0) (s := s) (startSurvivors_length c)
    (by rfl : (startSurvivors c).getD 0 none = some (0, [])) hways
  obtain ⟨⟨cost, path⟩, hbest, hle⟩ :=
    bestOf_le (tie := tie (decodeSteps c s.length kd)) (reg := 0) (b := none) (.inr hq)
  have hmem := (bestOf_mem hbest).resolve_left (by simp)
  obtain ⟨reg, hreg⟩ := List.mem_iff_getElem?.1 hmem
  have hgetD : (trellis c tie (stepKinds c s.length kd) 0 s (startSurvivors c)).getD reg none =
      some (cost, path) := by
    rw [List.getD_eq_getElem?_getD, hreg, Option.getD_some]
  obtain ⟨reg₀, cost₀, path₀, xs, hsurv, hfollows, hcost, hpath⟩ := trellis_follows hgetD
  obtain ⟨rfl, hstart⟩ := startSurvivors_eq_some hsurv
  obtain ⟨rfl, rfl⟩ := Prod.mk.inj hstart
  obtain ⟨v, hv, rfl⟩ := (follows_stepKinds c s.length kd xs).1 hfollows
  have hanswer : convDec tie c s kd = v := by
    simp only [convDec, hbest]
    rw [hpath, ← hv, pushAll_stepKinds, List.reverse_reverse]
  rw [hanswer, candidateCost, candidateCost, candidateWord_eq_encodeFrom, candidateWord_eq_encodeFrom]
  omega

/-- A candidate that is cheaper than every other one is the decoder's answer (R126). -/
theorem convDec_eq_of_unique (tie : Nat → Nat → Bool) {c : Code} {s : List SBit} {kd : Nat}
    {v : List UBit} (hv : v.length = kd)
    (h : ∀ u : List UBit, u.length = kd → u ≠ v → candidateCost c s v < candidateCost c s u) :
    convDec tie c s kd = v := by
  by_contra hne
  have hlt := h _ (convDec_length tie c s kd) hne
  exact absurd (candidateCost_convDec_le tie c s hv) (Nat.not_le.2 hlt)

/-- The only candidate that costs nothing is the decoder's answer. -/
theorem convDec_eq_of_cost_zero (tie : Nat → Nat → Bool) {c : Code} {s : List SBit} {kd : Nat}
    {v : List UBit} (hv : v.length = kd) (hzero : candidateCost c s v = 0)
    (h : ∀ u : List UBit, u.length = kd → candidateCost c s u = 0 → u = v) : convDec tie c s kd = v :=
  convDec_eq_of_unique tie hv fun u hu hne => by
    rw [hzero]
    exact Nat.pos_of_ne_zero fun hcost => hne (h u hu hcost)

end Sys2Proof.Machine

namespace Sys2Proof.Proofs

open Sys2Proof.Machine

/-- Settles O15: every survivor is a candidate's way, and no candidate's way is cheaper than the best. -/
theorem decoderMinimal : Obligations.DecoderMinimal :=
  fun tie c s _ _ _ => ⟨convDec_length tie c s _, fun _ hu => candidateCost_convDec_le tie c s hu,
    fun _ hv h => convDec_eq_of_unique tie hv h⟩

end Sys2Proof.Proofs
end

