-- ==== Sys2Proof/Proofs/TrellisCorrection.lean ====
section
/-! What the decoder corrects (41_trellis_engine.md R129) and `CONV.DEC` (R127, R128): a clean codeword is the
only candidate that costs nothing, and two candidates of `XCCH` with its tail are at least 7 signs apart. -/

namespace Sys2Proof.Machine

/-! ### Costs and disagreements -/

theorem SBit.mag_eq_zero_iff (x : SBit) : x.mag = 0 ↔ x.toInt = 0 := Int.natAbs_eq_zero

theorem SBit.toInt_ne_zero {x : SBit} (h : x.mag = 127) : x.toInt ≠ 0 := fun h0 => by
  rw [(SBit.mag_eq_zero_iff x).2 h0] at h
  cases h

@[simp] theorem SBit.soft_mag (b : UBit) : (SBit.soft b).mag = 127 := by cases b <;> decide

@[simp] theorem SBit.soft_hard (b : UBit) : (SBit.soft b).hard = b := by cases b <;> decide

@[simp] theorem softAll_length (v : List UBit) : (softAll v).length = v.length := by simp [softAll]

/-- A word costs nothing exactly when it disagrees with no soft bit. -/
theorem wordCost_eq_zero_iff (s : List SBit) (y : List UBit) :
    wordCost s y = 0 ↔ disagreements s y = 0 := by
  induction s generalizing y with
  | nil => cases y <;> simp [wordCost, disagreements]
  | cons x xs ih =>
    cases y with
    | nil => simp [wordCost, disagreements]
    | cons b bs =>
      by_cases hb : x.hard = b <;>
        simp [wordCost, disagreements, bitCost, ih, hb, SBit.mag_eq_zero_iff]

/-- At full confidence every disagreement costs 127. -/
theorem wordCost_of_full {s : List SBit} (h : ∀ x ∈ s, x.mag = 127) (y : List UBit) :
    wordCost s y = 127 * disagreements s y := by
  induction s generalizing y with
  | nil => cases y <;> rfl
  | cons x xs ih =>
    cases y with
    | nil => rfl
    | cons b bs =>
      have hx : x.mag = 127 := h x List.mem_cons_self
      have hx0 := SBit.toInt_ne_zero hx
      rw [wordCost, disagreements, ih (fun x hx => h x (List.mem_cons_of_mem _ hx)), bitCost, hx,
        Nat.mul_add]
      by_cases hb : x.hard = b <;> simp [hb, hx0]

theorem disagreements_softAll_eq_zero_iff {x y : List UBit} (hlen : x.length = y.length) :
    disagreements (softAll x) y = 0 ↔ x = y := by
  induction x generalizing y with
  | nil => simp [List.length_eq_zero_iff.1 hlen.symm, softAll, disagreements]
  | cons a as ih =>
    cases y with
    | nil => cases hlen
    | cons b bs =>
      have hmag := SBit.toInt_ne_zero (SBit.soft_mag a)
      show (if (SBit.soft a).toInt ≠ 0 ∧ (SBit.soft a).hard ≠ b then 1 else 0) +
        disagreements (softAll as) bs = 0 ↔ _
      simp [hmag, ih (Nat.succ.inj hlen)]

/-- Signs that tell two words apart disagree with one of them. -/
theorem count_xorBits_le_disagreements {s : List SBit} {x y : List UBit} (hs : ∀ b ∈ s, b.mag = 127)
    (hx : x.length = s.length) (hy : y.length = s.length) :
    (xorBits x y).count true ≤ disagreements s x + disagreements s y := by
  induction s generalizing x y with
  | nil => rw [List.length_eq_zero_iff.1 hx]; exact Nat.zero_le _
  | cons b bs ih =>
    cases x with
    | nil => cases hx
    | cons x xs =>
      cases y with
      | nil => cases hy
      | cons y ys =>
        have hrest := ih (fun b hb => hs b (List.mem_cons_of_mem _ hb)) (Nat.succ.inj hx) (Nat.succ.inj hy)
        have hb := SBit.toInt_ne_zero (hs b List.mem_cons_self)
        rw [xorBits_cons, List.count_cons, disagreements, disagreements]
        cases x <;> cases y <;> cases b.hard <;> simp [hb] <;> omega

/-! ### Candidates -/

theorem candidateWord_length {c : Code} {len kd : Nat} (hok : decodeLenOk c len kd = true)
    {u : List UBit} (hu : u.length = kd) : (candidateWord c len u).length = len := by
  unfold decodeLenOk at hok
  unfold candidateWord
  cases hterm : c.term with
  | none =>
    simp only [hterm, decide_eq_true_eq] at hok ⊢
    obtain ⟨-, hmod, hkd⟩ := hok
    have hsteps : kd + (len / c.n - kd) = len / c.n := by omega
    rw [convEnc_length, Code.steps, hterm, List.length_append, List.length_replicate, hu]
    simp only [hsteps]
    exact Nat.mul_div_cancel' (Nat.dvd_of_mod_eq_zero hmod)
  | flush =>
    simp only [hterm, decide_eq_true_eq] at hok ⊢
    rw [convEnc_length, Code.steps, hterm, hu, hok]

theorem candidateWord_injective {c : Code} (hc : c.wf = true) (h0 : ∃ g ∈ c.gens, 0 ∈ g) {len : Nat}
    {u v : List UBit} (hlen : u.length = v.length) (h : candidateWord c len u = candidateWord c len v) :
    u = v := by
  unfold candidateWord at h
  cases hterm : c.term with
  | none =>
    simp only [hterm, hlen] at h
    have happend := convEnc_injective hc h0 (by simp only [List.length_append, hlen]) h
    exact (List.append_inj happend hlen).1
  | flush =>
    simp only [hterm] at h
    exact convEnc_injective hc h0 hlen h

/-- A clean codeword decodes to its input where no other input has it. -/
theorem convDec_codeword (tie : Nat → Nat → Bool) {c : Code} {len kd : Nat}
    (hok : decodeLenOk c len kd = true) {v : List UBit} (hv : v.length = kd)
    (hinj : ∀ u : List UBit, u.length = kd → candidateWord c len v = candidateWord c len u → v = u) :
    convDec tie c (softAll (candidateWord c len v)) kd = v := by
  have hlen : (softAll (candidateWord c len v)).length = len := by
    rw [softAll_length, candidateWord_length hok hv]
  have hcost {u : List UBit} (hu : u.length = kd) :
      candidateCost c (softAll (candidateWord c len v)) u = 0 ↔
        candidateWord c len v = candidateWord c len u := by
    rw [candidateCost, hlen, wordCost_eq_zero_iff, disagreements_softAll_eq_zero_iff]
    rw [candidateWord_length hok hv, candidateWord_length hok hu]
  exact convDec_eq_of_cost_zero tie hv ((hcost hv).2 rfl) fun u hu h => (hinj u hu ((hcost hu).1 h)).symm

/-- A clean codeword of an injective code decodes to its input (R129 (a)). -/
theorem convDec_clean (tie : Nat → Nat → Bool) {c : Code} (hc : c.wf = true)
    (h0 : ∃ g ∈ c.gens, 0 ∈ g) {len kd : Nat} (hok : decodeLenOk c len kd = true) {v : List UBit}
    (hv : v.length = kd) : convDec tie c (softAll (candidateWord c len v)) kd = v :=
  convDec_codeword tie hok hv fun _ hu => candidateWord_injective hc h0 (hv.trans hu.symm)

theorem convNerr_clean {c : Code} {len kd : Nat} (hok : decodeLenOk c len kd = true) {v : List UBit}
    (hv : v.length = kd) : convNerr c (softAll (candidateWord c len v)) v = 0 := by
  rw [convNerr, softAll_length, candidateWord_length hok hv, disagreements_softAll_eq_zero_iff rfl]

/-! ### Three wrong signs (R129 (b)) -/

theorem xcch_decodeLenOk_iff (len kd : Nat) :
    decodeLenOk xcchCode len kd = true ↔ len % 2 = 0 ∧ kd ≤ len / 2 := by
  simp [decodeLenOk, xcchCode, Code.n]

theorem xorBits_self (x : List UBit) : xorBits x x = List.replicate x.length false := by
  simp [xorBits, List.zipWith_self]

/-- Two candidates of `XCCH` with a tail of at least four zeros are at least 7 signs apart. -/
theorem xcch_candidates_apart {len : Nat} {u v : List UBit} (hlen : u.length = v.length)
    (htail : 2 * (v.length + 4) ≤ len) (hne : u ≠ v) :
    7 ≤ (xorBits (candidateWord xcchCode len u) (candidateWord xcchCode len v)).count true := by
  have hword (w : List UBit) : candidateWord xcchCode len w =
      convEnc xcchCode (w ++ List.replicate (len / 2 - w.length) false) := rfl
  rw [hword, hword, hlen, ← convEnc_xor _ (by simp only [List.length_append, hlen]), xorBits_append hlen,
    xorBits_self, List.length_replicate]
  exact xcch_weight_of_true_mem (List.mem_append_left _ (true_mem_xorBits hlen hne))
    (xcch_regAfter_tail _ (by omega))

/-- Up to three wrong signs at full confidence are corrected. -/
theorem xcch_convDec_corrects (tie : Nat → Nat → Bool) {v : List UBit} {s : List SBit} {kd : Nat}
    (hok : decodeLenOk xcchCode s.length kd = true) (htail : 2 * (kd + 4) ≤ s.length)
    (hv : v.length = kd) (hs : ∀ x ∈ s, x.mag = 127)
    (h : disagreements s (candidateWord xcchCode s.length v) ≤ 3) : convDec tie xcchCode s kd = v := by
  refine convDec_eq_of_unique tie hv fun u hu hne => ?_
  have happart := xcch_candidates_apart (hu.trans hv.symm) (hv ▸ htail) hne
  have hcount := count_xorBits_le_disagreements hs (candidateWord_length hok hu)
    (candidateWord_length hok hv)
  rw [candidateCost, candidateCost, wordCost_of_full hs, wordCost_of_full hs]
  omega

/-! ### `CONV.DEC` (R128) -/

@[simp] theorem State.softC_length (s : State) : s.softC.length = s.mem.cs.len := Buf.read_length _ _
@[simp] theorem State.softE_length (s : State) : s.softE.length = s.mem.es.len := Buf.read_length _ _

@[simp] theorem State.trellis_u (P : Params) (s : State) (code : Code) (soft : List SBit) (kd : Nat) :
    (s.trellis P code soft kd).u = convDecP P code soft kd := State.setU_u _ _

section ConvDec

variable {e : Fin 16} {code : Code} {kd : BitVec 16} {s : State}
  (he : codeOf Config.inst e = some code)

include he

theorem exec_convDec (h : decodeLenOk code s.mem.cs.len kd.toNat = true) :
    exec (.convDec e kd) s = .next ((s.trellis Config.inst code s.softC kd.toNat).raise .none 0) := by
  have hbody : convDecBody Config.inst e kd.toNat s =
      .done (s.trellis Config.inst code s.softC kd.toNat) := by
    simp only [convDecBody, he]
    exact if_pos h
  exact congrArg Cmd.finish hbody

theorem exec_convDec_len (h : decodeLenOk code s.mem.cs.len kd.toNat = false) :
    exec (.convDec e kd) s = .next (s.raise .len s.mem.cs.len) := by
  have hbody : convDecBody Config.inst e kd.toNat s = .raised .len s.mem.cs.len s := by
    simp only [convDecBody, he]
    exact if_neg (by rw [h]; exact Bool.false_ne_true)
  exact congrArg Cmd.finish hbody

theorem convDec_result (h : decodeLenOk code s.mem.cs.len kd.toNat = true) :
    ∃ t, exec (.convDec e kd) s = .next t ∧
      t.u = convDecP Config.inst code s.softC kd.toNat ∧ t.mem.u.len = kd.toNat ∧
      t = { s with
        mem := { s.mem with u := t.mem.u }, free := t.free, stat := Stat.ok
        res := { s.res with
          nerr := BitVec.ofNat 16 (disagreements s.softC (candidateWord code s.mem.cs.len t.u))
          nbits := BitVec.ofNat 16 (s.softC.countP fun x => decide (x.toInt ≠ 0)) } } := by
  have hu : ((s.trellis Config.inst code s.softC kd.toNat).raise .none 0).u =
      convDecP Config.inst code s.softC kd.toNat := State.trellis_u _ _ _ _ _
  refine ⟨_, exec_convDec he h, hu, convDecP_length Config.inst code s.softC kd.toNat, ?_⟩
  rw [hu, ← State.softC_length]
  rfl

end ConvDec

end Sys2Proof.Machine

namespace Sys2Proof.Proofs

open Sys2Proof.Machine

/-- Settles O16: a clean codeword costs nothing and no other candidate does; three wrong signs of full
confidence leave the others at least one sign dearer. -/
theorem decoderCorrects : Obligations.DecoderCorrects := by
  unfold Obligations.DecoderCorrects
  refine ⟨fun tie c v len kd hc h0 hok hv => ⟨convDec_clean tie hc h0 hok hv, convNerr_clean hok hv⟩,
    fun tie v s kd hok htail hv hs h => ?_⟩
  have hdec := xcch_convDec_corrects tie hok htail hv hs h
  exact ⟨hdec, by rw [hdec]; rfl⟩

/-- Settles O17: one equation for each way `CONV.DEC` ends. -/
theorem convDecResult : Obligations.ConvDecResult :=
  fun _ _ _ _ he => ⟨convDec_result he, exec_convDec_len he⟩

end Sys2Proof.Proofs
end

