-- ==== Sys2Proof/Proofs/BlockTransport.lean ====
section
/-! The way of coded bits through a block: interleaving and burst mapping are undone by the decoders' first
stages (43_interleaver_mapper.md R152, R157), and wrong signs stay wrong signs on the way. -/

namespace Sys2Proof.Machine

/-! ### The interleaver (R150 to R154) -/

theorem ilvIndex_lt (sel : ISel) (k : Nat) : ilvIndex sel k < 114 * nbiOf sel := by
  have hpos : ilvPos k < 114 := by unfold ilvPos; omega
  have hnb : 0 < nbiOf sel := by cases sel <;> decide
  have hburst := Nat.mod_lt k hnb
  unfold ilvIndex
  calc 114 * (k % nbiOf sel) + ilvPos k < 114 * (k % nbiOf sel + 1) := by omega
    _ ≤ 114 * nbiOf sel := Nat.mul_le_mul_left 114 hburst

theorem pos_eq_of_residues {k k' : Nat} (hk : k < 456) (hk' : k' < 456) (h8 : k % 8 = k' % 8)
    (h57 : 49 * k % 57 = 49 * k' % 57) : k = k' := by
  omega

theorem mixedRadix_injective {x y z x' y' z' : Nat} (hy : y < 57) (hy' : y' < 57) (hz : z < 2)
    (hz' : z' < 2) (h : 114 * x + (2 * y + z) = 114 * x' + (2 * y' + z')) : x = x' ∧ y = y' ∧ z = z' := by
  omega

/-- The burst, the residue modulo 57 and the parity of `j(k)` tell the position. -/
theorem ilvIndex_injective {sel : ISel} {k k' : Nat} (hk : k < 456) (hk' : k' < 456)
    (h : ilvIndex sel k = ilvIndex sel k') : k = k' := by
  obtain ⟨hburst, h57, hparity⟩ := mixedRadix_injective (Nat.mod_lt _ (by decide))
    (Nat.mod_lt _ (by decide)) (by omega) (by omega) h
  have h8 : k % 8 = k' % 8 := by
    cases sel <;> simp only [nbiOf] at hburst <;> omega
  exact pos_eq_of_residues hk hk' h8 h57

theorem ilvWrite_getElem?_of_ne {sel : ISel} {k p : Nat} {v out : List UBit}
    (h : ∀ j, j < v.length → ilvIndex sel (k + j) ≠ p) : (ilvWrite sel k v out)[p]? = out[p]? := by
  induction v generalizing k out with
  | nil => rfl
  | cons x xs ih =>
    have hfirst : ilvIndex sel k ≠ p := h 0 (Nat.succ_pos _)
    have hrest : ∀ j, j < xs.length → ilvIndex sel (k + 1 + j) ≠ p := fun j hj => by
      rw [Nat.add_right_comm, Nat.add_assoc]
      exact h (j + 1) (Nat.succ_lt_succ hj)
    rw [ilvWrite, ih hrest, List.getElem?_set_ne hfirst]

theorem ilvWrite_getElem? {sel : ISel} {k j : Nat} {v out : List UBit} (hv : k + v.length ≤ 456)
    (hout : out.length = 114 * nbiOf sel) (hj : j < v.length) :
    (ilvWrite sel k v out)[ilvIndex sel (k + j)]? = v[j]? := by
  induction v generalizing k j out with
  | nil => cases hj
  | cons x xs ih =>
    rw [List.length_cons] at hv hj
    rw [ilvWrite]
    cases j with
    | zero =>
      have hlater : ∀ i, i < xs.length → ilvIndex sel (k + 1 + i) ≠ ilvIndex sel k := fun i hi h => by
        have := ilvIndex_injective (by omega) (by omega) h
        omega
      rw [Nat.add_zero k, ilvWrite_getElem?_of_ne hlater, List.getElem?_set_self (hout ▸ ilvIndex_lt sel k),
        List.getElem?_cons_zero]
    | succ j =>
      rw [List.getElem?_cons_succ, Nat.add_comm j 1, ← Nat.add_assoc]
      exact ih (by omega) (by rw [List.length_set, hout]) (by omega)

/-- Coded bit `k` stands at position `114*B(k) + j(k)` (R153). -/
theorem interleave_getElem? (sel : ISel) {v : List UBit} (hv : v.length = 456) {k : Nat} (hk : k < 456) :
    (interleave sel v)[ilvIndex sel k]? = v[k]? := by
  have h := ilvWrite_getElem? (sel := sel) (k := 0) (j := k) (v := v)
    (out := List.replicate (114 * nbiOf sel) false) (by omega) List.length_replicate (hv ▸ hk)
  rwa [Nat.zero_add] at h

theorem deinterleave_getElem? (sel : ISel) (is : List SBit) {k : Nat} (hk : k < 456) :
    (deinterleave sel is)[k]? = some (is.getD (ilvIndex sel k) SBit.zero) := by
  simp [deinterleave, hk]

/-- De-interleaving undoes interleaving (R152 (c)). -/
theorem deinterleave_softAll_interleave (sel : ISel) {v : List UBit} (hv : v.length = 456) :
    deinterleave sel (softAll (interleave sel v)) = softAll v := by
  refine List.ext_getElem? fun k => ?_
  by_cases hk : k < 456
  · have hvk : k < v.length := hv ▸ hk
    rw [deinterleave_getElem? sel _ hk, List.getD_eq_getElem?_getD, softAll, List.getElem?_map,
      interleave_getElem? sel hv hk, softAll, List.getElem?_map, List.getElem?_eq_getElem hvk]
    rfl
  · rw [List.getElem?_eq_none (by rw [deinterleave_length]; omega),
      List.getElem?_eq_none (by rw [softAll_length]; omega)]

/-- `X4` is a bijection (R152 (a)). -/
theorem ilvIndex_x4_perm : ((List.range 456).map (ilvIndex .x4)).Perm (List.range 456) := by
  refine List.Subperm.perm_of_length_le (List.subperm_of_subset ?_ ?_) (by simp)
  · exact List.nodup_range.map_on fun k hk k' hk' h =>
      ilvIndex_injective (List.mem_range.1 hk) (List.mem_range.1 hk') h
  · intro p hp
    obtain ⟨k, -, rfl⟩ := List.mem_map.1 hp
    exact List.mem_range.2 (ilvIndex_lt .x4 k)

/-! ### The burst mapper (R155 to R157) -/

theorem slice_append {α : Type} (x : List α) (a m n : Nat) :
    slice x a (m + n) = slice x a m ++ slice x (a + m) n := by
  rw [slice, List.take_add, List.drop_drop, slice, slice]

/-- The pieces of one length that a vector is cut into. -/
theorem flatMap_slice {α : Type} (x : List α) (n m : Nat) :
    (List.range m).flatMap (fun b => slice x (n * b) n) = x.take (n * m) := by
  induction m with
  | zero => simp
  | succ m ih =>
    rw [List.range_succ, List.flatMap_append, ih, List.flatMap_singleton, Nat.mul_succ, List.take_add, slice]

theorem flatMap_congr {α β : Type} {xs : List α} {f g : α → List β} (h : ∀ x ∈ xs, f x = g x) :
    xs.flatMap f = xs.flatMap g := by
  rw [List.flatMap_def, List.flatMap_def, List.map_congr_left h]

/-- A piece of one of several blocks of one length. -/
theorem slice_flatMap_range {α : Type} {f : Nat → List α} {n m b a k : Nat}
    (hf : ∀ i, i < m → (f i).length = n) (hb : b < m) (hak : a + k ≤ n) :
    slice ((List.range m).flatMap f) (n * b + a) k = slice (f b) a k := by
  have hblocks : ∀ i, i ≤ m → ((List.range i).flatMap f).length = n * i := fun i hi => by
    rw [flatMap_length_eq (List.range i) f n fun j hj => hf j ((List.mem_range.1 hj).trans_le hi),
      List.length_range]
  have hsplit : List.range m = List.range b ++ b :: (List.range (m - b - 1)).map (b + 1 + ·) := by
    have hm : b + 1 + (m - b - 1) = m := by omega
    conv_lhs => rw [← hm, List.range_add, List.range_succ, List.append_assoc, List.singleton_append]
  have hbefore := hblocks b hb.le
  have hblock := hf b hb
  rw [slice, hsplit, List.flatMap_append, List.flatMap_cons, List.drop_append, hbefore,
    List.drop_eq_nil_of_le (by omega), List.nil_append, Nat.add_sub_cancel_left, List.drop_append,
    List.take_append_of_le_length (by rw [List.length_drop]; omega), slice]

theorem slice_softAll (v : List UBit) (a n : Nat) : slice (softAll v) a n = softAll (slice v a n) := by
  simp only [slice, softAll, List.map_drop, List.map_take]

theorem softAll_append (x y : List UBit) : softAll (x ++ y) = softAll x ++ softAll y := List.map_append

section Mapper

variable {nb : Nat} {i h : List UBit}

/-- The pair of flags of burst `b`. -/
theorem flagPair_eq_slice (hh : h.length = 2 * nb) {b : Nat} (hb : b < nb) :
    [h.getD (2 * b) false, h.getD (2 * b + 1) false] = slice h (2 * b) 2 := by
  rw [List.getD_eq_getElem _ _ (by omega), List.getD_eq_getElem _ _ (by omega), slice,
    List.drop_eq_getElem_cons (by omega), List.drop_eq_getElem_cons (by omega)]
  rfl

theorem mapBurst_length {x : List UBit} (hx : x.length = 114) (hl hu : UBit) :
    (mapBurst x hl hu).length = 116 := by
  simp [mapBurst, hx]

theorem slice_mapBlock (hi : i.length = 114 * nb) {b a k : Nat} (hb : b < nb) (hak : a + k ≤ 116) :
    slice (mapBlock nb i h) (116 * b + a) k = slice (mapBurst (slice i (114 * b) 114)
      (h.getD (2 * b) false) (h.getD (2 * b + 1) false)) a k :=
  slice_flatMap_range
    (fun _ hj => mapBurst_length (slice_length _ _ _ (by omega)) _ _) hb hak

theorem slice_mapBurst {x : List UBit} (hx : x.length = 114) (hl hu : UBit) :
    slice (mapBurst x hl hu) 0 57 = x.take 57 ∧ slice (mapBurst x hl hu) 57 2 = [hl, hu] ∧
      slice (mapBurst x hl hu) 59 57 = x.drop 57 := by
  have htake : (x.take 57).length = 57 := by rw [List.length_take, hx]; rfl
  have hdrop : (x.drop 57).length = 57 := by rw [List.length_drop, hx]
  refine ⟨?_, ?_, ?_⟩
  · rw [slice, List.drop_zero, mapBurst, List.append_assoc, List.take_left' htake]
  · rw [slice, mapBurst, List.append_assoc, List.drop_left' htake]
    rfl
  · rw [slice, mapBurst, List.drop_left' (by rw [List.length_append, htake]; rfl),
      List.take_of_length_le hdrop.le]

/-- Splitting a mapped block returns the interleaved bits (R157). -/
theorem unmapBits_softAll_mapBlock (hi : i.length = 114 * nb) :
    unmapBits nb (softAll (mapBlock nb i h)) = softAll i := by
  have hburst : ∀ b ∈ List.range nb, slice (softAll (mapBlock nb i h)) (116 * b) 57 ++
      slice (softAll (mapBlock nb i h)) (116 * b + 59) 57 = slice (softAll i) (114 * b) 114 := by
    intro b hb
    have hb := List.mem_range.1 hb
    obtain ⟨hfirst, -, hlast⟩ := slice_mapBurst (slice_length i (114 * b) 114 (by omega))
      (h.getD (2 * b) false) (h.getD (2 * b + 1) false)
    rw [slice_softAll, slice_softAll, ← softAll_append, slice_mapBlock hi hb (by omega), hlast,
      ← Nat.add_zero (116 * b), slice_mapBlock hi hb (by omega), hfirst, List.take_append_drop,
      slice_softAll]
  rw [unmapBits, flatMap_congr hburst, flatMap_slice]
  exact List.take_of_length_le (by rw [softAll_length, hi])

/-- Splitting a mapped block returns the flags (R157). -/
theorem unmapFlags_softAll_mapBlock (hi : i.length = 114 * nb) (hh : h.length = 2 * nb) :
    unmapFlags nb (softAll (mapBlock nb i h)) = softAll h := by
  have hburst : ∀ b ∈ List.range nb,
      slice (softAll (mapBlock nb i h)) (116 * b + 57) 2 = slice (softAll h) (2 * b) 2 := by
    intro b hb
    have hb := List.mem_range.1 hb
    obtain ⟨-, hflags, -⟩ := slice_mapBurst (slice_length i (114 * b) 114 (by omega))
      (h.getD (2 * b) false) (h.getD (2 * b + 1) false)
    rw [slice_softAll, slice_mapBlock hi hb (by omega), hflags, flagPair_eq_slice hh hb, slice_softAll]
  rw [unmapFlags, flatMap_congr hburst, flatMap_slice]
  exact List.take_of_length_le (by rw [softAll_length, hh])

end Mapper

theorem unmapBits_length {nb : Nat} {es : List SBit} (h : 116 * nb ≤ es.length) :
    (unmapBits nb es).length = 114 * nb := by
  rw [unmapBits, flatMap_length_eq _ _ 114 fun b hb => ?_, List.length_range]
  have hb := List.mem_range.1 hb
  rw [List.length_append, slice_length _ _ _ (by omega), slice_length _ _ _ (by omega)]

theorem unmapFlags_length {nb : Nat} {es : List SBit} (h : 116 * nb ≤ es.length) :
    (unmapFlags nb es).length = 2 * nb := by
  rw [unmapFlags, flatMap_length_eq _ _ 2 fun b hb => ?_, List.length_range]
  have hb := List.mem_range.1 hb
  rw [slice_length _ _ _ (by omega)]

/-! ### Clean blocks -/

theorem softCoded_clean (sel : ISel) {c : List UBit} (hc : c.length = 456) (h : List UBit) :
    softCoded sel (softAll (blockBursts sel c h)) = softAll c := by
  rw [softCoded, blockBursts, unmapBits_softAll_mapBlock (interleave_length sel c),
    deinterleave_softAll_interleave sel hc]

theorem unmapBits_clean (sel : ISel) (c h : List UBit) :
    unmapBits (nbiOf sel) (softAll (blockBursts sel c h)) = softAll (interleave sel c) :=
  unmapBits_softAll_mapBlock (interleave_length sel c)

theorem unmapFlags_clean (sel : ISel) (c : List UBit) {h : List UBit} (hh : h.length = 2 * nbiOf sel) :
    unmapFlags (nbiOf sel) (softAll (blockBursts sel c h)) = softAll h :=
  unmapFlags_softAll_mapBlock (interleave_length sel c) hh

/-! ### Wrong signs -/

theorem disagreements_append (s : List SBit) (x y : List UBit) :
    disagreements s (x ++ y) = disagreements (s.take x.length) x + disagreements (s.drop x.length) y := by
  induction s generalizing x with
  | nil => cases x <;> simp [disagreements]
  | cons b bs ih =>
    cases x with
    | nil => simp [disagreements]
    | cons b' bs' => simp [disagreements, ih, Nat.add_assoc]

theorem disagreements_append_append {s s' : List SBit} {x x' : List UBit} (h : s.length = x.length) :
    disagreements (s ++ s') (x ++ x') = disagreements s x + disagreements s' x' := by
  rw [disagreements_append, List.take_left' h, List.drop_left' h]

/-- The wrong signs of burst `b`, those of its coded positions and those of its flags. -/
theorem disagreements_mapBurst {es : List SBit} {a : Nat} {x : List UBit} (hs : a + 116 ≤ es.length)
    (hx : x.length = 114) (hl hu : UBit) : disagreements (slice es a 116) (mapBurst x hl hu) =
      disagreements (slice es a 57 ++ slice es (a + 59) 57) x +
        disagreements (slice es (a + 57) 2) [hl, hu] := by
  have hslice : slice es a 116 = slice es a 57 ++ (slice es (a + 57) 2 ++ slice es (a + 59) 57) := by
    rw [← slice_append es (a + 57) 2 57, ← slice_append es a 57 59]
  have hfirst : (slice es a 57).length = (x.take 57).length := by
    rw [slice_length _ _ _ (by omega), List.length_take, hx, Nat.min_eq_left (by omega)]
  have hflags : (slice es (a + 57) 2).length = [hl, hu].length := slice_length _ _ _ (by omega)
  have hbits : disagreements (slice es a 57 ++ slice es (a + 59) 57) x =
      disagreements (slice es a 57) (x.take 57) + disagreements (slice es (a + 59) 57) (x.drop 57) := by
    rw [← disagreements_append_append hfirst, List.take_append_drop]
  rw [hbits, hslice, mapBurst, List.append_assoc, disagreements_append_append hfirst,
    disagreements_append_append hflags]
  omega

/-- The wrong signs of a block are those of its interleaved bits and those of its flags. -/
theorem disagreements_mapBlock {nb : Nat} {es : List SBit} {i h : List UBit} (hes : es.length = 116 * nb)
    (hi : i.length = 114 * nb) (hh : h.length = 2 * nb) :
    disagreements es (mapBlock nb i h) =
      disagreements (unmapBits nb es) i + disagreements (unmapFlags nb es) h := by
  have hfirst : ∀ m, m ≤ nb → disagreements (es.take (116 * m)) (mapBlock m i h) =
      disagreements (unmapBits m es) (i.take (114 * m)) +
        disagreements (unmapFlags m es) (h.take (2 * m)) := by
    intro m hm
    induction m with
    | zero => simp [mapBlock, unmapBits, unmapFlags, disagreements]
    | succ m ih =>
      have hblock : (es.take (116 * m)).length = (mapBlock m i h).length := by
        rw [List.length_take, mapBlock, flatMap_length_eq _ _ 116 fun b hb =>
          mapBurst_length (slice_length _ _ _ (by have := List.mem_range.1 hb; omega)) _ _,
          List.length_range]
        omega
      have hbits : (unmapBits m es).length = (i.take (114 * m)).length := by
        rw [unmapBits_length (by omega), List.length_take]
        omega
      have hflags : (unmapFlags m es).length = (h.take (2 * m)).length := by
        rw [unmapFlags_length (by omega), List.length_take]
        omega
      have hpair := flagPair_eq_slice hh hm
      have hburst := disagreements_mapBurst (es := es) (a := 116 * m) (by omega)
        (slice_length i (114 * m) 114 (by omega)) (h.getD (2 * m) false) (h.getD (2 * m + 1) false)
      simp only [mapBlock, unmapBits, unmapFlags, List.range_succ, List.flatMap_append,
        List.flatMap_singleton, Nat.mul_succ, List.take_add] at hblock hbits hflags ih ⊢
      rw [disagreements_append_append hblock, disagreements_append_append hbits,
        disagreements_append_append hflags, ih (by omega), ← slice, ← slice, ← slice, hburst, hpair]
      omega
  have hall := hfirst nb (Nat.le_refl nb)
  rwa [List.take_of_length_le hes.le, List.take_of_length_le hi.le, List.take_of_length_le hh.le] at hall

/-- Whether soft bit `k` of `s` is compared and has another sign than bit `k` of `y` (R127). -/
def wrongAt (s : List SBit) (y : List UBit) (k : Nat) : Bool :=
  decide ((s.getD k SBit.zero).toInt ≠ 0 ∧ (s.getD k SBit.zero).hard ≠ y.getD k false)

theorem disagreements_eq_countP {s : List SBit} {y : List UBit} (h : s.length = y.length) :
    disagreements s y = (List.range s.length).countP (wrongAt s y) := by
  induction s generalizing y with
  | nil => rw [List.length_eq_zero_iff.1 h.symm]; rfl
  | cons x xs ih =>
    cases y with
    | nil => cases h
    | cons b bs =>
      rw [disagreements, ih (Nat.succ.inj h), List.length_cons, List.range_succ_eq_map, List.countP_cons,
        List.countP_map, Nat.add_comm]
      congr 1
      simp [wrongAt]

/-- De-interleaving a block of four bursts keeps the number of wrong signs. -/
theorem disagreements_deinterleave {is : List SBit} {v : List UBit} (his : is.length = 456)
    (hv : v.length = 456) :
    disagreements (deinterleave .x4 is) v = disagreements is (interleave .x4 v) := by
  have hwrong : ∀ k ∈ List.range 456,
      wrongAt (deinterleave .x4 is) v k = (wrongAt is (interleave .x4 v) ∘ ilvIndex .x4) k := by
    intro k hk
    have hk := List.mem_range.1 hk
    have hsoft : (deinterleave .x4 is).getD k SBit.zero = is.getD (ilvIndex .x4 k) SBit.zero := by
      rw [List.getD_eq_getElem?_getD, deinterleave_getElem? .x4 is hk, Option.getD_some]
    have hbit : v.getD k false = (interleave .x4 v).getD (ilvIndex .x4 k) false := by
      rw [List.getD_eq_getElem?_getD, List.getD_eq_getElem?_getD, interleave_getElem? .x4 hv hk]
    simp only [wrongAt, Function.comp, hsoft, hbit]
  rw [disagreements_eq_countP (by rw [deinterleave_length, hv]),
    disagreements_eq_countP (by rw [his, interleave_length]; rfl), deinterleave_length, his,
    List.countP_congr fun k hk => by rw [hwrong k hk], ← List.countP_map, ilvIndex_x4_perm.countP_eq]

/-- Where the flags are right, the wrong signs of a block of four bursts are those of its coded bits. -/
theorem disagreements_softCoded {es : List SBit} {v h : List UBit} (hes : es.length = 464)
    (hv : v.length = 456) (hh : h.length = 8) (hflags : unmapFlags 4 es = softAll h) :
    disagreements (softCoded .x4 es) v = disagreements es (blockBursts .x4 v h) := by
  have hzero : disagreements (unmapFlags 4 es) h = 0 := by
    rw [hflags]
    exact (disagreements_softAll_eq_zero_iff rfl).2 rfl
  have hblock := disagreements_mapBlock (nb := 4) (i := interleave .x4 v) (h := h) hes
    (interleave_length .x4 v) hh
  rw [softCoded, disagreements_deinterleave (unmapBits_length (by rw [hes]; decide)) hv]
  rw [hzero, Nat.add_zero] at hblock
  exact hblock.symm

/-- The coded soft bits of a block are soft bits of the block. -/
theorem softCoded_mag {sel : ISel} {es : List SBit} (hes : es.length = 116 * nbiOf sel)
    (h : ∀ x ∈ es, x.mag = 127) : ∀ x ∈ softCoded sel es, x.mag = 127 := by
  intro x hx
  obtain ⟨k, -, rfl⟩ := List.mem_map.1 hx
  have hlt : ilvIndex sel k < (unmapBits (nbiOf sel) es).length :=
    (ilvIndex_lt sel k).trans_eq (unmapBits_length hes.ge).symm
  rw [List.getD_eq_getElem _ _ hlt]
  obtain ⟨b, -, hb⟩ := List.mem_flatMap.1 (List.getElem_mem hlt)
  refine h _ ?_
  rcases List.mem_append.1 hb with hb | hb <;> exact List.mem_of_mem_drop (List.mem_of_mem_take hb)

end Sys2Proof.Machine
end

