-- ==== Sys2Proof/Proofs/DecoderStages.lean ====
section
/-! The stages that the channel decoders share (44_codec_control.md R175 to R180): gathering, the decode step,
the checksum, each once on any input and once on a clean block. -/

namespace Sys2Proof.Machine

/-! ### Packed and unpacked bytes -/

/-- The bits of bytes, in either order, tell the bytes. -/
theorem eq_of_bitAt (o : BitOrder) {x y : List Byte} (hlen : x.length = y.length)
    (h : ∀ j, j < 8 * x.length → bitAt o x j = bitAt o y j) : x = y := by
  refine List.ext_getElem hlen fun b hx hy => BitVec.eq_of_getLsbD_eq fun k hk => ?_
  have hget {z : List Byte} (hz : b < z.length) : z.getD b 0 = z[b] := List.getD_eq_getElem _ _ hz
  cases o with
  | lsb =>
    have hbit := h (8 * b + k) (by omega)
    have hdiv : (8 * b + k) / 8 = b := by omega
    have hmod : (8 * b + k) % 8 = k := by omega
    rw [bitAt, bitAt, hdiv, hmod, hget hx, hget hy] at hbit
    exact hbit
  | msb =>
    have hbit := h (8 * b + (7 - k)) (by omega)
    have hdiv : (8 * b + (7 - k)) / 8 = b := by omega
    have hmod : 7 - (8 * b + (7 - k)) % 8 = k := by omega
    rw [bitAt, bitAt, hdiv, hmod, hget hx, hget hy] at hbit
    exact hbit

theorem bitAt_packBits_unpackBits (o : BitOrder) (pdu : List Byte) (n j : Nat) :
    bitAt o (packBits o (unpackBits o pdu n)) j = if j < n then bitAt o pdu j else false := by
  rw [bitAt_packBits, List.getD_eq_getElem?_getD]
  split
  · next hj => rw [unpackBits_getElem? o pdu hj, Option.getD_some]
  · next hj => rw [List.getElem?_eq_none (by rw [unpackBits_length]; omega), Option.getD_none]

/-- Whole bytes come back when their unused bits are 0. -/
theorem packBits_unpackBits (o : BitOrder) {pdu : List Byte} {n : Nat} (hlen : (n + 7) / 8 = pdu.length)
    (hspare : ∀ j, n ≤ j → j < 8 * pdu.length → bitAt o pdu j = false) :
    packBits o (unpackBits o pdu n) = pdu := by
  have hlength : (packBits o (unpackBits o pdu n)).length = pdu.length := by
    rw [packBits_length, unpackBits_length, hlen]
  refine eq_of_bitAt o hlength fun j hj => ?_
  rw [bitAt_packBits_unpackBits]
  split
  · rfl
  · exact (hspare j (by omega) (by omega)).symm

theorem packBits_unpackBits_whole (o : BitOrder) {pdu : List Byte} {n : Nat} (hlen : n = 8 * pdu.length) :
    packBits o (unpackBits o pdu n) = pdu :=
  packBits_unpackBits o (by omega) fun j hj hj' => by omega

/-! ### Pieces of a decoded word -/

theorem slice_append_right {α : Type} {x y : List α} {a n : Nat} (hx : x.length = a) (hy : y.length = n)
    (z : List α) : slice (x ++ y ++ z) a n = y := by
  rw [slice, List.append_assoc, List.drop_left' hx, List.take_left' hy]

theorem slice_append_end {α : Type} {x y : List α} {a n : Nat} (hx : x.length = a) (hy : y.length = n) :
    slice (x ++ y) a n = y := by
  rw [← List.append_nil (x ++ y), slice_append_right hx hy]

/-! ### The decode step (R126, R127) -/

theorem convNbits_of_full {s : List SBit} (h : ∀ x ∈ s, x.mag = 127) : convNbits s = s.length :=
  List.countP_eq_length.2 fun x hx => decide_eq_true (SBit.toInt_ne_zero (h x hx))

/-- The coded info word of a block is the candidate that its payload and parity stand for (R125). -/
theorem convEnc_infoWord (d p : List UBit) : convEnc xcchCode (infoWord d p) =
    candidateWord xcchCode (2 * (d.length + p.length + 4)) (d ++ p) := by
  have htail : 2 * (d.length + p.length + 4) / xcchCode.n - (d ++ p).length = 4 := by
    rw [show xcchCode.n = 2 from rfl, List.length_append]
    omega
  show _ = convEnc xcchCode (d ++ p ++ List.replicate _ false)
  rw [htail, infoWord]

section InfoWord

variable {d p : List UBit} {kd : Nat} (hkd : d.length + p.length = kd)

include hkd

theorem infoWord_decodeLenOk : decodeLenOk xcchCode (2 * (d.length + p.length + 4)) kd = true :=
  (xcch_decodeLenOk_iff _ _).2 (by omega)

theorem convDecP_infoWord (P : Params) :
    convDecP P xcchCode (softAll (convEnc xcchCode (infoWord d p))) kd = d ++ p := by
  rw [convEnc_infoWord]
  exact convDec_clean _ xcchCode_wf ⟨[0, 3, 4], by decide, by decide⟩ (infoWord_decodeLenOk hkd)
    (by rw [List.length_append, hkd])

theorem convNerr_infoWord : convNerr xcchCode (softAll (convEnc xcchCode (infoWord d p))) (d ++ p) = 0 := by
  rw [convEnc_infoWord]
  exact convNerr_clean (infoWord_decodeLenOk hkd) (by rw [List.length_append, hkd])

/-- The word and the error estimate that R126 and R127 give for a clean coded info word. -/
theorem Decoded.of_infoWord {P : Params} {u : List UBit} {r : Res}
    (h : Decoded P xcchCode (softAll (convEnc xcchCode (infoWord d p))) kd u r) :
    u = d ++ p ∧ r.nerr = 0 ∧ r.nbits = BitVec.ofNat 16 (2 * (kd + 4)) := by
  have hu : u = d ++ p := h.word.trans (convDecP_infoWord hkd P)
  have hnbits : convNbits (softAll (convEnc xcchCode (infoWord d p))) = 2 * (kd + 4) := by
    rw [convNbits_of_full (softAll_mag _), softAll_length, infoWord_coded_length, hkd]
  refine ⟨hu, ?_, h.nbits.trans (congrArg _ hnbits)⟩
  rw [h.nerr, hu, ← convNerr, convNerr_infoWord hkd]
  rfl

end InfoWord

/-! ### What the stages leave unchanged -/

/-- `t` is `s` but for the decoders' buffers, `STAT` and `RES`. -/
structure State.DecodesTo (s t : State) : Prop where
  frame : t = { s with
    mem := { s.mem with
      is := t.mem.is, hs := t.mem.hs, cs := t.mem.cs, u := t.mem.u, par := t.mem.par, pdu := t.mem.pdu }
    free := t.free, stat := t.stat, res := t.res }

namespace State.DecodesTo

theorem refl (s : State) : s.DecodesTo s := ⟨rfl⟩

theorem trans {s t v : State} (h : s.DecodesTo t) (h' : t.DecodesTo v) : s.DecodesTo v :=
  ⟨h'.frame.trans (by rw [h.frame])⟩

variable {s t : State}

theorem gather (h : s.DecodesTo t) (sel : ISel) (es : List SBit) : s.DecodesTo (t.gather sel es) :=
  h.trans ⟨rfl⟩

theorem setRes (h : s.DecodesTo t) (r : Res) : s.DecodesTo { t with res := r } := h.trans ⟨rfl⟩

theorem setU (h : s.DecodesTo t) (xs : List UBit) : s.DecodesTo (t.setU xs) := h.trans ⟨rfl⟩

theorem setPar (h : s.DecodesTo t) (xs : List UBit) : s.DecodesTo (t.setPar xs) := h.trans ⟨rfl⟩

theorem setSoftC (h : s.DecodesTo t) (xs : List SBit) : s.DecodesTo (t.setSoftC xs) := h.trans ⟨rfl⟩

theorem trellis (h : s.DecodesTo t) (P : Params) (code : Code) (soft : List SBit) (kd : Nat) :
    s.DecodesTo (t.trellis P code soft kd) := h.trans ⟨rfl⟩

theorem raise (h : s.DecodesTo t) (e : ErrCode) (info : Nat) : s.DecodesTo (t.raise e info) := h.trans ⟨rfl⟩

theorem setPdu (h : s.DecodesTo t) (xs : List Byte) : s.DecodesTo (t.setPdu xs) := h.trans ⟨rfl⟩

/-- The frame with the known `RES`. -/
theorem frame_of_res (h : s.DecodesTo t) {r : Res} (hres : t.res = r) : t = { s with
    mem := { s.mem with
      is := t.mem.is, hs := t.mem.hs, cs := t.mem.cs, u := t.mem.u, par := t.mem.par, pdu := t.mem.pdu }
    free := t.free, stat := t.stat, res := r } := by
  rw [← hres]
  exact h.frame

end State.DecodesTo

/-! ### Gathering (R178) -/

section Gather

variable (s : State) (sel : ISel) (es : List SBit)

theorem State.gather_softI : (s.gather sel es).softI = unmapBits (nbiOf sel) es := by
  simp [State.gather, State.setUnmapped]

theorem State.gather_softH : (s.gather sel es).softH = unmapFlags (nbiOf sel) es := by
  simp [State.gather, State.setUnmapped]

theorem State.gather_softC : (s.gather sel es).softC = softCoded sel es := by
  simp [State.gather]

/-- A state whose gathering buffers are those that gathering left. -/
theorem gathered_of_eq {t : State} (hi : t.softI = (s.gather sel s.softE).softI)
    (hh : t.softH = (s.gather sel s.softE).softH) : Gathered sel s t (softCoded sel s.softE) where
  positions := hi.trans (s.gather_softI sel _)
  flags := hh.trans (s.gather_softH sel _)
  coded := by rw [hi, s.gather_softI]; rfl

end Gather

/-! ### The checksum (R175 (c)) -/

/-- `t` is `s` after the checksum stage of a decoder that began in `s₀`. -/
structure State.Checked (s₀ s t : State) (x : CrcSel) (d p : List UBit) (pdu : List Byte) : Prop where
  parity : t.par = p
  verdict : Verdict s₀ t x d p pdu
  frame : t = { s with
    mem := { s.mem with par := t.mem.par, pdu := t.mem.pdu }, free := t.free, stat := t.stat }

/-- The verdict decides on `PDU` and `STAT`. -/
theorem State.checkBlock_checked {s₀ s : State} (hpdu : s.mem.pdu = s₀.mem.pdu) (x : CrcSel)
    (d p : List UBit) (pdu : List Byte) :
    ∃ t, (s.checkBlock x d p pdu).finish = .next t ∧ s₀.Checked s t x d p pdu := by
  rcases s.checkBlock_cases x d p pdu with ⟨hchk, heq⟩ | ⟨hchk, heq⟩
  · refine ⟨((s.setPar p).setPdu pdu).raise .none 0, congrArg Cmd.finish heq, State.setPar_par s p,
      ⟨fun _ => ⟨rfl, State.setPdu_pdu _ pdu⟩, fun hbad => ?_⟩, rfl⟩
    rw [hchk] at hbad
    cases hbad
  · refine ⟨(s.setPar p).raise .badBlock x.code.toNat, congrArg Cmd.finish heq, State.setPar_par s p,
      ⟨fun hgood => ?_, fun _ => ⟨rfl, hpdu⟩⟩, rfl⟩
    rw [hchk] at hgood
    cases hgood

section Checked

variable {s₀ s t : State} {x : CrcSel} {d p : List UBit} {pdu : List Byte}
  (h : s₀.Checked s t x d p pdu)

include h

theorem State.Checked.u_eq : t.u = s.u := by rw [h.frame]; rfl
theorem State.Checked.softI_eq : t.softI = s.softI := by rw [h.frame]; rfl
theorem State.Checked.softH_eq : t.softH = s.softH := by rw [h.frame]; rfl
theorem State.Checked.softC_eq : t.softC = s.softC := by rw [h.frame]; rfl
theorem State.Checked.res_eq : t.res = s.res := by rw [h.frame]

theorem State.Checked.decodesTo {v : State} (hv : v.DecodesTo s) : v.DecodesTo t :=
  hv.trans ⟨h.frame.trans (by rw [h.frame])⟩

end Checked

/-! ### The decode step and the checksum together -/

/-- `t` is `s` after the decode step and the checksum stage of a decoder that began in `s₀`. -/
structure State.BlockDecoded (P : Params) (s₀ s t : State) (code : Code) (soft : List SBit) (kd : Nat)
    (x : CrcSel) (d p : List UBit) (pdu : List Byte) : Prop where
  word : Decoded P code soft kd t.u t.res
  checked : s₀.Checked (s.trellis P code soft kd) t x d p pdu

/-- What the decode step leaves is what R126 and R127 say, on any input. -/
theorem State.trellis_decoded (P : Params) (s : State) (code : Code) (soft : List SBit) (kd : Nat) :
    Decoded P code soft kd (s.trellis P code soft kd).u (s.trellis P code soft kd).res where
  word := State.trellis_u P s code soft kd
  nerr := by rw [State.trellis_u]; rfl
  nbits := rfl

section BlockDecoded

variable {P : Params} {s₀ s t : State} {code : Code} {soft : List SBit} {kd : Nat} {x : CrcSel}
  {d p : List UBit} {pdu : List Byte}

theorem State.checkBlock_blockDecoded (hpdu : s.mem.pdu = s₀.mem.pdu) :
    ∃ t, ((s.trellis P code soft kd).checkBlock x d p pdu).finish = .next t ∧
      State.BlockDecoded P s₀ s t code soft kd x d p pdu := by
  obtain ⟨t, hfinish, hchecked⟩ :=
    State.checkBlock_checked (s₀ := s₀) (s := s.trellis P code soft kd) hpdu x d p pdu
  refine ⟨t, hfinish, ?_, hchecked⟩
  rw [hchecked.u_eq, hchecked.res_eq]
  exact s.trellis_decoded P code soft kd

variable (h : State.BlockDecoded P s₀ s t code soft kd x d p pdu)

include h

theorem State.BlockDecoded.softI_eq : t.softI = s.softI := h.checked.softI_eq
theorem State.BlockDecoded.softH_eq : t.softH = s.softH := h.checked.softH_eq
theorem State.BlockDecoded.softC_eq : t.softC = s.softC := h.checked.softC_eq

theorem State.BlockDecoded.res_eq : t.res = { s.res with nerr := t.res.nerr, nbits := t.res.nbits } := by
  rw [h.checked.res_eq]
  rfl

theorem State.BlockDecoded.decodesTo {v : State} (hv : v.DecodesTo s) : v.DecodesTo t :=
  h.checked.decodesTo (hv.trellis P code soft kd)

theorem State.BlockDecoded.frame : t = { s with
    mem := { s.mem with u := t.mem.u, par := t.mem.par, pdu := t.mem.pdu }
    free := t.free, stat := t.stat
    res := { s.res with nerr := t.res.nerr, nbits := t.res.nbits } } := by
  rw [← h.res_eq]
  exact h.checked.frame.trans (by rw [h.checked.frame]; rfl)

end BlockDecoded

/-! ### The control-channel stages (R179) -/

/-- On any input: decode step, parity, checksum. -/
theorem State.decodeControl_blockDecoded (P : Params) {s₀ s : State} (hpdu : s.mem.pdu = s₀.mem.pdu)
    (cs : List SBit) :
    ∃ t, (s.decodeControl P cs).finish = .next t ∧ State.BlockDecoded P s₀ s t xcchCode cs 224 .fire40
      ((convDecP P xcchCode cs 224).take 184) (slice (convDecP P xcchCode cs 224) 184 40)
      (packLsb ((convDecP P xcchCode cs 224).take 184)) :=
  State.checkBlock_blockDecoded hpdu

theorem State.BlockDecoded.controlDecoded {P : Params} {s₀ s t : State} {cs : List SBit}
    (h : State.BlockDecoded P s₀ s t xcchCode cs 224 .fire40 ((convDecP P xcchCode cs 224).take 184)
      (slice (convDecP P xcchCode cs 224) 184 40)
      (packLsb ((convDecP P xcchCode cs 224).take 184))) : ControlDecoded P s₀ t cs where
  word := h.word
  parity := by rw [h.checked.parity, h.word.word, slice]
  verdict := by
    rw [h.checked.parity, h.word.word]
    exact h.checked.verdict

theorem controlBits_length (pdu : List Byte) : (controlBits pdu).length = 184 := unpackLsb_length _ _

theorem controlWord_length (pdu : List Byte) :
    (controlBits pdu).length + (crcGen .fire40 (controlBits pdu)).length = 224 := by
  rw [controlBits_length, crcGen_length, crcWidth]

/-- Where the decoded word is that of a 23-byte PDU, the PDU comes back. -/
theorem ControlDecoded.of_word {P : Params} {s t : State} {cs : List SBit} (h : ControlDecoded P s t cs)
    {pdu : List Byte} (hlen : pdu.length = 23)
    (hu : t.u = controlBits pdu ++ crcGen .fire40 (controlBits pdu)) :
    t.stat = Stat.ok ∧ t.pdu = pdu ∧ t.par = crcGen .fire40 (controlBits pdu) := by
  have hd := controlBits_length pdu
  have hpdu : packLsb (controlBits pdu) = pdu := packBits_unpackBits_whole .lsb (by rw [hlen])
  have hpar : t.par = crcGen .fire40 (controlBits pdu) := by
    rw [h.parity, hu, List.drop_left' hd]
    exact List.take_of_length_le (crcGen_length .fire40 _).le
  have hverdict := h.verdict
  rw [hpar, hu, List.take_left' hd, hpdu] at hverdict
  obtain ⟨hstat, hpdu'⟩ := hverdict.good ((crcChk_eq_true_iff _ _ _).2 rfl)
  exact ⟨hstat, hpdu', hpar⟩

/-- On the clean coded bits of a 23-byte PDU. -/
theorem ControlDecoded.of_clean {P : Params} {s t : State} {pdu : List Byte}
    (h : ControlDecoded P s t (softAll (controlCoded pdu))) (hlen : pdu.length = 23) :
    t.u = controlBits pdu ++ crcGen .fire40 (controlBits pdu) ∧ t.stat = Stat.ok ∧ t.pdu = pdu ∧
      t.par = crcGen .fire40 (controlBits pdu) ∧ t.res.nerr = 0 ∧ t.res.nbits = 456 := by
  obtain ⟨hu, hnerr, hnbits⟩ := Decoded.of_infoWord (controlWord_length pdu) h.word
  obtain ⟨hstat, hpdu, hpar⟩ := h.of_word hlen hu
  exact ⟨hu, hstat, hpdu, hpar, hnerr, hnbits⟩

end Sys2Proof.Machine
end

