-- ==== Sys2Proof/Proofs/ControlDecoders.lean ====
section
/-! `XCCH.DEC`, `RACH.DEC` and `SCH.DEC` (44_codec_control.md R178 to R194): each on any input, then on the
inputs that the laws speak of. -/

namespace Sys2Proof.Machine

/-! ### `XCCH.DEC` (R179, R180) -/

theorem exec_xcchDec {s : State} (h : s.mem.es.len = 464) :
    exec .xcchDec s = ((s.gather .x4 s.softE).decodeControl Config.inst (softCoded .x4 s.softE)).finish :=
  congrArg Cmd.finish (if_neg (not_not.2 h))

/-- Any 464 soft bits (R175 (c), R178, R179). -/
theorem xcchDec_any {s : State} (h : s.mem.es.len = 464) :
    ∃ t, exec .xcchDec s = .next t ∧ Gathered .x4 s t (softCoded .x4 s.softE) ∧
    t.softC = softCoded .x4 s.softE ∧ ControlDecoded Config.inst s t (softCoded .x4 s.softE) ∧
    t = { s with
      mem := { s.mem with
        is := t.mem.is, hs := t.mem.hs, cs := t.mem.cs, u := t.mem.u, par := t.mem.par,
        pdu := t.mem.pdu }
      free := t.free, stat := t.stat
      res := { s.res with nerr := t.res.nerr, nbits := t.res.nbits } } := by
  obtain ⟨t, hfinish, hdecoded⟩ := State.decodeControl_blockDecoded Config.inst (s₀ := s)
    (s := s.gather .x4 s.softE) rfl (softCoded .x4 s.softE)
  exact ⟨t, (exec_xcchDec h).trans hfinish, gathered_of_eq s .x4 hdecoded.softI_eq hdecoded.softH_eq,
    hdecoded.softC_eq.trans (s.gather_softC .x4 _), hdecoded.controlDecoded,
    (hdecoded.decodesTo ((State.DecodesTo.refl s).gather .x4 s.softE)).frame_of_res hdecoded.res_eq⟩

theorem softE_len_of_eq {s : State} {es : List SBit} (h : s.softE = es) : s.mem.es.len = es.length := by
  rw [← h, State.softE_length]

/-- A clean block of a 23-byte PDU (R180 (a)). -/
theorem xcchDec_clean {pdu : List Byte} {h : List UBit} {s : State} (hpdu : pdu.length = 23)
    (hh : h.length = 8) (hs : s.softE = softAll (blockBursts .x4 (controlCoded pdu) h)) :
    ∃ t, exec .xcchDec s = .next t ∧ t.pdu = pdu ∧
    t.softI = softAll (interleave .x4 (controlCoded pdu)) ∧ t.softH = softAll h ∧
    t.softC = softAll (controlCoded pdu) ∧
    t.u = unpackLsb pdu 184 ++ crcGen .fire40 (unpackLsb pdu 184) ∧
    t.par = crcGen .fire40 (unpackLsb pdu 184) ∧
    t = { s with
      mem := { s.mem with
        is := t.mem.is, hs := t.mem.hs, cs := t.mem.cs, u := t.mem.u, par := t.mem.par,
        pdu := t.mem.pdu }
      free := t.free, stat := Stat.ok, res := { s.res with nerr := 0, nbits := 456 } } := by
  have hlen : s.mem.es.len = 464 := by
    rw [softE_len_of_eq hs, softAll_length, blockBursts_length]
    rfl
  obtain ⟨t, hexec, hgathered, hc, hdecoded, hframe⟩ := xcchDec_any hlen
  have hi := hgathered.positions
  have hf := hgathered.flags
  rw [hs, softCoded_clean .x4 (controlCoded_length pdu)] at hc hdecoded
  rw [hs, unmapBits_clean] at hi
  rw [hs, unmapFlags_clean .x4 _ hh] at hf
  obtain ⟨hu, hstat, hpdu', hpar, hnerr, hnbits⟩ := hdecoded.of_clean hpdu
  rw [hstat, hnerr, hnbits] at hframe
  exact ⟨t, hexec, hpdu', hi, hf, hc, hu, hpar, hframe⟩

/-- Up to three wrong signs at full confidence (R180 (b)). -/
theorem xcchDec_corrects {pdu : List Byte} {h : List UBit} {s : State} (hpdu : pdu.length = 23)
    (hh : h.length = 8) (hlen : s.mem.es.len = 464) (hfull : ∀ x ∈ s.softE, x.mag = 127)
    (hflags : unmapFlags 4 s.softE = softAll h)
    (hflips : disagreements s.softE (blockBursts .x4 (controlCoded pdu) h) ≤ 3) :
    ∃ t, exec .xcchDec s = .next t ∧ t.stat = Stat.ok ∧ t.pdu = pdu ∧ t.res.nbits = 456 ∧
    t.res.nerr =
      BitVec.ofNat 16 (disagreements s.softE (blockBursts .x4 (controlCoded pdu) h)) := by
  have hes : s.softE.length = 464 := by rw [State.softE_length, hlen]
  have hcs : (softCoded .x4 s.softE).length = 456 := deinterleave_length _ _
  have hcoded : controlCoded pdu = candidateWord xcchCode (softCoded .x4 s.softE).length
      (controlBits pdu ++ crcGen .fire40 (controlBits pdu)) := by
    rw [hcs, controlCoded, convEnc_infoWord, controlWord_length]
  have hwrong : disagreements (softCoded .x4 s.softE) (controlCoded pdu) =
      disagreements s.softE (blockBursts .x4 (controlCoded pdu) h) :=
    disagreements_softCoded hes (controlCoded_length pdu) hh hflags
  have hmag := softCoded_mag (sel := .x4) hes hfull
  have hok : decodeLenOk xcchCode (softCoded .x4 s.softE).length 224 = true := by rw [hcs]; decide
  obtain ⟨t, hexec, -, -, hdecoded, -⟩ := xcchDec_any hlen
  have hu : t.u = controlBits pdu ++ crcGen .fire40 (controlBits pdu) :=
    hdecoded.word.word.trans (xcch_convDec_corrects _ hok (by omega)
      (by rw [List.length_append, controlWord_length]) hmag (by rw [← hcoded, hwrong]; exact hflips))
  obtain ⟨hstat, hpdu', -⟩ := hdecoded.of_word hpdu hu
  refine ⟨t, hexec, hstat, hpdu', ?_, ?_⟩
  · rw [hdecoded.word.nbits, ← convNbits, convNbits_of_full hmag, hcs]
    rfl
  · rw [hdecoded.word.nerr, hu, ← hcoded, hwrong]

/-! ### `RACH.DEC` (R183, R186, R187) -/

theorem xorBsic_getElem? (bsic : BitVec 6) (p : List UBit) {k : Nat} (hk : k < 6) :
    (xorBsic bsic p)[k]? = some (p.getD k false ^^ bsic.getLsbD (5 - k)) := by
  simp [xorBsic, hk]

/-- The identity code leaves the parity as it entered it, and no other code does. -/
theorem xorBsic_xorBsic_eq_iff {bsic bsic' : BitVec 6} {p : List UBit} (hp : p.length = 6) :
    xorBsic bsic' (xorBsic bsic p) = p ↔ bsic' = bsic := by
  have hbit {k : Nat} (hk : k < 6) : (xorBsic bsic' (xorBsic bsic p))[k]? =
      some ((p.getD k false ^^ bsic.getLsbD (5 - k)) ^^ bsic'.getLsbD (5 - k)) := by
    rw [xorBsic_getElem? _ _ hk, List.getD_eq_getElem?_getD, xorBsic_getElem? _ _ hk, Option.getD_some]
  constructor
  · intro h
    refine BitVec.eq_of_getLsbD_eq fun i hi => ?_
    have hk := hbit (k := 5 - i) (by omega)
    have hi' : 5 - (5 - i) = i := by omega
    rw [h, List.getElem?_eq_getElem (by omega), List.getD_eq_getElem _ _ (by omega), hi'] at hk
    have hxor := Option.some.inj hk
    cases hb : bsic.getLsbD i <;> cases hb' : bsic'.getLsbD i <;> simp [hb, hb'] at hxor ⊢
  · rintro rfl
    refine List.ext_getElem? fun k => ?_
    by_cases hk : k < 6
    · rw [hbit hk, Bool.xor_assoc, Bool.xor_self, Bool.xor_false, List.getD_eq_getElem _ _ (by omega),
        List.getElem?_eq_getElem (by omega)]
    · rw [List.getElem?_eq_none (by rw [xorBsic_length]; omega), List.getElem?_eq_none (by omega)]

theorem exec_rachDec (bsic : BitVec 6) {s : State} (h : s.mem.cs.len = 36) :
    exec (.rachDec bsic) s = ((s.trellis Config.inst xcchCode s.softC 14).checkBlock .crc6
      ((convDecP Config.inst xcchCode s.softC 14).take 8)
      (xorBsic bsic (slice (convDecP Config.inst xcchCode s.softC 14) 8 6))
      (packLsb ((convDecP Config.inst xcchCode s.softC 14).take 8))).finish :=
  congrArg Cmd.finish (if_neg (not_not.2 h))

/-- Any 36 soft bits (R186). -/
theorem rachDec_any (bsic : BitVec 6) {s : State} (h : s.mem.cs.len = 36) :
    ∃ t, exec (.rachDec bsic) s = .next t ∧ Decoded Config.inst xcchCode s.softC 14 t.u t.res ∧
    t.par = xorBsic bsic (slice t.u 8 6) ∧ Verdict s t .crc6 (t.u.take 8) t.par (packLsb (t.u.take 8)) ∧
    t = { s with
      mem := { s.mem with u := t.mem.u, par := t.mem.par, pdu := t.mem.pdu }
      free := t.free, stat := t.stat
      res := { s.res with nerr := t.res.nerr, nbits := t.res.nbits } } := by
  obtain ⟨t, hfinish, hdecoded⟩ := State.checkBlock_blockDecoded (P := Config.inst) (s₀ := s) (s := s)
    (code := xcchCode) (soft := s.softC) (kd := 14) (x := .crc6)
    (d := (convDecP Config.inst xcchCode s.softC 14).take 8)
    (p := xorBsic bsic (slice (convDecP Config.inst xcchCode s.softC 14) 8 6))
    (pdu := packLsb ((convDecP Config.inst xcchCode s.softC 14).take 8)) rfl
  have hpar := hdecoded.checked.parity
  have hverdict := hdecoded.checked.verdict
  rw [← hdecoded.word.word] at hpar hverdict
  rw [← hpar] at hverdict
  exact ⟨t, (exec_rachDec bsic h).trans hfinish, hdecoded.word, hpar, hverdict, hdecoded.frame⟩

/-- A clean request, decoded with any identity code: what stands before the verdict. -/
theorem rachDec_cleanWord {ra : Byte} {bsic : BitVec 6} {s : State}
    (hs : s.softC = softAll (rachCoded bsic (unpackLsb [ra] 8))) (bsic' : BitVec 6) :
    ∃ t, exec (.rachDec bsic') s = .next t ∧
    Verdict s t .crc6 (unpackLsb [ra] 8)
      (xorBsic bsic' (xorBsic bsic (crcGen .crc6 (unpackLsb [ra] 8)))) [ra] ∧
    t = { s with
      mem := { s.mem with u := t.mem.u, par := t.mem.par, pdu := t.mem.pdu }
      free := t.free, stat := t.stat, res := { s.res with nerr := 0, nbits := 36 } } := by
  have hd : (unpackLsb [ra] 8).length = 8 := unpackLsb_length _ _
  have hp := xorBsic_length bsic (crcGen .crc6 (unpackLsb [ra] 8))
  have hkd : (unpackLsb [ra] 8).length + (xorBsic bsic (crcGen .crc6 (unpackLsb [ra] 8))).length = 14 := by
    rw [hd, hp]
  have hpdu : packLsb (unpackLsb [ra] 8) = [ra] := packBits_unpackBits_whole .lsb rfl
  have hlen : s.mem.cs.len = 36 := by
    rw [← State.softC_length, hs, softAll_length, rachCoded, infoWord_coded_length, hkd]
  obtain ⟨t, hexec, hdecoded, hpar, hverdict, hframe⟩ := rachDec_any bsic' hlen
  rw [hs, rachCoded] at hdecoded
  obtain ⟨hu, hnerr, hnbits⟩ := Decoded.of_infoWord hkd hdecoded
  rw [hpar, hu, List.take_left' hd, slice_append_end hd hp, hpdu] at hverdict
  rw [hnerr, hnbits] at hframe
  exact ⟨t, hexec, hverdict, hframe⟩

/-- With the identity code of the request (R187 (a)). -/
theorem rachDec_clean {ra : Byte} {bsic : BitVec 6} {s : State}
    (hs : s.softC = softAll (rachCoded bsic (unpackLsb [ra] 8))) :
    ∃ t, exec (.rachDec bsic) s = .next t ∧ t.pdu = [ra] ∧
    t = { s with
      mem := { s.mem with u := t.mem.u, par := t.mem.par, pdu := t.mem.pdu }
      free := t.free, stat := Stat.ok, res := { s.res with nerr := 0, nbits := 36 } } := by
  obtain ⟨t, hexec, hverdict, hframe⟩ := rachDec_cleanWord hs bsic
  rw [(xorBsic_xorBsic_eq_iff (crcGen_length .crc6 _)).2 rfl] at hverdict
  obtain ⟨hstat, hpdu⟩ := hverdict.good ((crcChk_eq_true_iff _ _ _).2 rfl)
  rw [hstat] at hframe
  exact ⟨t, hexec, hpdu, hframe⟩

/-- With any other identity code (R187 (b)). -/
theorem rachDec_otherCode {ra : Byte} {bsic bsic' : BitVec 6} {s : State}
    (hs : s.softC = softAll (rachCoded bsic (unpackLsb [ra] 8))) (hne : bsic' ≠ bsic) :
    ∃ t, exec (.rachDec bsic') s = .next t ∧
    t = { s with
      mem := { s.mem with u := t.mem.u, par := t.mem.par }
      free := t.free, stat := Stat.error .badBlock 3
      res := { s.res with nerr := 0, nbits := 36 } } := by
  obtain ⟨t, hexec, hverdict, hframe⟩ := rachDec_cleanWord hs bsic'
  have hparity := fun h => hne ((xorBsic_xorBsic_eq_iff (crcGen_length .crc6 (unpackLsb [ra] 8))).1 h)
  obtain ⟨hstat, hpdu⟩ := hverdict.bad ((crcChk_eq_false_iff _ _ _).2 fun h => hparity h.symm)
  rw [hstat, hpdu] at hframe
  exact ⟨t, hexec, hframe⟩

/-! ### `SCH.DEC` (R190 to R194) -/

theorem exec_schDec {s : State} (h : s.mem.cs.len = 78) :
    exec .schDec s = ((s.trellis Config.inst xcchCode s.softC 35).checkBlock .crc10
      ((convDecP Config.inst xcchCode s.softC 35).take 25)
      (slice (convDecP Config.inst xcchCode s.softC 35) 25 10)
      (packLsb ((convDecP Config.inst xcchCode s.softC 35).take 25))).finish :=
  congrArg Cmd.finish (if_neg (not_not.2 h))

/-- Any 78 soft bits (R193). -/
theorem schDec_any {s : State} (h : s.mem.cs.len = 78) : ∃ t, exec .schDec s = .next t ∧
    Decoded Config.inst xcchCode s.softC 35 t.u t.res ∧ t.par = (t.u.drop 25).take 10 ∧
    Verdict s t .crc10 (t.u.take 25) t.par (packLsb (t.u.take 25)) ∧
    t = { s with
      mem := { s.mem with u := t.mem.u, par := t.mem.par, pdu := t.mem.pdu }
      free := t.free, stat := t.stat
      res := { s.res with nerr := t.res.nerr, nbits := t.res.nbits } } := by
  obtain ⟨t, hfinish, hdecoded⟩ := State.checkBlock_blockDecoded (P := Config.inst) (s₀ := s) (s := s)
    (code := xcchCode) (soft := s.softC) (kd := 35) (x := .crc10)
    (d := (convDecP Config.inst xcchCode s.softC 35).take 25)
    (p := slice (convDecP Config.inst xcchCode s.softC 35) 25 10)
    (pdu := packLsb ((convDecP Config.inst xcchCode s.softC 35).take 25)) rfl
  have hpar := hdecoded.checked.parity
  have hverdict := hdecoded.checked.verdict
  rw [← hdecoded.word.word] at hpar hverdict
  rw [← hpar] at hverdict
  exact ⟨t, (exec_schDec h).trans hfinish, hdecoded.word, hpar, hverdict, hdecoded.frame⟩

/-- The 25 payload bits of four bytes leave bit 0 of the last. -/
theorem packLsb_unpackLsb_25 (a b c d : Byte) :
    packLsb (unpackLsb [a, b, c, d] 25) = [a, b, c, d &&& 1] := by
  have hpack : packLsb (unpackLsb [a, b, c, d] 25) = packLsb (unpackLsb [a, b, c, d &&& 1] 25) := by
    refine congrArg packLsb (List.ext_getElem? fun j => ?_)
    by_cases hj : j < 25
    · refine (unpackBits_getElem? .lsb _ hj).trans (.trans ?_ (unpackBits_getElem? .lsb _ hj).symm)
      by_cases hlast : j = 24
      · subst hlast
        simp [bitAt]
      · have hbyte : j / 8 < 3 := by omega
        simp only [bitAt]
        congr 2
        interval_cases j / 8 <;> rfl
    · rw [List.getElem?_eq_none (by rw [unpackLsb_length]; omega),
        List.getElem?_eq_none (by rw [unpackLsb_length]; omega)]
  rw [hpack]
  refine packBits_unpackBits .lsb rfl fun j hj hj' => ?_
  simp only [List.length_cons, List.length_nil] at hj'
  have hbyte : j / 8 = 3 := by omega
  have hbit : j % 8 ≠ 0 := by omega
  simp only [bitAt, hbyte]
  simp [hbit]

/-- A clean synchronisation block (R194). -/
theorem schDec_clean {a b c d : Byte} {s : State}
    (hs : s.softC = softAll (schCoded (unpackLsb [a, b, c, d] 25))) :
    ∃ t, exec .schDec s = .next t ∧ t.pdu = [a, b, c, d &&& 1] ∧
    t = { s with
      mem := { s.mem with u := t.mem.u, par := t.mem.par, pdu := t.mem.pdu }
      free := t.free, stat := Stat.ok, res := { s.res with nerr := 0, nbits := 78 } } := by
  have hd : (unpackLsb [a, b, c, d] 25).length = 25 := unpackLsb_length _ _
  have hp : (crcGen .crc10 (unpackLsb [a, b, c, d] 25)).length = 10 := crcGen_length _ _
  have hkd : (unpackLsb [a, b, c, d] 25).length + (crcGen .crc10 (unpackLsb [a, b, c, d] 25)).length =
      35 := by
    rw [hd, hp]
  have hlen : s.mem.cs.len = 78 := by
    rw [← State.softC_length, hs, softAll_length, schCoded, infoWord_coded_length, hkd]
  obtain ⟨t, hexec, hdecoded, hpar, hverdict, hframe⟩ := schDec_any hlen
  rw [hs, schCoded] at hdecoded
  obtain ⟨hu, hnerr, hnbits⟩ := Decoded.of_infoWord hkd hdecoded
  rw [hpar, hu, List.take_left' hd, List.drop_left' hd, List.take_of_length_le hp.le,
    packLsb_unpackLsb_25] at hverdict
  obtain ⟨hstat, hpdu⟩ := hverdict.good ((crcChk_eq_true_iff _ _ _).2 rfl)
  rw [hstat, hnerr, hnbits] at hframe
  exact ⟨t, hexec, hpdu, hframe⟩

end Sys2Proof.Machine

namespace Sys2Proof.Proofs

open Sys2Proof.Machine

/-- Settles O27: gathering undoes the burst mapping and keeps the number of wrong signs, and the decoder
corrects up to three. -/
theorem xcchRoundTrip : Obligations.XcchRoundTrip := by
  unfold Obligations.XcchRoundTrip
  refine ⟨fun _ _ _ hpdu hh hs => xcchDec_clean hpdu hh hs, fun s h => ?_, ?_⟩
  · obtain ⟨t, hany⟩ := xcchDec_any h
    exact ⟨t, _, hany⟩
  · rintro pdu h s _ hpdu hh hlen hfull hflags rfl hflips
    exact xcchDec_corrects hpdu hh hlen hfull hflags hflips

/-- Settles O28: the identity code is taken off the parity before the check, and only the right one takes off
what was put on. -/
theorem rachRoundTrip : Obligations.RachRoundTrip := by
  unfold Obligations.RachRoundTrip
  refine ⟨fun ra bsic s hs => ⟨rachDec_clean hs, fun _ hne => rachDec_otherCode hs hne⟩,
    fun bsic s h => ?_⟩
  obtain ⟨t, hexec, hdecoded, hpar, hverdict, hframe⟩ := rachDec_any bsic h
  refine ⟨t, hexec, hdecoded, ?_, fun k hk => ?_, hverdict, hframe⟩
  · rw [← State.par_length, hpar, xorBsic_length]
  · rw [hpar, xorBsic_getElem? _ _ hk, List.getD_eq_getElem?_getD, getElem?_slice _ _ hk,
      List.getD_eq_getElem?_getD]

/-- Settles O29: of the last byte only bit 0 is sent. -/
theorem schRoundTrip : Obligations.SchRoundTrip := by
  unfold Obligations.SchRoundTrip
  refine ⟨fun a b c d s hs => ?_, fun s h => schDec_any h⟩
  obtain ⟨t, hexec, hpdu, hframe⟩ := schDec_clean hs
  refine ⟨t, hexec, hpdu, fun hspare => ?_, hframe⟩
  have hlast : d &&& 1 = d := by
    have hsplit : d &&& (1 ||| 0xFE) = d := BitVec.and_allOnes
    rw [BitVec.and_or_distrib_left, hspare] at hsplit
    exact BitVec.or_zero.symm.trans hsplit
  rw [hpdu, hlast]

end Sys2Proof.Proofs
end

