-- ==== Sys2Proof/Proofs/PunctureAndMatch.lean ====
section
/-! De-punctured words (41_trellis_engine.md R142) under the trellis decoder, and the pattern matcher
(43_interleaver_mapper.md R165). -/

namespace Sys2Proof.Machine

/-! ### De-punctured soft bits -/

/-- An erasure disagrees with nothing. -/
theorem disagreements_zero_cons (s : List SBit) (b : UBit) (y : List UBit) :
    disagreements (SBit.zero :: s) (b :: y) = disagreements s y := by
  have hzero : SBit.zero.toInt = 0 := rfl
  rw [disagreements, if_neg (fun h => h.1 hzero), Nat.zero_add]

/-- Erasures disagree with nothing: only the kept positions count. -/
theorem disagreements_depunctKeep {ks : List Bool} {y : List UBit} (h : ks.length = y.length)
    (s : List SBit) : disagreements (depunctKeep ks s) y = disagreements s (punctKeep ks y) := by
  induction ks generalizing s y with
  | nil => cases s <;> rfl
  | cons k ks ih =>
    cases y with
    | nil => cases h
    | cons b bs =>
      have hrest := ih (Nat.succ.inj h)
      cases k with
      | false =>
        rw [depunctKeep, disagreements_zero_cons, hrest]
        rfl
      | true =>
        cases s with
        | nil =>
          rw [depunctKeep, disagreements_zero_cons, hrest]
          simp [disagreements]
        | cons x xs => rw [depunctKeep, disagreements, hrest, punctKeep, if_pos rfl, disagreements]

/-- Erasures are not counted in `NBITS`. -/
theorem convNbits_depunctKeep {ks : List Bool} {s : List SBit} (h : s.length ≤ ks.countP id) :
    convNbits (depunctKeep ks s) = convNbits s := by
  induction ks generalizing s with
  | nil => rw [List.length_eq_zero_iff.1 (Nat.le_zero.1 h)]; rfl
  | cons k ks ih =>
    cases k with
    | false =>
      have hrest := ih (s := s) (by simpa using h)
      rw [convNbits, convNbits] at *
      rw [depunctKeep, List.countP_cons_of_neg (by decide), hrest]
    | true =>
      cases s with
      | nil =>
        have hrest := ih (s := []) (Nat.zero_le _)
        rw [convNbits, convNbits] at *
        rw [depunctKeep, List.countP_cons_of_neg (by decide), hrest]
      | cons x xs =>
        have hrest := ih (s := xs) (by simpa using h)
        rw [convNbits, convNbits] at *
        rw [depunctKeep, List.countP_cons, List.countP_cons, hrest]

section Punctured

variable {m : Mask} {code : Code} {kd : Nat} (hok : decodeLenOk code m.full kd = true)

include hok

theorem disagreements_punctured {u v : List UBit} (hu : u.length = kd) (hv : v.length = kd) :
    disagreements (depunct m (softAll (punct m (candidateWord code m.full v))))
      (candidateWord code m.full u) = 0 ↔
    punct m (candidateWord code m.full v) = punct m (candidateWord code m.full u) := by
  have hlen {w : List UBit} (hw : w.length = kd) : m.keep.length = (candidateWord code m.full w).length :=
    (candidateWord_length hok hw).symm
  rw [depunct, disagreements_depunctKeep (hlen hu), disagreements_softAll_eq_zero_iff]
  · rfl
  · rw [punct, punctKeep_length _ _ (hlen hv), punctKeep_length _ _ (hlen hu)]

/-- A clean punctured codeword decodes to its input where the punctured words tell the inputs apart. -/
theorem convDec_punctured {v : List UBit} (hv : v.length = kd)
    (hinj : ∀ u : List UBit, u.length = kd →
      punct m (candidateWord code m.full v) = punct m (candidateWord code m.full u) → v = u)
    (tie : Nat → Nat → Bool) :
    convDec tie code (depunct m (softAll (punct m (candidateWord code m.full v)))) kd = v := by
  have hcost {u : List UBit} (hu : u.length = kd) :
      candidateCost code (depunct m (softAll (punct m (candidateWord code m.full v)))) u = 0 ↔
        punct m (candidateWord code m.full v) = punct m (candidateWord code m.full u) := by
    rw [candidateCost, depunct_length, wordCost_eq_zero_iff, disagreements_punctured hok hu hv]
  exact convDec_eq_of_cost_zero tie hv ((hcost hv).2 rfl) fun u hu h => (hinj u hu ((hcost hu).1 h)).symm

theorem convNerr_punctured {v : List UBit} (hv : v.length = kd) :
    convNerr code (depunct m (softAll (punct m (candidateWord code m.full v)))) v = 0 := by
  rw [convNerr, depunct_length, disagreements_punctured hok hv hv]

theorem convNbits_punctured {v : List UBit} (hv : v.length = kd) :
    convNbits (depunct m (softAll (punct m (candidateWord code m.full v)))) = m.kept := by
  have hlen : (softAll (punct m (candidateWord code m.full v))).length = m.kept := by
    rw [softAll_length, punct_length m _ (candidateWord_length hok hv)]
  rw [depunct, convNbits_depunctKeep hlen.le, convNbits_of_full (softAll_mag _), hlen]

end Punctured

/-! ### The masks of packet data keep the first coded bit of every step (R142 (c)) -/

/-- Of a generator that contains delay 0, the outputs alone tell the inputs. -/
theorem Code.eq_of_generator_outputs_eq {c : Code} {i : Nat} (hi : i < c.n)
    (hnodup : (c.gens.getD i []).Nodup) (h0 : 0 ∈ c.gens.getD i []) {us vs : List UBit}
    (hlen : us.length = vs.length) (h : ∀ k, k < us.length →
      (c.encodeFrom 0 us)[c.n * k + i]? = (c.encodeFrom 0 vs)[c.n * k + i]?) : us = vs := by
  have htake : ∀ k, k ≤ us.length → us.take k = vs.take k := by
    intro k
    induction k with
    | zero => exact fun _ => rfl
    | succ k ih =>
      intro hk
      have hvs : k < vs.length := hlen ▸ hk
      have hout := h k hk
      rw [Code.encodeFrom_getElem? c 0 hk hi, Code.encodeFrom_getElem? c 0 hvs hi,
        ih (Nat.le_of_succ_le hk)] at hout
      have hbit := Code.eq_of_tapXor_window_eq hnodup h0 (Option.some.inj hout)
      rw [List.getD_eq_getElem _ _ hk, List.getD_eq_getElem _ _ hvs] at hbit
      rw [← List.take_append_getElem hk, ← List.take_append_getElem hvs, ih (Nat.le_of_succ_le hk), hbit]
  rw [← List.take_length (l := us), htake _ le_rfl, hlen, List.take_length]

theorem cs2Mask_even {k : Nat} (hk : 2 * k < 588) : cs2Mask.keep[2 * k]? = some true := by
  have hodd : 2 * k % 4 ≠ 3 := by omega
  simp [cs2Mask, hk, hodd]

theorem cs3Mask_even {k : Nat} (hk : 2 * k < 676) : cs3Mask.keep[2 * k]? = some true := by
  have h3 : 2 * k % 6 ≠ 3 := by omega
  have h5 : 2 * k % 6 ≠ 5 := by omega
  simp [cs3Mask, hk, h3, h5]

/-- A mask that keeps the even positions of an `XCCH` word keeps the information. -/
theorem xcch_punct_injective {m : Mask} (heven : ∀ k, 2 * k < m.full → m.keep[2 * k]? = some true)
    {us vs : List UBit} (hus : 2 * us.length = m.full) (hvs : 2 * vs.length = m.full)
    (h : punct m (convEnc xcchCode us) = punct m (convEnc xcchCode vs)) : us = vs := by
  have hword {w : List UBit} (hw : 2 * w.length = m.full) :
      m.keep.length = (convEnc xcchCode w).length := by
    rw [convEnc_xcch_length, hw, Mask.full]
  refine Code.eq_of_generator_outputs_eq (c := xcchCode) (i := 0) (by decide) (by decide) (by decide)
    (by omega) fun k hk => ?_
  exact punctKeep_inj m.keep _ _ (hword hus) (hword hvs) h (2 * k) (heven k (by omega))

theorem cs2Mask_kept : cs2Mask.kept = 456 := by decide +kernel
theorem cs3Mask_kept : cs3Mask.kept = 456 := by decide +kernel

/-! ### The matcher (R165) -/

/-- The scan extends the nearest of the distances seen. -/
theorem nearestFrom_nearestIs {seen : List Nat} {best : Nat × Nat} (h : NearestIs seen best)
    (ds : List Nat) : NearestIs (seen ++ ds) (nearestFrom seen.length ds best) := by
  induction ds generalizing seen best with
  | nil => rwa [List.append_nil]
  | cons d ds ih =>
    have hstep : NearestIs (seen ++ [d]) (if d < best.2 then (seen.length, d) else best) := by
      split
      · next hlt =>
        refine ⟨List.getElem?_concat_length, fun x hx => ?_, fun i x hi hx => ?_⟩
        · rcases List.mem_append.1 hx with hx | hx
          · exact hlt.le.trans (h.least x hx)
          · exact (List.mem_singleton.1 hx).ge
        · rw [List.getElem?_append_left hi] at hx
          exact hlt.trans_le (h.least x (List.mem_of_getElem? hx))
      · next hge =>
        have hbest : best.1 < seen.length := (List.getElem?_eq_some_iff.1 h.attained).1
        refine ⟨by rw [List.getElem?_append_left hbest]; exact h.attained, fun x hx => ?_,
          fun i x hi hx => ?_⟩
        · rcases List.mem_append.1 hx with hx | hx
          · exact h.least x hx
          · exact (List.mem_singleton.1 hx) ▸ not_lt.1 hge
        · rw [List.getElem?_append_left (hi.trans hbest)] at hx
          exact h.first i x hi hx
    have hrest := ih hstep
    rwa [List.append_assoc, List.length_append] at hrest

theorem nearest_nearestIs {ds : List Nat} (h : ds ≠ []) : NearestIs ds (nearest ds) := by
  cases ds with
  | nil => exact absurd rfl h
  | cons d ds =>
    have hfirst : NearestIs [d] (0, d) :=
      ⟨rfl, fun x hx => (List.mem_singleton.1 hx).ge, fun i _ hi => absurd hi (Nat.not_lt_zero i)⟩
    exact nearestFrom_nearestIs hfirst ds

theorem NearestIs.unique {ds : List Nat} {m m' : Nat × Nat} (h : NearestIs ds m) (h' : NearestIs ds m') :
    m = m' := by
  have hdist : m.2 = m'.2 :=
    le_antisymm (h.least _ (List.mem_of_getElem? h'.attained))
      (h'.least _ (List.mem_of_getElem? h.attained))
  have hle {n n' : Nat × Nat} (hn : NearestIs ds n) (hn' : NearestIs ds n') (heq : n.2 = n'.2) :
      n.1 ≤ n'.1 :=
    not_lt.1 fun hlt => absurd (hn.first _ _ hlt hn'.attained) (by omega)
  exact Prod.ext (le_antisymm (hle h h' hdist) (hle h' h hdist.symm)) hdist

theorem matchSoft_nearestIs {table : List (List UBit)} (h : table ≠ []) (x : List SBit) :
    NearestIs (table.map fun p => softDist p x) (matchSoft table x) :=
  nearest_nearestIs (by simpa using h)

theorem matchHard_nearestIs {table : List (List UBit)} (h : table ≠ []) (x : List UBit) :
    NearestIs (table.map fun p => hardDist p x) (matchHard table x) :=
  nearest_nearestIs (by simpa using h)

theorem softDist_softAll_eq_zero_iff {p q : List UBit} (h : p.length = q.length) :
    softDist p (softAll q) = 0 ↔ p = q := by
  induction p generalizing q with
  | nil => simp [List.length_eq_zero_iff.1 h.symm, softDist]
  | cons b bs ih =>
    cases q with
    | nil => cases h
    | cons b' bs' =>
      have hrest := ih (Nat.succ.inj h)
      have hbit : ((SBit.soft b).toInt - (SBit.soft b').toInt).natAbs = 0 ↔ b = b' := by
        cases b <;> cases b' <;> decide
      rw [softAll, List.map_cons, softDist, Nat.add_eq_zero_iff, hbit, ← softAll, hrest, List.cons.injEq]

/-- The nearest row is the only one at distance 0. -/
theorem NearestIs.eq_of_row {table : List (List UBit)} {dist : List UBit → Nat} {m : Nat × Nat}
    (h : NearestIs (table.map dist) m) (hnodup : table.Nodup) {k : Nat} {row : List UBit}
    (hk : table[k]? = some row) (hzero : dist row = 0) (honly : ∀ p ∈ table, dist p = 0 → p = row) :
    m = (k, 0) := by
  refine h.unique ⟨?_, fun _ _ => Nat.zero_le _, ?_⟩
  · rw [List.getElem?_map, hk, Option.map_some, hzero]
  · intro i d hi hd
    rw [List.getElem?_map] at hd
    obtain ⟨p, hp, rfl⟩ := Option.map_eq_some_iff.1 hd
    refine Nat.pos_of_ne_zero fun hp0 => ?_
    have hrow : p = row := honly p (List.mem_of_getElem? hp) hp0
    have hsame := (List.getElem?_inj (List.getElem?_eq_some_iff.1 hp).1 hnodup).1
      (hp.trans (hrow ▸ hk.symm))
    exact hi.ne hsame

/-- The observation of row `k` without an error is matched to row `k`. -/
theorem matchSoft_row {table : List (List UBit)} {w k : Nat} {row : List UBit}
    (hlen : ∀ p ∈ table, p.length = w) (hnodup : table.Nodup) (hk : table[k]? = some row) :
    matchSoft table (softAll row) = (k, 0) := by
  have hrow := List.mem_of_getElem? hk
  exact (matchSoft_nearestIs (List.ne_nil_of_mem hrow) _).eq_of_row hnodup hk
    ((softDist_softAll_eq_zero_iff rfl).2 rfl) fun p hp hp0 =>
      (softDist_softAll_eq_zero_iff ((hlen p hp).trans (hlen row hrow).symm)).1 hp0

end Sys2Proof.Machine
end

