-- ==== Sys2Proof/Proofs/PacketDecoder.lean ====
section
/-! `PDTCH.DEC` (45_codec_pdtch.md R207 to R213): the header pattern, the stages of each scheme on any input,
and the clean block of each scheme as a case of it. -/

namespace Sys2Proof.Machine

/-! ### The pattern tables -/

theorem Scheme.header_getElem? (x : Scheme) : tCs[x.num - 1]? = some x.header := by cases x <;> rfl

theorem Scheme.schemeOfIdx_num (x : Scheme) : schemeOfIdx (x.num - 1) = x := by cases x <;> rfl

theorem exists_scheme_of_idx {i : Nat} (h : i < 4) : ∃ x : Scheme, x.num - 1 = i := by
  refine ⟨schemeOfIdx i, ?_⟩
  interval_cases i <;> rfl

theorem Scheme.flagTable_length {x : Scheme} (hx : x ≠ .cs1) : x.flagTable.length = 8 := by
  cases x with
  | cs1 => exact absurd rfl hx
  | cs2 => rfl
  | cs3 => rfl
  | cs4 => rfl

theorem Scheme.flagTable_nodup (x : Scheme) : x.flagTable.Nodup := by cases x <;> decide

theorem Scheme.flagTable_entry_length {x : Scheme} (hx : x ≠ .cs1) :
    ∀ p ∈ x.flagTable, p.length = x.offset + 3 := by
  cases x with
  | cs1 => exact absurd rfl hx
  | cs2 => decide
  | cs3 => decide
  | cs4 => decide

theorem Scheme.flagTable_getElem? {x : Scheme} (hx : x ≠ .cs1) (k : BitVec 3) :
    x.flagTable[k.toNat]? = some (x.flagTable.getD k.toNat []) := by
  have hk : k.toNat < x.flagTable.length := by rw [Scheme.flagTable_length hx]; exact k.isLt
  rw [List.getElem?_eq_getElem hk, List.getD_eq_getElem _ _ hk]

theorem Scheme.flagPattern_length {x : Scheme} (hx : x ≠ .cs1) (k : BitVec 3) :
    (x.flagTable.getD k.toNat []).length = x.offset + 3 :=
  Scheme.flagTable_entry_length hx _ (List.mem_of_getElem? (Scheme.flagTable_getElem? hx k))

theorem hardDist_eq_zero_iff {p q : List UBit} (h : p.length = q.length) : hardDist p q = 0 ↔ p = q := by
  induction p generalizing q with
  | nil => simp [List.length_eq_zero_iff.1 h.symm, hardDist]
  | cons b bs ih =>
    cases q with
    | nil => cases h
    | cons b' bs' => simp [hardDist, ih (Nat.succ.inj h)]

/-! ### Flag restoration (R209) -/

theorem restoreFlags_getElem? {o : Nat} {usf : BitVec 3} {u : List UBit} (hu : o + 3 ≤ u.length) (k : Nat) :
    (restoreFlags o usf.toNat u)[k]? =
      if o ≤ k ∧ k < o + 3 then some (usf.getLsbD (k - o)) else u[k]? := by
  unfold restoreFlags
  simp only [List.getElem?_set, List.length_set]
  by_cases hk : o ≤ k ∧ k < o + 3
  · obtain ⟨j, rfl⟩ := Nat.exists_eq_add_of_le hk.1
    have hj : j < 3 := by omega
    rw [if_pos hk, Nat.add_sub_cancel_left]
    interval_cases j
    · simp [BitVec.getLsbD]; omega
    · simp [BitVec.getLsbD]; omega
    · simp [BitVec.getLsbD]; omega
  · rw [if_neg hk, if_neg (by omega), if_neg (by omega), if_neg (by omega)]

/-! ### Flag, restoration and checksum of schemes 2 to 4 (R208 to R210) -/

/-- `t` is `s` after the last stages of scheme 2, 3 or 4 on the info word `u`, in a decoder that began in
`s₀`. -/
structure State.PacketChecked (s₀ s t : State) (scheme : Scheme) (u : List UBit) : Prop where
  finished : PacketFinished s₀ t scheme u
  softI_eq : t.softI = s.softI
  softH_eq : t.softH = s.softH
  softC_eq : t.softC = s.softC
  res_eq : t.res = { s.res with usf := t.res.usf }
  decodesTo : ∀ v : State, v.DecodesTo s → v.DecodesTo t

theorem State.DecodesTo.setUsf {s t : State} (h : s.DecodesTo t) (usf : BitVec 3) :
    s.DecodesTo (t.setUsf usf) := h.setRes _

/-- The flag that the nearest pattern gives. -/
theorem matchHard_flag {scheme : Scheme} (hx : scheme ≠ .cs1) (u : List UBit) :
    ∃ usf : BitVec 3, (matchHard scheme.flagTable u).1 = usf.toNat ∧
      ∃ dist, NearestIs (scheme.flagTable.map fun p => hardDist p u) (usf.toNat, dist) := by
  have hlen := Scheme.flagTable_length hx
  have hne : scheme.flagTable ≠ [] := fun h => by rw [h] at hlen; cases hlen
  have hnearest := matchHard_nearestIs hne u
  obtain ⟨hlt, -⟩ := List.getElem?_eq_some_iff.1 hnearest.attained
  rw [List.length_map, hlen] at hlt
  have hnat : (BitVec.ofNat 3 (matchHard scheme.flagTable u).1).toNat = (matchHard scheme.flagTable u).1 :=
    Nat.mod_eq_of_lt hlt
  refine ⟨BitVec.ofNat 3 (matchHard scheme.flagTable u).1, hnat.symm,
    (matchHard scheme.flagTable u).2, ?_⟩
  rw [hnat]
  exact hnearest

theorem State.finishPacket_checked {s₀ s : State} (hpdu : s.mem.pdu = s₀.mem.pdu) {scheme : Scheme}
    (hx : scheme ≠ .cs1) {u : List UBit} (hu : scheme.offset + 3 ≤ u.length) :
    ∃ t, (s.finishPacket scheme (scheme.offset + 3) u).finish = .next t ∧
      State.PacketChecked s₀ s t scheme u := by
  obtain ⟨usf, husf, dist, hnearest⟩ := matchHard_flag hx (u.take (scheme.offset + 3))
  have hword : BitVec.ofNat 3 usf.toNat = usf := by
    rw [BitVec.ofNat_toNat, BitVec.setWidth_eq]
  obtain ⟨t, hfinish, hchecked⟩ := State.checkBlock_checked (s₀ := s₀)
    (s := (s.setUsf usf).setU (restoreFlags scheme.offset usf.toNat u)) hpdu .crc16
    (slice (restoreFlags scheme.offset usf.toNat u) scheme.offset scheme.np)
    (slice (restoreFlags scheme.offset usf.toNat u) (scheme.offset + scheme.np) 16)
    (packLsb (slice (restoreFlags scheme.offset usf.toNat u) scheme.offset scheme.np))
  have htu : t.u = restoreFlags scheme.offset usf.toNat u := hchecked.u_eq.trans (State.setU_u _ _)
  have hres : t.res = { s.res with usf := usf } := hchecked.res_eq
  have htusf : t.res.usf = usf := by rw [hres]
  refine ⟨t, ?_, ⟨⟨dist, htusf ▸ hnearest⟩, fun k => ?_, ?_, ?_⟩, hchecked.softI_eq, hchecked.softH_eq,
    hchecked.softC_eq, htusf ▸ hres, fun v hv => hchecked.decodesTo ((hv.setUsf usf).setU _)⟩
  · rw [State.finishPacket, husf, hword]
    exact hfinish
  · rw [htu, htusf, restoreFlags_getElem? hu]
  · rw [htu, hchecked.parity, slice]
  · have hverdict := hchecked.verdict
    rw [← hchecked.parity, ← htu] at hverdict
    exact hverdict

/-! ### The block: header pattern and gathering (R207, R210) -/

/-- The state in which the stages of a scheme begin. -/
def State.packetStart (s : State) (scheme : Scheme) (dist : Nat) : State :=
  ((s.gather .x4 s.softE).setMatch (scheme.num - 1, dist)).setCs scheme

theorem State.packetStart_decodesTo (s : State) (scheme : Scheme) (dist : Nat) :
    s.DecodesTo (s.packetStart scheme dist) :=
  (((State.DecodesTo.refl s).gather .x4 s.softE).setRes _).setRes _

theorem State.packetStart_softC (s : State) (scheme : Scheme) (dist : Nat) :
    (s.packetStart scheme dist).softC = softCoded .x4 s.softE := s.gather_softC .x4 s.softE

/-- What R207 and R210 leave of a block of a scheme, whatever its stages make of the bits. -/
structure State.PacketBlock (s t : State) (scheme : Scheme) (dist : Nat) : Prop where
  gathered : Gathered .x4 s t (softCoded .x4 s.softE)
  nearest : NearestIs (tCs.map fun p => softDist p t.softH) (scheme.num - 1, dist)
  idx : t.res.idx = BitVec.ofNat 8 (scheme.num - 1)
  dist : t.res.dist = BitVec.ofNat 16 dist
  cs : t.res.cs = BitVec.ofNat 3 scheme.num
  res : t.res = { s.res with
    nerr := t.res.nerr, nbits := t.res.nbits, cs := t.res.cs, usf := t.res.usf, idx := t.res.idx,
    dist := t.res.dist }
  decodesTo : s.DecodesTo t

section Stages

variable {s : State} {scheme : Scheme} {dist : Nat} (hes : s.mem.es.len = 464)
  (hheader : matchSoft tCs (unmapFlags 4 s.softE) = (scheme.num - 1, dist))

include hes

/-- The flags are as many as the matcher takes. -/
theorem unmapFlags_take_eight : (unmapFlags 4 s.softE).take 8 = unmapFlags 4 s.softE := by
  refine List.take_of_length_le (unmapFlags_length ?_).le
  rw [State.softE_length, hes]

include hheader

omit hes in
theorem State.packetBlock_of {t : State} {nerr nbits : BitVec 16} {usf : BitVec 3}
    (hi : t.softI = (s.packetStart scheme dist).softI) (hh : t.softH = (s.packetStart scheme dist).softH)
    (hres : t.res = { (s.packetStart scheme dist).res with nerr := nerr, nbits := nbits, usf := usf })
    (hto : s.DecodesTo t) : State.PacketBlock s t scheme dist where
  gathered := gathered_of_eq s .x4 hi hh
  nearest := by
    have hflags : t.softH = unmapFlags 4 s.softE := hh.trans (s.gather_softH .x4 s.softE)
    rw [hflags, ← hheader]
    exact matchSoft_nearestIs (by decide) _
  idx := by rw [hres]; rfl
  dist := by rw [hres]; rfl
  cs := by rw [hres]; rfl
  res := by rw [hres]; rfl
  decodesTo := hto

/-- `PDTCH.DEC` once the scheme is known. -/
theorem exec_pdtchDec : exec .pdtchDec s = Cmd.finish (match scheme with
    | .cs1 => (s.packetStart .cs1 dist).decodeScheme1 Config.inst (softCoded .x4 s.softE)
    | .cs2 => (s.packetStart .cs2 dist).decodeCoded Config.inst .cs2 cs2Mask (softCoded .x4 s.softE)
    | .cs3 => (s.packetStart .cs3 dist).decodeCoded Config.inst .cs3 cs3Mask (softCoded .x4 s.softE)
    | .cs4 => (s.packetStart .cs4 dist).decodePlain (softCoded .x4 s.softE)) := by
  refine congrArg Cmd.finish ((if_neg (not_not.2 hes)).trans ?_)
  simp only [unmapFlags_take_eight hes, hheader, Scheme.schemeOfIdx_num]
  cases scheme <;> rfl

end Stages

/-! ### Scheme 1 -/

/-- `c` with `f` on the state of a completed command and `g` on that of a failed one. -/
def Cmd.onEnd (f g : State → State) : Cmd → Cmd
  | .done t => .done (f t)
  | .raised e info t => .raised e info (g t)
  | .refused r => .refused r

theorem Stat.error_badBlock_ne_ok (info : Nat) : Stat.error .badBlock info ≠ Stat.ok := fun h =>
  absurd (congrArg Stat.code h) (by show ErrCode.code .badBlock ≠ ErrCode.code .none; decide)

/-- What follows the checksum stage sees its verdict in `STAT`. -/
theorem State.checkBlock_onEnd {s t : State} {x : CrcSel} {d p : List UBit} {pdu : List Byte}
    {f g : State → State} (hf : ∀ t, (f t).raise .none 0 = f (t.raise .none 0))
    (hg : ∀ t e info, (g t).raise e info = g (t.raise e info))
    (h : (s.checkBlock x d p pdu).finish = .next t) :
    ((s.checkBlock x d p pdu).onEnd f g).finish = .next (if t.stat = Stat.ok then f t else g t) := by
  rcases s.checkBlock_cases x d p pdu with ⟨-, heq⟩ | ⟨-, heq⟩
  · rw [heq] at h ⊢
    obtain rfl := Host.Outcome.next.inj h
    exact congrArg Host.Outcome.next ((hf _).trans (if_pos rfl).symm)
  · rw [heq] at h ⊢
    obtain rfl := Host.Outcome.next.inj h
    exact congrArg Host.Outcome.next
      ((hg _ _ _).trans (if_neg (Stat.error_badBlock_ne_ok x.code.toNat)).symm)

theorem State.decodeScheme1_eq_onEnd (P : Params) (s : State) (cs : List SBit) : s.decodeScheme1 P cs =
    (s.decodeControl P cs).onEnd (fun t => t.setUsf (usfOf t.pdu)) (fun t => t.setUsf 0) := by
  unfold State.decodeScheme1
  cases s.decodeControl P cs <;> rfl

/-- The control-channel stages, then the flag of the payload. -/
theorem State.decodeScheme1_finish {P : Params} {s t : State} {cs : List SBit}
    (h : (s.decodeControl P cs).finish = .next t) : (s.decodeScheme1 P cs).finish =
      .next (t.setUsf (if t.stat = Stat.ok then usfOf t.pdu else 0)) := by
  rw [State.decodeScheme1_eq_onEnd]
  refine (State.checkBlock_onEnd (fun _ => rfl) (fun _ _ _ => rfl) h).trans ?_
  split <;> rfl

theorem ControlDecoded.setUsf {P : Params} {s t : State} {cs : List SBit} (h : ControlDecoded P s t cs)
    (usf : BitVec 3) : ControlDecoded P s (t.setUsf usf) cs :=
  ⟨⟨h.word.word, h.word.nerr, h.word.nbits⟩, h.parity, h.verdict.good, h.verdict.bad⟩

/-- Scheme 1 on any input. -/
theorem pdtchDec_scheme1 {s : State} {dist : Nat} (hes : s.mem.es.len = 464)
    (hheader : matchSoft tCs (unmapFlags 4 s.softE) = (Scheme.cs1.num - 1, dist)) :
    ∃ t, exec .pdtchDec s = .next t ∧ State.PacketBlock s t .cs1 dist ∧
    t.softC = softCoded .x4 s.softE ∧ ControlDecoded Config.inst s t (softCoded .x4 s.softE) ∧
    t.res.usf = if t.stat = Stat.ok then usfOf t.pdu else 0 := by
  obtain ⟨t, hfinish, hdecoded⟩ := State.decodeControl_blockDecoded Config.inst (s₀ := s)
    (s := s.packetStart .cs1 dist) rfl (softCoded .x4 s.softE)
  have hres : (t.setUsf (if t.stat = Stat.ok then usfOf t.pdu else 0)).res =
      { (s.packetStart .cs1 dist).res with
        nerr := t.res.nerr, nbits := t.res.nbits
        usf := if t.stat = Stat.ok then usfOf t.pdu else 0 } := by
    rw [State.setUsf, hdecoded.res_eq]
  exact ⟨_, (exec_pdtchDec hes hheader).trans (State.decodeScheme1_finish hfinish),
    State.packetBlock_of hheader hdecoded.softI_eq hdecoded.softH_eq hres
      ((hdecoded.decodesTo (s.packetStart_decodesTo .cs1 dist)).setUsf _),
    hdecoded.softC_eq.trans (s.packetStart_softC .cs1 dist), hdecoded.controlDecoded.setUsf _, rfl⟩

/-! ### Schemes 2 and 3 -/

section PunctureStart

variable (P : Params) (s : State) (code : Code) (soft : List SBit) (kd : Nat)

theorem State.setSoftC_trellis_softI : ((s.setSoftC soft).trellis P code soft kd).softI = s.softI := rfl

theorem State.setSoftC_trellis_softH : ((s.setSoftC soft).trellis P code soft kd).softH = s.softH := rfl

end PunctureStart

/-- The schemes that puncture, each with its mask (R200). -/
def Scheme.PuncturedBy (scheme : Scheme) (mask : Mask) : Prop :=
  scheme = .cs2 ∧ mask = cs2Mask ∨ scheme = .cs3 ∧ mask = cs3Mask

section Punctured

variable {scheme : Scheme} {mask : Mask} (hx : scheme.PuncturedBy mask)

include hx

theorem Scheme.PuncturedBy.ne_cs1 : scheme ≠ .cs1 := by
  rcases hx with ⟨rfl, -⟩ | ⟨rfl, -⟩
  · decide
  · decide

theorem Scheme.PuncturedBy.offset : scheme.offset = 3 := by
  rcases hx with ⟨rfl, -⟩ | ⟨rfl, -⟩ <;> rfl

theorem Scheme.PuncturedBy.tail : scheme.tail = 4 := by
  rcases hx with ⟨rfl, -⟩ | ⟨rfl, -⟩ <;> rfl

/-- The mask is as long as the coded word of `np + 19` bits and the tail. -/
theorem Scheme.PuncturedBy.full : mask.full = 2 * (scheme.np + 19 + 4) := by
  rcases hx with ⟨rfl, rfl⟩ | ⟨rfl, rfl⟩
  · exact cs2Mask_full
  · exact cs3Mask_full

theorem Scheme.PuncturedBy.kept : mask.kept = 456 := by
  rcases hx with ⟨-, rfl⟩ | ⟨-, rfl⟩
  · exact cs2Mask_kept
  · exact cs3Mask_kept

theorem Scheme.PuncturedBy.even {k : Nat} (hk : 2 * k < mask.full) : mask.keep[2 * k]? = some true := by
  rcases hx with ⟨-, rfl⟩ | ⟨-, rfl⟩
  · exact cs2Mask_even (cs2Mask_full ▸ hk)
  · exact cs3Mask_even (cs3Mask_full ▸ hk)

theorem Scheme.PuncturedBy.coded_eq (pdu : List Byte) :
    packetCoded scheme pdu = punct mask (convEnc xcchCode (packetWord scheme pdu)) := by
  rcases hx with ⟨rfl, rfl⟩ | ⟨rfl, rfl⟩ <;> rfl

theorem Scheme.PuncturedBy.exec_eq {s : State} {dist : Nat} (hes : s.mem.es.len = 464)
    (hheader : matchSoft tCs (unmapFlags 4 s.softE) = (scheme.num - 1, dist)) : exec .pdtchDec s =
      ((s.packetStart scheme dist).decodeCoded Config.inst scheme mask (softCoded .x4 s.softE)).finish := by
  rcases hx with ⟨rfl, rfl⟩ | ⟨rfl, rfl⟩
  · exact exec_pdtchDec hes hheader
  · exact exec_pdtchDec hes hheader

/-- The stages of scheme 2 or 3 on any coded soft bits. -/
theorem State.decodeCoded_checked (P : Params) {s₀ s : State} (hpdu : s.mem.pdu = s₀.mem.pdu)
    (cs : List SBit) : ∃ t u, (s.decodeCoded P scheme mask cs).finish = .next t ∧
    t.softC = depunct mask cs ∧ Decoded P xcchCode (depunct mask cs) (scheme.np + 19) u t.res ∧
    State.PacketChecked s₀ ((s.setSoftC (depunct mask cs)).trellis P xcchCode (depunct mask cs)
      (scheme.np + 19)) t scheme u := by
  have hlen : (convDecP P xcchCode (depunct mask cs) (scheme.np + 19)).length = scheme.np + 19 :=
    convDecP_length P xcchCode _ _
  obtain ⟨t, hfinish, hchecked⟩ := State.finishPacket_checked (s₀ := s₀)
    (s := (s.setSoftC (depunct mask cs)).trellis P xcchCode (depunct mask cs) (scheme.np + 19)) hpdu
    hx.ne_cs1 (u := convDecP P xcchCode (depunct mask cs) (scheme.np + 19)) (by rw [hlen, hx.offset]; omega)
  have hwd : scheme.offset + 3 = 6 := by rw [hx.offset]
  refine ⟨t, _, by rw [← hfinish, hwd]; rfl, hchecked.softC_eq.trans (State.setSoftC_softC s _),
    ⟨rfl, ?_, ?_⟩, hchecked⟩
  · rw [hchecked.res_eq]
    rfl
  · rw [hchecked.res_eq]
    rfl

/-- Scheme 2 or 3 on any input. -/
theorem pdtchDec_punctured {s : State} {dist : Nat} (hes : s.mem.es.len = 464)
    (hheader : matchSoft tCs (unmapFlags 4 s.softE) = (scheme.num - 1, dist)) :
    ∃ t u, exec .pdtchDec s = .next t ∧ State.PacketBlock s t scheme dist ∧
    t.softC = depunct mask (softCoded .x4 s.softE) ∧
    Decoded Config.inst xcchCode (depunct mask (softCoded .x4 s.softE)) (scheme.np + 19) u t.res ∧
    PacketFinished s t scheme u := by
  obtain ⟨t, u, hfinish, hc, hdecoded, hchecked⟩ := State.decodeCoded_checked hx Config.inst (s₀ := s)
    (s := s.packetStart scheme dist) rfl (softCoded .x4 s.softE)
  refine ⟨t, u, (hx.exec_eq hes hheader).trans hfinish, State.packetBlock_of hheader
    (hchecked.softI_eq.trans (State.setSoftC_trellis_softI ..))
    (hchecked.softH_eq.trans (State.setSoftC_trellis_softH ..)) hchecked.res_eq ?_, hc, hdecoded,
    hchecked.finished⟩
  exact hchecked.decodesTo _ (((s.packetStart_decodesTo scheme dist).setSoftC _).trellis _ _ _ _)

end Punctured

/-! ### Scheme 4 -/

/-- The stages of scheme 4 on any coded soft bits: nothing is decoded. -/
theorem State.decodePlain_checked {s₀ s : State} (hpdu : s.mem.pdu = s₀.mem.pdu) {cs : List SBit}
    (hcs : 12 ≤ cs.length) : ∃ t, (s.decodePlain cs).finish = .next t ∧ State.PacketChecked s₀
      ((s.setU (cs.map SBit.hard)).setErrors 0 (convNbits cs)) t .cs4 (cs.map SBit.hard) :=
  State.finishPacket_checked (s := (s.setU (cs.map SBit.hard)).setErrors 0 (convNbits cs))
    (scheme := .cs4) hpdu (by decide) (by rw [List.length_map]; exact hcs)

/-- Scheme 4 on any input. -/
theorem pdtchDec_plain {s : State} {dist : Nat} (hes : s.mem.es.len = 464)
    (hheader : matchSoft tCs (unmapFlags 4 s.softE) = (Scheme.cs4.num - 1, dist)) :
    ∃ t, exec .pdtchDec s = .next t ∧ State.PacketBlock s t .cs4 dist ∧
    t.softC = softCoded .x4 s.softE ∧ t.res.nerr = 0 ∧
    t.res.nbits = BitVec.ofNat 16 (convNbits (softCoded .x4 s.softE)) ∧
    PacketFinished s t .cs4 ((softCoded .x4 s.softE).map SBit.hard) := by
  have hlen : (softCoded .x4 s.softE).length = 456 := deinterleave_length _ _
  obtain ⟨t, hfinish, hchecked⟩ := State.decodePlain_checked (s₀ := s) (s := s.packetStart .cs4 dist)
    rfl (cs := softCoded .x4 s.softE) (by omega)
  refine ⟨t, (exec_pdtchDec hes hheader).trans hfinish, State.packetBlock_of hheader hchecked.softI_eq
    hchecked.softH_eq hchecked.res_eq ?_, hchecked.softC_eq.trans (s.packetStart_softC .cs4 dist), ?_, ?_,
    hchecked.finished⟩
  · exact hchecked.decodesTo _ (((s.packetStart_decodesTo .cs4 dist).setU _).setRes _)
  · rw [hchecked.res_eq]
    rfl
  · rw [hchecked.res_eq]
    rfl

/-! ### Any block -/

/-- What the stages of each scheme leave (R210). -/
structure State.PacketStages (s t : State) (scheme : Scheme) (cs : List SBit) : Prop where
  scheme1 : scheme = .cs1 → t.softC = cs ∧ ControlDecoded Config.inst s t cs ∧
    t.res.usf = if t.stat = Stat.ok then usfOf t.pdu else 0
  depunctured : ∀ {mask : Mask}, scheme.PuncturedBy mask → t.softC = depunct mask cs
  decoded : scheme = .cs2 ∨ scheme = .cs3 → ∃ u,
    Decoded Config.inst xcchCode t.softC (scheme.np + 19) u t.res ∧ PacketFinished s t scheme u
  plain : scheme = .cs4 → t.softC = cs ∧ t.res.nerr = 0 ∧
    t.res.nbits = BitVec.ofNat 16 (cs.countP fun x => decide (x.toInt ≠ 0)) ∧
    PacketFinished s t scheme (cs.map SBit.hard)

theorem Scheme.PuncturedBy.mask_unique {scheme : Scheme} {mask mask' : Mask}
    (h : scheme.PuncturedBy mask) (h' : scheme.PuncturedBy mask') : mask = mask' := by
  rcases h with ⟨rfl, rfl⟩ | ⟨rfl, rfl⟩ <;> rcases h' with ⟨hx, rfl⟩ | ⟨hx, rfl⟩
  · rfl
  · cases hx
  · cases hx
  · rfl

/-- Any 464 soft bits. -/
theorem pdtchDec_any {s : State} {scheme : Scheme} {dist : Nat} (hes : s.mem.es.len = 464)
    (hheader : matchSoft tCs (unmapFlags 4 s.softE) = (scheme.num - 1, dist)) :
    ∃ t, exec .pdtchDec s = .next t ∧ State.PacketBlock s t scheme dist ∧
      State.PacketStages s t scheme (softCoded .x4 s.softE) := by
  have hpunctured {mask : Mask} (hx : scheme.PuncturedBy mask) :
      ∃ t, exec .pdtchDec s = .next t ∧ State.PacketBlock s t scheme dist ∧
        State.PacketStages s t scheme (softCoded .x4 s.softE) := by
    obtain ⟨t, u, hexec, hblock, hc, hdecoded, hfinished⟩ := pdtchDec_punctured hx hes hheader
    refine ⟨t, hexec, hblock, fun h1 => absurd h1 hx.ne_cs1, fun hx' => hx.mask_unique hx' ▸ hc,
      fun _ => ⟨u, hc ▸ hdecoded, hfinished⟩, fun h4 => ?_⟩
    subst h4
    rcases hx with ⟨h, -⟩ | ⟨h, -⟩ <;> cases h
  cases scheme with
  | cs1 =>
    obtain ⟨t, hexec, hblock, hstages⟩ := pdtchDec_scheme1 hes hheader
    exact ⟨t, hexec, hblock, fun _ => hstages, fun hx => absurd rfl hx.ne_cs1, by simp, nofun⟩
  | cs2 => exact hpunctured (.inl ⟨rfl, rfl⟩)
  | cs3 => exact hpunctured (.inr ⟨rfl, rfl⟩)
  | cs4 =>
    obtain ⟨t, hexec, hblock, hstages⟩ := pdtchDec_plain hes hheader
    refine ⟨t, hexec, hblock, nofun, fun hx => ?_, by simp, fun _ => hstages⟩
    rcases hx with ⟨h, -⟩ | ⟨h, -⟩ <;> cases h

/-! ### Clean blocks (R212) -/

theorem packetBits_length (scheme : Scheme) (pdu : List Byte) :
    (packetBits scheme pdu).length = scheme.np := unpackLsb_length _ _

/-- The first three payload bits are the flag (R202). -/
theorem packetBits_flag (scheme : Scheme) (pdu : List Byte) {k : Nat} (hk : k < 3) :
    (packetBits scheme pdu)[k]? = some ((usfOf pdu).getLsbD k) := by
  have hnp : k < scheme.np := by cases scheme <;> simp only [Scheme.np] <;> omega
  refine (unpackBits_getElem? .lsb pdu hnp).trans ?_
  simp only [bitAt, usfOf, Nat.div_eq_of_lt (by omega : k < 8), Nat.mod_eq_of_lt (by omega : k < 8)]
  simp [hk]

/-- The information that schemes 2 to 4 send: the word without its tail. -/
def packetInfo (scheme : Scheme) (pdu : List Byte) : List UBit :=
  scheme.flagTable.getD (usfOf pdu).toNat [] ++ (packetBits scheme pdu).drop 3 ++
    crcGen .crc16 (packetBits scheme pdu)

theorem packetWord_eq (scheme : Scheme) (pdu : List Byte) :
    packetWord scheme pdu = packetInfo scheme pdu ++ List.replicate scheme.tail false := rfl

section Info

variable {scheme : Scheme} (hx : scheme ≠ .cs1) (pdu : List Byte)

include hx

theorem packetInfo_length : (packetInfo scheme pdu).length = scheme.offset + scheme.np + 16 := by
  have hnp : 3 ≤ scheme.np := by cases scheme <;> decide
  simp only [packetInfo, List.length_append, List.length_drop, packetBits_length,
    Scheme.flagPattern_length hx, crcGen_length, crcWidth]
  omega

/-- Behind the flag pattern the payload stands at its offset. -/
theorem packetInfo_getElem? {k : Nat} (hk : 3 ≤ k) : (packetInfo scheme pdu)[scheme.offset + k]? =
    (packetBits scheme pdu ++ crcGen .crc16 (packetBits scheme pdu))[k]? := by
  have hflag := Scheme.flagPattern_length hx (usfOf pdu)
  have hplain : ((packetBits scheme pdu).take 3).length = 3 := by
    rw [List.length_take, packetBits_length]
    cases scheme <;> rfl
  have hsplit : packetBits scheme pdu ++ crcGen .crc16 (packetBits scheme pdu) =
      (packetBits scheme pdu).take 3 ++
        ((packetBits scheme pdu).drop 3 ++ crcGen .crc16 (packetBits scheme pdu)) := by
    rw [← List.append_assoc, List.take_append_drop]
  have hskip {x y z : List UBit} (hxlen : x.length = scheme.offset + 3) (hylen : y.length = 3) :
      (x ++ z)[scheme.offset + k]? = (y ++ z)[k]? := by
    rw [List.getElem?_append_right (by omega), List.getElem?_append_right (by omega), hxlen, hylen,
      Nat.add_sub_add_left]
  rw [hsplit, packetInfo, List.append_assoc]
  exact hskip hflag hplain

/-- The restored word behind the offset: payload and parity. -/
theorem PacketFinished.drop_offset {s t : State} (h : PacketFinished s t scheme (packetInfo scheme pdu))
    (husf : t.res.usf = usfOf pdu) : t.u.drop scheme.offset =
      packetBits scheme pdu ++ crcGen .crc16 (packetBits scheme pdu) := by
  refine List.ext_getElem? fun k => ?_
  rw [List.getElem?_drop, h.restored, husf]
  have hnp : 3 ≤ scheme.np := by cases scheme <;> decide
  by_cases hk : k < 3
  · rw [if_pos (by omega), Nat.add_sub_cancel_left,
      List.getElem?_append_left (by rw [packetBits_length]; omega), packetBits_flag scheme pdu hk]
  · rw [if_neg (by omega), packetInfo_getElem? hx pdu (by omega)]

theorem PacketFinished.flag_eq {s t : State} (h : PacketFinished s t scheme (packetInfo scheme pdu)) :
    t.res.usf = usfOf pdu := by
  obtain ⟨dist, hnearest⟩ := h.flag
  have hrow := Scheme.flagTable_getElem? hx (usfOf pdu)
  have htake : (packetInfo scheme pdu).take (scheme.offset + 3) =
      scheme.flagTable.getD (usfOf pdu).toNat [] := by
    rw [packetInfo, List.append_assoc, List.take_left' (Scheme.flagPattern_length hx _)]
  rw [htake] at hnearest
  have hzero := hnearest.eq_of_row scheme.flagTable_nodup hrow ((hardDist_eq_zero_iff rfl).2 rfl)
    fun p hp hp0 => (hardDist_eq_zero_iff ((Scheme.flagTable_entry_length hx p hp).trans
      (Scheme.flagPattern_length hx _).symm)).1 hp0
  exact BitVec.eq_of_toNat_eq (congrArg Prod.fst hzero)

/-- Where the info word is that of a PDU, flag and payload come back. -/
theorem PacketFinished.of_info {s t : State} (h : PacketFinished s t scheme (packetInfo scheme pdu)) :
    t.res.usf = usfOf pdu ∧ t.stat = Stat.ok ∧ t.pdu = packLsb (packetBits scheme pdu) := by
  have husf := h.flag_eq hx pdu
  have hdrop := h.drop_offset hx pdu husf
  have hbits := packetBits_length scheme pdu
  have hpar : t.par = crcGen .crc16 (packetBits scheme pdu) := by
    rw [h.parity, ← List.drop_drop, hdrop, List.drop_left' hbits]
    exact List.take_of_length_le (crcGen_length .crc16 _).le
  have hverdict := h.verdict
  rw [hpar, hdrop, List.take_left' hbits] at hverdict
  exact ⟨husf, hverdict.good ((crcChk_eq_true_iff _ _ _).2 rfl)⟩

end Info

section Clean

variable {scheme : Scheme} {pdu : List Byte} {s : State}
  (hs : s.softE = softAll (blockBursts .x4 (packetCoded scheme pdu) scheme.header))

include hs

theorem packet_clean_length : s.mem.es.len = 464 := by
  rw [softE_len_of_eq hs, softAll_length, blockBursts_length]
  rfl

theorem packet_clean_header : matchSoft tCs (unmapFlags 4 s.softE) = (scheme.num - 1, 0) := by
  have hflags : unmapFlags 4 s.softE = softAll scheme.header := by
    rw [hs]
    exact unmapFlags_clean .x4 _ (Scheme.header_length scheme)
  rw [hflags]
  exact matchSoft_row (w := 8) (by decide) (by decide) scheme.header_getElem?

theorem packet_clean_coded (hc : (packetCoded scheme pdu).length = 456) :
    softCoded .x4 s.softE = softAll (packetCoded scheme pdu) := by
  rw [hs, softCoded_clean .x4 hc]

/-- What R212 says of a clean block, the frame aside. -/
structure State.PacketRecovered (s t : State) (scheme : Scheme) (pdu : List Byte) : Prop where
  exec_eq : exec .pdtchDec s = .next t
  block : State.PacketBlock s t scheme 0
  stat : t.stat = Stat.ok
  bytes : t.pdu = packLsb (packetBits scheme pdu)
  nerr : t.res.nerr = 0
  nbits : t.res.nbits = 456
  usf : t.res.usf = usfOf pdu

end Clean

theorem pdtchDec_clean_scheme1 {pdu : List Byte} {s : State} (hpdu : pdu.length = 23)
    (hs : s.softE = softAll (blockBursts .x4 (packetCoded .cs1 pdu) Scheme.cs1.header)) :
    ∃ t, State.PacketRecovered s t .cs1 pdu := by
  obtain ⟨t, hexec, hblock, -, hdecoded, husf⟩ :=
    pdtchDec_scheme1 (packet_clean_length hs) (packet_clean_header hs)
  rw [packet_clean_coded hs (controlCoded_length pdu)] at hdecoded
  obtain ⟨-, hstat, hpdu', -, hnerr, hnbits⟩ := ControlDecoded.of_clean hdecoded hpdu
  have hbytes : packLsb (packetBits .cs1 pdu) = pdu := packBits_unpackBits_whole .lsb (by rw [hpdu]; rfl)
  rw [if_pos hstat, hpdu'] at husf
  exact ⟨t, hexec, hblock, hstat, hpdu'.trans hbytes.symm, hnerr, hnbits, husf⟩

section PuncturedClean

variable {scheme : Scheme} {mask : Mask} (hx : scheme.PuncturedBy mask)

include hx

theorem Scheme.PuncturedBy.decodeLenOk_eq : decodeLenOk xcchCode mask.full (scheme.np + 19) = true := by
  have hfull := hx.full
  exact (xcch_decodeLenOk_iff _ _).2 (by omega)

/-- The four zeros of the tail end every candidate (R125). -/
theorem Scheme.PuncturedBy.candidateWord_eq {u : List UBit} (hu : u.length = scheme.np + 19) :
    candidateWord xcchCode mask.full u = convEnc xcchCode (u ++ List.replicate 4 false) := by
  have htail : mask.full / xcchCode.n - u.length = 4 := by
    rw [hx.full, hu, show xcchCode.n = 2 from rfl]
    omega
  show convEnc xcchCode (u ++ List.replicate _ false) = _
  rw [htail]

theorem Scheme.PuncturedBy.info_length (pdu : List Byte) :
    (packetInfo scheme pdu).length = scheme.np + 19 := by
  rw [packetInfo_length hx.ne_cs1, hx.offset]
  omega

theorem Scheme.PuncturedBy.coded_candidate (pdu : List Byte) :
    packetCoded scheme pdu = punct mask (candidateWord xcchCode mask.full (packetInfo scheme pdu)) := by
  rw [hx.coded_eq, packetWord_eq, hx.tail, hx.candidateWord_eq (hx.info_length pdu)]

theorem Scheme.PuncturedBy.coded_length (pdu : List Byte) : (packetCoded scheme pdu).length = 456 := by
  rw [hx.coded_candidate, punct_length mask _ (candidateWord_length hx.decodeLenOk_eq (hx.info_length pdu)),
    hx.kept]

/-- The punctured words tell the informations apart. -/
theorem Scheme.PuncturedBy.punct_injective {u v : List UBit} (hu : u.length = scheme.np + 19)
    (hv : v.length = scheme.np + 19) (h : punct mask (candidateWord xcchCode mask.full v) =
      punct mask (candidateWord xcchCode mask.full u)) : v = u := by
  have hfull {w : List UBit} (hw : w.length = scheme.np + 19) :
      2 * (w ++ List.replicate 4 false).length = mask.full := by
    rw [List.length_append, hw, List.length_replicate, hx.full]
  rw [hx.candidateWord_eq hu, hx.candidateWord_eq hv] at h
  have hwords := xcch_punct_injective (fun _ hk => hx.even hk) (hfull hv) (hfull hu) h
  exact (List.append_inj hwords (hv.trans hu.symm)).1

theorem pdtchDec_clean_punctured {pdu : List Byte} {s : State}
    (hs : s.softE = softAll (blockBursts .x4 (packetCoded scheme pdu) scheme.header)) :
    ∃ t, State.PacketRecovered s t scheme pdu := by
  have hok := hx.decodeLenOk_eq
  have hlen := hx.info_length pdu
  obtain ⟨t, u, hexec, hblock, -, hdecoded, hfinished⟩ :=
    pdtchDec_punctured hx (packet_clean_length hs) (packet_clean_header hs)
  rw [packet_clean_coded hs (hx.coded_length pdu), hx.coded_candidate pdu] at hdecoded
  have hu : u = packetInfo scheme pdu := hdecoded.word.trans
    (convDec_punctured hok hlen (fun _ hu => hx.punct_injective hu hlen) _)
  rw [hu] at hdecoded hfinished
  obtain ⟨husf, hstat, hpdu⟩ := hfinished.of_info hx.ne_cs1 pdu
  refine ⟨t, hexec, hblock, hstat, hpdu, ?_, ?_, husf⟩
  · rw [hdecoded.nerr, ← convNerr, convNerr_punctured hok hlen]
    rfl
  · rw [hdecoded.nbits, ← convNbits, convNbits_punctured hok hlen, hx.kept]
    rfl

end PuncturedClean

theorem softAll_map_hard (v : List UBit) : (softAll v).map SBit.hard = v := by
  rw [softAll, List.map_map]
  exact (List.map_congr_left fun b _ => SBit.soft_hard b).trans (List.map_id v)

theorem pdtchDec_clean_plain {pdu : List Byte} {s : State}
    (hs : s.softE = softAll (blockBursts .x4 (packetCoded .cs4 pdu) Scheme.cs4.header)) :
    ∃ t, State.PacketRecovered s t .cs4 pdu := by
  have hcoded : packetCoded .cs4 pdu = packetInfo .cs4 pdu := List.append_nil _
  have hlen : (packetInfo .cs4 pdu).length = 456 := packetInfo_length (by decide) pdu
  obtain ⟨t, hexec, hblock, -, hnerr, hnbits, hfinished⟩ :=
    pdtchDec_plain (packet_clean_length hs) (packet_clean_header hs)
  rw [packet_clean_coded hs (hcoded ▸ hlen), hcoded] at hnbits hfinished
  rw [softAll_map_hard] at hfinished
  obtain ⟨husf, hstat, hpdu⟩ := hfinished.of_info (by decide) pdu
  refine ⟨t, hexec, hblock, hstat, hpdu, hnerr, ?_, husf⟩
  rw [hnbits, convNbits_of_full (softAll_mag _), softAll_length, hlen]
  rfl

theorem schemeOfLen_eq_some {len : Nat} {scheme : Scheme} (h : schemeOfLen len = some scheme) :
    len = (scheme.np + 7) / 8 ∧ (scheme = .cs1 → len = 23) := by
  unfold schemeOfLen at h
  split_ifs at h with h1 h2 h3 h4
  · cases h
    exact ⟨h1, fun _ => h1⟩
  · cases h
    exact ⟨h2, nofun⟩
  · cases h
    exact ⟨h3, nofun⟩
  · cases h
    exact ⟨h4, nofun⟩

/-- A clean block of any scheme. -/
theorem pdtchDec_clean {scheme : Scheme} {pdu : List Byte} {s : State}
    (hlen : schemeOfLen pdu.length = some scheme)
    (hs : s.softE = softAll (blockBursts .x4 (packetCoded scheme pdu) scheme.header)) :
    ∃ t, State.PacketRecovered s t scheme pdu := by
  cases scheme with
  | cs1 => exact pdtchDec_clean_scheme1 ((schemeOfLen_eq_some hlen).2 rfl) hs
  | cs2 => exact pdtchDec_clean_punctured (.inl ⟨rfl, rfl⟩) hs
  | cs3 => exact pdtchDec_clean_punctured (.inr ⟨rfl, rfl⟩) hs
  | cs4 => exact pdtchDec_clean_plain hs

section Recovered

variable {s t : State} {scheme : Scheme} {pdu : List Byte} (h : State.PacketRecovered s t scheme pdu)

include h

theorem State.PacketRecovered.bits (j : Nat) :
    bitAt .lsb t.pdu j = if j < scheme.np then bitAt .lsb pdu j else false := by
  rw [h.bytes]
  exact bitAt_packBits_unpackBits .lsb pdu scheme.np j

theorem State.PacketRecovered.frame : t = { s with
    mem := { s.mem with
      is := t.mem.is, hs := t.mem.hs, cs := t.mem.cs, u := t.mem.u, par := t.mem.par, pdu := t.mem.pdu }
    free := t.free, stat := Stat.ok
    res := { s.res with
      nerr := 0, nbits := 456, cs := BitVec.ofNat 3 scheme.num, usf := usfOf pdu,
      idx := BitVec.ofNat 8 (scheme.num - 1), dist := 0 } } := by
  have hres := h.block.res
  have hframe := h.block.decodesTo.frame
  rw [h.nerr, h.nbits, h.usf, h.block.idx, h.block.dist, h.block.cs] at hres
  rw [h.stat, hres] at hframe
  exact hframe

end Recovered

end Sys2Proof.Machine

namespace Sys2Proof.Proofs

open Sys2Proof.Machine

/-- Settles O32: the header pattern gives the scheme, and its stages are the cases. -/
theorem pdtchRoundTrip : Obligations.PdtchRoundTrip := by
  unfold Obligations.PdtchRoundTrip
  refine ⟨fun scheme pdu s hscheme hs => ?_, fun s hes => ?_⟩
  · obtain ⟨t, h⟩ := pdtchDec_clean hscheme hs
    obtain ⟨hlen, -⟩ := schemeOfLen_eq_some hscheme
    refine ⟨t, h.exec_eq, ?_, fun j _ => h.bits j, fun hspare => ?_, h.frame⟩
    · rw [h.bytes, packLsb_length, packetBits_length, hlen]
    · exact h.bytes.trans (packBits_unpackBits .lsb hlen.symm hspare)
  · have hnearest := matchSoft_nearestIs (table := tCs) (by decide) (unmapFlags 4 s.softE)
    obtain ⟨scheme, hnum⟩ := exists_scheme_of_idx (List.getElem?_eq_some_iff.1 hnearest.attained).1
    have hheader : matchSoft tCs (unmapFlags 4 s.softE) =
        (scheme.num - 1, (matchSoft tCs (unmapFlags 4 s.softE)).2) := Prod.ext hnum.symm rfl
    generalize (matchSoft tCs (unmapFlags 4 s.softE)).2 = dist at hheader
    obtain ⟨t, hexec, hblock, hstages⟩ := pdtchDec_any hes hheader
    exact ⟨t, softCoded .x4 s.softE, scheme, dist, hexec, hblock.gathered, hblock.nearest, hblock.idx,
      hblock.dist, hblock.cs, hstages.scheme1, fun hx => hstages.depunctured (.inl ⟨hx, rfl⟩),
      fun hx => hstages.depunctured (.inr ⟨hx, rfl⟩), hstages.decoded, hstages.plain,
      hblock.decodesTo.frame_of_res hblock.res⟩

end Sys2Proof.Proofs
end

