-- ==== Sys2Proof/Proofs/SpeechReorder.lean ====
section
/-! The reorderings of a speech frame (46_codec_tch.md R223 to R225, R228): the class-1 word, the permutation
and the majority vote, and that each is undone. -/

namespace Sys2Proof.Machine

/-! ### Writing a list of values at a list of positions -/

section Writes

variable {ps : List (Nat × UBit)} {b : List UBit}

theorem foldl_set_getElem?_of_not_mem {j : Nat} (h : j ∉ ps.map Prod.fst) :
    (ps.foldl (fun b p => b.set p.1 p.2) b)[j]? = b[j]? := by
  induction ps generalizing b with
  | nil => rfl
  | cons p ps ih =>
    obtain ⟨hne, hrest⟩ := not_or.1 (fun hj => h (List.mem_cons.2 hj))
    rw [List.foldl_cons, ih hrest, List.getElem?_set_ne (Ne.symm hne)]

/-- Where no position stands twice, every value is found at its position. -/
theorem foldl_set_getElem? (hnodup : (ps.map Prod.fst).Nodup) {j : Nat} {x : UBit} (hmem : (j, x) ∈ ps)
    (hj : j < b.length) : (ps.foldl (fun b p => b.set p.1 p.2) b)[j]? = some x := by
  induction ps generalizing b with
  | nil => cases hmem
  | cons p ps ih =>
    obtain ⟨hfirst, hrest⟩ := List.nodup_cons.1 hnodup
    rw [List.foldl_cons]
    rcases List.mem_cons.1 hmem with rfl | hmem
    · rw [foldl_set_getElem?_of_not_mem hfirst, List.getElem?_set_self hj]
    · exact ih hrest hmem (by rwa [List.length_set])

end Writes

/-- `scatter` puts element `k` at the `k`-th position listed. -/
theorem scatter_getElem? {n k j : Nat} {idx : List Nat} {xs : List UBit} (hnodup : idx.Nodup)
    (hlen : idx.length = xs.length) (hk : idx[k]? = some j) (hj : j < n) :
    (scatter n idx xs)[j]? = xs[k]? := by
  have hkx : k < xs.length := hlen ▸ (List.getElem?_eq_some_iff.1 hk).1
  have hfst : (idx.zip xs).map Prod.fst = idx := List.map_fst_zip hlen.le
  have hpair : (idx.zip xs)[k]? = some (j, xs[k]) :=
    List.getElem?_zip_eq_some.2 ⟨hk, List.getElem?_eq_getElem hkx⟩
  rw [scatter, foldl_set_getElem? (hfst.symm ▸ hnodup) (List.mem_of_getElem? hpair)
    (by rwa [List.length_replicate]), List.getElem?_eq_getElem hkx]

/-- What a permutation reads out of `x`, and only `x`, is found again at its positions. -/
theorem eq_of_pick {n : Nat} {idx : List Nat} {x y : List UBit} (hperm : idx.Perm (List.range n))
    (hx : x.length = n) (hy : y.length = n)
    (h : ∀ k j : Nat, idx[k]? = some j → y[j]? = (pick x idx)[k]?) : y = x := by
  refine List.ext_getElem? fun j => ?_
  by_cases hj : j < n
  · obtain ⟨k, hk⟩ := List.mem_iff_getElem?.1 (hperm.mem_iff.2 (List.mem_range.2 hj))
    rw [h k j hk, pick, List.getElem?_map, hk, Option.map_some, List.getD_eq_getElem _ _ (hx ▸ hj),
      List.getElem?_eq_getElem (hx ▸ hj)]
  · rw [List.getElem?_eq_none (by omega), List.getElem?_eq_none (by omega)]

theorem pick_length (x : List UBit) (idx : List Nat) : (pick x idx).length = idx.length :=
  List.length_map _

/-! ### The majority vote (R228) -/

/-- The shape of `EFR_MAP`, in propositions (R225). -/
theorem EfrMap.wf_iff (e : EfrMap) : e.wf = true ↔
    e.prot.length = 65 ∧ e.rep.length = 4 ∧ (∀ j ∈ e.prot, j < 244) ∧ (∀ j ∈ e.rep, j < 244) ∧
      e.prot.Nodup ∧ e.rep.Nodup ∧ e.order.Perm (List.range 260) := by
  simp [EfrMap.wf, and_assoc]

section Vote

variable {rep : List Nat} {w : List UBit} (hlen : rep.length = 4) (hw : w.length = 260)

include hlen in
theorem vote_eq_foldl : vote rep w =
    (rep.zipIdx.map fun p => (p.1, voteBit w p.1 p.2)).foldl (fun b p => b.set p.1 p.2) (w.take 244) := by
  obtain ⟨a, b, c, d, rfl⟩ := List.length_eq_four.1 hlen
  rfl

include hw in
theorem vote_length : (vote rep w).length = 244 := by
  rw [vote, foldl_set_length, List.length_take, hw]
  rfl

include hlen

theorem vote_getElem?_of_not_mem {j : Nat} (hj : j < 244) (h : j ∉ rep) : (vote rep w)[j]? = w[j]? := by
  have hfst : (rep.zipIdx.map fun p => (p.1, voteBit w p.1 p.2)).map Prod.fst = rep := by
    rw [List.map_map]
    exact List.zipIdx_map_fst 0 rep
  rw [vote_eq_foldl hlen, foldl_set_getElem?_of_not_mem (by rwa [hfst]), List.getElem?_take_of_lt hj]

include hw

theorem vote_getElem? (hnodup : rep.Nodup) (hlt : ∀ j ∈ rep, j < 244) {r j : Nat}
    (h : rep[r]? = some j) : (vote rep w)[j]? = some (voteBit w j r) := by
  have hfst : (rep.zipIdx.map fun p => (p.1, voteBit w p.1 p.2)).map Prod.fst = rep := by
    rw [List.map_map]
    exact List.zipIdx_map_fst 0 rep
  have hj := hlt j (List.mem_of_getElem? h)
  rw [vote_eq_foldl hlen]
  refine foldl_set_getElem? (hfst.symm ▸ hnodup) (List.mem_map.2 ⟨(j, r), ?_, rfl⟩) ?_
  · exact List.mem_zipIdx_iff_getElem?.2 h
  · rw [List.length_take, hw]
    omega

end Vote

theorem voteBit_of_agree {w : List UBit} {j r : Nat} {x : UBit} (hj : w.getD j false = x)
    (h₁ : w.getD (244 + 2 * r) false = x) (h₂ : w.getD (245 + 2 * r) false = x) : voteBit w j r = x := by
  rw [voteBit, hj, h₁, h₂]
  cases x <;> rfl

/-! ### The class-1 word (R223, R228) -/

/-- The even bits of class 1, upwards. -/
def class1Even (d : List UBit) : List UBit := (List.range 91).map fun k => d.getD (2 * k) false

/-- The odd bits of class 1, downwards. -/
def class1Odd (d : List UBit) : List UBit := (List.range 91).map fun k => d.getD (2 * (90 - k) + 1) false

theorem class1Word_eq (d p : List UBit) :
    class1Word d p = infoWord (class1Even d) (p ++ class1Odd d) := by
  simp [class1Word, infoWord, class1Even, class1Odd]

theorem class1Even_length (d : List UBit) : (class1Even d).length = 91 := by simp [class1Even]
theorem class1Odd_length (d : List UBit) : (class1Odd d).length = 91 := by simp [class1Odd]

theorem class1Even_getElem? (d : List UBit) {k : Nat} (hk : k < 91) :
    (class1Even d)[k]? = some (d.getD (2 * k) false) := by
  simp [class1Even, hk]

theorem class1Odd_getElem? (d : List UBit) {k : Nat} (hk : k < 91) :
    (class1Odd d)[k]? = some (d.getD (2 * (90 - k) + 1) false) := by
  simp [class1Odd, hk]

theorem class1Bits_length (u : List UBit) : (class1Bits u).length = 182 := by simp [class1Bits]

theorem class1Bits_even {u : List UBit} (hu : u.length = 185) {k : Nat} (hk : k < 91) :
    (class1Bits u)[2 * k]? = u[k]? := by
  have hlt : 2 * k < 182 := by omega
  have hku : k < u.length := by omega
  simp [class1Bits, hlt, hku]

theorem class1Bits_odd {u : List UBit} (hu : u.length = 185) {k : Nat} (hk : k < 91) :
    (class1Bits u)[2 * k + 1]? = u[184 - k]? := by
  have hlt : 2 * k + 1 < 182 := by omega
  have hku : 184 - k < u.length := by omega
  have hhalf : (2 * k + 1) / 2 = k := by omega
  simp [class1Bits, hlt, hku, hhalf]

/-! ### The bits of a speech PDU (R224, R225) -/

theorem speechBits_length {P : Params} (hP : P.WF) (speech : Efr) (pdu : List Byte) :
    (speechBits P speech pdu).length = 260 := by
  obtain ⟨-, -, -, -, -, -, hperm⟩ := P.efrMap.wf_iff.1 hP.efrMap
  cases speech with
  | fr => rw [speechBits, pick_length, hP.frOrder.length_eq, List.length_range]
  | efr => rw [speechBits, pick_length, hperm.length_eq, List.length_range]

section Repeated

variable (f : Nat → UBit) (rep : List Nat)

/-- A list with every element twice. -/
theorem flatMap_pair_getElem? (r : Nat) :
    (rep.flatMap fun j => [f j, f j])[2 * r]? = rep[r]?.map f ∧
      (rep.flatMap fun j => [f j, f j])[2 * r + 1]? = rep[r]?.map f := by
  induction rep generalizing r with
  | nil => simp
  | cons j rep ih =>
    cases r with
    | zero => simp
    | succ r => simpa [Nat.mul_succ] using ih r

theorem flatMap_pair_length : (rep.flatMap fun j => [f j, f j]).length = 2 * rep.length := by
  simp [Nat.mul_comm]

end Repeated

section Expand

variable {P : Params} (hP : P.WF) {b : List UBit} (hb : b.length = 244)

include hP hb

theorem efrExpand_length : (efrExpand P b).length = 260 := by
  obtain ⟨-, hrep, -⟩ := P.efrMap.wf_iff.1 hP.efrMap
  simp only [efrExpand, List.length_append, flatMap_pair_length, hb, hrep, crcGen_length, crcWidth]

/-- The checksum stands behind the repeated bits. -/
theorem efrExpand_parity :
    ((efrExpand P b).drop 252).take 8 = crcGen .crc8 (pick b P.efrMap.prot) := by
  obtain ⟨-, hrep, -⟩ := P.efrMap.wf_iff.1 hP.efrMap
  rw [efrExpand, List.drop_left' (by simp only [List.length_append, flatMap_pair_length, hb, hrep])]
  exact List.take_of_length_le (crcGen_length .crc8 _).le

omit hP in
theorem efrExpand_getElem? {j : Nat} (hj : j < 244) : (efrExpand P b)[j]? = b[j]? := by
  rw [efrExpand, List.append_assoc, List.getElem?_append_left (by omega)]

/-- The copies of a bit that is sent three times. -/
theorem efrExpand_copies {r j : Nat} (h : P.efrMap.rep[r]? = some j) :
    (efrExpand P b).getD (244 + 2 * r) false = b.getD j false ∧
      (efrExpand P b).getD (245 + 2 * r) false = b.getD j false := by
  obtain ⟨-, hrep, -⟩ := P.efrMap.wf_iff.1 hP.efrMap
  have hr : r < 4 := hrep ▸ (List.getElem?_eq_some_iff.1 h).1
  have hcopies := flatMap_pair_getElem? (fun j => b.getD j false) P.efrMap.rep r
  rw [h, Option.map_some] at hcopies
  obtain ⟨hfirst, hsecond⟩ := hcopies
  have hmid {i : Nat} (hi : i < 8) : (efrExpand P b)[244 + i]? =
      (P.efrMap.rep.flatMap fun j => [b.getD j false, b.getD j false])[i]? := by
    rw [efrExpand, List.append_assoc, List.getElem?_append_right (by omega), hb, Nat.add_sub_cancel_left,
      List.getElem?_append_left (by rw [flatMap_pair_length, hrep]; exact hi)]
  have hodd : 245 + 2 * r = 244 + (2 * r + 1) := by omega
  rw [hodd]
  constructor
  · rw [List.getD_eq_getElem?_getD, hmid (by omega), hfirst, Option.getD_some]
  · rw [List.getD_eq_getElem?_getD, hmid (by omega), hsecond, Option.getD_some]

/-- A vote on the bits as they were sent gives them back. -/
theorem eq_of_vote {b' : List UBit} (hb' : b'.length = 244)
    (hothers : ∀ j, j < 244 → j ∉ P.efrMap.rep → b'[j]? = (efrExpand P b)[j]?)
    (hvoted : ∀ r j : Nat, P.efrMap.rep[r]? = some j → b'[j]? = some (voteBit (efrExpand P b) j r)) :
    b' = b := by
  obtain ⟨-, -, -, hlt, -⟩ := P.efrMap.wf_iff.1 hP.efrMap
  refine List.ext_getElem? fun j => ?_
  by_cases hj : j < 244
  · by_cases hmem : j ∈ P.efrMap.rep
    · obtain ⟨r, hr⟩ := List.mem_iff_getElem?.1 hmem
      obtain ⟨h₁, h₂⟩ := efrExpand_copies hP hb hr
      have hget : (efrExpand P b).getD j false = b.getD j false := by
        rw [List.getD_eq_getElem?_getD, efrExpand_getElem? hb hj, List.getD_eq_getElem?_getD]
      rw [hvoted r j hr, voteBit_of_agree hget h₁ h₂, List.getD_eq_getElem _ _ (hb ▸ hj),
        List.getElem?_eq_getElem (hb ▸ hj)]
    · rw [hothers j hj hmem, efrExpand_getElem? hb hj]
  · rw [List.getElem?_eq_none (by omega), List.getElem?_eq_none (by omega)]

end Expand

/-- The signature nibble and the bits behind it are the bytes. -/
theorem packMsb_signature {pdu : List Byte} {n : Nat} (hn : n = 8 * pdu.length) (hpos : 4 ≤ n) :
    packMsb (((List.range 4).map fun i => ((pdu.getD 0 0).extractLsb' 4 4).getLsbD (3 - i)) ++
      (unpackMsb pdu n).drop 4) = pdu := by
  have htake : (unpackMsb pdu n).take 4 =
      (List.range 4).map fun i => ((pdu.getD 0 0).extractLsb' 4 4).getLsbD (3 - i) := by
    refine List.ext_getElem? fun k => ?_
    by_cases hk : k < 4
    · rw [List.getElem?_take_of_lt hk, List.getElem?_map, List.getElem?_range hk, Option.map_some]
      refine (unpackBits_getElem? .msb pdu (by omega)).trans (congrArg some ?_)
      rw [bitAt, Nat.div_eq_of_lt (by omega), Nat.mod_eq_of_lt (by omega), BitVec.getLsbD_extractLsb',
        decide_eq_true (by omega), Bool.true_and]
      congr 1
      omega
    · rw [List.getElem?_eq_none (by rw [List.length_take]; omega),
        List.getElem?_eq_none (by rw [List.length_map, List.length_range]; omega)]
  rw [← htake, List.take_append_drop]
  exact packBits_unpackBits_whole .msb hn

end Sys2Proof.Machine
end

