-- ==== Sys2Proof/Proofs/SpeechDecoder.lean ====
section
/-! `TCHFR.DEC` (46_codec_tch.md R222 to R230): the stolen block and the speech block on any input, and the
clean speech block as a case of it. -/

namespace Sys2Proof.Machine

/-! ### The end of a decoder -/

/-- `t` is `s` after the decode step, with parity `p`; `STAT` and `PDU` aside. -/
structure State.TrellisEnded (P : Params) (s t : State) (code : Code) (soft : List SBit) (kd : Nat)
    (p : List UBit) : Prop where
  word : Decoded P code soft kd t.u t.res
  parity : t.par = p
  softI_eq : t.softI = s.softI
  softH_eq : t.softH = s.softH
  softC_eq : t.softC = s.softC
  res_eq : t.res = { s.res with nerr := t.res.nerr, nbits := t.res.nbits }
  decodesTo : ∀ v : State, v.DecodesTo s → v.DecodesTo t

section Ended

variable (P : Params) (s : State) (code : Code) (soft : List SBit) (kd : Nat) (p : List UBit)

theorem State.trellisEnded_raise (e : ErrCode) (info : Nat) :
    State.TrellisEnded P s (((s.trellis P code soft kd).setPar p).raise e info) code soft kd p where
  word := s.trellis_decoded P code soft kd
  parity := State.setPar_par _ p
  softI_eq := rfl
  softH_eq := rfl
  softC_eq := rfl
  res_eq := rfl
  decodesTo _ hv := ((hv.trellis P code soft kd).setPar p).raise e info

theorem State.trellisEnded_setPdu (pdu : List Byte) : State.TrellisEnded P s
    ((((s.trellis P code soft kd).setPar p).setPdu pdu).raise .none 0) code soft kd p where
  word := s.trellis_decoded P code soft kd
  parity := State.setPar_par _ p
  softI_eq := rfl
  softH_eq := rfl
  softC_eq := rfl
  res_eq := rfl
  decodesTo _ hv := (((hv.trellis P code soft kd).setPar p).setPdu pdu).raise .none 0

end Ended

/-! ### A speech block on any input (R228, R229) -/

/-- The 260 bits of a speech block, from its class-1 word and its coded soft bits (R228). -/
def speechFrame (u : List UBit) (cs : List SBit) : List UBit :=
  class1Bits u ++ (slice cs 378 78).map SBit.hard

section Frame

variable {u : List UBit} {cs : List SBit}

theorem speechFrame_class1 (hu : u.length = 185) {k : Nat} (hk : k < 91) :
    (speechFrame u cs)[2 * k]? = u[k]? ∧ (speechFrame u cs)[2 * k + 1]? = u[184 - k]? := by
  have hlen := class1Bits_length u
  rw [speechFrame, List.getElem?_append_left (by omega), List.getElem?_append_left (by omega)]
  exact ⟨class1Bits_even hu hk, class1Bits_odd hu hk⟩

theorem speechFrame_class2 {k : Nat} (hk : k < 78) :
    (speechFrame u cs)[182 + k]? = cs[378 + k]?.map SBit.hard := by
  have hlen := class1Bits_length u
  rw [speechFrame, List.getElem?_append_right (by omega), hlen, Nat.add_sub_cancel_left, List.getElem?_map,
    getElem?_slice _ _ hk]

theorem speechFrame_length (hcs : cs.length = 456) : (speechFrame u cs).length = 260 := by
  rw [speechFrame, List.length_append, class1Bits_length, List.length_map, slice_length _ _ _ (by omega)]

end Frame

/-- The stages of a speech block after its decode step (R228, R229). -/
def State.speechEnd (P : Params) (s : State) (speech : Efr) (d p : List UBit) : Cmd :=
  if crcChk .crc3 (d.take 50) p then
    match speechPdu P speech d with
    | some pdu => .done ((s.setPar p).setPdu pdu)
    | none => .raised .badBlock CrcSel.crc8.code.toNat (s.setPar p)
  else .raised .badBlock CrcSel.crc3.code.toNat (s.setPar p)

theorem State.decodeSpeech_eq (P : Params) (s : State) (speech : Efr) (cs : List SBit) :
    s.decodeSpeech P speech cs = (s.trellis P xcchCode (cs.take 378) 185).speechEnd P speech
      (speechFrame (convDecP P xcchCode (cs.take 378) 185) cs)
      (slice (convDecP P xcchCode (cs.take 378) 185) 91 3) := rfl

section SpeechEnd

variable {P : Params} {s : State} {speech : Efr} {d p : List UBit}

theorem State.speechEnd_finish_bad (h : crcChk .crc3 (d.take 50) p = false) :
    (s.speechEnd P speech d p).finish = .next ((s.setPar p).raise .badBlock 4) :=
  congrArg Cmd.finish (if_neg (by rw [h]; exact Bool.false_ne_true))

theorem State.speechEnd_finish_good (h : crcChk .crc3 (d.take 50) p = true) {pdu : List Byte}
    (hpdu : speechPdu P speech d = some pdu) :
    (s.speechEnd P speech d p).finish = .next (((s.setPar p).setPdu pdu).raise .none 0) := by
  rw [State.speechEnd, if_pos h, hpdu]
  rfl

theorem State.speechEnd_finish_none (h : crcChk .crc3 (d.take 50) p = true)
    (hpdu : speechPdu P speech d = none) :
    (s.speechEnd P speech d p).finish = .next ((s.setPar p).raise .badBlock 5) := by
  rw [State.speechEnd, if_pos h, hpdu]
  rfl

end SpeechEnd

/-- The 8-bit checksum decides on the PDU of an EFR block (R228). -/
theorem speechPdu_efr (P : Params) (d : List UBit) : speechPdu P .efr d =
    if crcChk .crc8 (pick (vote P.efrMap.rep (scatter 260 P.efrMap.order d)) P.efrMap.prot)
      (slice (scatter 260 P.efrMap.order d) 252 8) then
      some (packMsb ([true, true, false, false] ++ vote P.efrMap.rep (scatter 260 P.efrMap.order d)))
    else none := rfl

/-- How the checksums of a speech block decide, in the words of R228 and R229. -/
structure SpeechVerdict (P : Params) (s t : State) (speech : Efr) (d p : List UBit) : Prop where
  bad : crcChk .crc3 (d.take 50) p = false → t.stat = Stat.error .badBlock 4 ∧ t.mem.pdu = s.mem.pdu
  fr : crcChk .crc3 (d.take 50) p = true → speech = .fr → ∃ b : List UBit, b.length = 260 ∧
    (∀ k j : Nat, P.frOrder[k]? = some j → b[j]? = d[k]?) ∧ t.stat = Stat.ok ∧
    t.pdu = packMsb ([true, true, false, true] ++ b)
  efr : crcChk .crc3 (d.take 50) p = true → speech = .efr → ∃ w b : List UBit, w.length = 260 ∧
    (∀ k j : Nat, P.efrMap.order[k]? = some j → w[j]? = d[k]?) ∧ b.length = 244 ∧
    (∀ j, j < 244 → j ∉ P.efrMap.rep → b[j]? = w[j]?) ∧
    (∀ r j : Nat, P.efrMap.rep[r]? = some j → b[j]? = some (voteBit w j r)) ∧
    Verdict s t .crc8 (pick b P.efrMap.prot) ((w.drop 252).take 8) (packMsb ([true, true, false, false] ++ b))

/-- `t` is `s` with parity `p`, after a bad block or with a PDU. -/
def State.EndsSpeech (s t : State) (p : List UBit) : Prop :=
  (∃ info, t = (s.setPar p).raise .badBlock info) ∨ ∃ pdu, t = ((s.setPar p).setPdu pdu).raise .none 0

section Verdicts

variable {P : Params} (hP : P.WF) {s₀ s : State} (hpdu : s.mem.pdu = s₀.mem.pdu) {d p : List UBit}

include hpdu

theorem State.speechEnd_bad (speech : Efr) (h3 : crcChk .crc3 (d.take 50) p = false) :
    ∃ t, (s.speechEnd P speech d p).finish = .next t ∧ s.EndsSpeech t p ∧
      SpeechVerdict P s₀ t speech d p := by
  refine ⟨_, State.speechEnd_finish_bad h3, .inl ⟨4, rfl⟩, fun _ => ⟨rfl, hpdu⟩, fun h => ?_, fun h => ?_⟩
  · rw [h3] at h
    cases h
  · rw [h3] at h
    cases h

include hP

omit hpdu in
theorem State.speechEnd_fr (hd : d.length = 260) (h3 : crcChk .crc3 (d.take 50) p = true) :
    ∃ t, (s.speechEnd P .fr d p).finish = .next t ∧ s.EndsSpeech t p ∧
      SpeechVerdict P s₀ t .fr d p := by
  have hnodup : P.frOrder.Nodup := hP.frOrder.nodup_iff.2 List.nodup_range
  refine ⟨_, State.speechEnd_finish_good h3 rfl, .inr ⟨_, rfl⟩, fun h => ?_, fun _ _ =>
    ⟨scatter 260 P.frOrder d, scatter_length _ _ _, fun k j hkj => ?_, rfl, State.setPdu_pdu _ _⟩, nofun⟩
  · rw [h3] at h
    cases h
  · exact scatter_getElem? hnodup (by rw [hP.frOrder.length_eq, List.length_range, hd]) hkj
      (List.mem_range.1 (hP.frOrder.mem_iff.1 (List.mem_of_getElem? hkj)))

/-- The 8-bit checksum decides between the PDU and `E_BAD_BLOCK(5)`. -/
theorem State.speechEnd_efr (hd : d.length = 260) (h3 : crcChk .crc3 (d.take 50) p = true) :
    ∃ t, (s.speechEnd P .efr d p).finish = .next t ∧ s.EndsSpeech t p ∧
      SpeechVerdict P s₀ t .efr d p := by
  obtain ⟨-, hrep, -, hlt, -, hnodup, hperm⟩ := P.efrMap.wf_iff.1 hP.efrMap
  have hw : (scatter 260 P.efrMap.order d).length = 260 := scatter_length _ _ _
  have horder (k j : Nat) (hkj : P.efrMap.order[k]? = some j) :
      (scatter 260 P.efrMap.order d)[j]? = d[k]? :=
    scatter_getElem? (hperm.nodup_iff.2 List.nodup_range)
      (by rw [hperm.length_eq, List.length_range, hd]) hkj
      (List.mem_range.1 (hperm.mem_iff.1 (List.mem_of_getElem? hkj)))
  have hverdict {t : State} (hv : Verdict s₀ t .crc8
      (pick (vote P.efrMap.rep (scatter 260 P.efrMap.order d)) P.efrMap.prot)
      (slice (scatter 260 P.efrMap.order d) 252 8)
      (packMsb ([true, true, false, false] ++ vote P.efrMap.rep (scatter 260 P.efrMap.order d)))) :
      SpeechVerdict P s₀ t .efr d p := by
    refine ⟨fun h => ?_, nofun, fun _ _ => ⟨scatter 260 P.efrMap.order d, _, hw, horder, vote_length hw,
      fun j => vote_getElem?_of_not_mem hrep, fun r j => vote_getElem? hrep hw hnodup hlt, hv⟩⟩
    rw [h3] at h
    cases h
  cases h8 : crcChk .crc8 (pick (vote P.efrMap.rep (scatter 260 P.efrMap.order d)) P.efrMap.prot)
      (slice (scatter 260 P.efrMap.order d) 252 8) with
  | false =>
    have hnone : speechPdu P .efr d = none := by
      rw [speechPdu_efr, if_neg (by rw [h8]; exact Bool.false_ne_true)]
    refine ⟨_, State.speechEnd_finish_none h3 hnone, .inl ⟨5, rfl⟩, hverdict ⟨fun h => ?_,
      fun _ => ⟨rfl, hpdu⟩⟩⟩
    rw [h8] at h
    cases h
  | true =>
    have hsome := (speechPdu_efr P d).trans (if_pos h8)
    refine ⟨_, State.speechEnd_finish_good h3 hsome, .inr ⟨_, rfl⟩, hverdict
      ⟨fun _ => ⟨rfl, State.setPdu_pdu _ _⟩, fun h => ?_⟩⟩
    rw [h8] at h
    cases h

theorem State.speechEnd_any (speech : Efr) (hd : d.length = 260) :
    ∃ t, (s.speechEnd P speech d p).finish = .next t ∧ s.EndsSpeech t p ∧
      SpeechVerdict P s₀ t speech d p := by
  cases h3 : crcChk .crc3 (d.take 50) p with
  | false => exact State.speechEnd_bad hpdu speech h3
  | true =>
    cases speech with
    | fr => exact State.speechEnd_fr hP hd h3
    | efr => exact State.speechEnd_efr hP hpdu hd h3

end Verdicts

/-- The decode step and the end of a speech block. -/
theorem State.EndsSpeech.trellisEnded {P : Params} {s t : State} {code : Code} {soft : List SBit} {kd : Nat}
    {p : List UBit} (h : (s.trellis P code soft kd).EndsSpeech t p) :
    State.TrellisEnded P s t code soft kd p := by
  rcases h with ⟨info, rfl⟩ | ⟨pdu, rfl⟩
  · exact State.trellisEnded_raise P s code soft kd p .badBlock info
  · exact State.trellisEnded_setPdu P s code soft kd p pdu

theorem State.TrellisEnded.speechDecoded {P : Params} {s₀ s t : State} {speech : Efr} {cs : List SBit}
    (h : State.TrellisEnded P s t xcchCode (cs.take 378) 185
      (slice (convDecP P xcchCode (cs.take 378) 185) 91 3)) (hcs : cs.length = 456)
    (hverdict : SpeechVerdict P s₀ t speech (speechFrame (convDecP P xcchCode (cs.take 378) 185) cs)
      (slice (convDecP P xcchCode (cs.take 378) 185) 91 3)) :
    SpeechDecoded P s₀ t speech cs (speechFrame t.u cs) := by
  have hu : t.u.length = 185 := by
    rw [h.word.word]
    exact convDecP_length P xcchCode _ _
  rw [← h.parity, ← h.word.word] at hverdict
  exact ⟨h.word, by rw [h.parity, h.word.word, slice], speechFrame_length hcs,
    fun k hk => speechFrame_class1 hu hk, fun k hk => speechFrame_class2 hk, hverdict.bad, hverdict.fr,
    hverdict.efr⟩

theorem State.trellis_mem_pdu (P : Params) (s : State) (code : Code) (soft : List SBit) (kd : Nat) :
    (s.trellis P code soft kd).mem.pdu = s.mem.pdu := rfl

/-- A speech block on any input. -/
theorem State.decodeSpeech_any {P : Params} (hP : P.WF) {s₀ s : State} (hpdu : s.mem.pdu = s₀.mem.pdu)
    (speech : Efr) {cs : List SBit} (hcs : cs.length = 456) :
    ∃ t, (s.decodeSpeech P speech cs).finish = .next t ∧ State.TrellisEnded P s t xcchCode (cs.take 378) 185
      (slice (convDecP P xcchCode (cs.take 378) 185) 91 3) ∧
      SpeechDecoded P s₀ t speech cs (speechFrame t.u cs) := by
  obtain ⟨t, hfinish, hends, hverdict⟩ := State.speechEnd_any hP (s₀ := s₀)
    (s := s.trellis P xcchCode (cs.take 378) 185)
    ((State.trellis_mem_pdu ..).trans hpdu)
    (d := speechFrame (convDecP P xcchCode (cs.take 378) 185) cs)
    (p := slice (convDecP P xcchCode (cs.take 378) 185) 91 3) speech (speechFrame_length hcs)
  have hended := hends.trellisEnded
  exact ⟨t, (congrArg Cmd.finish (s.decodeSpeech_eq P speech cs)).trans hfinish, hended,
    hended.speechDecoded hcs hverdict⟩

/-! ### `TCHFR.DEC` on any input (R228, R229) -/

theorem stolen_iff (hs : List SBit) : stolen hs = true ↔ StolenFlags hs := decide_eq_true_iff

/-- The state in which the stages of a traffic block begin. -/
def State.trafficStart (s : State) (steal : Bool) : State := (s.gather .t8 s.softE).setSteal steal

theorem State.trafficStart_decodesTo (s : State) (steal : Bool) : s.DecodesTo (s.trafficStart steal) :=
  ((State.DecodesTo.refl s).gather .t8 s.softE).setRes _

theorem State.trafficStart_softC (s : State) (steal : Bool) :
    (s.trafficStart steal).softC = softCoded .t8 s.softE := s.gather_softC .t8 s.softE

/-- What R228 and R229 leave of a traffic block, whatever its stages make of the bits. -/
structure State.TrafficBlock (s t : State) (steal : Bool) : Prop where
  gathered : Gathered .t8 s t (softCoded .t8 s.softE)
  softC : t.softC = softCoded .t8 s.softE
  res : t.res = { s.res with nerr := t.res.nerr, nbits := t.res.nbits, steal := steal }
  decodesTo : s.DecodesTo t

theorem State.trafficBlock_of {s t : State} {steal : Bool}
    (hi : t.softI = (s.trafficStart steal).softI) (hh : t.softH = (s.trafficStart steal).softH)
    (hc : t.softC = (s.trafficStart steal).softC)
    (hres : t.res = { (s.trafficStart steal).res with nerr := t.res.nerr, nbits := t.res.nbits })
    (hto : s.DecodesTo t) : State.TrafficBlock s t steal where
  gathered := gathered_of_eq s .t8 hi hh
  softC := hc.trans (s.trafficStart_softC steal)
  res := hres
  decodesTo := hto

section Traffic

variable {s : State} (hes : s.mem.es.len = 928) (speech : Efr)

include hes

theorem exec_tchfrDec : exec (.tchfrDec speech) s = Cmd.finish (if stolen (unmapFlags 8 s.softE) then
      (s.trafficStart (stolen (unmapFlags 8 s.softE))).decodeControl Config.inst (softCoded .t8 s.softE)
    else (s.trafficStart (stolen (unmapFlags 8 s.softE))).decodeSpeech Config.inst speech
      (softCoded .t8 s.softE)) :=
  congrArg Cmd.finish (if_neg (not_not.2 hes))

/-- A stolen block. -/
theorem tchfrDec_stolen (h : stolen (unmapFlags 8 s.softE) = true) :
    ∃ t, exec (.tchfrDec speech) s = .next t ∧ State.TrafficBlock s t true ∧
      ControlDecoded Config.inst s t (softCoded .t8 s.softE) := by
  obtain ⟨t, hfinish, hdecoded⟩ := State.decodeControl_blockDecoded Config.inst (s₀ := s)
    (s := s.trafficStart true) rfl (softCoded .t8 s.softE)
  refine ⟨t, ?_, State.trafficBlock_of hdecoded.softI_eq hdecoded.softH_eq hdecoded.softC_eq hdecoded.res_eq
    (hdecoded.decodesTo (s.trafficStart_decodesTo true)), hdecoded.controlDecoded⟩
  rw [exec_tchfrDec hes, h, if_pos rfl]
  exact hfinish

/-- A speech block. -/
theorem tchfrDec_speech (h : stolen (unmapFlags 8 s.softE) = false) :
    ∃ t, exec (.tchfrDec speech) s = .next t ∧ State.TrafficBlock s t false ∧
      SpeechDecoded Config.inst s t speech (softCoded .t8 s.softE)
        (speechFrame t.u (softCoded .t8 s.softE)) := by
  have hcs : (softCoded .t8 s.softE).length = 456 := deinterleave_length _ _
  obtain ⟨t, hfinish, hended, hdecoded⟩ := State.decodeSpeech_any Config.model.wf (s₀ := s)
    (s := s.trafficStart false) rfl speech hcs
  refine ⟨t, ?_, State.trafficBlock_of hended.softI_eq hended.softH_eq hended.softC_eq hended.res_eq
    (hended.decodesTo s (s.trafficStart_decodesTo false)), hdecoded⟩
  rw [exec_tchfrDec hes, h, if_neg Bool.false_ne_true]
  exact hfinish

end Traffic

/-! ### Clean speech blocks (R230) -/

theorem tchFlags_stolen (b : Bool) : stolen (softAll (tchFlags b)) = b := by cases b <;> decide

/-- The signature nibble of a speech PDU (R224). -/
def signature : Efr → BitVec 4
  | .fr => 0xD#4
  | .efr => 0xC#4

section Clean

variable {d p : List UBit} (hd : d.length = 260) (hp : p.length = 3)

include hp

theorem class1Word_info_length : (class1Even d).length + (p ++ class1Odd d).length = 185 := by
  rw [class1Even_length, List.length_append, class1Odd_length, hp]

theorem class1Coded_length : (convEnc xcchCode (class1Word d p)).length = 378 := by
  rw [convEnc_xcch_length, class1Word_length, hp]

/-- The class-1 part of the clean coded bits. -/
theorem softAll_speechCoded_take :
    (softAll (speechCoded d p)).take 378 = softAll (convEnc xcchCode (infoWord (class1Even d)
      (p ++ class1Odd d))) := by
  rw [speechCoded, softAll_append, List.take_left' (by rw [softAll_length, class1Coded_length hp]),
    class1Word_eq]

include hd

theorem speechCoded_length : (speechCoded d p).length = 456 := by
  rw [speechCoded, List.length_append, class1Coded_length hp, slice_length _ _ _ (by omega)]

/-- The word of a clean speech block gives its bits back. -/
theorem SpeechDecoded.frame_of_clean {P : Params} {s t : State} {speech : Efr} {d' : List UBit}
    (h : SpeechDecoded P s t speech (softAll (speechCoded d p)) d') :
    d' = d ∧ t.par = p ∧ t.res.nerr = 0 ∧ t.res.nbits = 378 := by
  have hword := h.word
  rw [softAll_speechCoded_take hp] at hword
  obtain ⟨hu, hnerr, hnbits⟩ := Decoded.of_infoWord (class1Word_info_length hp) hword
  have heven := class1Even_length d
  have hpar : t.par = p := by
    rw [h.parity, hu, List.drop_left' heven, List.take_left' hp]
  have hget {k : Nat} (hk : k < 260) : d[k]? = some (d.getD k false) := by
    rw [List.getD_eq_getElem _ _ (hd ▸ hk), List.getElem?_eq_getElem (hd ▸ hk)]
  refine ⟨List.ext_getElem? fun j => ?_, hpar, hnerr, hnbits⟩
  have hclass1 {k : Nat} (hk : k < 91) : d'[2 * k]? = d[2 * k]? ∧ d'[2 * k + 1]? = d[2 * k + 1]? := by
    obtain ⟨h₀, h₁⟩ := h.class1 k hk
    have hback : 2 * (90 - (184 - k - 91 - 3)) + 1 = 2 * k + 1 := by omega
    rw [h₀, h₁, hu, List.getElem?_append_left (by omega), class1Even_getElem? d hk,
      List.getElem?_append_right (by omega), heven, List.getElem?_append_right (by omega), hp,
      class1Odd_getElem? d (by omega), hback, ← hget (by omega), ← hget (by omega)]
    exact ⟨rfl, rfl⟩
  by_cases hj : j < 260
  · by_cases hj1 : j < 182
    · obtain ⟨h₀, h₁⟩ := hclass1 (k := j / 2) (by omega)
      rcases Nat.mod_two_eq_zero_or_one j with hpar2 | hpar2
      · rwa [show 2 * (j / 2) = j by omega] at h₀
      · rwa [show 2 * (j / 2) + 1 = j by omega] at h₁
    · obtain ⟨k, rfl⟩ := Nat.exists_eq_add_of_le (Nat.le_of_not_lt hj1)
      have hk : k < 78 := by omega
      rw [h.class2 k hk, softAll, List.getElem?_map, speechCoded,
        List.getElem?_append_right (by rw [class1Coded_length hp]; omega), class1Coded_length hp,
        Nat.add_sub_cancel_left, getElem?_slice _ _ hk, hget (by omega)]
      simp
  · rw [List.getElem?_eq_none (by rw [h.length]; omega), List.getElem?_eq_none (by omega)]

end Clean

/-- Where the bits are those of a PDU with its signature, the PDU comes back (R230 (a)). -/
theorem SpeechDecoded.pdu_of_clean {P : Params} (hP : P.WF) {s t : State} {speech : Efr} {cs : List SBit}
    {pdu : List Byte} (h : SpeechDecoded P s t speech cs (speechBits P speech pdu))
    (hpar : t.par = crcGen .crc3 ((speechBits P speech pdu).take 50)) (hlen : pdu.length = speechLen speech)
    (hsig : (pdu.getD 0 0).extractLsb' 4 4 = signature speech) : t.stat = Stat.ok ∧ t.pdu = pdu := by
  have hcrc := (crcChk_eq_true_iff .crc3 _ _).2 hpar.symm
  obtain ⟨-, -, -, -, -, -, hperm⟩ := P.efrMap.wf_iff.1 hP.efrMap
  cases speech with
  | fr =>
    obtain ⟨b, hb, horder, hstat, hpdu⟩ := h.fr hcrc rfl
    have hbits : ((unpackMsb pdu 264).drop 4).length = 260 := by rw [List.length_drop, unpackMsb_length]
    have hpack := packMsb_signature (n := 264) (by rw [hlen]; rfl) (by decide)
    rw [hsig] at hpack
    rw [eq_of_pick hP.frOrder hbits hb horder] at hpdu
    exact ⟨hstat, hpdu.trans hpack⟩
  | efr =>
    obtain ⟨w, b, hw, horder, hb, hothers, hvoted, hverdict⟩ := h.efr hcrc rfl
    have hbits : ((unpackMsb pdu 248).drop 4).length = 244 := by rw [List.length_drop, unpackMsb_length]
    have hpack := packMsb_signature (n := 248) (by rw [hlen]; rfl) (by decide)
    rw [hsig] at hpack
    have hword := eq_of_pick hperm (efrExpand_length hP hbits) hw horder
    rw [hword] at hothers hvoted hverdict
    rw [eq_of_vote hP hbits hb hothers hvoted, efrExpand_parity hP hbits] at hverdict
    obtain ⟨hstat, hpdu⟩ := hverdict.good ((crcChk_eq_true_iff _ _ _).2 rfl)
    exact ⟨hstat, hpdu.trans hpack⟩

theorem tchfrDec_clean {speech : Efr} {pdu : List Byte} {s : State} (hlen : pdu.length = speechLen speech)
    (hsig : (pdu.getD 0 0).extractLsb' 4 4 = signature speech)
    (hs : s.softE = softAll (blockBursts .t8 (speechCoded (speechBits Config.inst speech pdu)
      (crcGen .crc3 ((speechBits Config.inst speech pdu).take 50))) (tchFlags false))) :
    ∃ t, exec (.tchfrDec speech) s = .next t ∧ t.pdu = pdu ∧
    t = { s with
      mem := { s.mem with
        is := t.mem.is, hs := t.mem.hs, cs := t.mem.cs, u := t.mem.u, par := t.mem.par,
        pdu := t.mem.pdu }
      free := t.free, stat := Stat.ok
      res := { s.res with nerr := 0, nbits := 378, steal := false } } := by
  have hd := speechBits_length Config.model.wf speech pdu
  have hp : (crcGen .crc3 ((speechBits Config.inst speech pdu).take 50)).length = 3 := crcGen_length _ _
  have hes : s.mem.es.len = 928 := by
    rw [softE_len_of_eq hs, softAll_length, blockBursts_length]
    rfl
  have hflags : stolen (unmapFlags 8 s.softE) = false := by
    have hclean : unmapFlags 8 s.softE = softAll (tchFlags false) := by
      rw [hs]
      exact unmapFlags_clean .t8 _ rfl
    rw [hclean, tchFlags_stolen]
  obtain ⟨t, hexec, hblock, hdecoded⟩ := tchfrDec_speech hes speech hflags
  rw [hs, softCoded_clean .t8 (speechCoded_length hd hp)] at hdecoded
  obtain ⟨hframe, hpar, hnerr, hnbits⟩ := hdecoded.frame_of_clean hd hp
  rw [hframe] at hdecoded
  obtain ⟨hstat, hpdu⟩ := hdecoded.pdu_of_clean Config.model.wf hpar hlen hsig
  have hres := hblock.res
  have hto := hblock.decodesTo.frame
  rw [hnerr, hnbits] at hres
  rw [hstat, hres] at hto
  exact ⟨t, hexec, hpdu, hto⟩

end Sys2Proof.Machine

namespace Sys2Proof.Proofs

open Sys2Proof.Machine

/-- Settles O35: the flags decide between the two ways, and on a clean block the permutation and the vote are
undone. -/
theorem tchfrRoundTrip : Obligations.TchfrRoundTrip := by
  unfold Obligations.TchfrRoundTrip
  refine ⟨fun speech pdu s hlen hsig hs => ?_, fun speech s hes => ?_⟩
  · refine tchfrDec_clean hlen ?_ hs
    cases speech <;> exact hsig
  · have hsteal {t : State} {b : Bool} (hblock : State.TrafficBlock s t b)
        (hb : stolen (unmapFlags 8 s.softE) = b) :
        t.res.steal = b ∧ (t.res.steal = true ↔ StolenFlags t.softH) := by
      have hres : t.res.steal = b := by rw [hblock.res]
      have hflags : t.softH = unmapFlags 8 s.softE := hblock.gathered.flags
      exact ⟨hres, by rw [hres, hflags, ← stolen_iff, hb]⟩
    cases hstolen : stolen (unmapFlags 8 s.softE) with
    | true =>
      obtain ⟨t, hexec, hblock, hdecoded⟩ := tchfrDec_stolen hes speech hstolen
      obtain ⟨hres, hiff⟩ := hsteal hblock hstolen
      refine ⟨t, _, hexec, hblock.gathered, hblock.softC, hiff, fun _ => hdecoded, fun hfalse => ?_,
        hblock.decodesTo.frame_of_res (hres ▸ hblock.res)⟩
      rw [hres] at hfalse
      cases hfalse
    | false =>
      obtain ⟨t, hexec, hblock, hdecoded⟩ := tchfrDec_speech hes speech hstolen
      obtain ⟨hres, hiff⟩ := hsteal hblock hstolen
      refine ⟨t, _, hexec, hblock.gathered, hblock.softC, hiff, fun htrue => ?_, fun _ => ⟨_, hdecoded⟩,
        hblock.decodesTo.frame_of_res (hres ▸ hblock.res)⟩
      rw [hres] at htrue
      cases htrue

end Sys2Proof.Proofs
end

