-- ==== Sys2Proof/Proofs/AmrDecoder.lean ====
section
/-! `TCHAFS.DEC` (46_codec_tch.md R236 to R243): a clean codeword of any well-formed code of a mode decodes,
the ways the command ends on any input, and the clean block as a case of them. -/

namespace Sys2Proof.Machine

/-! ### The code of a mode (R237) -/

/-- The length of a codeword suits the decoder. -/
theorem decodeLenOk_convEnc {c : Code} (hc : c.wf = true) (kd : Nat) :
    decodeLenOk c (c.n * c.steps kd) kd = true := by
  obtain ⟨⟨hn, -⟩, -⟩ := c.wf_iff.1 hc
  unfold decodeLenOk Code.steps
  cases c.term with
  | none => simp [Nat.mul_div_cancel_left kd (by omega : 0 < c.n)]; omega
  | flush => simp

/-- At that length the candidate of `v` is its codeword. -/
theorem candidateWord_convEnc {c : Code} (hc : c.wf = true) (v : List UBit) :
    candidateWord c (c.n * c.steps v.length) v = convEnc c v := by
  obtain ⟨⟨hn, -⟩, -⟩ := c.wf_iff.1 hc
  unfold candidateWord Code.steps
  cases c.term with
  | none => simp [Nat.mul_div_cancel_left v.length (by omega : 0 < c.n)]
  | flush => rfl

theorem afsCodeOf_wf {P : Params} (hP : P.WF) (m : BitVec 3) : (afsCodeOf P m).1.wf = true := by
  unfold afsCodeOf codeOf
  split
  · exact xcchCode_wf
  · cases hcode : P.codes (P.afsCode m).codesel with
    | none => exact xcchCode_wf
    | some c => exact hP.codes _ _ hcode

/-- The shape of the in-band patterns, in propositions (R238). -/
theorem AfsIc.wf_iff (a : AfsIc) : a.wf = true ↔
    (1 ≤ a.wIc ∧ a.wIc ≤ 16 ∧ 1 ≤ a.rows.length ∧ a.rows.length ≤ 8) ∧
      (∀ r ∈ a.rows, r.length = a.wIc) ∧ a.rows.Nodup := by
  simp [AfsIc.wf, and_assoc]

theorem afsIc_rows_ne_nil {P : Params} (hP : P.WF) : P.afsIc.rows ≠ [] := by
  obtain ⟨⟨-, -, hrows, -⟩, -⟩ := P.afsIc.wf_iff.1 hP.afsIc
  exact List.ne_nil_of_length_pos hrows

section Codeword

variable {P : Params} (hP : P.WF) {m : BitVec 3} {u : List UBit} (hu : u.length = (afsMode m).bits + 6)

include hP hu

theorem afsEncode_length :
    (afsEncode (afsCodeOf P m).1 (afsCodeOf P m).2 u).length = 456 - wIc P :=
  ((hP.afsCode m).1 u hu).2

theorem afsEncode_injective {v : List UBit} (hv : v.length = (afsMode m).bits + 6)
    (h : afsEncode (afsCodeOf P m).1 (afsCodeOf P m).2 u = afsEncode (afsCodeOf P m).1 (afsCodeOf P m).2 v) :
    u = v :=
  (hP.afsCode m).2 u v hu hv h

/-- A clean codeword, punctured or not, decodes to its word, and every position that was sent counts. -/
theorem afs_codeword {row : List UBit} (hrow : row.length = wIc P) {soft : List SBit}
    (hsoft : soft = afsSoft P m
      (softAll (row ++ afsEncode (afsCodeOf P m).1 (afsCodeOf P m).2 u))) :
    convDecP P (afsCodeOf P m).1 soft ((afsMode m).bits + 6) = u ∧
      convNerr (afsCodeOf P m).1 soft u = 0 ∧ convNbits soft = 456 - wIc P := by
  have hwf := afsCodeOf_wf hP m
  have hlen := afsEncode_length hP hu
  have hinj := fun v hv => afsEncode_injective hP hu (v := v) hv
  have hfull := ((hP.afsCode m).1 u hu).1
  rw [afsSoft, softAll_append, List.drop_left' (by rw [softAll_length, hrow])] at hsoft
  generalize (afsCodeOf P m).1 = code at *
  have hok : decodeLenOk code (convEnc code u).length ((afsMode m).bits + 6) = true := by
    rw [convEnc_length, hu]
    exact decodeLenOk_convEnc hwf _
  have hcand {v : List UBit} (hv : v.length = (afsMode m).bits + 6) :
      candidateWord code (convEnc code u).length v = convEnc code v := by
    rw [convEnc_length, hu, ← hv]
    exact candidateWord_convEnc hwf v
  cases hmask : (afsCodeOf P m).2 with
  | none =>
    simp only [hmask, afsEncode] at hsoft hinj hlen
    subst hsoft
    rw [← hcand hu]
    refine ⟨convDec_codeword _ hok hu fun v hv h => hinj v hv ?_, convNerr_clean hok hu, ?_⟩
    · rwa [hcand hu, hcand hv] at h
    · rw [hcand hu, convNbits_of_full (softAll_mag _), softAll_length, hlen]
  | some mask =>
    simp only [hmask, afsEncode] at hsoft hinj hlen
    subst hsoft
    rw [hfull mask hmask] at hok hcand
    rw [← hcand hu]
    refine ⟨convDec_punctured hok hu (fun v hv h => hinj v hv ?_) _, convNerr_punctured hok hu, ?_⟩
    · rwa [hcand hu, hcand hv] at h
    · rw [convNbits_punctured hok hu, ← punct_length mask _ (hfull mask hmask), hlen]

end Codeword

/-! ### The stages of an AMR speech block (R241, R242) -/

/-- The indices after a block, good or bad (R242). -/
def State.updateIndex (s : State) (phase : Phase) (idx : BitVec 3) : State :=
  { s with res := { s.res with
      ft := if phase = .cmi ∧ s.stat = Stat.ok then idx else s.res.ft
      cmr := if phase = .cmr ∧ s.stat = Stat.ok then idx else s.res.cmr } }

theorem State.takeIndex_eq (s : State) (phase : Phase) (idx : BitVec 3) :
    (if s.stat = Stat.ok then s.takeIndex phase idx.toNat else s) = s.updateIndex phase idx := by
  have hidx : BitVec.ofNat 3 idx.toNat = idx := by rw [BitVec.ofNat_toNat, BitVec.setWidth_eq]
  unfold State.takeIndex State.updateIndex State.setIndices
  by_cases hok : s.stat = Stat.ok
  · cases phase <;> simp [hok, hidx]
  · simp [hok]

theorem Res.with_indices {r r₀ : Res} (h : r = { r₀ with nerr := r.nerr, nbits := r.nbits })
    (ft cmr : BitVec 3) : { r with ft := ft, cmr := cmr } =
      { r₀ with nerr := r.nerr, nbits := r.nbits, ft := ft, cmr := cmr } := by
  rw [h]

theorem State.decodeAfs_eq_onEnd (P : Params) (s : State) (phase : Phase) (m : BitVec 3) (idx : Nat)
    (soft : List SBit) : s.decodeAfs P phase m idx soft =
      (((s.setSoftC soft).trellis P (afsCodeOf P m).1 soft ((afsMode m).bits + 6)).checkBlock .crc6
        ((convDecP P (afsCodeOf P m).1 soft ((afsMode m).bits + 6)).take (afsMode m).n1a)
        (slice (convDecP P (afsCodeOf P m).1 soft ((afsMode m).bits + 6)) (afsMode m).n1a 6)
        (packMsb ((convDecP P (afsCodeOf P m).1 soft ((afsMode m).bits + 6)).take (afsMode m).n1a ++
          (convDecP P (afsCodeOf P m).1 soft ((afsMode m).bits + 6)).drop ((afsMode m).n1a + 6)))).onEnd
      (fun t => t.takeIndex phase idx) id := by
  unfold State.decodeAfs
  dsimp only
  generalize State.checkBlock _ _ _ _ _ = c
  cases c <;> rfl

/-- An AMR speech block on any input: what it leaves, and what it keeps of the state `s` in which its stages
begin. -/
structure State.AfsEnded (P : Params) (s₀ s t : State) (phase : Phase) (m idx : BitVec 3)
    (soft : List SBit) : Prop where
  word : Decoded P (afsCodeOf P m).1 soft ((afsMode m).bits + 6) t.u t.res
  parity : t.par = (t.u.drop (afsMode m).n1a).take 6
  verdict : Verdict s₀ t .crc6 (t.u.take (afsMode m).n1a) t.par
    (packMsb (t.u.take (afsMode m).n1a ++ t.u.drop ((afsMode m).n1a + 6)))
  ft : t.res.ft = if phase = .cmi ∧ t.stat = Stat.ok then idx else s.res.ft
  cmr : t.res.cmr = if phase = .cmr ∧ t.stat = Stat.ok then idx else s.res.cmr
  softI_eq : t.softI = s.softI
  softH_eq : t.softH = s.softH
  softC_eq : t.softC = soft
  res_eq : t.res = { s.res with
    nerr := t.res.nerr, nbits := t.res.nbits, ft := t.res.ft, cmr := t.res.cmr }
  decodesTo : ∀ v : State, v.DecodesTo s → v.DecodesTo t

theorem State.decodeAfs_any (P : Params) {s₀ s : State} (hpdu : s.mem.pdu = s₀.mem.pdu) (phase : Phase)
    (m idx : BitVec 3) (soft : List SBit) :
    ∃ t, (s.decodeAfs P phase m idx.toNat soft).finish = .next t ∧
      State.AfsEnded P s₀ s t phase m idx soft := by
  obtain ⟨t, hfinish, h⟩ := State.checkBlock_blockDecoded (P := P) (s₀ := s₀) (s := s.setSoftC soft)
    (code := (afsCodeOf P m).1) (soft := soft) (kd := (afsMode m).bits + 6) (x := .crc6)
    (d := (convDecP P (afsCodeOf P m).1 soft ((afsMode m).bits + 6)).take (afsMode m).n1a)
    (p := slice (convDecP P (afsCodeOf P m).1 soft ((afsMode m).bits + 6)) (afsMode m).n1a 6)
    (pdu := packMsb ((convDecP P (afsCodeOf P m).1 soft ((afsMode m).bits + 6)).take (afsMode m).n1a ++
      (convDecP P (afsCodeOf P m).1 soft ((afsMode m).bits + 6)).drop ((afsMode m).n1a + 6))) hpdu
  have hpar := h.checked.parity
  have hverdict := h.checked.verdict
  rw [← h.word.word] at hpar hverdict
  rw [← hpar] at hverdict
  have htake (t : State) : (t.takeIndex phase idx.toNat).raise .none 0 =
      (t.raise .none 0).takeIndex phase idx.toNat := by
    cases phase <;> rfl
  refine ⟨t.updateIndex phase idx, ?_, ⟨⟨h.word.word, h.word.nerr, h.word.nbits⟩, hpar,
    ⟨hverdict.good, hverdict.bad⟩, ?_, ?_, h.softI_eq, h.softH_eq,
    h.softC_eq.trans (State.setSoftC_softC s soft), ?_, fun v hv => ?_⟩⟩
  · rw [State.decodeAfs_eq_onEnd, State.checkBlock_onEnd htake (fun _ _ _ => rfl) hfinish, id,
      State.takeIndex_eq]
  · have hres := h.res_eq
    show (if _ then _ else t.res.ft) = _
    rw [hres]
    rfl
  · have hres := h.res_eq
    show (if _ then _ else t.res.cmr) = _
    rw [hres]
    rfl
  · exact Res.with_indices h.res_eq _ _
  · exact (h.decodesTo (hv.setSoftC soft)).setRes _

/-! ### The ways `TCHAFS.DEC` ends (R241, R242) -/

/-- The state in which the stages of an AMR block begin. -/
def State.afsStart (s : State) (steal : Bool) : State :=
  (s.trafficStart steal).setIndices s.wamr.ft s.wamr.cmr

theorem State.afsStart_decodesTo (s : State) (steal : Bool) : s.DecodesTo (s.afsStart steal) :=
  (s.trafficStart_decodesTo steal).setRes _

theorem State.afsStart_softC (s : State) (steal : Bool) :
    (s.afsStart steal).softC = softCoded .t8 s.softE := s.trafficStart_softC steal

/-- The index carried and the held frame type are in the list. -/
theorem afsOutside_eq_none {phase : Phase} {w : Wamr} {idx : Nat} (hidx : idx < w.n.toNat)
    (hft : phase = .cmr → w.ft.toNat < w.n.toNat) : afsOutside phase w idx = none := by
  rw [afsOutside, if_neg (Nat.not_le.2 hidx), if_neg fun h => absurd h.2 (Nat.not_le.2 (hft h.1))]

theorem afsOutside_eq_some {phase : Phase} {w : Wamr} {idx : Nat}
    (h : w.n.toNat ≤ idx ∨ (phase = .cmr ∧ w.n.toNat ≤ w.ft.toNat)) :
    afsOutside phase w idx = some (if w.n.toNat ≤ idx then idx else w.ft.toNat) := by
  unfold afsOutside
  by_cases hidx : w.n.toNat ≤ idx
  · rw [if_pos hidx, if_pos hidx]
  · rw [if_neg hidx, if_neg hidx, if_pos (h.resolve_left hidx)]

/-! The soft buffers of a state are those of its memory alone. -/

section SoftBuffers

variable {s t : State} (h : t.mem = s.mem)

include h

theorem State.softI_congr : t.softI = s.softI := by rw [State.softI, State.softI, h]
theorem State.softH_congr : t.softH = s.softH := by rw [State.softH, State.softH, h]
theorem State.softC_congr : t.softC = s.softC := by rw [State.softC, State.softC, h]

end SoftBuffers

theorem State.afsStart_mem (s : State) (steal : Bool) :
    (s.afsStart steal).mem = (s.gather .t8 s.softE).mem := rfl

/-- What gathering and an error leave, whatever `RES` holds. -/
theorem State.gather_raise {s t : State} {sel : ISel} {es : List SBit} {r : Res} {e : ErrCode} {info : Nat}
    (h : t = State.raise { s.gather sel es with res := r } e info) :
    t.softI = (s.gather sel es).softI ∧ t.softH = (s.gather sel es).softH ∧
    t.softC = (s.gather sel es).softC ∧
    t = { s with
      mem := { s.mem with is := t.mem.is, hs := t.mem.hs, cs := t.mem.cs }
      free := t.free, stat := Stat.error e info, res := r } := by
  have hmem : t.mem = (s.gather sel es).mem := by rw [h]; rfl
  refine ⟨State.softI_congr hmem, State.softH_congr hmem, State.softC_congr hmem, ?_⟩
  rw [h, State.gather_eq]
  rfl

theorem State.afsStart_setMatch (s : State) (steal : Bool) (m : Nat × Nat) :
    (s.afsStart steal).setMatch m = { s.gather .t8 s.softE with
      res := { s.res with
        steal := steal, idx := BitVec.ofNat 8 m.1, dist := BitVec.ofNat 16 m.2
        ft := s.wamr.ft, cmr := s.wamr.cmr } } := rfl

section Ways

variable {P : Params} {phase : Phase} {idx : BitVec 3} {dist : Nat} {s : State}
  (hes : s.mem.es.len = 928)

include hes

/-- A stolen block is decoded as control. -/
theorem tchafsDec_stolen (h : stolen (unmapFlags 8 s.softE) = true) :
    ∃ t, execIn P (.tchafsDec phase) s = .next t ∧ Gathered .t8 s t (softCoded .t8 s.softE) ∧
    t.softC = softCoded .t8 s.softE ∧ ControlDecoded P s t (softCoded .t8 s.softE) ∧
    t = { s with
      mem := { s.mem with
        is := t.mem.is, hs := t.mem.hs, cs := t.mem.cs, u := t.mem.u, par := t.mem.par,
        pdu := t.mem.pdu }
      free := t.free, stat := t.stat
      res := { s.res with
        nerr := t.res.nerr, nbits := t.res.nbits, steal := true, ft := s.wamr.ft, cmr := s.wamr.cmr } } := by
  have hexec : execIn P (.tchafsDec phase) s =
      ((s.afsStart true).decodeControl P (softCoded .t8 s.softE)).finish := by
    refine congrArg Cmd.finish ((if_neg (not_not.2 hes)).trans ?_)
    simp only [h, if_true]
    rfl
  obtain ⟨t, hfinish, hdecoded⟩ := State.decodeControl_blockDecoded P (s₀ := s)
    (s := s.afsStart true) rfl (softCoded .t8 s.softE)
  have hmem := s.afsStart_mem true
  exact ⟨t, hexec.trans hfinish, gathered_of_eq s .t8 (hdecoded.softI_eq.trans (State.softI_congr hmem))
    (hdecoded.softH_eq.trans (State.softH_congr hmem)), hdecoded.softC_eq.trans (s.afsStart_softC true),
    hdecoded.controlDecoded,
    (hdecoded.decodesTo (s.afsStart_decodesTo true)).frame_of_res hdecoded.res_eq⟩

variable (hstolen : stolen (unmapFlags 8 s.softE) = false)
  (hind : matchSoft P.afsIc.rows ((softCoded .t8 s.softE).take (wIc P)) = (idx.toNat, dist))

include hstolen hind

/-- An index outside the list: the indicator's own, or in phase `CMR` the held frame type. -/
theorem tchafsDec_outside
    (h : s.wamr.n.toNat ≤ idx.toNat ∨ (phase = .cmr ∧ s.wamr.n.toNat ≤ s.wamr.ft.toNat)) :
    ∃ t, execIn P (.tchafsDec phase) s = .next t ∧ Gathered .t8 s t (softCoded .t8 s.softE) ∧
    t.softC = softCoded .t8 s.softE ∧
    t = { s with
      mem := { s.mem with is := t.mem.is, hs := t.mem.hs, cs := t.mem.cs }
      free := t.free
      stat := Stat.error .modeRange
        (if s.wamr.n.toNat ≤ idx.toNat then idx.toNat else s.wamr.ft.toNat)
      res := { s.res with
        steal := false, idx := BitVec.ofNat 8 idx.toNat, dist := BitVec.ofNat 16 dist
        ft := s.wamr.ft, cmr := s.wamr.cmr } } := by
  have hexec : execIn P (.tchafsDec phase) s = .next (((s.afsStart false).setMatch (idx.toNat, dist)).raise
      .modeRange (if s.wamr.n.toNat ≤ idx.toNat then idx.toNat else s.wamr.ft.toNat)) := by
    refine (congrArg Cmd.finish ((if_neg (not_not.2 hes)).trans ?_)).trans
      (b := Cmd.finish (.raised .modeRange _ ((s.afsStart false).setMatch (idx.toNat, dist)))) rfl
    simp only [hstolen, Bool.false_eq_true, if_false, hind, afsOutside_eq_some h]
    rfl
  rw [State.afsStart_setMatch] at hexec
  obtain ⟨hi, hh, hc, hframe⟩ := State.gather_raise (s := s) (sel := .t8) (es := s.softE) rfl
  exact ⟨_, hexec, gathered_of_eq s .t8 hi hh, hc.trans (s.gather_softC .t8 _), hframe⟩

variable {m : BitVec 3} {soft : List SBit} (hm : afsHeldMode phase s.wamr idx.toNat = m)
  (hsoft : soft = afsSoft P m (softCoded .t8 s.softE)) (hidx : idx.toNat < s.wamr.n.toNat)
  (hft : phase = .cmr → s.wamr.ft.toNat < s.wamr.n.toNat)

include hm hsoft hidx hft

/-- A de-punctured block that does not fit (log 21). -/
theorem tchafsDec_long (hlong : 1024 < soft.length) :
    execIn P (.tchafsDec phase) s = .next { s with stat := Stat.error .len soft.length } := by
  subst hsoft
  refine (congrArg Cmd.finish ((if_neg (not_not.2 hes)).trans ?_)).trans
    (b := Cmd.finish (.raised .len (afsSoft P m (softCoded .t8 s.softE)).length s)) rfl
  simp only [hstolen, Bool.false_eq_true, if_false, hind, afsOutside_eq_none hidx hft, hm]
  exact if_pos hlong

/-- A speech block. -/
theorem tchafsDec_speech (hfits : soft.length ≤ 1024) :
    ∃ t, execIn P (.tchafsDec phase) s = .next t ∧ Gathered .t8 s t (softCoded .t8 s.softE) ∧
    t.softC = soft ∧ AfsDecoded P s t phase m idx soft ∧
    t = { s with
      mem := { s.mem with
        is := t.mem.is, hs := t.mem.hs, cs := t.mem.cs, u := t.mem.u, par := t.mem.par,
        pdu := t.mem.pdu }
      free := t.free, stat := t.stat
      res := { s.res with
        nerr := t.res.nerr, nbits := t.res.nbits, steal := false
        idx := BitVec.ofNat 8 idx.toNat, dist := BitVec.ofNat 16 dist
        ft := t.res.ft, cmr := t.res.cmr } } := by
  have hexec : execIn P (.tchafsDec phase) s =
      (((s.afsStart false).setMatch (idx.toNat, dist)).decodeAfs P phase m idx.toNat soft).finish := by
    subst hsoft
    refine congrArg Cmd.finish ((if_neg (not_not.2 hes)).trans ?_)
    simp only [hstolen, Bool.false_eq_true, if_false, hind, afsOutside_eq_none hidx hft, hm]
    exact if_neg (Nat.not_lt.2 hfits)
  obtain ⟨t, hfinish, h⟩ := State.decodeAfs_any P (s₀ := s)
    (s := (s.afsStart false).setMatch (idx.toNat, dist)) rfl phase m idx soft
  have hmem : ((s.afsStart false).setMatch (idx.toNat, dist)).mem = (s.gather .t8 s.softE).mem := rfl
  exact ⟨t, hexec.trans hfinish, gathered_of_eq s .t8 (h.softI_eq.trans (State.softI_congr hmem))
    (h.softH_eq.trans (State.softH_congr hmem)), h.softC_eq, ⟨h.word, h.parity, h.verdict, h.ft, h.cmr⟩,
    (h.decodesTo s ((s.afsStart_decodesTo false).setRes _)).frame_of_res h.res_eq⟩

end Ways

/-! ### Clean AMR blocks (R243) -/

theorem afsMode_bytes (m : BitVec 3) : (afsMode m).bytes = ((afsMode m).bits + 7) / 8 := by
  revert m
  decide

/-- Where the word is that of a PDU, its bits come back. -/
theorem AfsDecoded.of_word {P : Params} {s t : State} {phase : Phase} {m idx : BitVec 3} {soft : List SBit}
    {d : List UBit} (h : AfsDecoded P s t phase m idx soft) (hd : d.length = (afsMode m).bits)
    (hu : t.u = afsWord m d) : t.stat = Stat.ok ∧ t.pdu = packMsb d := by
  have hn1a := afsMode_n1a_le m
  have hprot : (d.take (afsMode m).n1a).length = (afsMode m).n1a := by rw [List.length_take]; omega
  have hcrc : (crcGen .crc6 (d.take (afsMode m).n1a)).length = 6 := crcGen_length _ _
  have htake : t.u.take (afsMode m).n1a = d.take (afsMode m).n1a := by
    rw [hu, afsWord, List.append_assoc, List.take_left' hprot]
  have hpar : t.par = crcGen .crc6 (d.take (afsMode m).n1a) := by
    rw [h.parity, hu, afsWord, List.append_assoc, List.drop_left' hprot, List.take_left' hcrc]
  have hdrop : t.u.drop ((afsMode m).n1a + 6) = d.drop (afsMode m).n1a := by
    rw [hu, afsWord, List.drop_left' (by rw [List.length_append, hprot, hcrc])]
  have hverdict := h.verdict
  rw [htake, hpar, hdrop, List.take_append_drop] at hverdict
  exact hverdict.good ((crcChk_eq_true_iff _ _ _).2 rfl)

section Clean

variable {P : Params} (hP : P.WF) {phase : Phase} {m idx : BitVec 3} {pdu : List Byte} {s : State}
  (hidx : idx.toNat < nIc P)
  (hs : s.softE = softAll (blockBursts .t8
    (afsCoded P m idx.toNat (unpackMsb pdu (afsMode m).bits)) (tchFlags false)))

include hP hidx

theorem afs_row_length : (P.afsIc.rows.getD idx.toNat []).length = wIc P := by
  obtain ⟨-, hrows, -⟩ := P.afsIc.wf_iff.1 hP.afsIc
  rw [List.getD_eq_getElem _ _ hidx]
  exact hrows _ (List.getElem_mem hidx)

theorem afsCoded_length {d : List UBit} (hd : d.length = (afsMode m).bits) :
    (afsCoded P m idx.toNat d).length = 456 := by
  obtain ⟨⟨-, hw, -⟩, -⟩ := P.afsIc.wf_iff.1 hP.afsIc
  have hle : wIc P ≤ 16 := hw
  rw [afsCoded, List.length_append, afs_row_length hP hidx,
    afsEncode_length hP (by rw [afsWord_length, hd])]
  omega

include hs

theorem afs_clean_coded : softCoded .t8 s.softE =
    softAll (afsCoded P m idx.toNat (unpackMsb pdu (afsMode m).bits)) := by
  rw [hs, softCoded_clean .t8 (afsCoded_length hP hidx (unpackMsb_length _ _))]

theorem afs_clean_match :
    matchSoft P.afsIc.rows ((softCoded .t8 s.softE).take (wIc P)) = (idx.toNat, 0) := by
  obtain ⟨-, hrows, hnodup⟩ := P.afsIc.wf_iff.1 hP.afsIc
  have hrow := afs_row_length hP hidx
  rw [afs_clean_coded hP hidx hs, afsCoded, softAll_append,
    List.take_left' (by rw [softAll_length, hrow])]
  exact matchSoft_row hrows hnodup (by
    rw [List.getD_eq_getElem _ _ hidx]
    exact List.getElem?_eq_getElem hidx)

omit hP hidx in
theorem afs_clean_length : s.mem.es.len = 928 := by
  rw [softE_len_of_eq hs, softAll_length, blockBursts_length]
  rfl

omit hP hidx in
theorem afs_clean_flags : stolen (unmapFlags 8 s.softE) = false := by
  have hclean : unmapFlags 8 s.softE = softAll (tchFlags false) := by
    rw [hs]
    exact unmapFlags_clean .t8 _ rfl
  rw [hclean, tchFlags_stolen]

/-- The index carried is outside the list. -/
theorem tchafsDec_clean_outside (hout : s.wamr.n.toNat ≤ idx.toNat) :
    ∃ t, execIn P (.tchafsDec phase) s = .next t ∧ t.stat = Stat.error .modeRange idx.toNat ∧
    t.res.idx = BitVec.ofNat 8 idx.toNat ∧ t.mem.pdu = s.mem.pdu := by
  obtain ⟨t, hexec, -, -, hframe⟩ := tchafsDec_outside (phase := phase) (afs_clean_length hs)
    (afs_clean_flags hs) (afs_clean_match hP hidx hs) (.inl hout)
  rw [if_pos hout] at hframe
  refine ⟨t, hexec, ?_, ?_, ?_⟩
  · rw [hframe]
  · rw [hframe]
  · rw [hframe]

variable (hm : afsHeldMode phase s.wamr idx.toNat = m) (hlist : idx.toNat < s.wamr.n.toNat)
  (hft : phase = .cmr → s.wamr.ft.toNat < s.wamr.n.toNat)

include hm hlist hft

theorem tchafsDec_clean_long {n : Nat} (hn : n = (afsSoft P m
      (softAll (afsCoded P m idx.toNat (unpackMsb pdu (afsMode m).bits)))).length) (hlong : 1024 < n) :
    execIn P (.tchafsDec phase) s = .next { s with stat := Stat.error .len n } := by
  rw [← afs_clean_coded hP hidx hs] at hn
  subst hn
  exact tchafsDec_long (afs_clean_length hs) (afs_clean_flags hs) (afs_clean_match hP hidx hs) hm rfl
    hlist hft hlong

/-- A clean block in the mode of the decoder's list. -/
theorem tchafsDec_clean (hfits : (afsSoft P m
      (softAll (afsCoded P m idx.toNat (unpackMsb pdu (afsMode m).bits)))).length ≤ 1024) :
    ∃ t, execIn P (.tchafsDec phase) s = .next t ∧ t.pdu = packMsb (unpackMsb pdu (afsMode m).bits) ∧
    t = { s with
      mem := { s.mem with
        is := t.mem.is, hs := t.mem.hs, cs := t.mem.cs, u := t.mem.u, par := t.mem.par,
        pdu := t.mem.pdu }
      free := t.free, stat := Stat.ok
      res := { s.res with
        nerr := 0, nbits := BitVec.ofNat 16 (456 - wIc P), steal := false
        idx := BitVec.ofNat 8 idx.toNat, dist := 0
        ft := if phase = .cmi then idx else s.wamr.ft
        cmr := if phase = .cmr then idx else s.wamr.cmr } } := by
  have hd : (unpackMsb pdu (afsMode m).bits).length = (afsMode m).bits := unpackMsb_length _ _
  have hcoded := afs_clean_coded hP hidx hs
  rw [← hcoded] at hfits
  obtain ⟨t, hexec, -, -, hdecoded, hframe⟩ := tchafsDec_speech (afs_clean_length hs)
    (afs_clean_flags hs) (afs_clean_match hP hidx hs) hm rfl hlist hft hfits
  obtain ⟨hdec, hnerr, hnbits⟩ := afs_codeword hP (m := m)
    (u := afsWord m (unpackMsb pdu (afsMode m).bits)) (by rw [afsWord_length, hd])
    (afs_row_length hP hidx) (soft := afsSoft P m (softCoded .t8 s.softE)) (by rw [hcoded, afsCoded])
  have hu := hdecoded.word.word.trans hdec
  obtain ⟨hstat, hpdu⟩ := hdecoded.of_word hd hu
  have hnerr' : t.res.nerr = 0 := by
    rw [hdecoded.word.nerr, hu, ← convNerr, hnerr]
    rfl
  have hnbits' : t.res.nbits = BitVec.ofNat 16 (456 - wIc P) := by
    rw [hdecoded.word.nbits, ← convNbits, hnbits]
  have hft' := hdecoded.ft
  have hcmr' := hdecoded.cmr
  simp only [hstat, and_true] at hft' hcmr'
  rw [hstat, hnerr', hnbits', hft', hcmr'] at hframe
  exact ⟨t, hexec, hpdu, hframe⟩

end Clean

end Sys2Proof.Machine

namespace Sys2Proof.Proofs

open Sys2Proof.Machine

/-- Settles O38: each way the command ends, on any input and on a clean block. -/
theorem tchafsRoundTrip : Obligations.TchafsRoundTrip := by
  unfold Obligations.TchafsRoundTrip
  have hinst {P : Params} {i : Instr} {s t : State} (h : execIn P i s = .next t) (hP : P = Config.inst) :
      exec i s = .next t := by
    rw [exec_eq_execIn, ← hP, h]
  have hmode {phase : Phase} {m : BitVec 3} {w : Wamr} {idx : Nat} (h : m = listAt w.list (match phase with
      | .cmi => idx
      | .cmr => w.ft.toNat)) : afsHeldMode phase w idx = m := by
    cases phase <;> exact h.symm
  refine ⟨fun P phase m idx pdu s n hP hidx hs hn => ⟨fun hout => ?outside, fun hlist hft hm =>
    ⟨fun hlong => ?long, fun hfits hlen => ?clean⟩⟩, fun P phase m idx dist cs soft s hP hes hcs hnear hm
    hsoft => ⟨fun hflags hlist hft hlong => ?anyLong, fun hways => ?any⟩⟩
  case outside =>
    obtain ⟨t, hexec, h⟩ := tchafsDec_clean_outside (phase := phase) hP hidx hs hout
    exact ⟨t, hexec, hinst hexec, h⟩
  case long =>
    have hexec := tchafsDec_clean_long hP hidx hs (hmode hm) hlist hft hn hlong
    exact ⟨hexec, hinst hexec⟩
  case clean =>
    obtain ⟨t, hexec, hpdu, hframe⟩ := tchafsDec_clean hP hidx hs (hmode hm) hlist hft (hn ▸ hfits)
    refine ⟨t, hexec, hinst hexec, ?_, fun j _ => ?_, hframe⟩
    · rw [hpdu, packMsb_length, unpackMsb_length, hlen, afsMode_bytes]
    · rw [hpdu]
      exact bitAt_packBits_unpackBits .msb pdu _ j
  all_goals
    have hind := (matchSoft_nearestIs (afsIc_rows_ne_nil hP) (cs.take (wIc P))).unique hnear
    obtain rfl : softCoded .t8 s.softE = cs := hcs.symm
  case anyLong =>
    have hstolen : stolen (unmapFlags 8 s.softE) = false :=
      Bool.eq_false_iff.2 fun h => hflags ((stolen_iff _).1 h)
    have hexec := tchafsDec_long hes hstolen hind (hmode hm) hsoft hlist hft hlong
    exact ⟨hexec, hinst hexec⟩
  case any =>
    cases hstolen : stolen (unmapFlags 8 s.softE) with
    | true =>
      obtain ⟨t, hexec, hgathered, hc, hdecoded, hframe⟩ := tchafsDec_stolen (P := P) (phase := phase) hes
        hstolen
      exact ⟨t, hexec, hinst hexec, hgathered, fun _ => ⟨hc, hdecoded, hframe⟩,
        fun hflags => absurd ((stolen_iff _).1 hstolen) hflags⟩
    | false =>
      have hflags : ¬ StolenFlags (unmapFlags 8 s.softE) := fun h => by
        rw [(stolen_iff _).2 h] at hstolen
        cases hstolen
      by_cases hout : s.wamr.n.toNat ≤ idx.toNat ∨ (phase = .cmr ∧ s.wamr.n.toNat ≤ s.wamr.ft.toNat)
      · obtain ⟨t, hexec, hgathered, hc, hframe⟩ := tchafsDec_outside hes hstolen hind hout
        refine ⟨t, hexec, hinst hexec, hgathered, fun h => absurd h hflags, fun _ =>
          ⟨fun _ => ⟨hc, hframe⟩, fun hlist hft => ?_⟩⟩
        rcases hout with hout | ⟨hphase, hout⟩
        · exact absurd hlist (Nat.not_lt.2 hout)
        · exact absurd (hft hphase) (Nat.not_lt.2 hout)
      · have hlist : idx.toNat < s.wamr.n.toNat := Nat.not_le.1 fun h => hout (.inl h)
        have hft (hphase : phase = .cmr) : s.wamr.ft.toNat < s.wamr.n.toNat :=
          Nat.not_le.1 fun h => hout (.inr ⟨hphase, h⟩)
        have hfits : soft.length ≤ 1024 := by
          rcases hways with h | h | h | h
          · exact absurd h hflags
          · exact absurd (.inl h) hout
          · exact absurd (.inr h) hout
          · exact h
        obtain ⟨t, hexec, hgathered, hc, hdecoded, hframe⟩ :=
          tchafsDec_speech hes hstolen hind (hmode hm) hsoft hlist hft hfits
        exact ⟨t, hexec, hinst hexec, hgathered, fun h => absurd h hflags, fun _ =>
          ⟨fun h => absurd h hout, fun _ _ => ⟨hc, hdecoded, hframe⟩⟩⟩

end Sys2Proof.Proofs
end

