-- ==== Sys2Proof/Proofs/PunctureUnit.lean ====
section
/-! The puncture unit (42_puncture_unit.md R140 to R145): the laws of R142, and the ways `PUNC` and `DEPUNC`
end. -/

namespace Sys2Proof.Machine

/-! ### The laws (R142) -/

/-- The erasures are what puncturing removes. -/
theorem punctKeep_depunctKeep {ks : List Bool} {s : List SBit} (h : s.length = ks.countP id) :
    punctKeep ks (depunctKeep ks s) = s := by
  induction ks generalizing s with
  | nil => exact (List.length_eq_zero_iff.1 h).symm
  | cons k ks ih =>
    cases k with
    | false => exact ih (by simpa using h)
    | true =>
      cases s with
      | nil => simp at h
      | cons x xs => exact congrArg (x :: ·) (ih (by simpa using h))

/-- A word that is punctured, sent and de-punctured keeps its place and loses the removed positions. -/
theorem depunctKeep_softAll_punctKeep {ks : List Bool} {c : List UBit} (h : ks.length = c.length) :
    depunctKeep ks (softAll (punctKeep ks c)) =
      List.zipWith (fun k b => if k then SBit.soft b else SBit.zero) ks c := by
  induction ks generalizing c with
  | nil => rfl
  | cons k ks ih =>
    cases c with
    | nil => cases h
    | cons b bs =>
      have hrest := ih (Nat.succ.inj h)
      cases k with
      | false => exact congrArg (SBit.zero :: ·) hrest
      | true => exact congrArg (SBit.soft b :: ·) hrest

theorem depunct_softAll_punct_getElem? {m : Mask} {c : List UBit} (hc : c.length = m.full) {j : Nat} {k : Bool}
    (hk : m.keep[j]? = some k) : (depunct m (softAll (punct m c)))[j]? =
      some (if k then SBit.soft (c.getD j false) else SBit.zero) := by
  have hj : j < c.length := hc ▸ (List.getElem?_eq_some_iff.1 hk).1
  rw [depunct, punct, depunctKeep_softAll_punctKeep hc.symm, List.getElem?_zipWith, hk,
    List.getElem?_eq_getElem hj, List.getD_eq_getElem c false hj]

/-- Under a mask that keeps the even positions, the known tail does not hide the information. -/
theorem xcch_punct_tail_injective {m : Mask} (heven : ∀ k, 2 * k < m.full → m.keep[2 * k]? = some true)
    {n : Nat} {tail u v : List UBit} (hm : m.full = 2 * (n + tail.length)) (hu : u.length = n)
    (hv : v.length = n) (h : punct m (convEnc xcchCode (u ++ tail)) = punct m (convEnc xcchCode (v ++ tail))) :
    u = v := by
  have hfull {w : List UBit} (hw : w.length = n) : 2 * (w ++ tail).length = m.full := by
    rw [List.length_append, hw, hm]
  exact List.append_cancel_right (xcch_punct_injective heven (hfull hu) (hfull hv) h)

/-! ### `PUNC` (R143) and `DEPUNC` (R144) -/

section PunctureCommands

variable {P : Params} {e : Fin 16} {m : Mask} {s : State}

theorem puncBody_of_len (he : maskOf P e = some m) (h : s.mem.c.len = m.full) :
    puncBody P e s = .done (s.setC (punct m s.c)) := by
  simp only [puncBody, he]
  exact if_neg (not_not_intro h)

theorem puncBody_of_len_ne (he : maskOf P e = some m) (h : s.mem.c.len ≠ m.full) :
    puncBody P e s = .raised .len s.mem.c.len s := by
  simp only [puncBody, he]
  exact if_pos h

theorem depuncBody_of_fits (he : maskOf P e = some m) (h : s.mem.cs.len = m.kept) (hfits : m.full ≤ 1024) :
    depuncBody P e s = .done (s.setSoftC (depunct m s.softC)) := by
  simp only [depuncBody, he]
  exact (if_neg (not_not_intro h)).trans (if_neg (Nat.not_lt.2 hfits))

theorem depuncBody_of_len_ne (he : maskOf P e = some m) (h : s.mem.cs.len ≠ m.kept) :
    depuncBody P e s = .raised .len s.mem.cs.len s := by
  simp only [depuncBody, he]
  exact if_pos h

/-- A result that `CS_` cannot hold (R301, log 21). -/
theorem depuncBody_of_long (he : maskOf P e = some m) (h : s.mem.cs.len = m.kept) (hlong : 1024 < m.full) :
    depuncBody P e s = .raised .len m.full s := by
  simp only [depuncBody, he]
  exact (if_neg (not_not_intro h)).trans (if_pos hlong)

theorem punc_result (he : maskOf Config.inst e = some m) (h : s.mem.c.len = m.full) :
    ∃ t, exec (.punc e) s = .next t ∧ t.c = punct m s.c ∧ t.mem.c.len = m.kept ∧
      t = { s with mem := { s.mem with c := t.mem.c }, free := t.free, stat := Stat.ok } :=
  ⟨_, congrArg Cmd.finish (puncBody_of_len he h), State.setC_c s _,
    punct_length m s.c ((State.c_length s).trans h), rfl⟩

theorem depunc_result (he : maskOf Config.inst e = some m) (h : s.mem.cs.len = m.kept)
    (hfits : m.full ≤ 1024) :
    ∃ t, exec (.depunc e) s = .next t ∧ t.softC = depunct m s.softC ∧ t.mem.cs.len = m.full ∧
      t = { s with mem := { s.mem with cs := t.mem.cs }, free := t.free, stat := Stat.ok } :=
  ⟨_, congrArg Cmd.finish (depuncBody_of_fits he h hfits), State.setSoftC_softC s _,
    depunct_length m s.softC, rfl⟩

end PunctureCommands

end Sys2Proof.Machine

namespace Sys2Proof.Proofs

open Sys2Proof.Machine

/-- Settles O18: de-puncturing puts every kept bit back in its place, and both masks of packet data keep the
even positions, which tell the information. -/
theorem punctureLaws : Obligations.PunctureLaws := by
  unfold Obligations.PunctureLaws
  refine ⟨fun m s h => punctKeep_depunctKeep h, fun m c hc j k hk => depunct_softAll_punct_getElem? hc hk,
    fun u v hu hv h => ?_, fun u v hu hv h => ?_⟩
  · exact xcch_punct_tail_injective (fun _ hk => cs2Mask_even (cs2Mask_full ▸ hk)) cs2Mask_full hu hv h
  · exact xcch_punct_tail_injective (fun _ hk => cs3Mask_even (cs3Mask_full ▸ hk)) cs3Mask_full hu hv h

/-- Settles O19: one equation for each way the two bodies end. -/
theorem puncDepuncResult : Obligations.PuncDepuncResult :=
  ⟨fun _ _ _ he => ⟨punc_result he, fun h => congrArg Cmd.finish (puncBody_of_len_ne he h),
      depunc_result he, fun h => congrArg Cmd.finish (depuncBody_of_len_ne he h)⟩,
    fun _ _ _ _ he h hlong => congrArg Cmd.finish (depuncBody_of_long he h hlong)⟩

end Sys2Proof.Proofs
end

