-- ==== Sys2Proof/Proofs/InterleaverMaps.lean ====
section
/-! The interleaver (43_interleaver_mapper.md R150 to R154): where the maps of R150 send a coded bit, and the
ways `INTLV` and `DEINTLV` end. -/

namespace Sys2Proof.Machine

/-! ### The images of the maps (R152) -/

theorem ilvPos_lt (k : Nat) : ilvPos k < 114 := by
  unfold ilvPos
  omega

/-- The parity of a position is the half of the eight bursts that the bit stands in. -/
theorem ilvPos_mod_two (k : Nat) : ilvPos k % 2 = k % 8 / 4 := by
  unfold ilvPos
  omega

/-- An index tells the burst and the position in it. -/
theorem ilvIndex_eq_iff {sel : ISel} {k b j : Nat} (hj : j < 114) :
    ilvIndex sel k = 114 * b + j ↔ k % nbiOf sel = b ∧ ilvPos k = j := by
  have hpos := ilvPos_lt k
  unfold ilvIndex
  omega

/-- `X4` reaches every position of its four bursts, and each once (R152 (a)). -/
theorem ilvPos_x4_bijective {b j : Nat} (hb : b < 4) (hj : j < 114) :
    ∃ k, k < 456 ∧ k % 4 = b ∧ ilvPos k = j ∧
      ∀ k', k' < 456 → k' % 4 = b → ilvPos k' = j → k' = k := by
  have hp : 114 * b + j ∈ List.range 456 := List.mem_range.2 (by omega)
  obtain ⟨k, hk, hindex⟩ := List.mem_map.1 (ilvIndex_x4_perm.mem_iff.2 hp)
  have hk := List.mem_range.1 hk
  obtain ⟨hburst, hpos⟩ := (ilvIndex_eq_iff hj).1 hindex
  exact ⟨k, hk, hburst, hpos, fun k' hk' hburst' hpos' =>
    ilvIndex_injective hk' hk (((ilvIndex_eq_iff hj).2 ⟨hburst', hpos'⟩).trans hindex.symm)⟩

theorem ilvPos_t8_injective {k k' : Nat} (hk : k < 456) (hk' : k' < 456) (hburst : k % 8 = k' % 8)
    (hpos : ilvPos k = ilvPos k') : k = k' :=
  ilvIndex_injective (sel := .t8) hk hk'
    (congrArg₂ (fun burst pos => 114 * burst + pos) hburst hpos)

/-- `T8` reaches the positions of one parity in each burst (R152 (b)): of the bursts `b` and `b + 4`, which
`X4` does not tell apart, the parity of the position picks one. -/
theorem ilvPos_t8_image {b j : Nat} (hb : b < 8) (hj : j < 114) :
    (∃ k, k < 456 ∧ k % 8 = b ∧ ilvPos k = j) ↔ if b < 4 then j % 2 = 0 else j % 2 = 1 := by
  have himage : (∃ k, k < 456 ∧ k % 8 = b ∧ ilvPos k = j) ↔ j % 2 = b / 4 := by
    constructor
    · rintro ⟨k, -, rfl, rfl⟩
      exact ilvPos_mod_two k
    · intro hparity
      obtain ⟨k, hk, hburst, hpos, -⟩ := ilvPos_x4_bijective (b := b % 4) (by omega) hj
      have hhalf := ilvPos_mod_two k
      exact ⟨k, hk, by omega, hpos⟩
  rw [himage]
  split <;> omega

/-! ### `INTLV` (R153) and `DEINTLV` (R154) -/

/-- A position that receives no coded bit is 0 (R153). -/
theorem interleave_getElem?_of_ne {sel : ISel} {c : List UBit} (hc : c.length = 456) {p : Nat}
    (hp : p < 114 * nbiOf sel) (h : ∀ k, k < 456 → ilvIndex sel k ≠ p) :
    (interleave sel c)[p]? = some false := by
  have hne : ∀ k, k < c.length → ilvIndex sel (0 + k) ≠ p := fun k hk => by
    rw [Nat.zero_add]
    exact h k (hc ▸ hk)
  rw [interleave, ilvWrite_getElem?_of_ne hne, List.getElem?_replicate_of_lt hp]

/-- De-interleaved bit `k` is the soft bit where coded bit `k` stands (R154). -/
theorem deinterleave_getElem?_eq {sel : ISel} {is : List SBit} (his : is.length = 114 * nbiOf sel) {k : Nat}
    (hk : k < 456) : (deinterleave sel is)[k]? = is[ilvIndex sel k]? := by
  have hindex : ilvIndex sel k < is.length := his ▸ ilvIndex_lt sel k
  rw [deinterleave_getElem? sel is hk, List.getD_eq_getElem _ _ hindex, List.getElem?_eq_getElem hindex]

@[simp] theorem State.softI_length (s : State) : s.softI.length = s.mem.is.len := Buf.read_length _ _

theorem exec_intlv {sel : ISel} {s : State} (h : s.mem.c.len = 456) :
    exec (.intlv sel) s = .next ((s.setI (interleave sel s.c)).raise .none 0) :=
  congrArg Cmd.finish (if_neg (not_not_intro h))

theorem exec_intlv_of_len_ne {sel : ISel} {s : State} (h : s.mem.c.len ≠ 456) :
    exec (.intlv sel) s = .next (s.raise .len s.mem.c.len) :=
  congrArg Cmd.finish (if_pos h)

theorem exec_deintlv {sel : ISel} {s : State} (h : s.mem.is.len = 114 * nbiOf sel) :
    exec (.deintlv sel) s = .next ((s.setSoftC (deinterleave sel s.softI)).raise .none 0) :=
  congrArg Cmd.finish (if_neg (not_not_intro h))

theorem exec_deintlv_of_len_ne {sel : ISel} {s : State} (h : s.mem.is.len ≠ 114 * nbiOf sel) :
    exec (.deintlv sel) s = .next (s.raise .len s.mem.is.len) :=
  congrArg Cmd.finish (if_pos h)

/-- `INTLV` of a block of coded bits (R153). -/
theorem intlv_result (sel : ISel) {s : State} (h : s.mem.c.len = 456) :
    ∃ t, exec (.intlv sel) s = .next t ∧ t.mem.i.len = 114 * nbiOf sel ∧
      (∀ k, k < 456 → t.i[ilvIndex sel k]? = s.c[k]?) ∧
      (∀ p, p < 114 * nbiOf sel → (∀ k, k < 456 → ilvIndex sel k ≠ p) → t.i[p]? = some false) ∧
      t = { s with mem := { s.mem with i := t.mem.i }, free := t.free, stat := Stat.ok } := by
  have hc : s.c.length = 456 := (State.c_length s).trans h
  refine ⟨_, exec_intlv h, interleave_length _ _, fun k hk => ?_, fun p hp hfree => ?_, rfl⟩
  · exact (congrArg (·[ilvIndex sel k]?) (State.setI_i s _)).trans (interleave_getElem? sel hc hk)
  · exact (congrArg (·[p]?) (State.setI_i s _)).trans (interleave_getElem?_of_ne hc hp hfree)

/-- `DEINTLV` of a received block (R154). -/
theorem deintlv_result (sel : ISel) {s : State} (h : s.mem.is.len = 114 * nbiOf sel) :
    ∃ t, exec (.deintlv sel) s = .next t ∧ t.mem.cs.len = 456 ∧
      (∀ k, k < 456 → t.softC[k]? = s.softI[ilvIndex sel k]?) ∧
      t = { s with mem := { s.mem with cs := t.mem.cs }, free := t.free, stat := Stat.ok } := by
  refine ⟨_, exec_deintlv h, deinterleave_length _ _, fun k hk => ?_, rfl⟩
  exact (congrArg (·[k]?) (State.setSoftC_softC s _)).trans
    (deinterleave_getElem?_eq ((State.softI_length s).trans h) hk)

end Sys2Proof.Machine

namespace Sys2Proof.Proofs

open Sys2Proof.Machine

/-- Settles O20: an index tells the burst and the position, so a map of the 456 bits that is injective on
indices fills the 456 positions of `X4`, and half of those of `T8`. -/
theorem interleaverLaws : Obligations.InterleaverLaws :=
  ⟨fun k _ => ilvPos_lt k, fun _ _ hb hj => ilvPos_x4_bijective hb hj,
    fun _ _ hk hk' hburst hpos => ilvPos_t8_injective hk hk' hburst hpos,
    fun _ _ hb hj => ilvPos_t8_image hb hj, fun sel _ hc => deinterleave_softAll_interleave sel hc⟩

/-- Settles O21: the positions are those of `ilvIndex`, which is injective, so each write of `INTLV` stays. -/
theorem interleaveResult : Obligations.InterleaveResult :=
  ⟨fun sel _ h => intlv_result sel h, fun _ _ h => exec_intlv_of_len_ne h,
    fun sel _ h => deintlv_result sel h, fun _ _ h => exec_deintlv_of_len_ne h⟩

end Sys2Proof.Proofs
end

