-- ==== Sys2Proof/Proofs/BurstMapper.lean ====
section
/-! The burst mapper element by element (43_interleaver_mapper.md R155 to R158). -/

namespace Sys2Proof.Machine

/-! ### Elements of slices and of blocks of one length -/

theorem slice_getElem? {α : Type} (x : List α) (a : Nat) {n k : Nat} (hk : k < n) :
    (slice x a n)[k]? = x[a + k]? := by
  rw [slice, List.getElem?_take_of_lt hk, List.getElem?_drop]

theorem flatMap_range_getElem? {α : Type} {f : Nat → List α} {n m b a : Nat}
    (hf : ∀ i, i < m → (f i).length = n) (hb : b < m) (ha : a < n) :
    ((List.range m).flatMap f)[n * b + a]? = (f b)[a]? := by
  have hpiece := congrArg (·[0]?) (slice_flatMap_range (k := 1) hf hb ha)
  simpa only [slice_getElem? _ _ Nat.one_pos, Nat.add_zero] using hpiece

/-! ### `mapBlock` (R155, R156) -/

section Burst

variable {x : List UBit} (hx : x.length = 114) (hl hu : UBit) {k : Nat} (hk : k < 57)

include hx

theorem mapBurst_getElem?_flags :
    (mapBurst x hl hu)[57]? = some hl ∧ (mapBurst x hl hu)[58]? = some hu := by
  obtain ⟨-, hflags, -⟩ := slice_mapBurst hx hl hu
  have hflag : ∀ j, j < 2 → (mapBurst x hl hu)[57 + j]? = [hl, hu][j]? := fun j hj => by
    rw [← hflags, slice_getElem? _ _ hj]
  exact ⟨hflag 0 (by decide), hflag 1 (by decide)⟩

include hk

theorem mapBurst_getElem?_first : (mapBurst x hl hu)[k]? = x[k]? := by
  obtain ⟨hfirst, -, -⟩ := slice_mapBurst hx hl hu
  rw [← List.getElem?_take_of_lt (l := x) hk, ← hfirst, slice_getElem? _ _ hk, Nat.zero_add]

theorem mapBurst_getElem?_last : (mapBurst x hl hu)[59 + k]? = x[57 + k]? := by
  obtain ⟨-, -, hlast⟩ := slice_mapBurst hx hl hu
  rw [← List.getElem?_drop (xs := x), ← hlast, slice_getElem? _ _ hk]

end Burst

section Block

variable {nb b k : Nat} {i h : List UBit} (hi : i.length = 114 * nb) (hb : b < nb)

include hi hb

theorem mapBlock_getElem? {a : Nat} (ha : a < 116) :
    (mapBlock nb i h)[116 * b + a]? = (mapBurst (slice i (114 * b) 114)
      (h.getD (2 * b) false) (h.getD (2 * b + 1) false))[a]? :=
  flatMap_range_getElem? (fun _ hj => mapBurst_length (slice_length _ _ _ (by omega)) _ _) hb ha

/-- The 114 bits of burst `b` stand around its flags. -/
theorem mapBlock_getElem?_bits (hk : k < 57) :
    (mapBlock nb i h)[116 * b + k]? = i[114 * b + k]? ∧
      (mapBlock nb i h)[116 * b + 59 + k]? = i[114 * b + 57 + k]? := by
  have hslice : (slice i (114 * b) 114).length = 114 := slice_length _ _ _ (by omega)
  constructor
  · rw [mapBlock_getElem? hi hb (by omega), mapBurst_getElem?_first hslice _ _ hk,
      slice_getElem? _ _ (by omega)]
  · rw [Nat.add_assoc, mapBlock_getElem? hi hb (by omega), mapBurst_getElem?_last hslice _ _ hk,
      slice_getElem? _ _ (by omega), Nat.add_assoc]

/-- The flags of burst `b` stand in its middle. -/
theorem mapBlock_getElem?_flags (hh : h.length = 2 * nb) :
    (mapBlock nb i h)[116 * b + 57]? = h[2 * b]? ∧
      (mapBlock nb i h)[116 * b + 58]? = h[2 * b + 1]? := by
  obtain ⟨hl, hu⟩ := mapBurst_getElem?_flags (slice_length i (114 * b) 114 (by omega))
    (h.getD (2 * b) false) (h.getD (2 * b + 1) false)
  constructor
  · rw [mapBlock_getElem? hi hb (by omega), hl, List.getD_eq_getElem _ _ (by omega),
      List.getElem?_eq_getElem]
  · rw [mapBlock_getElem? hi hb (by omega), hu, List.getD_eq_getElem _ _ (by omega),
      List.getElem?_eq_getElem]

end Block

/-! ### `unmapBits` and `unmapFlags` (R157) -/

section Split

variable {nb b k : Nat} {es : List SBit} (hes : es.length = 116 * nb) (hb : b < nb)

include hes hb

theorem unmapBits_getElem? (hk : k < 57) :
    (unmapBits nb es)[114 * b + k]? = es[116 * b + k]? ∧
      (unmapBits nb es)[114 * b + 57 + k]? = es[116 * b + 59 + k]? := by
  have hfirst : ∀ j, j < nb → (slice es (116 * j) 57).length = 57 := fun j hj =>
    slice_length _ _ _ (by omega)
  have hburst : ∀ j, j < nb → (slice es (116 * j) 57 ++ slice es (116 * j + 59) 57).length = 114 :=
    fun j hj => by
      rw [List.length_append, hfirst j hj, slice_length _ _ _ (by omega)]
  constructor
  · rw [unmapBits, flatMap_range_getElem? hburst hb (by omega),
      List.getElem?_append_left (by rw [hfirst b hb]; exact hk), slice_getElem? _ _ hk]
  · rw [unmapBits, Nat.add_assoc, flatMap_range_getElem? hburst hb (by omega),
      List.getElem?_append_right (by rw [hfirst b hb]; omega), hfirst b hb, Nat.add_sub_cancel_left,
      slice_getElem? _ _ hk]

theorem unmapFlags_getElem? :
    (unmapFlags nb es)[2 * b]? = es[116 * b + 57]? ∧
      (unmapFlags nb es)[2 * b + 1]? = es[116 * b + 58]? := by
  have hflag : ∀ j, j < 2 → (unmapFlags nb es)[2 * b + j]? = es[116 * b + 57 + j]? := fun j hj => by
    rw [unmapFlags, flatMap_range_getElem? (fun _ _ => slice_length _ _ _ (by omega)) hb hj,
      slice_getElem? _ _ hj]
  exact ⟨hflag 0 (by decide), hflag 1 (by decide)⟩

end Split

/-! ### `MAP`, `UNMAP` and `H.SET` -/

@[simp] theorem State.h_length (s : State) : s.h.length = s.mem.h.len := Buf.read_length _ _

theorem hPattern_getElem? {nb k : Nat} (pattern : BitVec 16) (hk : k < 2 * nb) :
    (hPattern nb pattern.toNat)[k]? = some (pattern.getLsbD k) := by
  rw [hPattern, List.getElem?_map, List.getElem?_range hk]
  rfl

theorem exec_map {nb : NBursts} {s : State} (hi : s.mem.i.len = 114 * nbOf nb)
    (hh : s.mem.h.len = 2 * nbOf nb) :
    exec (.map nb) s = .next ((s.setE (mapBlock (nbOf nb) s.i s.h)).raise .none 0) :=
  congrArg Cmd.finish (if_neg (not_or.2 ⟨not_not_intro hi, not_not_intro hh⟩))

theorem exec_map_of_len_ne {nb : NBursts} {s : State}
    (h : s.mem.i.len ≠ 114 * nbOf nb ∨ s.mem.h.len ≠ 2 * nbOf nb) :
    exec (.map nb) s = .next (s.raise .len s.mem.i.len) :=
  congrArg Cmd.finish (if_pos h)

theorem exec_unmap {nb : NBursts} {s : State} (h : s.mem.es.len = 116 * nbOf nb) :
    exec (.unmap nb) s = .next ((s.setUnmapped (nbOf nb) s.softE).raise .none 0) :=
  congrArg Cmd.finish (if_neg (not_not_intro h))

theorem exec_unmap_of_len_ne {nb : NBursts} {s : State} (h : s.mem.es.len ≠ 116 * nbOf nb) :
    exec (.unmap nb) s = .next (s.raise .len s.mem.es.len) :=
  congrArg Cmd.finish (if_pos h)

theorem exec_hSet (nb : NBursts) (pattern : BitVec 16) (s : State) :
    exec (.hSet nb pattern) s = .next ((s.setH (hPattern (nbOf nb) pattern.toNat)).raise .none 0) := rfl

/-- `MAP` of interleaved bits and flags (R156). -/
theorem map_result {nb : NBursts} {s : State} (hi : s.mem.i.len = 114 * nbOf nb)
    (hh : s.mem.h.len = 2 * nbOf nb) :
    ∃ t, exec (.map nb) s = .next t ∧ t.mem.e.len = 116 * nbOf nb ∧
      (∀ b, b < nbOf nb →
        (∀ k, k < 57 → t.e[116 * b + k]? = s.i[114 * b + k]? ∧
          t.e[116 * b + 59 + k]? = s.i[114 * b + 57 + k]?) ∧
        t.e[116 * b + 57]? = s.h[2 * b]? ∧ t.e[116 * b + 58]? = s.h[2 * b + 1]?) ∧
      t = { s with mem := { s.mem with e := t.mem.e }, free := t.free, stat := Stat.ok } := by
  have hilen := (State.i_length s).trans hi
  have hhlen := (State.h_length s).trans hh
  refine ⟨_, exec_map hi hh, mapBlock_length _ _ _ hilen, fun b hb => ?_, rfl⟩
  have he : ((s.setE (mapBlock (nbOf nb) s.i s.h)).raise .none 0).e = mapBlock (nbOf nb) s.i s.h :=
    State.setE_e s _
  rw [he]
  exact ⟨fun _ hk => mapBlock_getElem?_bits hilen hb hk, mapBlock_getElem?_flags hilen hb hhlen⟩

/-- `UNMAP` of received burst payloads (R157). -/
theorem unmap_result {nb : NBursts} {s : State} (h : s.mem.es.len = 116 * nbOf nb) :
    ∃ t, exec (.unmap nb) s = .next t ∧ t.mem.is.len = 114 * nbOf nb ∧ t.mem.hs.len = 2 * nbOf nb ∧
      (∀ b, b < nbOf nb →
        (∀ k, k < 57 → t.softI[114 * b + k]? = s.softE[116 * b + k]? ∧
          t.softI[114 * b + 57 + k]? = s.softE[116 * b + 59 + k]?) ∧
        t.softH[2 * b]? = s.softE[116 * b + 57]? ∧ t.softH[2 * b + 1]? = s.softE[116 * b + 58]?) ∧
      t = { s with
        mem := { s.mem with is := t.mem.is, hs := t.mem.hs }, free := t.free, stat := Stat.ok } := by
  have hes := (State.softE_length s).trans h
  refine ⟨_, exec_unmap h, unmapBits_length hes.ge, unmapFlags_length hes.ge, fun b hb => ?_, rfl⟩
  have hsoftI : ((s.setUnmapped (nbOf nb) s.softE).raise .none 0).softI = unmapBits (nbOf nb) s.softE :=
    (State.setSoftH_read_softI _ _).trans (State.setSoftI_softI s _)
  have hsoftH : ((s.setUnmapped (nbOf nb) s.softE).raise .none 0).softH = unmapFlags (nbOf nb) s.softE :=
    State.setSoftH_softH _ _
  rw [hsoftI, hsoftH]
  exact ⟨fun _ hk => unmapBits_getElem? hes hb hk, unmapFlags_getElem? hes hb⟩

/-- `H.SET` (R158). -/
theorem hSet_result (nb : NBursts) (pattern : BitVec 16) (s : State) :
    ∃ t, exec (.hSet nb pattern) s = .next t ∧ t.mem.h.len = 2 * nbOf nb ∧
      (∀ k, k < 2 * nbOf nb → t.h[k]? = some (pattern.getLsbD k)) ∧
      t = { s with mem := { s.mem with h := t.mem.h }, free := t.free, stat := Stat.ok } := by
  refine ⟨_, exec_hSet nb pattern s, hPattern_length _ _, fun k hk => ?_, rfl⟩
  exact (congrArg (·[k]?) (State.setH_h s _)).trans (hPattern_getElem? pattern hk)

end Sys2Proof.Machine

namespace Sys2Proof.Proofs

open Sys2Proof.Machine

/-- Settles O22: the elements of a burst are those of its three pieces, first bits, flags and last bits. -/
theorem mapperResult : Obligations.MapperResult :=
  ⟨fun _ _ hi hh => map_result hi hh, fun _ _ h => exec_map_of_len_ne h, fun _ _ h => unmap_result h,
    fun _ _ h => exec_unmap_of_len_ne h, hSet_result,
    fun _ _ _ hi hh => ⟨unmapBits_softAll_mapBlock hi, unmapFlags_softAll_mapBlock hi hh⟩⟩

end Sys2Proof.Proofs
end

