-- ==== Sys2Proof/Proofs/PatternMatcher.lean ====
section
/-! The pattern matcher (43_interleaver_mapper.md R165 to R168): its distances as sums, and the ways `MATCH`
ends. -/

namespace Sys2Proof.Machine

/-! ### Distances (R165) -/

/-- What position `k` adds to the soft distance. -/
def softTerm (p : List UBit) (x : List SBit) (k : Nat) : Nat :=
  ((SBit.soft (p.getD k false)).toInt - (x.getD k SBit.zero).toInt).natAbs

/-- Whether position `k` counts in the hard distance. -/
def hardDiffers (p x : List UBit) (k : Nat) : Bool := p.getD k false != x.getD k false

theorem softDist_eq_sum {p : List UBit} {x : List SBit} (h : p.length = x.length) :
    softDist p x = ((List.range p.length).map (softTerm p x)).sum := by
  induction p generalizing x with
  | nil => rw [List.length_eq_zero_iff.1 h.symm]; rfl
  | cons b bs ih =>
    cases x with
    | nil => cases h
    | cons y ys =>
      rw [softDist, ih (Nat.succ.inj h), List.length_cons, List.range_succ_eq_map, List.map_cons,
        List.sum_cons, List.map_map]
      rfl

theorem hardDist_eq_countP {p x : List UBit} (h : p.length = x.length) :
    hardDist p x = (List.range p.length).countP (hardDiffers p x) := by
  induction p generalizing x with
  | nil => rw [List.length_eq_zero_iff.1 h.symm]; rfl
  | cons b bs ih =>
    cases x with
    | nil => cases h
    | cons y ys =>
      rw [hardDist, ih (Nat.succ.inj h), List.length_cons, List.range_succ_eq_map, List.countP_cons,
        List.countP_map, Nat.add_comm]
      congr 1
      simp [hardDiffers]

theorem SBit.toInt_bounds (x : SBit) : -127 ≤ x.toInt ∧ x.toInt ≤ 127 := by
  have hlow : -128 ≤ x.toInt := x.val.le_toInt
  have hhigh : x.toInt < 128 := x.val.toInt_lt
  have hlegal : x.toInt ≠ -128 := fun h => x.legal (BitVec.eq_of_toInt_eq h)
  omega

/-- A soft term is at most 254: both soft bits are in -127..127. -/
theorem natAbs_soft_sub_le (b : UBit) (x : SBit) : ((SBit.soft b).toInt - x.toInt).natAbs ≤ 254 := by
  have hb := SBit.toInt_bounds (SBit.soft b)
  have hx := SBit.toInt_bounds x
  omega

/-! ### Observations (R166) -/

section Observe

variable (P : Params) {s : State}

theorem observe_cs (h : 8 ≤ s.mem.hs.len) : observe P .cs s = some (matchSoft tCs (s.softH.take 8)) :=
  if_pos h

theorem observe_usf6 (h : 6 ≤ s.mem.u.len) : observe P .usf6 s = some (matchHard tUsf6 (s.u.take 6)) :=
  if_pos h

theorem observe_usf12 (h : 12 ≤ s.mem.u.len) :
    observe P .usf12 s = some (matchHard tUsf12 (s.u.take 12)) :=
  if_pos h

theorem observe_afsic (h : wIc P ≤ s.mem.cs.len) :
    observe P .afsic s = some (matchSoft P.afsIc.rows (s.softC.take (wIc P))) :=
  if_pos h

/-- The length register of a table's observation is short. -/
def ObservationShort (s : State) : TSel → Prop
  | .cs => s.mem.hs.len < 8
  | .usf6 => s.mem.u.len < 6
  | .usf12 => s.mem.u.len < 12
  | .afsic => s.mem.cs.len < wIc P

theorem observe_eq_none {tsel : TSel} (h : ObservationShort P s tsel) : observe P tsel s = none := by
  cases tsel <;> exact if_neg (Nat.not_le.2 h)

end Observe

/-! ### `MATCH` (R168) -/

section Match

variable {P : Params} {tsel : TSel} {s : State} (hdef : tsel = .afsic → P.definesAfsIc = true)

include hdef

theorem matchPat_legal : ¬(tsel = .afsic ∧ P.definesAfsIc = false) := by
  rintro ⟨hafsic, hundefined⟩
  rw [hdef hafsic] at hundefined
  cases hundefined

/-- A legal `MATCH` of an observation (R168). -/
theorem execIn_matchPat {m : Nat × Nat} (h : observe P tsel s = some m) :
    execIn P (.matchPat tsel) s = .next { s with
      res := { s.res with idx := BitVec.ofNat 8 m.1, dist := BitVec.ofNat 16 m.2 }, stat := Stat.ok } := by
  have hbody : matchBody P tsel s = .done (s.setMatch m) := by
    rw [matchBody, if_neg (matchPat_legal hdef), h]
  exact congrArg Cmd.finish hbody

/-- A legal `MATCH` without an observation (R168). -/
theorem execIn_matchPat_short (h : ObservationShort P s tsel) :
    execIn P (.matchPat tsel) s = .next (s.raise .len tsel.code.toNat) := by
  have hbody : matchBody P tsel s = .raised .len tsel.code.toNat s := by
    rw [matchBody, if_neg (matchPat_legal hdef), observe_eq_none P h]
  exact congrArg Cmd.finish hbody

end Match

end Sys2Proof.Machine

namespace Sys2Proof.Proofs

open Sys2Proof.Machine

/-- Settles O24: the distances by induction on the pattern, the answer by the scan's invariant
`nearestFrom_nearestIs`. -/
theorem matcherRule : Obligations.MatcherRule :=
  ⟨fun _ _ h => softDist_eq_sum h, natAbs_soft_sub_le, fun _ _ h => hardDist_eq_countP h,
    fun _ x h => matchSoft_nearestIs h x, fun _ x h => matchHard_nearestIs h x⟩

/-- Settles O25: each table is matched against its observation, and a short length register gives none. -/
theorem matchResult : Obligations.MatchResult := by
  unfold Obligations.MatchResult
  simp only [exec_eq_execIn]
  exact ⟨fun _ h => execIn_matchPat (by nofun) (observe_cs _ h),
    fun _ h => execIn_matchPat (by nofun) (observe_usf6 _ h),
    fun _ h => execIn_matchPat (by nofun) (observe_usf12 _ h),
    fun P _ hdef h => execIn_matchPat (fun _ => hdef) (observe_afsic P h),
    fun _ h => execIn_matchPat_short (by nofun) h, fun _ h => execIn_matchPat_short (by nofun) h,
    fun _ h => execIn_matchPat_short (by nofun) h,
    fun _ _ hdef h => execIn_matchPat_short (fun _ => hdef) h⟩

end Sys2Proof.Proofs
end

