-- ==== Sys2Proof/Proofs/ControlEncoders.lean ====
section
/-! `XCCH.ENC`, `RACH.ENC` and `SCH.ENC` (44_codec_control.md R177, R184, R191): one equation for each way a
command ends, and the buffers of the shared stages. -/

namespace Sys2Proof.Machine

/-! ### The stages of an encoder -/

section CodeBlock

variable (s : State) (d p : List UBit)

@[simp] theorem State.codeBlock_par : (s.codeBlock d p).par = p := by simp [State.codeBlock]
@[simp] theorem State.codeBlock_u : (s.codeBlock d p).u = infoWord d p := by simp [State.codeBlock]
@[simp] theorem State.codeBlock_c : (s.codeBlock d p).c = convEnc xcchCode (infoWord d p) := by
  simp [State.codeBlock]

end CodeBlock

section Spread

variable (s : State) (sel : ISel) (c h : List UBit)

@[simp] theorem State.spread_par : (s.spread sel c h).par = s.par := rfl
@[simp] theorem State.spread_u : (s.spread sel c h).u = s.u := rfl
@[simp] theorem State.spread_c : (s.spread sel c h).c = s.c := rfl
@[simp] theorem State.spread_i : (s.spread sel c h).i = interleave sel c := by simp [State.spread]
@[simp] theorem State.spread_h : (s.spread sel c h).h = h := by simp [State.spread]

end Spread

/-! `STAT` is no buffer. -/

section RaiseBuffers

variable (s : State) (e : ErrCode) (info : Nat)

@[simp] theorem State.raise_par : (s.raise e info).par = s.par := rfl
@[simp] theorem State.raise_u : (s.raise e info).u = s.u := rfl
@[simp] theorem State.raise_c : (s.raise e info).c = s.c := rfl
@[simp] theorem State.raise_i : (s.raise e info).i = s.i := rfl
@[simp] theorem State.raise_h : (s.raise e info).h = s.h := rfl
@[simp] theorem State.raise_e : (s.raise e info).e = s.e := rfl

end RaiseBuffers

/-! ### The ways the encoders end -/

section Encoders

variable {s : State}

theorem exec_xcchEnc (h : s.mem.pdu.len = 23) : exec .xcchEnc s = .next
    (((s.codeControl s.pdu).spread .x4 (controlCoded s.pdu) (List.replicate 8 true)).raise .none 0) :=
  congrArg Cmd.finish (if_neg (not_not.2 h))

theorem exec_xcchEnc_pduLen (h : s.mem.pdu.len ≠ 23) :
    exec .xcchEnc s = .next (s.raise .pduLen s.mem.pdu.len) :=
  congrArg Cmd.finish (if_pos h)

theorem exec_rachEnc (bsic : BitVec 6) (h : s.mem.pdu.len = 1) : exec (.rachEnc bsic) s = .next
    ((s.codeBlock (unpackLsb s.pdu 8) (xorBsic bsic (crcGen .crc6 (unpackLsb s.pdu 8)))).raise .none 0) :=
  congrArg Cmd.finish (if_neg (not_not.2 h))

theorem exec_rachEnc_pduLen (bsic : BitVec 6) (h : s.mem.pdu.len ≠ 1) :
    exec (.rachEnc bsic) s = .next (s.raise .pduLen s.mem.pdu.len) :=
  congrArg Cmd.finish (if_pos h)

theorem exec_schEnc (h : s.mem.pdu.len = 4) : exec .schEnc s = .next
    ((s.codeBlock (unpackLsb s.pdu 25) (crcGen .crc10 (unpackLsb s.pdu 25))).raise .none 0) :=
  congrArg Cmd.finish (if_neg (not_not.2 h))

theorem exec_schEnc_pduLen (h : s.mem.pdu.len ≠ 4) :
    exec .schEnc s = .next (s.raise .pduLen s.mem.pdu.len) :=
  congrArg Cmd.finish (if_pos h)

end Encoders

/-! ### What the encoders leave -/

section Results

variable {s : State}

/-- `t` is `s` but for the encoders' buffers and `STAT`. -/
def State.EncodesTo (s t : State) : Prop :=
  t = { s with
    mem := { s.mem with
      u := t.mem.u, par := t.mem.par, c := t.mem.c, i := t.mem.i, h := t.mem.h, e := t.mem.e }
    free := t.free, stat := t.stat }

theorem State.EncodesTo.trans {s t v : State} (h : s.EncodesTo t) (h' : t.EncodesTo v) : s.EncodesTo v :=
  Eq.trans h' (by rw [h])

theorem State.codeBlock_encodesTo (s : State) (d p : List UBit) : s.EncodesTo (s.codeBlock d p) := rfl

theorem State.spread_encodesTo (s : State) (sel : ISel) (c h : List UBit) :
    s.EncodesTo (s.spread sel c h) := rfl

theorem State.raise_encodesTo (s : State) (e : ErrCode) (info : Nat) : s.EncodesTo (s.raise e info) := rfl

theorem xcchEnc_result (h : s.mem.pdu.len = 23) : ∃ t, exec .xcchEnc s = .next t ∧
    t.par = crcGen .fire40 (unpackLsb s.pdu 184) ∧
    t.u = unpackLsb s.pdu 184 ++ t.par ++ List.replicate 4 false ∧
    t.c = convEnc xcchCode t.u ∧ t.i = interleave .x4 t.c ∧ t.h = List.replicate 8 true ∧
    t.e = mapBlock 4 t.i t.h ∧
    t = { s with
      mem := { s.mem with
        u := t.mem.u, par := t.mem.par, c := t.mem.c, i := t.mem.i, h := t.mem.h, e := t.mem.e }
      free := t.free, stat := Stat.ok } := by
  obtain ⟨t, ht⟩ : ∃ t, t = ((s.codeControl s.pdu).spread .x4 (controlCoded s.pdu)
      (List.replicate 8 true)).raise .none 0 := ⟨_, rfl⟩
  have hpar : t.par = crcGen .fire40 (controlBits s.pdu) := by simp [ht, State.codeControl]
  have hu : t.u = infoWord (controlBits s.pdu) (crcGen .fire40 (controlBits s.pdu)) := by
    simp [ht, State.codeControl]
  have hc : t.c = controlCoded s.pdu := by simp [ht, State.codeControl, controlCoded]
  have hi : t.i = interleave .x4 (controlCoded s.pdu) := by simp [ht]
  have hh : t.h = List.replicate 8 true := by simp [ht]
  have he : t.e = blockBursts .x4 (controlCoded s.pdu) (List.replicate 8 true) := by simp [ht]
  have hstat : t.stat = Stat.ok := by rw [ht]; rfl
  have hframe : s.EncodesTo t := ht ▸ ((s.codeBlock_encodesTo _ _).trans
    (State.spread_encodesTo _ _ _ _)).trans (State.raise_encodesTo _ _ _)
  refine ⟨t, ht ▸ exec_xcchEnc h, hpar, ?_, ?_, ?_, hh, ?_, hstat ▸ hframe⟩
  · rw [hu, hpar, infoWord, controlBits]
  · rw [hc, hu, controlCoded]
  · rw [hi, hc]
  · rw [he, hi, hh, blockBursts, nbiOf]

/-- The blocks that are coded and not interleaved. -/
theorem codeBlock_result {i : Instr} {d p : List UBit}
    (h : exec i s = .next ((s.codeBlock d p).raise .none 0)) : ∃ t, exec i s = .next t ∧ t.par = p ∧
    t.u = d ++ t.par ++ List.replicate 4 false ∧ t.c = convEnc xcchCode t.u ∧
    t = { s with
      mem := { s.mem with u := t.mem.u, par := t.mem.par, c := t.mem.c }
      free := t.free, stat := Stat.ok } := by
  refine ⟨_, h, State.codeBlock_par s d p, ?_, ?_, rfl⟩
  · rw [State.raise_u, State.raise_par, State.codeBlock_u, State.codeBlock_par, infoWord]
  · rw [State.raise_c, State.raise_u, State.codeBlock_c, State.codeBlock_u]

end Results

end Sys2Proof.Machine

namespace Sys2Proof.Proofs

open Sys2Proof.Machine

/-- Settles O26: one equation for each way an encoder ends; the identity code enters the parity bit by
bit. -/
theorem controlEncoders : Obligations.ControlEncoders := by
  unfold Obligations.ControlEncoders
  refine ⟨fun _ h => xcchEnc_result h, fun _ h => exec_xcchEnc_pduLen h, fun bsic s h => ?_,
    fun bsic _ h => exec_rachEnc_pduLen bsic h, fun _ h => codeBlock_result (exec_schEnc h),
    fun _ h => exec_schEnc_pduLen h⟩
  obtain ⟨t, hexec, hpar, hrest⟩ := codeBlock_result (exec_rachEnc bsic h)
  refine ⟨t, hexec, ?_, fun k hk => ?_, hrest⟩
  · rw [← State.par_length, hpar, xorBsic_length]
  · rw [hpar, xorBsic_getElem? _ _ hk]

end Sys2Proof.Proofs
end

