-- ==== Sys2Proof/Proofs/AccessBurst.lean ====
section
/-! `RACH.DEC` under any parameters (44_codec_control.md R183, R186, R187), and the random-access burst that
`RX.BURST` hands to it (47_scheduler.md R276). -/

namespace Sys2Proof.Machine

/-! ### What `RACH.DEC` makes of soft bits -/

/-- The word that `RACH.DEC` decodes (R186). -/
def accessWord (P : Params) (soft : List SBit) : List UBit := convDecP P xcchCode soft 14

/-- The byte of the word. -/
def accessPdu (P : Params) (soft : List SBit) : List Byte := packLsb ((accessWord P soft).take 8)

/-- The parity of the word without the identity code. -/
def accessParity (P : Params) (bsic : BitVec 6) (soft : List SBit) : List UBit :=
  xorBsic bsic (slice (accessWord P soft) 8 6)

/-- The checksum accepts the request under the identity code. -/
def accessGood (P : Params) (bsic : BitVec 6) (soft : List SBit) : Bool :=
  crcChk .crc6 ((accessWord P soft).take 8) (accessParity P bsic soft)

/-- The state after the decode step and the parity of `RACH.DEC`. -/
def State.decodeAccess (P : Params) (s : State) (bsic : BitVec 6) (soft : List SBit) : State :=
  (s.trellis P xcchCode soft 14).setPar (accessParity P bsic soft)

section Frame

variable (P : Params) (s : State) (code : Code) (bsic : BitVec 6) (soft : List SBit) (kd : Nat)

@[simp] theorem State.trellis_cs : (s.trellis P code soft kd).cs = s.cs := rfl
@[simp] theorem State.trellis_evq : (s.trellis P code soft kd).evq = s.evq := rfl
@[simp] theorem State.trellis_rxind : (s.trellis P code soft kd).rxind = s.rxind := rfl
@[simp] theorem State.trellis_nerr : (s.trellis P code soft kd).res.nerr =
    BitVec.ofNat 16 (convNerr code soft (convDecP P code soft kd)) := rfl
@[simp] theorem State.trellis_nbits :
    (s.trellis P code soft kd).res.nbits = BitVec.ofNat 16 (convNbits soft) := rfl

theorem State.decodeAccess_chan (tn : Tn) (ch : Chan) :
    (s.decodeAccess P bsic soft).chan tn ch = s.chan tn ch := by
  simp [State.chan, State.decodeAccess]

theorem State.decodeAccess_evq : (s.decodeAccess P bsic soft).evq = s.evq := by
  simp [State.decodeAccess]

theorem State.decodeAccess_rxind : (s.decodeAccess P bsic soft).rxind = s.rxind := by
  simp [State.decodeAccess]

theorem State.decodeAccess_nerr : (s.decodeAccess P bsic soft).res.nerr =
    BitVec.ofNat 16 (convNerr xcchCode soft (accessWord P soft)) := by
  simp [State.decodeAccess, accessWord]

theorem State.decodeAccess_nbits :
    (s.decodeAccess P bsic soft).res.nbits = BitVec.ofNat 16 (convNbits soft) := by
  simp [State.decodeAccess]

end Frame

section Decoder

variable {P : Params} {bsic : BitVec 6} {soft : List SBit} {s : State} (hlen : soft.length = 36)
  (hsoft : s.softC = soft)

include hlen hsoft

theorem rachDecBody_eq : rachDecBody P bsic s = if accessGood P bsic soft then
    .done ((s.decodeAccess P bsic soft).setPdu (accessPdu P soft))
    else .raised .badBlock 3 (s.decodeAccess P bsic soft) := by
  have hcs : s.mem.cs.len = 36 := by rw [← State.softC_length, hsoft, hlen]
  subst hsoft
  exact if_neg (not_not.2 hcs)

theorem rachDecBody_good (h : accessGood P bsic soft = true) :
    rachDecBody P bsic s = .done ((s.decodeAccess P bsic soft).setPdu (accessPdu P soft)) := by
  rw [rachDecBody_eq hlen hsoft, if_pos h]

theorem rachDecBody_bad (h : accessGood P bsic soft = false) :
    rachDecBody P bsic s = .raised .badBlock 3 (s.decodeAccess P bsic soft) := by
  rw [rachDecBody_eq hlen hsoft, if_neg (by rw [h]; exact Bool.false_ne_true)]

end Decoder

/-! ### Clean requests (R187) -/

section Clean

variable (P : Params) (bsic bsic' : BitVec 6) (ra : Byte)

theorem access_clean_lengths : (unpackLsb [ra] 8).length +
    (xorBsic bsic (crcGen .crc6 (unpackLsb [ra] 8))).length = 14 := by
  rw [unpackLsb_length, xorBsic_length]

theorem accessWord_clean : accessWord P (softAll (rachCoded bsic (unpackLsb [ra] 8))) =
    unpackLsb [ra] 8 ++ xorBsic bsic (crcGen .crc6 (unpackLsb [ra] 8)) :=
  convDecP_infoWord (access_clean_lengths bsic ra) P

theorem accessPdu_clean : accessPdu P (softAll (rachCoded bsic (unpackLsb [ra] 8))) = [ra] := by
  rw [accessPdu, accessWord_clean, List.take_left' (unpackLsb_length _ _)]
  exact packBits_unpackBits_whole .lsb rfl

/-- Only the identity code of the request is accepted. -/
theorem accessGood_clean_iff :
    accessGood P bsic' (softAll (rachCoded bsic (unpackLsb [ra] 8))) = true ↔ bsic' = bsic := by
  rw [accessGood, accessParity, accessWord_clean, List.take_left' (unpackLsb_length _ _),
    slice_append_end (unpackLsb_length _ _) (xorBsic_length _ _), crcChk_eq_true_iff, eq_comm]
  exact xorBsic_xorBsic_eq_iff (crcGen_length .crc6 _)

end Clean

/-! ### The random-access handler (R276) -/

/-- The error rate that R276 gives for soft bits. -/
def accessBer (P : Params) (soft : List SBit) : BitVec 16 :=
  BitVec.ofNat 16 (ber10k (BitVec.ofNat 16 (convNerr xcchCode soft (accessWord P soft))).toNat
    (BitVec.ofNat 16 (convNbits soft)).toNat)

theorem accessBer_clean (P : Params) (bsic : BitVec 6) (ra : Byte) :
    accessBer P (softAll (rachCoded bsic (unpackLsb [ra] 8))) = 0 := by
  have hnerr : convNerr xcchCode (softAll (rachCoded bsic (unpackLsb [ra] 8)))
      (accessWord P (softAll (rachCoded bsic (unpackLsb [ra] 8)))) = 0 := by
    rw [accessWord_clean]
    exact convNerr_infoWord (access_clean_lengths bsic ra)
  have hnbits : convNbits (softAll (rachCoded bsic (unpackLsb [ra] 8))) = 36 := by
    rw [convNbits_of_full (softAll_mag _), softAll_length, rachCoded, infoWord_coded_length,
      access_clean_lengths]
  rw [accessBer, hnerr, hnbits]
  rfl

/-- The signal that an access burst is delivered with, of byte `pdu` and error rate `ber`. -/
def RxInd.accessEvent (r : RxInd) (ch : Chan) (pdu : List Byte) (ber : BitVec 16) : Event :=
  .dataInd r.slot ch r.fn pdu r.rssi r.toa256 (if r.hasCi then r.ci else 0) r.hasCi ber 0

theorem accessBits_length (r : RxInd) : (accessBits r.bits.toList).length = 36 :=
  slice_length _ _ _ (by rw [Vector.length_toList]; omega)

/-- The state in which the handler runs the decoder. -/
def State.accessStart (s : State) (ch : Chan) : State :=
  (s.setSoftC (accessBits s.rxind.bits.toList)).setChan s.rxind.slot ch
    ((s.chan s.rxind.slot ch).count s.rxind.fn)

theorem State.accessStart_chan (s : State) (ch : Chan) : (s.accessStart ch).chan s.rxind.slot ch =
    (s.chan s.rxind.slot ch).count s.rxind.fn := State.setChan_chan _ _ _ _

theorem State.accessStart_softC (s : State) (ch : Chan) :
    (s.accessStart ch).softC = accessBits s.rxind.bits.toList := State.setSoftC_softC s _

theorem accessUl_of_done {P : Params} {ch : Chan} {s t : State}
    (h : rachDecBody P s.bsic (s.accessStart ch) = .done t) :
    accessUl P s.rxind.slot ch s = .done (t.emit (accessInd s.rxind.slot ch t)) := by
  unfold State.accessStart at h
  simp only [accessUl, h]

theorem accessUl_of_raised {P : Params} {ch : Chan} {s t : State} {e : ErrCode} {info : Nat}
    (h : rachDecBody P s.bsic (s.accessStart ch) = .raised e info t) :
    accessUl P s.rxind.slot ch s =
      .done (t.setChan s.rxind.slot ch ((t.chan s.rxind.slot ch).lose 1)) := by
  unfold State.accessStart at h
  simp only [accessUl, h]

/-- What the handler leaves of a burst of channel `ch`: it delivers what the checksum accepts and counts the
rest as lost. -/
structure State.AccessHandled (P : Params) (ch : Chan) (s t : State) : Prop where
  delivered : accessGood P s.bsic (accessBits s.rxind.bits.toList) = true →
    t.chan s.rxind.slot ch = (s.chan s.rxind.slot ch).count s.rxind.fn ∧
    t.evq = s.evq ++ [s.rxind.accessEvent ch (accessPdu P (accessBits s.rxind.bits.toList))
      (accessBer P (accessBits s.rxind.bits.toList))]
  lost : accessGood P s.bsic (accessBits s.rxind.bits.toList) = false →
    t.chan s.rxind.slot ch = ((s.chan s.rxind.slot ch).count s.rxind.fn).lose 1 ∧ t.evq = s.evq

/-- The signal of the handler is that of the accepted byte. -/
theorem accessInd_decodeAccess {P : Params} {bsic : BitVec 6} {soft : List SBit} {ch : Chan}
    (s : State) (pdu : List Byte) : accessInd s.rxind.slot ch ((s.decodeAccess P bsic soft).setPdu pdu) =
      s.rxind.accessEvent ch pdu (accessBer P soft) := by
  simp only [accessInd, State.setPdu_rxind, State.setPdu_pdu, State.setPdu_res, State.decodeAccess_rxind,
    State.decodeAccess_nerr, State.decodeAccess_nbits, RxInd.accessEvent, accessBer]

theorem accessUl_handled (P : Params) (ch : Chan) (s : State) :
    ∃ t, accessUl P s.rxind.slot ch s = .done t ∧ s.AccessHandled P ch t := by
  have hlen := accessBits_length s.rxind
  have hsoft := s.accessStart_softC ch
  have hchan := s.accessStart_chan ch
  have hevq : (s.accessStart ch).evq = s.evq := rfl
  have hrxind : (s.accessStart ch).rxind = s.rxind := rfl
  cases hgood : accessGood P s.bsic (accessBits s.rxind.bits.toList) with
  | true =>
    refine ⟨_, accessUl_of_done (rachDecBody_good hlen hsoft hgood), fun _ => ⟨?_, ?_⟩, fun h => ?_⟩
    · rw [State.chan, State.emit_cs, State.setPdu_cs, ← State.chan, State.decodeAccess_chan, hchan]
    · rw [State.emit_evq, State.setPdu_evq, State.decodeAccess_evq, hevq, ← hrxind, accessInd_decodeAccess]
    · rw [hgood] at h
      cases h
  | false =>
    refine ⟨_, accessUl_of_raised (rachDecBody_bad hlen hsoft hgood), fun h => ?_, fun _ => ⟨?_, ?_⟩⟩
    · rw [hgood] at h
      cases h
    · rw [State.setChan_chan, State.decodeAccess_chan, hchan]
    · rw [State.setChan_evq, State.decodeAccess_evq, hevq]

/-! ### `RX.BURST` (R270, R276) -/

theorem execIn_rxBurst_of_rach {P : Params} {s : State} {l : Layout} {ch : Chan} {bid : Fin 8}
    (h : s.RoutedTo P l ch bid) (hfam : ulFamily ch = .rach) (hact : s.isActive s.rxind.slot ch = true) :
    execIn P .rxBurst s = (accessUl P s.rxind.slot ch s).scratched.finish := by
  rw [execIn_rxBurst_of_routedTo h, routeUl_of_routedTo h, if_neg (by simp [hfam, hact]), if_pos hfam]

/-- A random-access burst of an active channel. -/
theorem rxBurst_access {P : Params} {s : State} {l : Layout} {ch : Chan} {bid : Fin 8}
    (h : s.RoutedTo P l ch bid) (hfam : ulFamily ch = .rach) (hact : s.isActive s.rxind.slot ch = true) :
    ∃ t, execIn P .rxBurst s = .next t ∧ t.stat = Stat.ok ∧
    (∀ (k : Tn) (c : Chan), ¬(k = s.rxind.slot ∧ c = ch) → t.chan k c = s.chan k c) ∧
    s.AccessHandled P ch t := by
  obtain ⟨v, hv, hhandled⟩ := accessUl_handled P ch s
  have hends := accessUl_ends_receives P s.rxind.slot ch s
  rw [hv] at hends
  refine ⟨v.scratch.raise .none 0, ?_, rfl, hends.of_done.others, hhandled.delivered, hhandled.lost⟩
  rw [execIn_rxBurst_of_rach h hfam hact, hv]
  rfl

/-! ### The handler and the command `RACH.DEC` -/

section Command

variable {P : Params} {bsic : BitVec 6} {soft : List SBit} {d u : State} (hlen : soft.length = 36)
  (hsoft : d.softC = soft) (h : execIn P (.rachDec bsic) d = .next u)

include hlen hsoft h

theorem rachDec_ok_iff : u.stat = Stat.ok ↔ accessGood P bsic soft = true := by
  cases hgood : accessGood P bsic soft with
  | true =>
    rw [execIn, bodyIn, rachDecBody_good hlen hsoft hgood] at h
    obtain rfl := Host.Outcome.next.inj h
    exact iff_of_true rfl rfl
  | false =>
    rw [execIn, bodyIn, rachDecBody_bad hlen hsoft hgood] at h
    obtain rfl := Host.Outcome.next.inj h
    exact iff_of_false (Stat.error_badBlock_ne_ok 3) Bool.false_ne_true

/-- The byte and the error rate of an accepted request. -/
theorem rachDec_ok_result (hok : u.stat = Stat.ok) : u.pdu = accessPdu P soft ∧
    BitVec.ofNat 16 (ber10k u.res.nerr.toNat u.res.nbits.toNat) = accessBer P soft := by
  have hgood := (rachDec_ok_iff hlen hsoft h).1 hok
  rw [execIn, bodyIn, rachDecBody_good hlen hsoft hgood] at h
  obtain rfl := Host.Outcome.next.inj h
  exact ⟨State.setPdu_pdu _ _, rfl⟩

end Command

end Sys2Proof.Machine

namespace Sys2Proof.Proofs

open Sys2Proof.Machine

/-- Settles O52: the handler runs the decoder on the 36 coded positions, and what it does is told by the
checksum of the decoded word. -/
theorem rxAccessBurst : Obligations.RxAccessBurst := by
  unfold Obligations.RxAccessBurst
  rintro P s l ch bid _ _ hroute hfam hact rfl rfl
  obtain ⟨t, hexec, hstat, hothers, hhandled⟩ := rxBurst_access hroute hfam hact
  have hlen := accessBits_length s.rxind
  refine ⟨t, hexec, fun hP => ?_, hstat, hothers, fun d u hsoft hdec => ⟨fun hok => ?_, fun hbad => ?_⟩,
    fun ra bsic hclean => ?_⟩
  · rw [exec_eq_execIn, ← hP, hexec]
  · obtain ⟨hpdu, hber⟩ := rachDec_ok_result hlen hsoft hdec hok
    obtain ⟨hchan, hevq⟩ := hhandled.delivered ((rachDec_ok_iff hlen hsoft hdec).1 hok)
    refine ⟨?_, hchan, ?_⟩
    · rw [hpdu, accessPdu, packLsb_length, List.length_take, accessWord, convDecP_length]
      rfl
    · rw [hevq, hpdu, hber, RxInd.accessEvent]
  · exact hhandled.lost (Bool.eq_false_iff.2 fun hgood => hbad ((rachDec_ok_iff hlen hsoft hdec).2 hgood))
  · have hiff := accessGood_clean_iff P bsic s.bsic ra
    have hpdu := accessPdu_clean P bsic ra
    have hber := accessBer_clean P bsic ra
    rw [← hclean] at hiff hpdu hber
    refine ⟨fun heq => ?_, fun hne => ?_⟩
    · obtain ⟨hchan, hevq⟩ := hhandled.delivered (hiff.2 heq.symm)
      rw [hpdu, hber] at hevq
      exact ⟨hchan, hevq⟩
    · exact hhandled.lost (Bool.eq_false_iff.2 fun hgood => hne (hiff.1 hgood).symm)

end Sys2Proof.Proofs
end

