-- ==== Sys2Proof/Proofs/ErrorPrecision.lean ====
section
/-! In which states errors are raised (60_exceptions.md R300, R308, R309, 44_codec_control.md R175): every
command but the decoders, `TICK` and `RX.BURST` raises them before it writes anything, the decoders before
they write `PDU`. -/

namespace Sys2Proof.Machine

/-! ### Raising -/

/-- Every error of the body is raised with a code and in a state of the relation. -/
def Cmd.Raises (p : ErrCode → State → Prop) (c : Cmd) : Prop :=
  ∀ (e : ErrCode) (info : Nat) (t : State), c = .raised e info t → p e t

namespace Cmd.Raises

variable {p : ErrCode → State → Prop}

theorem done (s : State) : (Cmd.done s).Raises p := by
  rintro _ _ _ ⟨⟩

theorem raised {e : ErrCode} {s : State} (h : p e s) (info : Nat) : (Cmd.raised e info s).Raises p := by
  rintro _ _ _ ⟨⟩
  exact h

/-- The shape of every check of an operation rule. -/
theorem check {q : Prop} [Decidable q] {c d : Cmd} (hc : c.Raises p) (hd : d.Raises p) :
    (if q then c else d).Raises p := by
  split
  · exact hc
  · exact hd

theorem mono {q : ErrCode → State → Prop} {c : Cmd} (hc : c.Raises p) (h : ∀ e t, p e t → q e t) :
    c.Raises q :=
  fun e info t heq => h e t (hc e info t heq)

/-- What follows a body may change the states in which its errors were raised. -/
theorem onEnd {c : Cmd} {f g : State → State} (hc : c.Raises p) (hg : ∀ e t, p e t → p e (g t)) :
    (c.onEnd f g).Raises p := by
  cases c with
  | done s => exact done _
  | raised e info s => exact raised (hg _ _ (hc _ _ _ rfl)) info
  | refused r => rintro _ _ _ ⟨⟩

end Cmd.Raises

theorem ErrCode.eq_len_of_code {e : ErrCode} (h : e.code = ErrCode.len.code) : e = .len := by
  revert h
  cases e <;> decide

/-- A finished command whose code is that of an error raised it. -/
theorem Cmd.Raises.of_finish {p : ErrCode → State → Prop} {c : Cmd} {t : State} (hc : c.Raises p)
    (h : c.finish = .next t) (hcode : t.stat.code ≠ 0) :
    ∃ (e : ErrCode) (info : Nat) (u : State), p e u ∧ t = u.raise e info := by
  obtain ⟨u, -, rfl⟩ | ⟨e, info, u, hraised, ht⟩ := (c.finish_eq_next t).1 h
  · exact absurd rfl hcode
  · exact ⟨e, info, u, hc e info u hraised, ht⟩

/-! ### Commands that are no decoders -/

open Cmd.Raises

/-- The body raises its errors before it writes anything. -/
def Cmd.RaisesIn (s : State) : Cmd → Prop := Cmd.Raises fun _ t => t = s

section Units

variable (P : Params) (s : State)

theorem convEncBody_raisesIn (e : Fin 16) : (convEncBody P e s).RaisesIn s := by
  unfold convEncBody
  split
  · exact raised rfl _
  · exact check (raised rfl _) (done _)

theorem convDecBody_raisesIn (e : Fin 16) (kd : Nat) : (convDecBody P e kd s).RaisesIn s := by
  unfold convDecBody
  split
  · exact raised rfl _
  · exact check (done _) (raised rfl _)

theorem puncBody_raisesIn (e : Fin 16) : (puncBody P e s).RaisesIn s := by
  unfold puncBody
  split
  · exact raised rfl _
  · exact check (raised rfl _) (done _)

theorem depuncBody_raisesIn (e : Fin 16) : (depuncBody P e s).RaisesIn s := by
  unfold depuncBody
  split
  · exact raised rfl _
  · exact check (raised rfl _) (check (raised rfl _) (done _))

theorem matchBody_raisesIn (x : TSel) : (matchBody P x s).RaisesIn s := by
  unfold matchBody
  refine check (raised rfl _) ?_
  split
  · exact raised rfl _
  · exact done _

theorem pdtchEncBody_raisesIn : (pdtchEncBody s).RaisesIn s := by
  unfold pdtchEncBody
  split
  · exact raised rfl _
  · exact done _

theorem tchafsEncBody_raisesIn (phase : Phase) : (tchafsEncBody P phase s).RaisesIn s := by
  unfold tchafsEncBody
  refine check (done _) ?_
  split
  · exact raised rfl _
  · exact done _

theorem setModeBody_raisesIn (tn : Tn) (ch : Chan) : (setModeBody tn ch s).RaisesIn s := by
  unfold setModeBody
  split
  · exact raised rfl _
  · exact check (raised rfl _) (done _)

end Units

theorem bodyIn_raisesIn (P : Params) {i : Instr} (hdec : isDecoder i = false) (htick : ∀ fn, i ≠ .tick fn)
    (hrx : i ≠ .rxBurst) (s : State) : (bodyIn P i s).RaisesIn s := by
  cases i with
  | hSet | schedInit | setAtt | setBsic => exact done _
  | crcGen | uappZero | parLd | intlv | deintlv | map | unmap | unpack | pack | xcchEnc | rachEnc | schEnc
  | amrCfg | setPchan | chAct | chDeact => exact check (raised rfl _) (done _)
  | crcChk => exact check (raised rfl _) (check (done _) (raised rfl _))
  | uappPar => exact check (raised rfl _) (check (done _) (done _))
  | setCipher | pduEnq => exact check (raised rfl _) (check (raised rfl _) (done _))
  | tchfrEnc => exact check (done _) (check (done _) (raised rfl _))
  | convEnc e => exact convEncBody_raisesIn P s e
  | convDec e kd => exact convDecBody_raisesIn P s e _
  | punc e => exact puncBody_raisesIn P s e
  | depunc e => exact depuncBody_raisesIn P s e
  | matchPat x => exact matchBody_raisesIn P s x
  | pdtchEnc => exact pdtchEncBody_raisesIn s
  | tchafsEnc phase => exact tchafsEncBody_raisesIn P s phase
  | setMode tn ch => exact setModeBody_raisesIn s tn ch
  | xcchDec | rachDec | schDec | pdtchDec | tchfrDec | tchafsDec => cases hdec
  | tick fn => exact absurd rfl (htick fn)
  | rxBurst => exact absurd rfl hrx

/-! ### Decoders -/

/-- The error `e` that a decoder raises in `t` leaves the `PDU` of `s`, and an `E_LEN` leaves everything. -/
structure State.DecoderError (s : State) (e : ErrCode) (t : State) : Prop where
  pdu : t.mem.pdu = s.mem.pdu
  len : e = .len → t = s

/-- The error is not about a length: it may be raised after buffers were written, but not `PDU`. -/
structure State.StageError (s : State) (e : ErrCode) (t : State) : Prop where
  ne_len : e ≠ .len
  pdu : t.mem.pdu = s.mem.pdu

theorem State.StageError.decoderError {s t : State} {e : ErrCode} (h : s.StageError e t) :
    s.DecoderError e t :=
  ⟨h.pdu, fun he => absurd he h.ne_len⟩

section Stages

variable {P : Params} {s₀ s : State} (hpdu : s.mem.pdu = s₀.mem.pdu)

include hpdu

theorem State.checkBlock_raises (x : CrcSel) (d p : List UBit) (pdu : List Byte) :
    (s.checkBlock x d p pdu).Raises s₀.StageError :=
  check (done _) (raised ⟨nofun, (State.setPar_mem_pdu s p).trans hpdu⟩ _)

theorem State.decodeControl_raises (cs : List SBit) : (s.decodeControl P cs).Raises s₀.StageError :=
  State.checkBlock_raises ((State.trellis_mem_pdu ..).trans hpdu) _ _ _ _

theorem State.decodeScheme1_raises (cs : List SBit) : (s.decodeScheme1 P cs).Raises s₀.StageError := by
  rw [State.decodeScheme1_eq_onEnd]
  exact (State.decodeControl_raises hpdu cs).onEnd fun _ _ h => ⟨h.ne_len, h.pdu⟩

theorem State.finishPacket_raises (x : Scheme) (wd : Nat) (u : List UBit) :
    (s.finishPacket x wd u).Raises s₀.StageError := by
  unfold State.finishPacket
  refine State.checkBlock_raises ?_ _ _ _ _
  rwa [State.setU_mem_pdu, State.setUsf_mem]

theorem State.decodeCoded_raises (x : Scheme) (mask : Mask) (cs : List SBit) :
    (s.decodeCoded P x mask cs).Raises s₀.StageError :=
  State.finishPacket_raises (s := (s.setSoftC _).trellis P xcchCode (depunct mask cs) (x.np + 19))
    ((State.trellis_mem_pdu ..).trans hpdu) _ _ _

theorem State.decodePlain_raises (cs : List SBit) : (s.decodePlain cs).Raises s₀.StageError :=
  State.finishPacket_raises (s := (s.setU _).setErrors 0 (convNbits cs)) hpdu _ _ _

theorem State.speechEnd_raises (speech : Efr) (d p : List UBit) :
    (s.speechEnd P speech d p).Raises s₀.StageError := by
  have hbad (info : Nat) : (Cmd.raised .badBlock info (s.setPar p)).Raises s₀.StageError :=
    raised ⟨nofun, (State.setPar_mem_pdu s p).trans hpdu⟩ info
  unfold State.speechEnd
  refine check ?_ (hbad _)
  split
  · exact done _
  · exact hbad _

theorem State.decodeSpeech_raises (speech : Efr) (cs : List SBit) :
    (s.decodeSpeech P speech cs).Raises s₀.StageError := by
  rw [State.decodeSpeech_eq]
  exact State.speechEnd_raises ((State.trellis_mem_pdu ..).trans hpdu) _ _ _

theorem State.decodeAfs_raises (phase : Phase) (m : BitVec 3) (idx : Nat) (soft : List SBit) :
    (s.decodeAfs P phase m idx soft).Raises s₀.StageError := by
  rw [State.decodeAfs_eq_onEnd]
  refine Cmd.Raises.onEnd (State.checkBlock_raises ?_ _ _ _ _) fun _ _ h => h
  rwa [State.trellis_mem_pdu, State.setSoftC_mem_pdu]

end Stages

section Bodies

variable (P : Params) (s : State)

/-- The shape of every decoder: the check of the input's length, then the stages. -/
theorem raises_lenCheck {q : Prop} [Decidable q] {info : Nat} {c : Cmd} (hc : c.Raises s.DecoderError) :
    (if q then .raised .len info s else c : Cmd).Raises s.DecoderError :=
  check (raised ⟨rfl, fun _ => rfl⟩ info) hc

theorem xcchDecBody_raises : (xcchDecBody P s).Raises s.DecoderError :=
  raises_lenCheck s ((State.decodeControl_raises (s₀ := s) (s := s.gather .x4 s.softE) rfl _).mono
    fun _ _ h => h.decoderError)

theorem rachDecBody_raises (bsic : BitVec 6) : (rachDecBody P bsic s).Raises s.DecoderError :=
  raises_lenCheck s ((State.checkBlock_raises (State.trellis_mem_pdu P s xcchCode s.softC 14) _ _ _ _).mono
    fun _ _ h => h.decoderError)

theorem schDecBody_raises : (schDecBody P s).Raises s.DecoderError :=
  raises_lenCheck s ((State.checkBlock_raises (State.trellis_mem_pdu P s xcchCode s.softC 35) _ _ _ _).mono
    fun _ _ h => h.decoderError)

theorem pdtchDecBody_raises : (pdtchDecBody P s).Raises s.DecoderError := by
  have hpdu (m : Nat × Nat) (x : Scheme) :
      (((s.gather .x4 s.softE).setMatch m).setCs x).mem.pdu = s.mem.pdu := rfl
  refine raises_lenCheck s (Cmd.Raises.mono (p := s.StageError) ?_ fun _ _ h => h.decoderError)
  dsimp only
  split
  · exact State.decodeScheme1_raises (hpdu _ _) _
  · exact State.decodeCoded_raises (hpdu _ _) _ _ _
  · exact State.decodeCoded_raises (hpdu _ _) _ _ _
  · exact State.decodePlain_raises (hpdu _ _) _

theorem State.trafficStart_mem_pdu (b : Bool) : (s.trafficStart b).mem.pdu = s.mem.pdu := rfl

theorem tchfrDecBody_raises (speech : Efr) : (tchfrDecBody P speech s).Raises s.DecoderError := by
  have hpdu := s.trafficStart_mem_pdu (stolen (unmapFlags 8 s.softE))
  refine raises_lenCheck s (Cmd.Raises.mono (p := s.StageError) ?_ fun _ _ h => h.decoderError)
  exact check (State.decodeControl_raises hpdu _) (State.decodeSpeech_raises hpdu _ _)

/-- A de-punctured block that is too long is found before anything is written (log 21). -/
theorem tchafsDecBody_raises (phase : Phase) : (tchafsDecBody P phase s).Raises s.DecoderError := by
  have hstart (b : Bool) : (s.afsStart b).mem.pdu = s.mem.pdu := rfl
  have hmatch (b : Bool) (m : Nat × Nat) : ((s.afsStart b).setMatch m).mem.pdu = s.mem.pdu := rfl
  refine raises_lenCheck s (check
    ((State.decodeControl_raises (hstart _) _).mono fun _ _ h => h.decoderError) ?_)
  dsimp only
  split
  · exact raised ⟨hmatch _ _, nofun⟩ _
  · exact raises_lenCheck s ((State.decodeAfs_raises (hmatch _ _) _ _ _ _).mono
      fun _ _ h => h.decoderError)

end Bodies

theorem bodyIn_raises_decoderError (P : Params) {i : Instr} (h : isDecoder i = true) (s : State) :
    (bodyIn P i s).Raises s.DecoderError := by
  cases i with
  | xcchDec => exact xcchDecBody_raises P s
  | rachDec bsic => exact rachDecBody_raises P s bsic
  | schDec => exact schDecBody_raises P s
  | pdtchDec => exact pdtchDecBody_raises P s
  | tchfrDec speech => exact tchfrDecBody_raises P s speech
  | tchafsDec phase => exact tchafsDecBody_raises P s phase
  | _ => cases h

/-! ### The length of a decoder's input (R175, R308) -/

section InputLength

variable {s : State}

theorem exec_blockDec_len (h : s.mem.es.len ≠ 464) :
    exec .xcchDec s = .next (s.raise .len s.mem.es.len) ∧
    exec .pdtchDec s = .next (s.raise .len s.mem.es.len) :=
  ⟨congrArg Cmd.finish (if_pos h), congrArg Cmd.finish (if_pos h)⟩

theorem exec_trafficDec_len (h : s.mem.es.len ≠ 928) :
    (∀ e, exec (.tchfrDec e) s = .next (s.raise .len s.mem.es.len)) ∧
    (∀ p, exec (.tchafsDec p) s = .next (s.raise .len s.mem.es.len)) :=
  ⟨fun _ => congrArg Cmd.finish (if_pos h), fun _ => congrArg Cmd.finish (if_pos h)⟩

theorem exec_rachDec_len (h : s.mem.cs.len ≠ 36) (b : BitVec 6) :
    exec (.rachDec b) s = .next (s.raise .len s.mem.cs.len) :=
  congrArg Cmd.finish (if_pos h)

theorem exec_schDec_len (h : s.mem.cs.len ≠ 78) : exec .schDec s = .next (s.raise .len s.mem.cs.len) :=
  congrArg Cmd.finish (if_pos h)

end InputLength

end Sys2Proof.Machine

namespace Sys2Proof.Proofs

open Sys2Proof.Machine

/-- Settles O7: where each body raises its errors. -/
theorem errorPrecision : Obligations.ErrorPrecision := by
  unfold Obligations.ErrorPrecision
  refine ⟨fun i s t hdec htick hrx h hcode => ?_, fun i s t hdec h hcode => ?_,
    fun P i s t hdec h hlen => ?_, fun _ h => exec_blockDec_len h, fun _ h => exec_trafficDec_len h,
    fun _ h b => exec_rachDec_len h b, fun _ h => exec_schDec_len h⟩
  · rw [exec_eq_execIn] at h
    obtain ⟨e, info, _, rfl, rfl⟩ := (bodyIn_raisesIn Config.inst hdec htick hrx s).of_finish h hcode
    rfl
  · rw [exec_eq_execIn] at h
    obtain ⟨e, info, u, herror, rfl⟩ :=
      (bodyIn_raises_decoderError Config.inst hdec s).of_finish h hcode
    exact herror.pdu
  · obtain ⟨e, info, u, herror, rfl⟩ :=
      (bodyIn_raises_decoderError P hdec s).of_finish h (by rw [hlen]; decide)
    rw [herror.len (ErrCode.eq_len_of_code hlen)]
    rfl

end Sys2Proof.Proofs
end

