-- ==== Sys2Proof/Proofs/FlippedPayload.lean ====
section
/-! A flipped payload bit under the checksum of every channel codec (44_codec_control.md R181, 46_codec_tch.md
R230 (c), R243 (c)): the decoders return the flipped word, and its parity is that of another payload. -/

namespace Sys2Proof.Machine

/-! ### One wrong position -/

theorem differAt_of_getElem? {j : Nat} {x y : List UBit} (hj : j < x.length)
    (hflip : y[j]? = some (!x.getD j false)) (hothers : ∀ i, i ≠ j → y[i]? = x[i]?) :
    DifferAt j x y := by
  refine ⟨hj, List.ext_getElem? fun i => ?_⟩
  by_cases hi : i = j
  · rw [hi, hflip, List.getElem?_set_self hj]
  · rw [hothers i hi, List.getElem?_set_ne (Ne.symm hi)]

namespace DifferAt

variable {j : Nat} {x y : List UBit} (h : DifferAt j x y)

include h

theorem length_eq : y.length = x.length := by rw [h.2, List.length_set]

theorem getElem?_eq : y[j]? = some (!x.getD j false) := by rw [h.2, List.getElem?_set_self h.1]

theorem getElem?_of_ne {i : Nat} (hi : i ≠ j) : y[i]? = x[i]? := by
  rw [h.2, List.getElem?_set_ne (Ne.symm hi)]

theorem getD_of_ne {i : Nat} (hi : i ≠ j) : y.getD i false = x.getD i false := by
  rw [List.getD_eq_getElem?_getD, h.getElem?_of_ne hi, List.getD_eq_getElem?_getD]

theorem take {n : Nat} (hj : j < n) : DifferAt j (x.take n) (y.take n) := by
  have hlen : j < (x.take n).length := by
    rw [List.length_take]
    exact lt_min hj h.1
  refine ⟨hlen, ?_⟩
  rw [h.2, List.take_set, List.getD_eq_getElem?_getD, List.getD_eq_getElem?_getD, List.getElem?_take_of_lt hj]

theorem take_eq_of_le {n : Nat} (hj : n ≤ j) : y.take n = x.take n := by
  rw [h.2, List.take_set_of_le hj]

theorem drop_eq_of_lt {n : Nat} (hj : j < n) : y.drop n = x.drop n := by
  rw [h.2, List.drop_set_of_lt hj]

/-- The old parity is not that of the flipped message. -/
theorem crcChk_eq_false (c : CrcSel) : crcChk c y (crcGen c x) = false :=
  (crcChk_eq_false_iff c _ _).2 (h.crcGen_ne c)

end DifferAt

/-! ### The control-channel stages (R181) -/

section Control

variable {d d' : List UBit} {j : Nat} (hd : d.length = 184) (hdiff : DifferAt j d d')

include hd hdiff

theorem flipped_control_lengths : d'.length + (crcGen .fire40 d).length = 224 := by
  rw [hdiff.length_eq, hd, crcGen_length, crcWidth]

theorem flipped_control_coded_length :
    (convEnc xcchCode (infoWord d' (crcGen .fire40 d))).length = 456 := by
  rw [infoWord_coded_length, flipped_control_lengths hd hdiff]

theorem ControlDecoded.of_flipped {P : Params} {s t : State}
    (h : ControlDecoded P s t (softAll (convEnc xcchCode (infoWord d' (crcGen .fire40 d))))) :
    t.stat = Stat.error .badBlock 0 ∧ t.mem.pdu = s.mem.pdu := by
  have hd' : d'.length = 184 := hdiff.length_eq.trans hd
  obtain ⟨hu, -⟩ := Decoded.of_infoWord (flipped_control_lengths hd hdiff) h.word
  have hpar : t.par = crcGen .fire40 d := by
    rw [h.parity, hu, List.drop_left' hd']
    exact List.take_of_length_le (crcGen_length .fire40 d).le
  have hverdict := h.verdict
  rw [hu, hpar, List.take_left' hd'] at hverdict
  exact hverdict.bad (hdiff.crcChk_eq_false .fire40)

theorem xcchDec_flipped {h : List UBit} {s : State}
    (hs : s.softE = softAll (blockBursts .x4 (convEnc xcchCode (infoWord d' (crcGen .fire40 d))) h)) :
    ∃ t, exec .xcchDec s = .next t ∧ t.stat = Stat.error .badBlock 0 ∧ t.mem.pdu = s.mem.pdu := by
  have hlen : s.mem.es.len = 464 := by
    rw [softE_len_of_eq hs, softAll_length, blockBursts_length]
    rfl
  obtain ⟨t, hexec, -, -, hdecoded, -⟩ := xcchDec_any hlen
  rw [hs, softCoded_clean .x4 (flipped_control_coded_length hd hdiff)] at hdecoded
  exact ⟨t, hexec, hdecoded.of_flipped hd hdiff⟩

end Control

/-! ### Random access and synchronisation (R187, R194) -/

theorem rachDec_flipped {d d' : List UBit} {j : Nat} {bsic : BitVec 6} {s : State} (hd : d.length = 8)
    (hdiff : DifferAt j d d')
    (hs : s.softC = softAll (convEnc xcchCode (infoWord d' (xorBsic bsic (crcGen .crc6 d))))) :
    ∃ t, exec (.rachDec bsic) s = .next t ∧ t.stat = Stat.error .badBlock 3 ∧
      t.mem.pdu = s.mem.pdu := by
  have hd' : d'.length = 8 := hdiff.length_eq.trans hd
  have hp := xorBsic_length bsic (crcGen .crc6 d)
  have hkd : d'.length + (xorBsic bsic (crcGen .crc6 d)).length = 14 := by rw [hd', hp]
  have hlen : s.mem.cs.len = 36 := by
    rw [← State.softC_length, hs, softAll_length, infoWord_coded_length, hkd]
  obtain ⟨t, hexec, hdecoded, hpar, hverdict, -⟩ := rachDec_any bsic hlen
  rw [hs] at hdecoded
  obtain ⟨hu, -⟩ := Decoded.of_infoWord hkd hdecoded
  rw [hpar, hu, List.take_left' hd', slice_append_end hd' hp,
    (xorBsic_xorBsic_eq_iff (crcGen_length .crc6 d)).2 rfl] at hverdict
  exact ⟨t, hexec, hverdict.bad (hdiff.crcChk_eq_false .crc6)⟩

theorem schDec_flipped {d d' : List UBit} {j : Nat} {s : State} (hd : d.length = 25)
    (hdiff : DifferAt j d d')
    (hs : s.softC = softAll (convEnc xcchCode (infoWord d' (crcGen .crc10 d)))) :
    ∃ t, exec .schDec s = .next t ∧ t.stat = Stat.error .badBlock 2 ∧ t.mem.pdu = s.mem.pdu := by
  have hd' : d'.length = 25 := hdiff.length_eq.trans hd
  have hp : (crcGen .crc10 d).length = 10 := crcGen_length _ _
  have hkd : d'.length + (crcGen .crc10 d).length = 35 := by rw [hd', hp]
  have hlen : s.mem.cs.len = 78 := by
    rw [← State.softC_length, hs, softAll_length, infoWord_coded_length, hkd]
  obtain ⟨t, hexec, hdecoded, hpar, hverdict, -⟩ := schDec_any hlen
  rw [hs] at hdecoded
  obtain ⟨hu, -⟩ := Decoded.of_infoWord hkd hdecoded
  rw [hpar, hu, List.take_left' hd', List.drop_left' hd', List.take_of_length_le hp.le] at hverdict
  exact ⟨t, hexec, hverdict.bad (hdiff.crcChk_eq_false .crc10)⟩

/-! ### Packet data (R200 to R210) -/

/-- The flags of a block with a scheme's header give the scheme. -/
theorem matchSoft_header {scheme : Scheme} {c : List UBit} {s : State}
    (hs : s.softE = softAll (blockBursts .x4 c scheme.header)) :
    s.mem.es.len = 464 ∧ matchSoft tCs (unmapFlags 4 s.softE) = (scheme.num - 1, 0) := by
  have hflags : unmapFlags 4 s.softE = softAll scheme.header := by
    rw [hs]
    exact unmapFlags_clean .x4 _ (Scheme.header_length scheme)
  constructor
  · rw [softE_len_of_eq hs, softAll_length, blockBursts_length]
    rfl
  · rw [hflags]
    exact matchSoft_row (w := 8) (by decide) (by decide) scheme.header_getElem?

theorem pdtchDec_flipped_scheme1 {d d' : List UBit} {j : Nat} {s : State} (hd : d.length = 184)
    (hdiff : DifferAt j d d')
    (hs : s.softE = softAll (blockBursts .x4 (convEnc xcchCode (infoWord d' (crcGen .fire40 d)))
      Scheme.cs1.header)) :
    ∃ t, exec .pdtchDec s = .next t ∧ t.stat = Stat.error .badBlock 0 ∧ t.res.cs = 1 ∧
      t.res.usf = 0 ∧ t.mem.pdu = s.mem.pdu := by
  obtain ⟨hes, hheader⟩ := matchSoft_header hs
  obtain ⟨t, hexec, hblock, -, hdecoded, husf⟩ := pdtchDec_scheme1 hes hheader
  rw [hs, softCoded_clean .x4 (flipped_control_coded_length hd hdiff)] at hdecoded
  obtain ⟨hstat, hpdu⟩ := hdecoded.of_flipped hd hdiff
  rw [hstat, if_neg (Stat.error_badBlock_ne_ok 0)] at husf
  exact ⟨t, hexec, hstat, hblock.cs, husf, hpdu⟩

/-- The information of schemes 2 to 4 with the flag `usf`, the payload `d` and the parity `p`: for the
parity of the payload it is `packetInfo`. -/
def flaggedInfo (scheme : Scheme) (usf : BitVec 3) (d p : List UBit) : List UBit :=
  scheme.flagTable.getD usf.toNat [] ++ (d.drop 3 ++ p)

theorem flaggedInfo_packetBits (scheme : Scheme) (pdu : List Byte) :
    flaggedInfo scheme (usfOf pdu) (packetBits scheme pdu) (crcGen .crc16 (packetBits scheme pdu)) =
      packetInfo scheme pdu := by
  rw [flaggedInfo, packetInfo, List.append_assoc]

section Flagged

variable {scheme : Scheme} (hx : scheme ≠ .cs1) {usf : BitVec 3} {d p : List UBit}

include hx

theorem flaggedInfo_length (hd : d.length = scheme.np) (hp : p.length = 16) :
    (flaggedInfo scheme usf d p).length = scheme.offset + scheme.np + 16 := by
  have hnp : 3 ≤ scheme.np := by cases scheme <;> decide
  simp only [flaggedInfo, List.length_append, List.length_drop, Scheme.flagPattern_length hx, hd, hp]
  omega

variable {s t : State} (h : PacketFinished s t scheme (flaggedInfo scheme usf d p))

include h

theorem PacketFinished.usf_eq : t.res.usf = usf := by
  obtain ⟨dist, hnearest⟩ := h.flag
  rw [flaggedInfo, List.take_left' (Scheme.flagPattern_length hx usf)] at hnearest
  have hzero := hnearest.eq_of_row scheme.flagTable_nodup (Scheme.flagTable_getElem? hx usf)
    ((hardDist_eq_zero_iff rfl).2 rfl) fun p hp hp0 =>
      (hardDist_eq_zero_iff ((Scheme.flagTable_entry_length hx p hp).trans
        (Scheme.flagPattern_length hx usf).symm)).1 hp0
  exact BitVec.eq_of_toNat_eq (congrArg Prod.fst hzero)

/-- The restored word behind the offset: payload and parity. -/
theorem PacketFinished.drop_offset_eq
    (hflag : d.take 3 = [usf.getLsbD 0, usf.getLsbD 1, usf.getLsbD 2]) :
    t.u.drop scheme.offset = d ++ p := by
  have hpattern := Scheme.flagPattern_length hx usf
  have hplain : (d.take 3).length = 3 := by rw [hflag]; rfl
  have hsplit : d ++ p = d.take 3 ++ (d.drop 3 ++ p) := by
    rw [← List.append_assoc, List.take_append_drop]
  refine List.ext_getElem? fun k => ?_
  rw [List.getElem?_drop, h.restored, h.usf_eq hx, hsplit]
  by_cases hk : k < 3
  · rw [if_pos (by omega), Nat.add_sub_cancel_left, List.getElem?_append_left (by omega), hflag]
    interval_cases k <;> rfl
  · rw [if_neg (by omega), flaggedInfo, List.getElem?_append_right (by omega), hpattern,
      Nat.add_sub_add_left, List.getElem?_append_right (l₁ := d.take 3) (by omega), hplain]

end Flagged

theorem PacketFinished.of_flipped {scheme : Scheme} (hx : scheme ≠ .cs1) {usf : BitVec 3}
    {d d' : List UBit} {j : Nat} (hd : d.length = scheme.np) (hdiff : DifferAt j d d') (hj : 3 ≤ j)
    (hflag : d.take 3 = [usf.getLsbD 0, usf.getLsbD 1, usf.getLsbD 2]) {s t : State}
    (h : PacketFinished s t scheme (flaggedInfo scheme usf d' (crcGen .crc16 d))) :
    t.stat = Stat.error .badBlock 1 ∧ t.res.usf = usf ∧ t.mem.pdu = s.mem.pdu := by
  have hd' : d'.length = scheme.np := hdiff.length_eq.trans hd
  have hdrop := h.drop_offset_eq hx ((hdiff.take_eq_of_le hj).trans hflag)
  have hpar : t.par = crcGen .crc16 d := by
    rw [h.parity, ← List.drop_drop, hdrop, List.drop_left' hd']
    exact List.take_of_length_le (crcGen_length .crc16 d).le
  have hverdict := h.verdict
  rw [hpar, hdrop, List.take_left' hd'] at hverdict
  obtain ⟨hstat, hpdu⟩ := hverdict.bad (hdiff.crcChk_eq_false .crc16)
  exact ⟨hstat, h.usf_eq hx, hpdu⟩

/-- A clean block of a scheme that punctures, whatever its information. -/
theorem pdtchDec_punctured_word {scheme : Scheme} {mask : Mask} (hx : scheme.PuncturedBy mask)
    {v : List UBit} (hv : v.length = scheme.np + 19) {s : State}
    (hs : s.softE = softAll (blockBursts .x4
      (punct mask (convEnc xcchCode (v ++ List.replicate 4 false))) scheme.header)) :
    ∃ t, exec .pdtchDec s = .next t ∧ State.PacketBlock s t scheme 0 ∧ PacketFinished s t scheme v := by
  rw [← hx.candidateWord_eq hv] at hs
  have hok := hx.decodeLenOk_eq
  have hcoded : (punct mask (candidateWord xcchCode mask.full v)).length = 456 := by
    rw [punct_length mask _ (candidateWord_length hok hv), hx.kept]
  obtain ⟨hes, hheader⟩ := matchSoft_header hs
  obtain ⟨t, u, hexec, hblock, -, hdecoded, hfinished⟩ := pdtchDec_punctured hx hes hheader
  rw [hs, softCoded_clean .x4 hcoded] at hdecoded
  have hu : u = v := hdecoded.word.trans
    (convDec_punctured hok hv (fun _ hu => hx.punct_injective hu hv) _)
  exact ⟨t, hexec, hblock, hu ▸ hfinished⟩

/-- A clean block of scheme 4, whatever its information. -/
theorem pdtchDec_plain_word {v : List UBit} (hv : v.length = 456) {s : State}
    (hs : s.softE = softAll (blockBursts .x4 v Scheme.cs4.header)) :
    ∃ t, exec .pdtchDec s = .next t ∧ State.PacketBlock s t .cs4 0 ∧ PacketFinished s t .cs4 v := by
  obtain ⟨hes, hheader⟩ := matchSoft_header hs
  obtain ⟨t, hexec, hblock, -, -, -, hfinished⟩ := pdtchDec_plain hes hheader
  rw [hs, softCoded_clean .x4 hv, softAll_map_hard] at hfinished
  exact ⟨t, hexec, hblock, hfinished⟩

/-- A clean block of schemes 2 to 4, whatever its information. -/
theorem pdtchDec_word {scheme : Scheme} (hx : scheme ≠ .cs1) {v u c : List UBit}
    (hv : v.length = scheme.offset + scheme.np + 16) (hu : u = v ++ List.replicate scheme.tail false)
    (h2 : scheme = .cs2 → c = punct cs2Mask (convEnc xcchCode u))
    (h3 : scheme = .cs3 → c = punct cs3Mask (convEnc xcchCode u)) (h4 : scheme = .cs4 → c = u)
    {s : State} (hs : s.softE = softAll (blockBursts .x4 c scheme.header)) :
    ∃ t, exec .pdtchDec s = .next t ∧ State.PacketBlock s t scheme 0 ∧ PacketFinished s t scheme v := by
  subst hu
  cases scheme with
  | cs1 => exact absurd rfl hx
  | cs2 =>
    rw [h2 rfl] at hs
    exact pdtchDec_punctured_word (.inl ⟨rfl, rfl⟩) hv hs
  | cs3 =>
    rw [h3 rfl] at hs
    exact pdtchDec_punctured_word (.inr ⟨rfl, rfl⟩) hv hs
  | cs4 =>
    rw [h4 rfl, Scheme.tail, List.replicate_zero, List.append_nil] at hs
    exact pdtchDec_plain_word hv hs

/-! ### Full-rate speech (R228 to R230) -/

theorem traffic_clean_flags {c : List UBit} {b : Bool} {s : State}
    (hs : s.softE = softAll (blockBursts .t8 c (tchFlags b))) :
    s.mem.es.len = 928 ∧ stolen (unmapFlags 8 s.softE) = b := by
  have hclean : unmapFlags 8 s.softE = softAll (tchFlags b) := by
    rw [hs]
    exact unmapFlags_clean .t8 _ rfl
  constructor
  · rw [softE_len_of_eq hs, softAll_length, blockBursts_length]
    rfl
  · rw [hclean, tchFlags_stolen]

/-- A clean speech block of any 260 bits and any parity. -/
theorem tchfrDec_coded {speech : Efr} {d p : List UBit} (hd : d.length = 260) (hp : p.length = 3)
    {s : State} (hs : s.softE = softAll (blockBursts .t8 (speechCoded d p) (tchFlags false))) :
    ∃ t, exec (.tchfrDec speech) s = .next t ∧ t.res.steal = false ∧ t.par = p ∧
      SpeechDecoded Config.inst s t speech (softAll (speechCoded d p)) d := by
  obtain ⟨hes, hflags⟩ := traffic_clean_flags hs
  obtain ⟨t, hexec, hblock, hdecoded⟩ := tchfrDec_speech hes speech hflags
  rw [hs, softCoded_clean .t8 (speechCoded_length hd hp)] at hdecoded
  obtain ⟨hframe, hpar, -⟩ := hdecoded.frame_of_clean hd hp
  rw [hframe] at hdecoded
  exact ⟨t, hexec, by rw [hblock.res], hpar, hdecoded⟩

/-- A flipped bit of the first 50, under the 3-bit checksum. -/
theorem tchfrDec_flipped_class1 {speech : Efr} {d d' : List UBit} {j : Nat} {s : State}
    (hd : d.length = 260) (hdiff : DifferAt j d d') (hj : j < 50)
    (hs : s.softE = softAll (blockBursts .t8 (speechCoded d' (crcGen .crc3 (d.take 50)))
      (tchFlags false))) :
    ∃ t, exec (.tchfrDec speech) s = .next t ∧ t.stat = Stat.error .badBlock 4 ∧
      t.res.steal = false ∧ t.mem.pdu = s.mem.pdu := by
  obtain ⟨t, hexec, hsteal, hpar, hdecoded⟩ :=
    tchfrDec_coded (hdiff.length_eq.trans hd) (crcGen_length .crc3 _) hs
  obtain ⟨hstat, hpdu⟩ := hdecoded.bad (by rw [hpar]; exact (hdiff.take hj).crcChk_eq_false .crc3)
  exact ⟨t, hexec, hstat, hsteal, hpdu⟩

/-! ### The 8-bit checksum of enhanced full rate (R225, R228) -/

theorem pick_getElem? {x : List UBit} {idx : List Nat} {i k : Nat} (h : idx[i]? = some k) :
    (pick x idx)[i]? = some (x.getD k false) := by
  rw [pick, List.getElem?_map, h, Option.map_some]

theorem pick_getD {x : List UBit} {idx : List Nat} {i k : Nat} (h : idx[i]? = some k) :
    (pick x idx).getD i false = x.getD k false := by
  rw [List.getD_eq_getElem?_getD, pick_getElem? h, Option.getD_some]

theorem ne_of_getElem?_of_ne {idx : List Nat} (hnodup : idx.Nodup) {i m k k' : Nat}
    (hi : idx[i]? = some k) (hm : idx[m]? = some k') (hne : m ≠ i) : k' ≠ k := by
  rintro rfl
  exact hne ((List.getElem?_inj (List.getElem?_eq_some_iff.1 hm).1 hnodup).1 (hm.trans hi.symm))

/-- A position that is listed once is read in one place. -/
theorem DifferAt.pick {x y : List UBit} {idx : List Nat} {i k : Nat} (h : DifferAt k x y)
    (hnodup : idx.Nodup) (hi : idx[i]? = some k) : DifferAt i (pick x idx) (pick y idx) := by
  obtain ⟨hlt, -⟩ := List.getElem?_eq_some_iff.1 hi
  refine differAt_of_getElem? (by rwa [pick_length]) ?_ fun m hm => ?_
  · rw [pick_getElem? hi, pick_getD hi, List.getD_eq_getElem?_getD, h.getElem?_eq, Option.getD_some]
  · cases hmk : idx[m]? with
    | none =>
      have hge := List.getElem?_eq_none_iff.1 hmk
      rw [List.getElem?_eq_none (by rwa [pick_length]), List.getElem?_eq_none (by rwa [pick_length])]
    | some k' =>
      rw [pick_getElem? hmk, pick_getElem? hmk, h.getD_of_ne (ne_of_getElem?_of_ne hnodup hi hmk hm)]

/-- What a permutation reads wrong in one place is wrong at one position. -/
theorem DifferAt.of_pick {n j k : Nat} {idx : List Nat} {x w d : List UBit}
    (h : DifferAt j (Machine.pick x idx) d) (hperm : idx.Perm (List.range n)) (hx : x.length = n)
    (hw : w.length = n) (hj : idx[j]? = some k) (hback : ∀ i m : Nat, idx[i]? = some m → w[m]? = d[i]?) :
    DifferAt k x w := by
  have hnodup : idx.Nodup := hperm.nodup_iff.2 List.nodup_range
  have hk : k < n := List.mem_range.1 (hperm.mem_iff.1 (List.mem_of_getElem? hj))
  refine differAt_of_getElem? (hx ▸ hk) ?_ fun m hm => ?_
  · rw [hback j k hj, h.getElem?_eq, pick_getD hj]
  · by_cases hlt : m < n
    · obtain ⟨i, hi⟩ := List.mem_iff_getElem?.1 (hperm.mem_iff.2 (List.mem_range.2 hlt))
      have hij : i ≠ j := by
        rintro rfl
        exact hm (Option.some.inj (hi.symm.trans hj))
      rw [hback i m hi, h.getElem?_of_ne hij, pick_getElem? hi, List.getD_eq_getElem _ _ (hx ▸ hlt),
        List.getElem?_eq_getElem (hx ▸ hlt)]
    · rw [List.getElem?_eq_none (by omega), List.getElem?_eq_none (by omega)]

section Vote

variable {P : Params} (hP : P.WF) {b w b' : List UBit} {k : Nat} (hb : b.length = 244)
  (hw : DifferAt k (efrExpand P b) w) (hk : k < 244) (hrep : k ∉ P.efrMap.rep) (hb' : b'.length = 244)
  (hothers : ∀ j, j < 244 → j ∉ P.efrMap.rep → b'[j]? = w[j]?)
  (hvoted : ∀ r j : Nat, P.efrMap.rep[r]? = some j → b'[j]? = some (voteBit w j r))

include hP hb hw hk hrep hb' hothers hvoted

/-- The vote passes a wrong bit on that is sent once, and its verdict on the others is as before. -/
theorem DifferAt.of_vote : DifferAt k b b' := by
  have hexpand {i : Nat} (hi : i < 244) : (efrExpand P b).getD i false = b.getD i false := by
    rw [List.getD_eq_getElem?_getD, efrExpand_getElem? hb hi, List.getD_eq_getElem?_getD]
  refine differAt_of_getElem? (hb ▸ hk) ?_ fun i hi => ?_
  · rw [hothers k hk hrep, hw.getElem?_eq, hexpand hk]
  · by_cases hlt : i < 244
    · by_cases hmem : i ∈ P.efrMap.rep
      · obtain ⟨r, hr⟩ := List.mem_iff_getElem?.1 hmem
        obtain ⟨hfirst, hsecond⟩ := efrExpand_copies hP hb hr
        have hvote : voteBit w i r = b.getD i false := by
          refine voteBit_of_agree ?_ ?_ ?_
          · rw [hw.getD_of_ne hi, hexpand hlt]
          · rw [hw.getD_of_ne (by omega), hfirst]
          · rw [hw.getD_of_ne (by omega), hsecond]
        rw [hvoted r i hr, hvote, List.getD_eq_getElem _ _ (hb ▸ hlt),
          List.getElem?_eq_getElem (hb ▸ hlt)]
      · rw [hothers i hlt hmem, hw.getElem?_of_ne hi, efrExpand_getElem? hb hlt]
    · rw [List.getElem?_eq_none (by omega), List.getElem?_eq_none (by omega)]

end Vote

/-- A flipped bit that the 8-bit checksum covers alone. -/
theorem SpeechDecoded.of_flipped_protected {P : Params} (hP : P.WF) {s t : State} {cs : List SBit}
    {pdu : List Byte} {d' : List UBit} {j k : Nat} (hdiff : DifferAt j (speechBits P .efr pdu) d')
    (hj : 50 ≤ j) (hk : P.efrMap.order[j]? = some k) (hprot : k ∈ P.efrMap.prot)
    (hrep : k ∉ P.efrMap.rep) (hpar : t.par = crcGen .crc3 ((speechBits P .efr pdu).take 50))
    (h : SpeechDecoded P s t .efr cs d') :
    t.stat = Stat.error .badBlock 5 ∧ t.mem.pdu = s.mem.pdu := by
  obtain ⟨-, -, hlt, -, hnodup, -, hperm⟩ := P.efrMap.wf_iff.1 hP.efrMap
  have hbits : ((unpackMsb pdu 248).drop 4).length = 244 := by rw [List.length_drop, unpackMsb_length]
  have hclass1 : crcChk .crc3 (d'.take 50) t.par = true := by
    rw [hpar, hdiff.take_eq_of_le hj]
    exact (crcChk_eq_true_iff _ _ _).2 rfl
  obtain ⟨w, b, hw, horder, hb, hothers, hvoted, hverdict⟩ := h.efr hclass1 rfl
  have hk244 := hlt k hprot
  have hword : DifferAt k (efrExpand P ((unpackMsb pdu 248).drop 4)) w :=
    DifferAt.of_pick hdiff hperm (efrExpand_length hP hbits) hw hk horder
  have hcodec := DifferAt.of_vote hP hbits hword hk244 hrep hb hothers hvoted
  obtain ⟨i, hi⟩ := List.mem_iff_getElem?.1 hprot
  rw [hword.drop_eq_of_lt (by omega), efrExpand_parity hP hbits] at hverdict
  exact hverdict.bad ((hcodec.pick hnodup hi).crcChk_eq_false .crc8)

theorem tchfrDec_flipped_protected {pdu : List Byte} {d' : List UBit} {j k : Nat} {s : State}
    (hdiff : DifferAt j (speechBits Config.inst .efr pdu) d') (hj : 50 ≤ j)
    (hk : Config.inst.efrMap.order[j]? = some k) (hprot : k ∈ Config.inst.efrMap.prot)
    (hrep : k ∉ Config.inst.efrMap.rep)
    (hs : s.softE = softAll (blockBursts .t8
      (speechCoded d' (crcGen .crc3 ((speechBits Config.inst .efr pdu).take 50))) (tchFlags false))) :
    ∃ t, exec (.tchfrDec .efr) s = .next t ∧ t.stat = Stat.error .badBlock 5 ∧
      t.res.steal = false ∧ t.mem.pdu = s.mem.pdu := by
  have hd' : d'.length = 260 := hdiff.length_eq.trans (speechBits_length Config.model.wf .efr pdu)
  obtain ⟨t, hexec, hsteal, hpar, hdecoded⟩ :=
    tchfrDec_coded (speech := .efr) hd' (crcGen_length .crc3 _) hs
  obtain ⟨hstat, hpdu⟩ :=
    hdecoded.of_flipped_protected Config.model.wf hdiff hj hk hprot hrep hpar
  exact ⟨t, hexec, hstat, hsteal, hpdu⟩

/-! ### AMR speech (R241 to R243) -/

section Amr

variable {P : Params} {phase : Phase} {m idx : BitVec 3} {s : State}

/-- A clean AMR block of any word of the mode's length. -/
theorem tchafsDec_word {u c : List UBit} (hP : P.WF) (hu : u.length = (afsMode m).bits + 6)
    (hidx : idx.toNat < nIc P)
    (hc : c = P.afsIc.rows.getD idx.toNat [] ++ afsEncode (afsCodeOf P m).1 (afsCodeOf P m).2 u)
    (hs : s.softE = softAll (blockBursts .t8 c (tchFlags false)))
    (hm : afsHeldMode phase s.wamr idx.toNat = m) (hlist : idx.toNat < s.wamr.n.toNat)
    (hft : s.wamr.ft.toNat < s.wamr.n.toNat) (hfits : (afsSoft P m (softAll c)).length ≤ 1024) :
    ∃ t, execIn P (.tchafsDec phase) s = .next t ∧ t.res.steal = false ∧
      t.res.idx = BitVec.ofNat 8 idx.toNat ∧ t.u = u ∧
      AfsDecoded P s t phase m idx (afsSoft P m (softAll c)) := by
  obtain ⟨⟨-, hw, -⟩, hrows, hnodup⟩ := P.afsIc.wf_iff.1 hP.afsIc
  have hrow := afs_row_length hP hidx
  have hcoded : c.length = 456 := by
    have hle : wIc P ≤ 16 := hw
    rw [hc, List.length_append, hrow, afsEncode_length hP hu]
    omega
  obtain ⟨hes, hflags⟩ := traffic_clean_flags hs
  have hsoft : softCoded .t8 s.softE = softAll c := by rw [hs, softCoded_clean .t8 hcoded]
  have hind : matchSoft P.afsIc.rows ((softCoded .t8 s.softE).take (wIc P)) = (idx.toNat, 0) := by
    rw [hsoft, hc, softAll_append, List.take_left' (by rw [softAll_length, hrow])]
    refine matchSoft_row hrows hnodup ?_
    rw [List.getD_eq_getElem _ _ hidx]
    exact List.getElem?_eq_getElem hidx
  obtain ⟨t, hexec, -, -, hdecoded, hframe⟩ :=
    tchafsDec_speech hes hflags hind hm rfl hlist (fun _ => hft) (by rwa [hsoft])
  rw [hsoft] at hdecoded
  obtain ⟨hdec, -⟩ := afs_codeword hP (m := m) hu hrow (soft := afsSoft P m (softAll c)) (by rw [hc])
  exact ⟨t, hexec, by rw [hframe], by rw [hframe], hdecoded.word.word.trans hdec, hdecoded⟩

variable {d d' : List UBit} {j : Nat} (hd : d.length = (afsMode m).bits) (hdiff : DifferAt j d d')
  (hj : j < (afsMode m).n1a)

include hd hdiff

theorem afs_flipped_word_length : (d'.take (afsMode m).n1a ++ crcGen .crc6 (d.take (afsMode m).n1a) ++
    d'.drop (afsMode m).n1a).length = (afsMode m).bits + 6 := by
  have hn1a := afsMode_n1a_le m
  simp only [List.length_append, List.length_take, List.length_drop, hdiff.length_eq, hd, crcGen_length,
    crcWidth]
  omega

include hj

theorem AfsDecoded.of_flipped {t : State} {soft : List SBit}
    (h : AfsDecoded P s t phase m idx soft) (hu : t.u = d'.take (afsMode m).n1a ++
      crcGen .crc6 (d.take (afsMode m).n1a) ++ d'.drop (afsMode m).n1a) :
    t.stat = Stat.error .badBlock 3 ∧ t.mem.pdu = s.mem.pdu := by
  have hn1a := afsMode_n1a_le m
  have hprot : (d'.take (afsMode m).n1a).length = (afsMode m).n1a := by
    rw [List.length_take, hdiff.length_eq]
    omega
  have htake : t.u.take (afsMode m).n1a = d'.take (afsMode m).n1a := by
    rw [hu, List.append_assoc, List.take_left' hprot]
  have hpar : t.par = crcGen .crc6 (d.take (afsMode m).n1a) := by
    rw [h.parity, hu, List.append_assoc, List.drop_left' hprot]
    exact List.take_left' (crcGen_length .crc6 _)
  exact h.verdict.bad (by rw [htake, hpar]; exact (hdiff.take hj).crcChk_eq_false .crc6)

end Amr

end Sys2Proof.Machine

namespace Sys2Proof.Proofs

open Sys2Proof.Machine

/-- Settles O30: the decoders give the flipped payload back, and its parity differs from the one that was
sent. -/
theorem flippedPayloadRejected : Obligations.FlippedPayloadRejected := by
  unfold Obligations.FlippedPayloadRejected
  refine ⟨fun d d' h j s hd _ hdiff hs => xcchDec_flipped hd hdiff hs,
    fun d d' j bsic s hd hdiff hs => rachDec_flipped hd hdiff hs,
    fun d d' j s hd hdiff hs => schDec_flipped hd hdiff hs,
    fun d d' j s hd hdiff hs => pdtchDec_flipped_scheme1 hd hdiff hs, ?packet,
    fun speech d d' j s hd hdiff hj hs => tchfrDec_flipped_class1 hd hdiff hj hs,
    fun pdu d' j k s _ hdiff hj hk hprot hrep hs =>
      tchfrDec_flipped_protected hdiff hj hk hprot hrep hs, ?amr⟩
  case packet =>
    intro scheme d d' c u usf j s hx hd hdiff hj hflag hu h2 h3 h4 hs
    have hlen := flaggedInfo_length hx (usf := usf) (hdiff.length_eq.trans hd) (crcGen_length .crc16 d)
    obtain ⟨t, hexec, hblock, hfinished⟩ :=
      pdtchDec_word hx hlen (by rw [hu, flaggedInfo]; simp only [List.append_assoc]) h2 h3 h4 hs
    obtain ⟨hstat, husf, hpdu⟩ := hfinished.of_flipped hx hd hdiff hj hflag
    exact ⟨t, hexec, hstat, hblock.cs, husf, hpdu⟩
  case amr =>
    intro P phase m idx d d' c j s hP hidx hft hlist hm hd hdiff hj hc hfits hs
    have hheld : afsHeldMode phase s.wamr idx.toNat = m := by cases phase <;> exact hm.symm
    obtain ⟨t, hexec, hsteal, htidx, hu, hdecoded⟩ := tchafsDec_word hP
      (afs_flipped_word_length hd hdiff) hidx hc hs hheld hlist hft hfits
    obtain ⟨hstat, hpdu⟩ := hdecoded.of_flipped hd hdiff hj hu
    exact ⟨t, hexec, fun hinst => by rw [exec_eq_execIn, ← hinst, hexec], hstat, hsteal, htidx, hpdu⟩

end Sys2Proof.Proofs
end

