-- ==== Sys2Proof/Proofs/PacketEncoder.lean ====
section
/-! `PDTCH.ENC` (45_codec_pdtch.md R201 to R206): the buffers of `codePacket`, one equation for each way the
command ends, and what it leaves. -/

namespace Sys2Proof.Machine

/-! ### The coding stages by scheme (R204 to R206) -/

section CodePacket

variable (s : State) (pdu : List Byte) {x : Scheme}

@[simp] theorem State.codePacket_c (x : Scheme) : (s.codePacket x pdu).c = packetCoded x pdu := by
  cases x with
  | cs1 => exact s.codeBlock_c _ _
  | cs2 | cs3 | cs4 => exact State.setC_c _ _

theorem State.buffers_encodesTo (u p c : List UBit) : s.EncodesTo (((s.setU u).setPar p).setC c) := rfl

/-- Scheme 1 is the control channel's code. -/
theorem State.codePacket_scheme1_par :
    (s.codePacket .cs1 pdu).par = crcGen .fire40 (controlBits pdu) := s.codeBlock_par _ _

theorem State.codePacket_scheme1_u : (s.codePacket .cs1 pdu).u =
    infoWord (controlBits pdu) (crcGen .fire40 (controlBits pdu)) := s.codeBlock_u _ _

theorem State.codePacket_eq (hx : x ≠ .cs1) : s.codePacket x pdu =
    ((s.setU (packetWord x pdu)).setPar (crcGen .crc16 (packetBits x pdu))).setC (packetCoded x pdu) := by
  cases x with
  | cs1 => exact absurd rfl hx
  | cs2 | cs3 | cs4 => rfl

theorem State.codePacket_par (hx : x ≠ .cs1) :
    (s.codePacket x pdu).par = crcGen .crc16 (packetBits x pdu) := by
  simp [s.codePacket_eq pdu hx]

theorem State.codePacket_u (hx : x ≠ .cs1) : (s.codePacket x pdu).u = packetWord x pdu := by
  simp [s.codePacket_eq pdu hx]

theorem State.codePacket_encodesTo (x : Scheme) : s.EncodesTo (s.codePacket x pdu) := by
  by_cases hx : x = .cs1
  · rw [hx]
    exact s.codeBlock_encodesTo _ _
  · rw [s.codePacket_eq pdu hx]
    exact s.buffers_encodesTo _ _ _

end CodePacket

/-! ### The ways `PDTCH.ENC` ends -/

/-- Every length that R201 does not list has no scheme. -/
theorem schemeOfLen_eq_none {len : Nat} (h : len ∉ [23, 34, 40, 54]) : schemeOfLen len = none := by
  simp only [List.mem_cons, List.not_mem_nil, or_false, not_or] at h
  obtain ⟨h23, h34, h40, h54⟩ := h
  rw [schemeOfLen, if_neg h23, if_neg h34, if_neg h40, if_neg h54]

section Encoder

variable {s : State}

theorem exec_pdtchEnc {x : Scheme} (h : schemeOfLen s.mem.pdu.len = some x) : exec .pdtchEnc s = .next
    ((((s.setScheme x (usfOf s.pdu)).codePacket x s.pdu).spread .x4 (packetCoded x s.pdu)
      x.header).raise .none 0) :=
  congrArg Cmd.finish (pdtchEncBody_of_scheme h)

theorem exec_pdtchEnc_pduLen (h : s.mem.pdu.len ∉ [23, 34, 40, 54]) :
    exec .pdtchEnc s = .next (s.raise .pduLen s.mem.pdu.len) := by
  have hbody : pdtchEncBody s = .raised .pduLen s.mem.pdu.len s := by
    unfold pdtchEncBody
    rw [schemeOfLen_eq_none h]
  exact congrArg Cmd.finish hbody

/-! ### What `PDTCH.ENC` leaves -/

/-- `t` is `s` after `PDTCH.ENC` by scheme `x`: the coding stages fill `PAR`, `U` and `C`, the shared last
stages `I`, `H` and `E`; nothing else changes but `RES.CS` and `RES.USF`. -/
structure State.PacketEncoded (s t : State) (x : Scheme) : Prop where
  par : t.par = ((s.setScheme x (usfOf s.pdu)).codePacket x s.pdu).par
  u : t.u = ((s.setScheme x (usfOf s.pdu)).codePacket x s.pdu).u
  c : t.c = packetCoded x s.pdu
  i : t.i = interleave .x4 t.c
  h : t.h = x.header
  e : t.e = mapBlock 4 t.i t.h
  stat : t.stat = Stat.ok
  frame : (s.setScheme x (usfOf s.pdu)).EncodesTo t

theorem pdtchEnc_encodes {x : Scheme} (h : schemeOfLen s.mem.pdu.len = some x) :
    ∃ t, exec .pdtchEnc s = .next t ∧ s.PacketEncoded t x := by
  refine ⟨_, exec_pdtchEnc h, ?_⟩
  generalize hv : (s.setScheme x (usfOf s.pdu)).codePacket x s.pdu = v
  have hvc : v.c = packetCoded x s.pdu := hv ▸ State.codePacket_c _ _ _
  have hframe : (s.setScheme x (usfOf s.pdu)).EncodesTo v := hv ▸ State.codePacket_encodesTo _ _ _
  have hi : ((v.spread .x4 (packetCoded x s.pdu) x.header).raise .none 0).i =
      interleave .x4 (packetCoded x s.pdu) := by simp
  have hh : ((v.spread .x4 (packetCoded x s.pdu) x.header).raise .none 0).h = x.header := by simp
  have hc : ((v.spread .x4 (packetCoded x s.pdu) x.header).raise .none 0).c = packetCoded x s.pdu := by
    rw [State.raise_c, State.spread_c, hvc]
  exact
    { par := by rw [State.raise_par, State.spread_par, hv]
      u := by rw [State.raise_u, State.spread_u, hv]
      c := hc
      i := by rw [hi, hc]
      h := hh
      e := by rw [hi, hh, State.raise_e, State.spread_e, blockBursts, nbiOf]
      stat := rfl
      frame := (hframe.trans (State.spread_encodesTo _ _ _ _)).trans (State.raise_encodesTo _ _ _) }

namespace State.PacketEncoded

variable {t : State} {x : Scheme}

theorem scheme1 (h : s.PacketEncoded t .cs1) : t.par = crcGen .fire40 (controlBits s.pdu) ∧
    t.u = infoWord (controlBits s.pdu) t.par ∧ t.c = convEnc xcchCode t.u := by
  have hpar := h.par.trans (State.codePacket_scheme1_par _ _)
  have hu := h.u.trans (State.codePacket_scheme1_u _ _)
  exact ⟨hpar, hpar ▸ hu, hu ▸ h.c⟩

/-- The parity and the info word of schemes 2 to 4. -/
theorem flagged (h : s.PacketEncoded t x) (hx : x ≠ .cs1) : t.par = crcGen .crc16 (packetBits x s.pdu) ∧
    t.u = packetWord x s.pdu ∧ t.u = x.flagTable.getD (usfOf s.pdu).toNat [] ++
      (packetBits x s.pdu).drop 3 ++ t.par ++ List.replicate x.tail false := by
  have hpar := h.par.trans (State.codePacket_par _ _ hx)
  have hu := h.u.trans (State.codePacket_u _ _ hx)
  exact ⟨hpar, hu, hpar ▸ hu⟩

theorem punctured {mask : Mask} (h : s.PacketEncoded t x) (hx : x.PuncturedBy mask) :
    t.par = crcGen .crc16 (packetBits x s.pdu) ∧
    t.u = tUsf6.getD (usfOf s.pdu).toNat [] ++ (packetBits x s.pdu).drop 3 ++ t.par ++
      List.replicate 4 false ∧ t.c = punct mask (convEnc xcchCode t.u) := by
  obtain ⟨rfl, rfl⟩ | ⟨rfl, rfl⟩ := hx
  all_goals
    obtain ⟨hpar, hword, hu⟩ := h.flagged nofun
    exact ⟨hpar, hu, hword ▸ h.c⟩

/-- Scheme 4 has no tail and is not coded. -/
theorem plain (h : s.PacketEncoded t .cs4) : t.par = crcGen .crc16 (packetBits .cs4 s.pdu) ∧
    t.u = tUsf12.getD (usfOf s.pdu).toNat [] ++ (packetBits .cs4 s.pdu).drop 3 ++ t.par ∧
    t.c = t.u := by
  obtain ⟨hpar, hword, hu⟩ := h.flagged nofun
  exact ⟨hpar, hu.trans (List.append_nil _), h.c.trans hword.symm⟩

end State.PacketEncoded

end Encoder

end Sys2Proof.Machine

namespace Sys2Proof.Proofs

open Sys2Proof.Machine

/-- Settles O31: the length picks the scheme, and each scheme fills the buffers from its own info word. -/
theorem pdtchEncResult : Obligations.PdtchEncResult := by
  unfold Obligations.PdtchEncResult
  refine ⟨fun s scheme hscheme => ?_, fun s hlen => exec_pdtchEnc_pduLen hlen⟩
  obtain ⟨t, hexec, h⟩ := pdtchEnc_encodes hscheme
  refine ⟨t, hexec, ?_, ?_, ?_, ?_, h.i, h.h, h.e, h.stat ▸ h.frame⟩
  · rintro rfl
    exact h.scheme1
  · rintro rfl
    exact h.punctured (.inl ⟨rfl, rfl⟩)
  · rintro rfl
    exact h.punctured (.inr ⟨rfl, rfl⟩)
  · rintro rfl
    exact h.plain

end Sys2Proof.Proofs
end

