-- ==== Sys2Proof/Proofs/StolenBlock.lean ====
section
/-! The stolen block in the traffic decoders (46_codec_tch.md R226, R229, R242): the clean block is taken for
stolen, and each decoder's stolen way is the control channel's. -/

namespace Sys2Proof.Machine

section StolenClean

variable {pdu : List Byte} {s : State}
  (hs : s.softE = softAll (blockBursts .t8 (controlCoded pdu) (tchFlags true)))

include hs

theorem stolen_clean_length : s.mem.es.len = 928 := by
  rw [softE_len_of_eq hs, softAll_length, blockBursts_length]
  rfl

theorem stolen_clean_flags : stolen (unmapFlags 8 s.softE) = true := by
  have hflags : unmapFlags 8 s.softE = softAll (tchFlags true) := by
    rw [hs]
    exact unmapFlags_clean .t8 _ rfl
  rw [hflags, tchFlags_stolen]

theorem stolen_clean_coded : softCoded .t8 s.softE = softAll (controlCoded pdu) := by
  rw [hs, softCoded_clean .t8 (controlCoded_length pdu)]

variable (hpdu : pdu.length = 23)

include hpdu

theorem tchfrDec_stolen_clean (speech : Efr) : ∃ t, exec (.tchfrDec speech) s = .next t ∧ t.pdu = pdu ∧
    t = { s with
      mem := { s.mem with
        is := t.mem.is, hs := t.mem.hs, cs := t.mem.cs, u := t.mem.u, par := t.mem.par,
        pdu := t.mem.pdu }
      free := t.free, stat := Stat.ok
      res := { s.res with nerr := 0, nbits := 456, steal := true } } := by
  obtain ⟨t, hexec, hblock, hdecoded⟩ :=
    tchfrDec_stolen (stolen_clean_length hs) speech (stolen_clean_flags hs)
  rw [stolen_clean_coded hs] at hdecoded
  obtain ⟨-, hstat, hpdu', -, hnerr, hnbits⟩ := hdecoded.of_clean hpdu
  have hframe := hblock.decodesTo.frame_of_res hblock.res
  rw [hstat, hnerr, hnbits] at hframe
  exact ⟨t, hexec, hpdu', hframe⟩

/-- Whatever `WAMR` and the phase are: a stolen block has no mode. -/
theorem tchafsDec_stolen_clean (P : Params) (phase : Phase) :
    ∃ t, execIn P (.tchafsDec phase) s = .next t ∧ t.pdu = pdu ∧
    t = { s with
      mem := { s.mem with
        is := t.mem.is, hs := t.mem.hs, cs := t.mem.cs, u := t.mem.u, par := t.mem.par,
        pdu := t.mem.pdu }
      free := t.free, stat := Stat.ok
      res := { s.res with
        nerr := 0, nbits := 456, steal := true, ft := s.wamr.ft, cmr := s.wamr.cmr } } := by
  obtain ⟨t, hexec, -, -, hdecoded, hframe⟩ :=
    tchafsDec_stolen (P := P) (phase := phase) (stolen_clean_length hs) (stolen_clean_flags hs)
  rw [stolen_clean_coded hs] at hdecoded
  obtain ⟨-, hstat, hpdu', -, hnerr, hnbits⟩ := hdecoded.of_clean hpdu
  rw [hstat, hnerr, hnbits] at hframe
  exact ⟨t, hexec, hpdu', hframe⟩

end StolenClean

end Sys2Proof.Machine

namespace Sys2Proof.Proofs

open Sys2Proof.Machine

/-- Settles O36: the flags of a clean stolen block send both decoders the control channel's way. -/
theorem stolenRoundTrip : Obligations.StolenRoundTrip := by
  unfold Obligations.StolenRoundTrip
  refine fun pdu s hpdu hs => ⟨fun speech => tchfrDec_stolen_clean hs hpdu speech, fun phase => ?_⟩
  rw [exec_eq_execIn]
  exact tchafsDec_stolen_clean hs hpdu Config.inst phase

end Sys2Proof.Proofs
end

