-- ==== Sys2Proof/Proofs/TrafficEncoders.lean ====
section
/-! `TCHFR.ENC` and `TCHAFS.ENC` (46_codec_tch.md R222 to R227, R239, R240): one equation for each way a
command ends, and the buffers that the stages of all their blocks leave. -/

namespace Sys2Proof.Machine

/-! ### The stages of a traffic encoder -/

/-- `t` is `s` after a traffic encoder whose stages gave parity `p`, info word `u`, coded bits `c` and the
flag `f`: the shared last stages fill `I`, `H` and `E` (R227, R240), and nothing else changes. -/
structure State.TrafficEncoded (s t : State) (p u c : List UBit) (f : UBit) : Prop where
  par : t.par = p
  u : t.u = u
  c : t.c = c
  i : t.i = interleave .t8 t.c
  h : t.h = tchFlags f
  e : t.e = mapBlock 8 t.i t.h
  frame : t = { s with
    mem := { s.mem with
      u := t.mem.u, par := t.mem.par, c := t.mem.c, i := t.mem.i, h := t.mem.h, e := t.mem.e }
    free := t.free, stat := Stat.ok }

theorem State.codingStages_encodesTo (s : State) (p u c : List UBit) :
    s.EncodesTo (((s.setPar p).setU u).setC c) := rfl

theorem State.trafficEncoded (s : State) (p u c : List UBit) (f : UBit) : s.TrafficEncoded
    (((((s.setPar p).setU u).setC c).spreadTraffic c f).raise .none 0) p u c f := by
  have hpar : (((s.setPar p).setU u).setC c).par = p := by simp
  have hu : (((s.setPar p).setU u).setC c).u = u := by simp
  have hc : (((s.setPar p).setU u).setC c).c = c := by simp
  have hframe := s.codingStages_encodesTo p u c
  generalize ((s.setPar p).setU u).setC c = v at *
  have hi : ((v.spread .t8 c (tchFlags f)).raise .none 0).i = interleave .t8 c := by simp
  have hh : ((v.spread .t8 c (tchFlags f)).raise .none 0).h = tchFlags f := by simp
  exact
    { par := hpar
      u := hu
      c := hc
      i := hi.trans (congrArg _ hc.symm)
      h := hh
      e := by
        rw [State.spreadTraffic, hi, hh, State.raise_e, State.spread_e, blockBursts, nbiOf]
      frame := (hframe.trans (v.spread_encodesTo _ _ _)).trans (State.raise_encodesTo _ _ _) }

/-- The stolen block of every traffic encoder (R226). -/
def State.StolenEncoded (s t : State) : Prop :=
  s.TrafficEncoded t (crcGen .fire40 (controlBits s.pdu))
    (infoWord (controlBits s.pdu) (crcGen .fire40 (controlBits s.pdu))) (controlCoded s.pdu) true

theorem State.codeStolen_encoded (s : State) : s.StolenEncoded ((s.codeStolen s.pdu).raise .none 0) :=
  s.trafficEncoded _ _ _ _

/-- A stolen block by the words of R226. -/
theorem State.StolenEncoded.word {s t : State} (h : s.StolenEncoded t) :
    t.par = crcGen .fire40 (unpackLsb s.pdu 184) ∧
    t.u = unpackLsb s.pdu 184 ++ t.par ++ List.replicate 4 false ∧ t.c = convEnc xcchCode t.u :=
  ⟨h.par, by rw [h.u, h.par, infoWord, controlBits], by rw [h.c, h.u, controlCoded]⟩

/-! ### The ways `TCHFR.ENC` ends (R227) -/

/-- The speech block of the full-rate encoders (R223, R227). -/
def State.SpeechEncoded (P : Params) (s t : State) (speech : Efr) : Prop :=
  s.TrafficEncoded t (crcGen .crc3 ((speechBits P speech s.pdu).take 50))
    (class1Word (speechBits P speech s.pdu) (crcGen .crc3 ((speechBits P speech s.pdu).take 50)))
    (speechCoded (speechBits P speech s.pdu) (crcGen .crc3 ((speechBits P speech s.pdu).take 50))) false

section Tchfr

variable {s : State} (speech : Efr)

/-- The two lengths of R227 exclude each other. -/
theorem speechLen_ne : speechLen speech ≠ 23 := by cases speech <;> decide

theorem tchfrEnc_stolen (h : s.mem.pdu.len = 23) :
    ∃ t, exec (.tchfrEnc speech) s = .next t ∧ s.StolenEncoded t :=
  ⟨_, congrArg Cmd.finish (tchfrEncBody_of_stolen h), s.codeStolen_encoded⟩

theorem tchfrEnc_speech (h : s.mem.pdu.len = speechLen speech) :
    ∃ t, exec (.tchfrEnc speech) s = .next t ∧ State.SpeechEncoded Config.inst s t speech :=
  ⟨_, congrArg Cmd.finish ((if_neg (h ▸ speechLen_ne speech)).trans (if_pos h)),
    s.trafficEncoded _ _ _ _⟩

theorem exec_tchfrEnc_pduLen (h23 : s.mem.pdu.len ≠ 23) (h : s.mem.pdu.len ≠ speechLen speech) :
    exec (.tchfrEnc speech) s = .next (s.raise .pduLen s.mem.pdu.len) :=
  congrArg Cmd.finish ((if_neg h23).trans (if_neg h))

end Tchfr

/-! ### The ways `TCHAFS.ENC` ends (R240) -/

section Afs

variable {P : Params} {phase : Phase} {w : Wamr} {len : Nat}

theorem afsReject_ft (h : w.n.toNat ≤ w.ft.toNat) :
    afsReject P phase w len = some (.modeRange, w.ft.toNat) := if_pos h

variable (hft : w.ft.toNat < w.n.toNat)

include hft

theorem afsReject_index (h : w.n.toNat ≤ (phaseIndex phase w).toNat ∨ nIc P ≤ (phaseIndex phase w).toNat) :
    afsReject P phase w len = some (.modeRange, (phaseIndex phase w).toNat) :=
  (if_neg (Nat.not_le.2 hft)).trans (if_pos h)

theorem afsReject_len (hn : (phaseIndex phase w).toNat < w.n.toNat)
    (hic : (phaseIndex phase w).toNat < nIc P)
    (h : len ≠ (afsMode (listAt w.list w.ft.toNat)).bytes) :
    afsReject P phase w len = some (.pduLen, len) :=
  (if_neg (Nat.not_le.2 hft)).trans <|
    (if_neg (not_or.2 ⟨Nat.not_le.2 hn, Nat.not_le.2 hic⟩)).trans (if_pos h)

end Afs

section Tchafs

variable {phase : Phase} {s : State}

theorem tchafsEnc_stolen (h : s.mem.pdu.len = 23) :
    ∃ t, exec (.tchafsEnc phase) s = .next t ∧ s.StolenEncoded t :=
  ⟨_, congrArg Cmd.finish (tchafsEncBody_of_stolen h), s.codeStolen_encoded⟩

variable (h23 : s.mem.pdu.len ≠ 23)

include h23

theorem exec_tchafsEnc_rejected {e : ErrCode} {info : Nat}
    (h : afsReject Config.inst phase s.wamr s.mem.pdu.len = some (e, info)) :
    exec (.tchafsEnc phase) s = .next (s.raise e info) := by
  have hbody : tchafsEncBody Config.inst phase s = .raised e info s := by
    unfold tchafsEncBody
    rw [if_neg h23, h]
  exact congrArg Cmd.finish hbody

theorem tchafsEnc_speech {m idx : BitVec 3} {d : List UBit} (hidx : idx = phaseIndex phase s.wamr)
    (hm : m = listAt s.wamr.list s.wamr.ft.toNat) (hd : d = unpackMsb s.pdu (afsMode m).bits)
    (h : afsReject Config.inst phase s.wamr s.mem.pdu.len = none) :
    ∃ t, exec (.tchafsEnc phase) s = .next t ∧ s.TrafficEncoded t (crcGen .crc6 (d.take (afsMode m).n1a))
      (afsWord m d) (afsCoded Config.inst m idx.toNat d) false := by
  have hbody : tchafsEncBody Config.inst phase s = .done ((((s.setPar
      (crcGen .crc6 (d.take (afsMode m).n1a))).setU (afsWord m d)).setC
        (afsCoded Config.inst m idx.toNat d)).spreadTraffic (afsCoded Config.inst m idx.toNat d) false) := by
    subst hidx hm hd
    unfold tchafsEncBody
    rw [if_neg h23, h]
  exact ⟨_, congrArg Cmd.finish hbody, s.trafficEncoded _ _ _ _⟩

end Tchafs

end Sys2Proof.Machine

namespace Sys2Proof.Proofs

open Sys2Proof.Machine

/-- Settles O34: the length decides between the stolen block, the speech block and the error. -/
theorem tchfrEncResult : Obligations.TchfrEncResult := by
  unfold Obligations.TchfrEncResult
  refine ⟨fun speech s hlen => ?_, fun speech _ h23 h => exec_tchfrEnc_pduLen speech h23 h⟩
  rcases hlen with h23 | hspeech
  · obtain ⟨t, hexec, h⟩ := tchfrEnc_stolen speech h23
    obtain ⟨hpar, hu, hc⟩ := h.word
    exact ⟨t, hexec, fun _ => ⟨hpar, hu, hc, h.h⟩,
      fun hspeech => absurd (hspeech.symm.trans h23) (speechLen_ne speech), h.i, h.e, h.frame⟩
  · obtain ⟨t, hexec, h⟩ := tchfrEnc_speech speech hspeech
    have hu : t.u = class1Word (speechBits Config.inst speech s.pdu) t.par := h.u.trans (by rw [h.par])
    have hc : t.c = convEnc xcchCode t.u ++ ((speechBits Config.inst speech s.pdu).drop 182).take 78 :=
      h.c.trans (by rw [h.u, speechCoded, slice])
    exact ⟨t, hexec, fun h23 => absurd (hspeech.symm.trans h23) (speechLen_ne speech),
      fun _ => ⟨h.par, hu, hc, h.h⟩, h.i, h.e, h.frame⟩

/-- Settles O37: a stolen block first, then the checks of R240 in their order. -/
theorem tchafsEncResult : Obligations.TchafsEncResult := by
  unfold Obligations.TchafsEncResult
  refine ⟨fun phase s h23 => ?stolen, fun phase s m idx h23 hidx hm => ?speech⟩
  case stolen =>
    obtain ⟨t, hexec, h⟩ := tchafsEnc_stolen h23
    obtain ⟨hpar, hu, hc⟩ := h.word
    exact ⟨t, hexec, hpar, hu, hc, h.i, h.h, h.e, h.frame⟩
  case speech =>
    replace hidx : idx = phaseIndex phase s.wamr := by cases phase <;> exact hidx
    refine ⟨fun hft hn hic hlen => ?_, fun hft => exec_tchafsEnc_rejected h23 (afsReject_ft hft),
      fun hft hout => ?_, fun hft hn hic hlen => ?_⟩
    · obtain ⟨t, hexec, h⟩ := tchafsEnc_speech h23 hidx hm rfl
        ((afsReject_eq_none_iff _ _ _ _).2 ⟨hft, hidx ▸ hn, hidx ▸ hic, hm ▸ hlen⟩)
      have hc : t.c = Config.inst.afsIc.rows.getD idx.toNat [] ++
          afsEncode (afsCodeOf Config.inst m).1 (afsCodeOf Config.inst m).2 t.u := by
        rw [h.c, h.u, afsCoded]
      have hlength : t.c.length = 456 := by
        rw [h.c, afsCoded_length Config.model.wf hic (unpackMsb_length _ _)]
      exact ⟨t, hexec, h.par, by rw [h.u, h.par, afsWord], hc, hlength, h.i, h.h, h.e, h.frame⟩
    · subst hidx
      exact exec_tchafsEnc_rejected h23 (afsReject_index hft hout)
    · subst hidx hm
      exact exec_tchafsEnc_rejected h23 (afsReject_len hft hn hic hlen)

end Sys2Proof.Proofs
end

