-- ==== Sys2Proof/Proofs/MailboxCommands.lean ====
section
/-! `AMR.CFG`, `SET.MODE` and `SET.CIPHER` (46_codec_tch.md R234, 47_scheduler.md R265, R267): when a parameter
record is well formed, what is read of it, and one equation for each way the commands end. -/

namespace Sys2Proof.Machine

/-! ### The parameter record -/

/-- Eight parameters from `PRM[first]` on are mode numbers. -/
theorem listLegal_iff {s : State} {first : Nat} :
    listLegal s first = true ↔ ∀ k, k < 8 → (s.prmAt (first + k)).toNat ≤ 7 := by
  simp [listLegal]

theorem listLegal_eq_false_iff {s : State} {first : Nat} :
    listLegal s first = false ↔ ∃ k, k < 8 ∧ 7 < (s.prmAt (first + k)).toNat := by
  simp [← Bool.not_eq_true, listLegal_iff]

/-- A parameter within the range of a narrower field keeps its value there. -/
theorem toNat_setWidth_of_lt {b : Byte} {w : Nat} (h : b.toNat < 2 ^ w) :
    (b.setWidth w).toNat = b.toNat := by
  rw [BitVec.toNat_setWidth, Nat.mod_eq_of_lt h]

theorem listAt_listOf (s : State) (first : Nat) {k : Nat} (hk : k < 8) :
    listAt (listOf s first) k = (s.prmAt (first + k)).setWidth 3 := by
  interval_cases k <;> rfl

theorem listAt_listOf_toNat {s : State} {first : Nat}
    (h : ∀ k, k < 8 → (s.prmAt (first + k)).toNat ≤ 7) {k : Nat} (hk : k < 8) :
    (listAt (listOf s first) k).toNat = (s.prmAt (first + k)).toNat := by
  rw [listAt_listOf s first hk, toNat_setWidth_of_lt (Nat.lt_succ_of_le (h k hk))]

theorem keyOf_getElem? (s : State) {k : Nat} (hk : k < 8) : (keyOf s)[k]? = some (s.prmAt (1 + k)) := by
  interval_cases k <;> rfl

/-- The modes 0 to 3 are legal, and no others (R265). -/
theorem TchMode.ofCode?_cases (v : Byte) :
    (v.toNat ≤ 3 ∧ ∃ m, TchMode.ofCode? v = some m ∧ m.code = v) ∨
      (3 < v.toNat ∧ TchMode.ofCode? v = none) := by
  unfold TchMode.ofCode?
  split_ifs with h0 h1 h2 h3
  · exact .inl ⟨by simp [h0], .sign, rfl, h0.symm⟩
  · exact .inl ⟨by simp [h1], .fr, rfl, h1.symm⟩
  · exact .inl ⟨by simp [h2], .efr, rfl, h2.symm⟩
  · exact .inl ⟨by simp [h3], .amr, rfl, h3.symm⟩
  · exact .inr ⟨by bv_omega, rfl⟩

/-! ### The ways `AMR.CFG` ends (R234) -/

section AmrCfg

variable {s : State}

/-- The configuration that `AMR.CFG` reads. -/
def prmWamr (s : State) : Wamr where
  n := (s.prmAt 0).setWidth 4
  list := listOf s 1
  ft := (s.prmAt 9).setWidth 3
  cmr := (s.prmAt 10).setWidth 3

theorem exec_amrCfg (hn : (s.prmAt 0).toNat ≤ 8) (hlist : ∀ k, k < 8 → (s.prmAt (1 + k)).toNat ≤ 7)
    (hft : (s.prmAt 9).toNat ≤ 7) (hcmr : (s.prmAt 10).toNat ≤ 7) :
    exec .amrCfg s = .next (State.raise { s with wamr := prmWamr s } .none 0) := by
  have hlegal : ¬ (8 < (s.prmAt 0).toNat ∨ listLegal s 1 = false ∨ 7 < (s.prmAt 9).toNat ∨
      7 < (s.prmAt 10).toNat) := by
    rw [listLegal_iff.2 hlist]
    simp only [Bool.true_eq_false, false_or]
    omega
  exact congrArg Cmd.finish (if_neg hlegal)

theorem exec_amrCfg_param (h : 8 < (s.prmAt 0).toNat ∨ (∃ k, k < 8 ∧ 7 < (s.prmAt (1 + k)).toNat) ∨
    7 < (s.prmAt 9).toNat ∨ 7 < (s.prmAt 10).toNat) : exec .amrCfg s = .next (s.raise .param 0) := by
  rw [← listLegal_eq_false_iff] at h
  exact congrArg Cmd.finish (if_pos h)

end AmrCfg

/-! ### The mode record (R265) -/

theorem noModeChannel_iff {ch : Chan} :
    noModeChannel ch = true ↔ ch = chIdle ∨ dlFamily ch = .unsupp ∨ ulFamily ch = .unsupp := by
  simp [noModeChannel, unsupported]

theorem noModeChannel_eq_false {ch : Chan} (hidle : ch ≠ chIdle) (hdl : dlFamily ch ≠ .unsupp)
    (hul : ulFamily ch ≠ .unsupp) : noModeChannel ch = false := by
  rw [← Bool.not_eq_true, noModeChannel_iff]
  exact not_or.2 ⟨hidle, not_or.2 ⟨hdl, hul⟩⟩

section PrmMode

variable {s : State}

/-- The record that `SET.MODE` reads, of mode `m`. -/
def prmModeWith (s : State) (m : TchMode) : Mode where
  rslCmode := s.prmAt 0
  tchMode := m
  amrN := (s.prmAt 2).setWidth 4
  amrList := listOf s 3

theorem prmMode_eq_some (hmode : (s.prmAt 1).toNat ≤ 3) (hn : (s.prmAt 2).toNat ≤ 8)
    (hlist : ∀ k, k < 8 → (s.prmAt (3 + k)).toNat ≤ 7) (hft : (s.prmAt 11).toNat ≤ 7)
    (hcmr : (s.prmAt 12).toNat ≤ 7) : ∃ m, prmMode s = some m ∧ m.rslCmode = s.prmAt 0 ∧
      m.tchMode.code = s.prmAt 1 ∧ m.amrN.toNat = (s.prmAt 2).toNat ∧
      ∀ k, k < 8 → (listAt m.amrList k).toNat = (s.prmAt (3 + k)).toNat := by
  obtain ⟨-, m, hm, hcode⟩ | ⟨hout, -⟩ := TchMode.ofCode?_cases (s.prmAt 1)
  · have hlegal : ¬ (8 < (s.prmAt 2).toNat ∨ listLegal s 3 = false ∨ 7 < (s.prmAt 11).toNat ∨
        7 < (s.prmAt 12).toNat) := by
      rw [listLegal_iff.2 hlist]
      simp only [Bool.true_eq_false, false_or]
      omega
    have hsome : prmMode s = some (prmModeWith s m) := by
      unfold prmMode
      rw [hm]
      exact if_neg hlegal
    exact ⟨_, hsome, rfl, hcode, toNat_setWidth_of_lt (b := s.prmAt 2) (w := 4) (by omega),
      fun k hk => listAt_listOf_toNat hlist hk⟩
  · exact absurd hmode (Nat.not_le.2 hout)

theorem prmMode_eq_none (h : 3 < (s.prmAt 1).toNat ∨ 8 < (s.prmAt 2).toNat ∨
    (∃ k, k < 8 ∧ 7 < (s.prmAt (3 + k)).toNat) ∨ 7 < (s.prmAt 11).toNat ∨ 7 < (s.prmAt 12).toNat) :
    prmMode s = none := by
  rw [← listLegal_eq_false_iff] at h
  unfold prmMode
  obtain ⟨hin, m, hm, -⟩ | ⟨-, hnone⟩ := TchMode.ofCode?_cases (s.prmAt 1)
  · rw [hm]
    exact if_pos (h.resolve_left (Nat.not_lt.2 hin))
  · rw [hnone]

end PrmMode

/-! ### The ways `SET.MODE` ends (R265) -/

/-- A channel state with the pending mode `m` and the four indices of the record. -/
def prmChan (s : State) (x : ChanState) (m : Mode) : ChanState :=
  { x with
    modeP := m
    ulFt := (s.prmAt 11).setWidth 3, dlFt := (s.prmAt 11).setWidth 3
    ulCmr := (s.prmAt 12).setWidth 3, dlCmr := (s.prmAt 12).setWidth 3 }

section SetMode

variable {s : State} (tn : Tn) {ch : Chan}

theorem exec_setMode {m : Mode} (hm : prmMode s = some m) (hch : noModeChannel ch = false) :
    exec (.setMode tn ch) s =
      .next ((s.setChan tn ch (prmChan s (s.chan tn ch) m)).raise .none 0) := by
  have hbody : setModeBody tn ch s = .done (s.setChan tn ch (prmChan s (s.chan tn ch) m)) := by
    unfold setModeBody
    rw [hm]
    exact if_neg (by rw [hch]; exact Bool.false_ne_true)
  exact congrArg Cmd.finish hbody

theorem exec_setMode_badChan {m : Mode} (hm : prmMode s = some m) (hch : noModeChannel ch = true) :
    exec (.setMode tn ch) s = .next (s.raise .badChan ch.val) := by
  have hbody : setModeBody tn ch s = .raised .badChan ch.val s := by
    unfold setModeBody
    rw [hm]
    exact if_pos hch
  exact congrArg Cmd.finish hbody

theorem exec_setMode_param (hm : prmMode s = none) :
    exec (.setMode tn ch) s = .next (s.raise .param 0) := by
  have hbody : setModeBody tn ch s = .raised .param 0 s := by
    unfold setModeBody
    rw [hm]
  exact congrArg Cmd.finish hbody

end SetMode

/-! ### The ways `SET.CIPHER` ends (R267) -/

section SetCipher

variable {s : State} (tn : Tn) {ch : Chan} (dir : Dir)

theorem exec_setCipher_param (h : 15 < (s.prmAt 0).toNat) :
    exec (.setCipher tn ch dir) s = .next (s.raise .param 0) :=
  congrArg Cmd.finish (if_pos h)

variable (h : (s.prmAt 0).toNat ≤ 15)

include h

theorem exec_setCipher (hch : noModeChannel ch = false) : exec (.setCipher tn ch dir) s =
    .next ((s.setChan tn ch ((s.chan tn ch).setCipherP dir (prmCipher s))).raise .none 0) :=
  congrArg Cmd.finish ((if_neg (Nat.not_lt.2 h)).trans
    (if_neg (by rw [hch]; exact Bool.false_ne_true)))

theorem exec_setCipher_badChan (hch : noModeChannel ch = true) :
    exec (.setCipher tn ch dir) s = .next (s.raise .badChan ch.val) :=
  congrArg Cmd.finish ((if_neg (Nat.not_lt.2 h)).trans (if_pos hch))

end SetCipher

end Sys2Proof.Machine

namespace Sys2Proof.Proofs

open Sys2Proof.Machine

/-- Settles O33: one equation for each way the three commands end, and the fields that a well-formed record
gives. -/
theorem mailboxCommands : Obligations.MailboxCommands := by
  unfold Obligations.MailboxCommands
  refine ⟨fun s hn hlist hft hcmr => ?amrCfg, fun s h => exec_amrCfg_param h,
    fun tn ch s hmode hn hlist hft hcmr => ?setMode,
    fun tn _ _ h => exec_setMode_param tn (prmMode_eq_none h),
    fun tn ch dir s halgo => ⟨fun hidle hdl hul => ?setCipher, fun hbad =>
      exec_setCipher_badChan tn dir halgo (noModeChannel_iff.2 hbad)⟩,
    fun tn _ dir _ h => exec_setCipher_param tn dir h⟩
  case amrCfg =>
    exact ⟨_, exec_amrCfg hn hlist hft hcmr,
      toNat_setWidth_of_lt (b := s.prmAt 0) (w := 4) (by omega),
      fun k hk => listAt_listOf_toNat hlist hk,
      toNat_setWidth_of_lt (b := s.prmAt 9) (w := 3) (by omega),
      toNat_setWidth_of_lt (b := s.prmAt 10) (w := 3) (by omega), rfl⟩
  case setMode =>
    obtain ⟨m, hm, hrsl, htch, hamrN, hamrList⟩ := prmMode_eq_some hmode hn hlist hft hcmr
    refine ⟨fun hidle hdl hul => ?_, fun hbad =>
      exec_setMode_badChan tn hm (noModeChannel_iff.2 hbad)⟩
    exact ⟨_, m, exec_setMode tn hm (noModeChannel_eq_false hidle hdl hul), hrsl, htch, hamrN,
      hamrList, rfl⟩
  case setCipher =>
    refine ⟨_, prmCipher s, exec_setCipher tn dir halgo (noModeChannel_eq_false hidle hdl hul),
      toNat_setWidth_of_lt (b := s.prmAt 0) (w := 4) (by omega), fun k hk => keyOf_getElem? s hk, ?_⟩
    cases dir <;> rfl

end Sys2Proof.Proofs
end

