-- ==== Sys2Proof/Proofs/TickFrame.lean ====
section
/-! What `TICK` as a whole may write (47_scheduler.md R278): one relation for every stage of its transmit
phase, and from it the clock contract and the order of the command's events. -/

namespace Sys2Proof.Machine

open Cmd.Ends

/-! ### What the transmit phase writes -/

/-- From `s` to `t` nothing changed but the working state, the channel states, the queues, the allocation
oracle's count and the events, of which some were appended, no ready-to-send signal among them. -/
structure State.Transmits (s t : State) : Prop where
  frame : t = { s with
    stat := t.stat, res := t.res, wamr := t.wamr, mem := t.mem, free := t.free, allocs := t.allocs,
    evq := t.evq, cs := t.cs, q := t.q }
  sent : ∃ evs, t.evq = s.evq ++ evs ∧ ∀ e ∈ evs, e.isRts = false

namespace State.Transmits

theorem refl (s : State) : s.Transmits s := ⟨rfl, [], (List.append_nil _).symm, nofun⟩

theorem trans {s t u : State} (h : s.Transmits t) (h' : t.Transmits u) : s.Transmits u := by
  obtain ⟨evs, hevs, hrts⟩ := h.sent
  obtain ⟨evs', hevs', hrts'⟩ := h'.sent
  refine ⟨h'.frame.trans (by rw [h.frame]), evs ++ evs', by rw [hevs', hevs, List.append_assoc],
    fun e he => ?_⟩
  exact (List.mem_append.1 he).elim (hrts e) (hrts' e)

/-- A stage that emits nothing. -/
theorem of_frame {s t : State} (h : t = { s with
    stat := t.stat, res := t.res, wamr := t.wamr, mem := t.mem, free := t.free, allocs := t.allocs,
    cs := t.cs, q := t.q }) : s.Transmits t := by
  rw [h]
  exact ⟨rfl, [], (List.append_nil _).symm, nofun⟩

theorem emit {s t : State} (h : s.Transmits t) {e : Event} (he : e.isRts = false) :
    s.Transmits (t.emit e) :=
  h.trans ⟨rfl, [e], rfl, by simpa using he⟩

theorem setChan {s t : State} (h : s.Transmits t) (tn : Tn) (ch : Chan) (x : ChanState) :
    s.Transmits (t.setChan tn ch x) :=
  h.trans (.of_frame rfl)

theorem of_writesWork {s t : State} (h : s.WritesWork t) : s.Transmits t := by
  rw [h]
  exact .of_frame rfl

end State.Transmits

/-! ### The stages (R280 to R285) -/

theorem tchafsEncBody_ends_writesWork (P : Params) (phase : Phase) (s : State) :
    (tchafsEncBody P phase s).Ends s.WritesWork := by
  unfold tchafsEncBody
  have hspread {t : State} (ht : s.WritesWork t) (c : List UBit) (f : UBit) :
      s.WritesWork (t.spreadTraffic c f) :=
    ht.trans (.of_codecTo ((State.CodecTo.refl t).spreadTraffic c f))
  have hcode (p u c : List UBit) : s.WritesWork (((s.setPar p).setU u).setC c) := rfl
  refine check (fun _ => done (.of_codecTo ((State.CodecTo.refl s).codeStolen _))) fun _ => ?_
  split
  · exact raised (.refl s)
  · exact done (hspread (hcode _ _ _) _ _)

/-- Under any parameters the encoder of a block writes no scheduler state (R282). -/
theorem runEncoder_ends_transmits (P : Params) (ch : Chan) (y : ChanState) (fn : Fn) (s : State) :
    (runEncoder P ch y fn s).Ends s.Transmits := by
  have hcodec {c : Cmd} (h : c.Ends s.CodecTo) : c.Ends s.Transmits :=
    h.mono fun _ ht => .of_writesWork (.of_codecTo ht)
  unfold runEncoder
  cases dlFamily ch with
  | xcch => exact hcodec (xcchEncBody_ends s)
  | pdtch => exact hcodec (pdtchEncBody_ends s)
  | tch =>
    cases y.modeDl.tchMode with
    | sign | fr => exact hcodec (tchfrEncBody_ends P .fr s)
    | efr => exact hcodec (tchfrEncBody_ends P .efr s)
    | amr =>
      have hload : s.WritesWork { s with wamr := wamrOf y.modeDl y.dlFt y.dlCmr } := rfl
      exact (tchafsEncBody_ends_writesWork P _ _).mono fun _ ht => .of_writesWork (hload.trans ht)
  | none | fcch | sch | rach | unsupp => exact done (.refl s)

theorem offer_transmits (P : Params) (tn : Tn) (ch : Chan) (fn : Fn) (s : State) :
    s.Transmits (s.offer P tn ch fn).2 := by
  have hdequeue (mode : Mode) (t : State) : t.Transmits (dequeue P tn ch mode t).2 := by
    unfold dequeue
    split
    · exact .refl t
    · exact .of_frame rfl
  have husable (mode : Mode) (x : Option QElem) (t : State) :
      t.Transmits (usable P tn ch mode fn x t).2 := by
    unfold usable
    split
    · exact .refl t
    · split
      · exact .refl t
      · exact (State.Transmits.refl t).emit rfl
  exact (((State.Transmits.refl s).setChan tn ch _).trans (hdequeue _ _)).trans (husable _ _ _)

theorem blockCoded_transmits (tn : Tn) (ch : Chan) (z : ChanState) {v : State} {c : Cmd}
    (h : c.Ends v.Transmits) : v.Transmits (blockCoded tn ch z v c).2 := by
  cases h with
  | done h => exact h.setChan _ _ _
  | raised h => exact h.setChan _ _ _
  | refused r => exact .of_frame rfl

theorem startBlock_transmits (P : Params) (tn : Tn) (ch : Chan) (fn : Fn) (s : State) :
    s.Transmits (startBlock P tn ch fn s).2 := by
  have hoffered := offer_transmits P tn ch fn s
  rcases hoffer : s.offer P tn ch fn with ⟨_ | x, v⟩
  all_goals rw [hoffer] at hoffered
  · rwa [startBlock_of_none hoffer]
  · have hcount : v.Transmits { v with allocs := v.allocs + 1 } := .of_frame rfl
    cases halloc : P.allocOk v.allocs with
    | false =>
      rw [startBlock_of_nomem hoffer halloc]
      exact (hoffered.trans hcount).emit rfl
    | true =>
      rw [startBlock_of_alloc hoffer halloc]
      refine hoffered.trans (blockCoded_transmits tn ch _ ?_)
      exact (runEncoder_ends_transmits P ch _ fn _).mono fun _ ht => (State.Transmits.of_frame rfl).trans ht

theorem sendBurst_transmits (P : Params) (tn : Tn) (ch : Chan) (bid : Fin 8) (fn : Fn) (s : State) :
    s.Transmits (sendBurst P tn ch bid fn s) := by
  unfold sendBurst
  extract_lets y t
  have ht : s.Transmits t := by
    unfold t
    split
    · exact (State.Transmits.refl s).emit rfl
    · exact .refl s
  split
  · exact ht.setChan _ _ _
  · exact ht

theorem blockDl_transmits (P : Params) (tn : Tn) (ch : Chan) (bid : Fin 8) (fn : Fn) (s : State) :
    s.Transmits (blockDl P tn ch bid fn s).2 := by
  have hstart : s.Transmits (if bid = 0 then startBlock P tn ch fn s else (false, s)).2 := by
    split
    · exact startBlock_transmits P tn ch fn s
    · exact .refl s
  unfold blockDl
  split
  · exact .refl s
  · split
    · next hd => rw [hd] at hstart; exact hstart
    · next hd => rw [hd] at hstart; exact hstart.trans (sendBurst_transmits P tn ch bid fn _)

theorem schDl_transmits (P : Params) (tn : Tn) (fn : Fn) (s : State) : s.Transmits (schDl P tn fn s) := by
  have hload : s.WritesWork (s.setPdu (schPdu P fn s.bsic)) := rfl
  have henc := (schEncBody_ends (s.setPdu (schPdu P fn s.bsic))).mono fun _ ht =>
    State.Transmits.of_writesWork (hload.trans (.of_codecTo ht))
  unfold schDl
  split
  · next hd => rw [hd] at henc; exact henc.of_done.emit rfl
  · next hd => rw [hd] at henc; exact henc.of_raised
  · exact .refl s

theorem dlSlot_transmits (P : Params) (fn : Nat) (s : State) (tn : Tn) :
    s.Transmits (dlSlot P fn s tn).2 := by
  unfold dlSlot
  split
  · exact .refl s
  · next l _ =>
    dsimp only
    cases dlFamily (l.slot fn).dlChan with
    | fcch => exact (State.Transmits.refl s).emit rfl
    | sch => exact schDl_transmits P tn _ s
    | xcch | pdtch | tch => exact blockDl_transmits P tn _ _ _ s
    | none | rach | unsupp => exact .refl s

theorem transmit_transmits (P : Params) (fn : Nat) (tns : List Tn) (failed : Nat) (s : State) :
    s.Transmits (transmit P fn tns failed s).2 := by
  induction tns generalizing failed s with
  | nil => exact .refl s
  | cons tn tns ih =>
    rw [transmit_cons]
    exact (dlSlot_transmits P fn s tn).trans (ih _ _)

/-- The transmit phase runs from the state in which the ready-to-send signals stand. -/
theorem tickEnd_transmits (P : Params) (fn : Fn) (s : State) :
    (tickStart P fn s).Transmits (tickEnd (runTick P fn s)) := by
  rw [runTick_eq]
  exact (transmit_transmits P fn.toNat allTn 0 _).trans (.of_frame rfl)

/-! ### The clock contract (R278 (1), R336) -/

theorem clockOk_of_execIn_tick {P : Params} {fn : Fn} {s t : State} (h : execIn P (.tick fn) s = .next t) :
    s.ClockOk fn := by
  obtain ⟨hclock, -⟩ | ⟨-, -, hrefused⟩ := tickBody_cases P fn s
  · exact hclock
  · rw [execIn, bodyIn, hrefused] at h
    cases h

theorem execIn_tick_of_not_clockOk {P : Params} {fn : Fn} {s : State} (h : ¬s.ClockOk fn) :
    execIn P (.tick fn) s = .refused .clock := by
  obtain ⟨hclock, -⟩ | ⟨-, -, hrefused⟩ := tickBody_cases P fn s
  · exact absurd hclock h
  · rw [execIn, bodyIn, hrefused, Cmd.finish_refused]

/-- A `TICK` that was not refused ends with its run. -/
theorem execIn_tick_eq_next_iff {P : Params} {fn : Fn} {s t : State} :
    execIn P (.tick fn) s = .next t ↔ s.ClockOk fn ∧ t = tickEnd (runTick P fn s) := by
  constructor
  · intro h
    have hclock := clockOk_of_execIn_tick h
    rw [execIn_tick_of_clockOk hclock] at h
    exact ⟨hclock, (Host.Outcome.next.inj h).symm⟩
  · rintro ⟨hclock, rfl⟩
    exact execIn_tick_of_clockOk hclock

section TickEnd

variable (P : Params) (fn : Fn) (s : State)

theorem tickEnd_clock : (tickEnd (runTick P fn s)).fn = fn ∧ (tickEnd (runTick P fn s)).fnValid = true := by
  rw [(tickEnd_transmits P fn s).frame]
  exact ⟨rfl, rfl⟩

theorem tickEnd_evq : ∃ sent, (tickEnd (runTick P fn s)).evq =
    s.evq ++ allTn.filterMap (rtsFor P fn s) ++ sent ∧ ∀ e ∈ sent, e.isRts = false :=
  (tickEnd_transmits P fn s).sent

theorem runTick_failed_lt : (runTick P fn s).1 < 256 := by
  have hle := transmit_failed_le P fn.toNat allTn 0 (tickStart P fn s)
  have hsum : (allTn.map fun k => 2 ^ k.val).sum = 255 := by decide
  rw [runTick_eq]
  omega

theorem tickEnd_stat : (tickEnd (runTick P fn s)).stat = Stat.ok ∨ ∃ failed, 0 < failed ∧ failed < 256 ∧
    (tickEnd (runTick P fn s)).stat = Stat.error .nomem failed := by
  have hlt := runTick_failed_lt P fn s
  have hstat : (tickEnd (runTick P fn s)).stat =
      Stat.error (if (runTick P fn s).1 = 0 then .none else .nomem) (runTick P fn s).1 := rfl
  rw [hstat]
  by_cases hzero : (runTick P fn s).1 = 0
  · exact .inl (by rw [if_pos hzero, hzero]; rfl)
  · exact .inr ⟨_, Nat.pos_of_ne_zero hzero, hlt, by rw [if_neg hzero]⟩

/-- With no timeslot configured nothing is emitted and nobody is served. -/
theorem runTick_of_unconfigured (h : ∀ tn : Tn, (s.ts.get tn).pchan = 0) :
    runTick P fn s = (0, { s with fn := fn, fnValid := true }) := by
  have hrts : allTn.filterMap (rtsFor P fn s) = [] :=
    List.filterMap_eq_nil_iff.2 fun tn _ => rtsFor_of_unconfigured (h tn)
  have hts : ∀ tn ∈ allTn, ((tickStart P fn s).ts.get tn).pchan = 0 := fun tn _ => h tn
  rw [runTick_eq, transmit_of_unconfigured hts, tickStart, hrts, List.append_nil]

end TickEnd

end Sys2Proof.Machine

namespace Sys2Proof.Proofs

open Sys2Proof.Machine

/-- Settles O45: the stages of the transmit phase leave the clock, which `TICK` has written before them. -/
theorem tickClock : Obligations.TickClock := by
  unfold Obligations.TickClock
  simp only [exec_eq_execIn]
  refine ⟨fun fn s hclock => ?completes, fun fn s hclock => execIn_tick_of_not_clockOk hclock,
    fun fn s t h => ?next⟩
  case completes =>
    obtain ⟨hfn, hvalid⟩ := tickEnd_clock Config.inst fn s
    obtain ⟨sent, hevq, -⟩ := tickEnd_evq Config.inst fn s
    have hframe := (tickEnd_transmits Config.inst fn s).frame
    refine ⟨_, execIn_tick_of_clockOk hclock, hfn, hvalid, ?_, tickEnd_stat _ fn s, by rw [hframe]; rfl,
      by rw [hframe]; rfl, by rw [hframe]; rfl, by rw [hframe]; rfl, by rw [hframe]; rfl,
      by rw [hframe]; rfl, by rw [hframe]; rfl, by rw [hframe]; rfl, fun hts => ?_⟩
    · rw [hevq, List.append_assoc]
      exact List.prefix_append _ _
    · rw [runTick_of_unconfigured _ fn s hts]
      exact ⟨rfl, rfl, rfl, rfl, rfl⟩
  case next =>
    obtain ⟨-, rfl⟩ := execIn_tick_eq_next_iff.1 h
    obtain ⟨hfn, -⟩ := tickEnd_clock Config.inst fn s
    have hlt : fnAdd fn.toNat 1 < HYPER := by
      unfold fnAdd HYPER
      omega
    exact ⟨_, execIn_tick_of_clockOk (.inr (by rw [hfn, toNat_toFn hlt]))⟩

/-- Settles O46: no stage of the transmit phase emits a ready-to-send signal. -/
theorem tickReadyToSend : Obligations.TickReadyToSend := by
  unfold Obligations.TickReadyToSend
  intro P fn s t h
  obtain ⟨-, rfl⟩ := execIn_tick_eq_next_iff.1 h
  exact tickEnd_evq P fn s

end Sys2Proof.Proofs
end

