-- ==== Sys2Proof/Proofs/TickBursts.lean ====
section
/-! The bursts that a timeslot sends in `TICK` beside any other timeslots (47_scheduler.md R280 (b), (c), R283
to R285): what one turn of the timeslot does, by the family of its downlink slot. -/

namespace Sys2Proof.Machine

open State

/-! ### The turn of a timeslot -/

/-- In `TICK fn` from `s` to `t` the turn of timeslot `tn` leads from `u` to `v`; the timeslot is in `u` as it
was in `s`, and in `t` as it is in `v`. -/
structure TickTurn (P : Params) (fn : Fn) (s : State) (tn : Tn) (u v t : State) (failed : Bool) : Prop where
  next : execIn P (.tick fn) s = .next t ∧ (P = Config.inst → exec (.tick fn) s = .next t)
  ts : u.ts = s.ts
  bsic : u.bsic = s.bsic
  before : s.SameSlot u tn
  own : dlSlot P fn.toNat u tn = (failed, v)
  after : v.SameSlot t tn
  served : ∀ {ch : Chan} {evs : List Event} {n : Nat}, ServesChan tn ch u v evs n →
    Served P fn s t tn ch evs failed
  alone : s.OnlySlot tn → v.ts = u.ts → u.cs = s.cs ∧ u.q = s.q ∧ t.cs = v.cs ∧ t.q = v.q

theorem exists_tickTurn (P : Params) {fn : Fn} {s : State} (hclock : s.ClockOk fn) (tn : Tn) :
    ∃ u v t failed, TickTurn P fn s tn u v t failed := by
  obtain ⟨u, v, w, below, total, failed, hrun, htick⟩ := TickRun.exists_of_runTick P fn s tn
  obtain ⟨evs, hlower⟩ := hrun.lower_serves
  have hnext := execIn_tick_of_clockOk (P := P) hclock
  rw [htick] at hnext
  refine ⟨u, v, _, failed, ⟨hnext, fun hP => by rw [exec_eq_execIn, ← hP]; exact hnext⟩, hlower.ts,
    hlower.bsic, hrun.lower_sameSlot, hrun.own, hrun.upper_sameSlot, fun h => hrun.served h,
    fun honly hts => ?_⟩
  obtain ⟨rfl, rfl, -⟩ := hrun.of_onlySlot honly hts
  exact ⟨rfl, rfl, rfl, rfl⟩

namespace TickTurn

variable {P : Params} {fn : Fn} {s : State} {tn : Tn} {u v t : State} {failed : Bool}
  (h : TickTurn P fn s tn u v t failed)
include h

/-- The turn is what the timeslot's own state makes it. -/
theorem eq_of_dlSlot {b : Bool} {v' : State} (hown : dlSlot P fn.toNat u tn = (b, v')) :
    failed = b ∧ v = v' :=
  Prod.mk.inj (h.own.symm.trans hown)

theorem layout_eq : u.layout P tn = s.layout P tn := State.layout_congr h.ts tn

end TickTurn

/-- A timeslot whose turn does nothing. -/
theorem tick_of_idle {P : Params} {fn : Fn} {s : State} {tn : Tn} (hclock : s.ClockOk fn)
    (hidle : ∀ u : State, u.ts = s.ts → s.SameSlot u tn → dlSlot P fn.toNat u tn = (false, u)) :
    ∃ t, execIn P (.tick fn) s = .next t ∧ (P = Config.inst → exec (.tick fn) s = .next t) ∧
      ∀ c, Served P fn s t tn c [] false := by
  obtain ⟨u, v, t, failed, h⟩ := exists_tickTurn P hclock tn
  obtain ⟨rfl, rfl⟩ := h.eq_of_dlSlot (hidle u h.ts h.before)
  obtain ⟨hnext, hmachine⟩ := h.next
  exact ⟨t, hnext, hmachine, fun c => h.served (ServesChan.refl v)⟩

/-! ### The synchronisation burst (R284) -/

theorem schPdu_length (P : Params) (fn : Fn) (bsic : BitVec 6) : (schPdu P fn bsic).length = 4 := by
  rw [schPdu, packLsb_length, List.length_map, List.length_range]

theorem unpackLsb_schPdu (P : Params) (fn : Fn) (bsic : BitVec 6) :
    unpackLsb (schPdu P fn bsic) 25 = schBits P fn bsic := by
  refine List.ext_getElem (by simp [schBits]) fun k hk hk' => ?_
  have hlt : k < 25 := by simpa using hk
  have hbit := bitAt_packBits .lsb (schBits P fn bsic) k
  have hget : (unpackBits .lsb (schPdu P fn bsic) 25)[k]? = some ((schBits P fn bsic).getD k false) := by
    rw [unpackBits_getElem? _ _ hlt, ← hbit]
    rfl
  rw [List.getD_eq_getElem _ _ hk'] at hget
  exact (List.getElem?_eq_some_iff.1 hget).2

/-- The burst of R284 from 78 coded bits. -/
theorem wrapSch_eq {c : List UBit} (hc : c.length = 78) (train : List UBit) : wrapSch c train =
    [false, false, false] ++ c.take 39 ++ train ++ c.drop 39 ++ [false, false, false] := by
  have hrest : (c.drop 39).take 39 = c.drop 39 := List.take_of_length_le (by rw [List.length_drop, hc])
  simp only [wrapSch, slice, tail3, List.drop_zero, hrest]

theorem schCoded_schBits_length (P : Params) (fn : Fn) (bsic : BitVec 6) :
    (schCoded (schBits P fn bsic)).length = 78 := by
  rw [schCoded, infoWord_coded_length, crcGen_length]
  simp [schBits, crcWidth]

/-- The burst request of a synchronisation slot. -/
def schEvent (P : Params) (tn : Tn) (fn : Fn) (att : Byte) (bsic : BitVec 6) : Event :=
  .txReq fn tn att ([false, false, false] ++ (schCoded (schBits P fn bsic)).take 39 ++
    P.schTrain.toList ++ (schCoded (schBits P fn bsic)).drop 39 ++ [false, false, false])

theorem schEncBody_of_len {s : State} (h : s.mem.pdu.len = 4) : schEncBody s =
    .done (s.codeBlock (unpackLsb s.pdu 25) (crcGen .crc10 (unpackLsb s.pdu 25))) :=
  if_neg (not_not.2 h)

/-- The handler sends its burst and leaves the rest of the scheduler state. -/
theorem schDl_eq (P : Params) (tn : Tn) (fn : Fn) (s : State) :
    ∃ t, schDl P tn fn s = t.emit (schEvent P tn fn (s.ts.get tn).att s.bsic) ∧ s.CodingFrame t := by
  have henc : schEncBody (s.setPdu (schPdu P fn s.bsic)) =
      .done ((s.setPdu (schPdu P fn s.bsic)).codeBlock (schBits P fn s.bsic)
        (crcGen .crc10 (schBits P fn s.bsic))) := by
    rw [schEncBody_of_len (schPdu_length P fn s.bsic), State.setPdu_pdu, unpackLsb_schPdu]
  refine ⟨(s.setPdu (schPdu P fn s.bsic)).codeBlock (schBits P fn s.bsic)
    (crcGen .crc10 (schBits P fn s.bsic)), ?_, ⟨rfl, rfl, rfl, rfl, rfl, rfl⟩⟩
  unfold schDl
  rw [henc]
  dsimp only
  rw [State.codeBlock_c, ← schCoded, wrapSch_eq (schCoded_schBits_length P fn s.bsic)]
  rfl

/-! ### A later burst of a block (R280 (b), (c), R283) -/

theorem State.setChan_self (s : State) (tn : Tn) (ch : Chan) : s.setChan tn ch (s.chan tn ch) = s := by
  simp [State.setChan, State.chan, Vector.get_eq_getElem]

section SendBurst

variable {P : Params} {tn : Tn} {ch : Chan} {bid : Fin 8} {fn : Fn} {s : State}

/-- Without a buffer nothing is sent and nothing is released. -/
theorem sendBurst_of_released (halloc : (s.chan tn ch).dlAlloc = false) (hbuf : (s.chan tn ch).dlBuf = []) :
    sendBurst P tn ch bid fn s = s := by
  have hsame : { s.chan tn ch with dlAlloc := false, dlBuf := [] } = s.chan tn ch := by
    rw [← halloc, ← hbuf]
  simp only [sendBurst, halloc, hsame, State.setChan_self, Bool.false_eq_true, if_false, ite_self]

/-- The portion of the buffer is sent, and the buffer is released after the last burst. -/
theorem sendBurst_of_alloc (halloc : (s.chan tn ch).dlAlloc = true) :
    ServesChan tn ch s (sendBurst P tn ch bid fn s) [burstReq P tn bid fn (s.chan tn ch) s] 0 ∧
    (sendBurst P tn ch bid fn s).chan tn ch = (if bid.val + 1 = nbDl ch then
      { s.chan tn ch with dlAlloc := false, dlBuf := [] } else s.chan tn ch) ∧
    (sendBurst P tn ch bid fn s).queue tn ch = s.queue tn ch := by
  have hemit := (ServesChan.refl (tn := tn) (ch := ch) s).emit
    (e := burstReq P tn bid fn (s.chan tn ch) s) rfl
  unfold sendBurst
  simp only [halloc, if_true]
  split
  · exact ⟨hemit.setChan _, State.setChan_chan _ _ _ _, rfl⟩
  · exact ⟨hemit, rfl, rfl⟩

theorem blockDl_later (hact : s.isActive tn ch = true) (hbid : bid ≠ 0) :
    blockDl P tn ch bid fn s = (false, sendBurst P tn ch bid fn s) := by
  unfold blockDl
  rw [if_neg (by simp [hact]), if_neg hbid]

theorem blockDl_inactive (hact : s.isActive tn ch = false) : blockDl P tn ch bid fn s = (false, s) :=
  if_pos hact

end SendBurst

/-! ### One slot of each family -/

section Turns

variable {P : Params} {fn : Fn} {s : State} {tn : Tn} {l : Layout} (hclock : s.ClockOk fn)
  (hl : s.layout P tn = some l)
include hclock hl

theorem tick_fcch (hfam : dlFamily (l.slot fn.toNat).dlChan = .fcch) :
    ∃ t, execIn P (.tick fn) s = .next t ∧ (P = Config.inst → exec (.tick fn) s = .next t) ∧
      (s.OnlySlot tn → t.cs = s.cs ∧ t.q = s.q) ∧
      ∀ c, Served P fn s t tn c [.txReq fn tn (s.ts.get tn).att (List.replicate 148 false)] false := by
  obtain ⟨u, v, t, failed, h⟩ := exists_tickTurn P hclock tn
  have hown : dlSlot P fn.toNat u tn = (false, fcchDl tn fn u) := by
    simp only [dlSlot, h.layout_eq, hl, hfam, toFn_toNat]
  obtain ⟨rfl, rfl⟩ := h.eq_of_dlSlot hown
  obtain ⟨hnext, hmachine⟩ := h.next
  refine ⟨t, hnext, hmachine, fun honly => ?_, fun c => ?_⟩
  · obtain ⟨hcs, hq, hcs', hq'⟩ := h.alone honly rfl
    exact ⟨hcs'.trans hcs, hq'.trans hq⟩
  · rw [← h.ts]
    exact h.served ((ServesChan.refl u).emit rfl)

theorem tick_sch (hfam : dlFamily (l.slot fn.toNat).dlChan = .sch) :
    ∃ t, execIn P (.tick fn) s = .next t ∧ (P = Config.inst → exec (.tick fn) s = .next t) ∧
      (s.OnlySlot tn → t.cs = s.cs ∧ t.q = s.q) ∧
      ∀ c, Served P fn s t tn c [schEvent P tn fn (s.ts.get tn).att s.bsic] false := by
  obtain ⟨u, v, t, failed, h⟩ := exists_tickTurn P hclock tn
  obtain ⟨w, hsch, hframe⟩ := schDl_eq P tn fn u
  have hown : dlSlot P fn.toNat u tn = (false, schDl P tn fn u) := by
    simp only [dlSlot, h.layout_eq, hl, hfam, toFn_toNat]
  rw [hsch] at hown
  obtain ⟨rfl, rfl⟩ := h.eq_of_dlSlot hown
  obtain ⟨hnext, hmachine⟩ := h.next
  refine ⟨t, hnext, hmachine, fun honly => ?_, fun c => ?_⟩
  · obtain ⟨hcs, hq, hcs', hq'⟩ := h.alone honly hframe.ts
    exact ⟨hcs'.trans (hframe.cs.trans hcs), hq'.trans (hframe.q.trans hq)⟩
  · rw [← h.ts, ← h.bsic]
    exact h.served (((ServesChan.refl u).coding hframe).emit rfl)

/-- A slot without a downlink handler. -/
theorem tick_unhandled (hfam : dlFamily (l.slot fn.toNat).dlChan ∈ [Family.none, .rach, .unsupp]) :
    ∃ t, execIn P (.tick fn) s = .next t ∧ (P = Config.inst → exec (.tick fn) s = .next t) ∧
      ∀ c, Served P fn s t tn c [] false := by
  refine tick_of_idle hclock fun u hts _ => ?_
  simp only [List.mem_cons, List.not_mem_nil, or_false] at hfam
  rcases hfam with hfam | hfam | hfam <;>
    simp only [dlSlot, State.layout_congr hts, hl, hfam]

variable (hfam : dlFamily (l.slot fn.toNat).dlChan ∈ [Family.xcch, .pdtch, .tch])
include hfam

theorem tick_inactive (hact : s.isActive tn (l.slot fn.toNat).dlChan = false) :
    ∃ t, execIn P (.tick fn) s = .next t ∧ (P = Config.inst → exec (.tick fn) s = .next t) ∧
      ∀ c, Served P fn s t tn c [] false := by
  refine tick_of_idle hclock fun u hts hsame => ?_
  rw [dlSlot_of_block ((State.layout_congr hts tn).trans hl) hfam,
    blockDl_inactive ((hsame.isActive _).trans hact)]

variable (hact : s.isActive tn (l.slot fn.toNat).dlChan = true) (hbid : (l.slot fn.toNat).dlBid ≠ 0)
include hact hbid

theorem tick_missed (halloc : (s.chan tn (l.slot fn.toNat).dlChan).dlAlloc = false)
    (hbuf : (s.chan tn (l.slot fn.toNat).dlChan).dlBuf = []) :
    ∃ t, execIn P (.tick fn) s = .next t ∧ (P = Config.inst → exec (.tick fn) s = .next t) ∧
      ∀ c, Served P fn s t tn c [] false := by
  refine tick_of_idle hclock fun u hts hsame => ?_
  obtain ⟨hchan, -⟩ := hsame (l.slot fn.toNat).dlChan
  rw [dlSlot_of_block ((State.layout_congr hts tn).trans hl) hfam,
    blockDl_later ((hsame.isActive _).trans hact) hbid,
    sendBurst_of_released (hchan ▸ halloc) (hchan ▸ hbuf)]

theorem tick_later (halloc : (s.chan tn (l.slot fn.toNat).dlChan).dlAlloc = true) :
    ∃ t, execIn P (.tick fn) s = .next t ∧ (P = Config.inst → exec (.tick fn) s = .next t) ∧
      t.queue tn (l.slot fn.toNat).dlChan = s.queue tn (l.slot fn.toNat).dlChan ∧
      t.chan tn (l.slot fn.toNat).dlChan =
        (if (l.slot fn.toNat).dlBid.val + 1 = nbDl (l.slot fn.toNat).dlChan then
          { s.chan tn (l.slot fn.toNat).dlChan with dlAlloc := false, dlBuf := [] }
        else s.chan tn (l.slot fn.toNat).dlChan) ∧
      Served P fn s t tn (l.slot fn.toNat).dlChan
        [burstReq P tn (l.slot fn.toNat).dlBid fn (s.chan tn (l.slot fn.toNat).dlChan) s] false := by
  obtain ⟨u, v, t, failed, h⟩ := exists_tickTurn P hclock tn
  obtain ⟨hchan, hqueue⟩ := h.before (l.slot fn.toNat).dlChan
  have hown := dlSlot_of_block (h.layout_eq.trans hl) hfam
  rw [blockDl_later ((h.before.isActive _).trans hact) hbid] at hown
  obtain ⟨rfl, rfl⟩ := h.eq_of_dlSlot hown
  obtain ⟨hserves, hchan', hqueue'⟩ := sendBurst_of_alloc (P := P) (bid := (l.slot fn.toNat).dlBid)
    (fn := fn) (hchan ▸ halloc)
  obtain ⟨hchan'', hqueue''⟩ := h.after (l.slot fn.toNat).dlChan
  obtain ⟨hnext, hmachine⟩ := h.next
  refine ⟨t, hnext, hmachine, hqueue''.trans (hqueue'.trans hqueue), ?_, ?_⟩
  · rw [hchan'', hchan', hchan]
  · have hreq : burstReq P tn (l.slot fn.toNat).dlBid fn (s.chan tn (l.slot fn.toNat).dlChan) s =
        burstReq P tn (l.slot fn.toNat).dlBid fn (u.chan tn (l.slot fn.toNat).dlChan) u := by
      rw [hchan, burstReq, burstReq, h.ts]
    rw [hreq]
    exact h.served hserves

end Turns

/-- The burst of R283 from a portion of the buffer. -/
theorem wrap_slice_eq_burstOf (xs t : List UBit) (a : Nat) :
    wrap (slice xs a 116) t = burstOf ((xs.drop a).take 116) t :=
  wrap_eq_burstOf (xs.drop a) t

end Sys2Proof.Machine

namespace Sys2Proof.Proofs

open Sys2Proof.Machine

/-- Settles O47: the turn of a timeslot by the family of its slot; the other timeslots leave its state as it
was before its turn. -/
theorem tickBursts : Obligations.TickBursts := by
  unfold Obligations.TickBursts
  refine ⟨?_, fun P fn s tn hclock hts =>
    tick_of_idle hclock fun u hts' _ => dlSlot_of_unconfigured (if_pos (hts' ▸ hts))⟩
  rintro P fn s tn l _ _ hclock hl rfl rfl
  refine ⟨tick_fcch hclock hl, tick_sch hclock hl, fun hfam hact hbid => ⟨fun halloc _ _ _ => ?_,
    tick_missed hclock hl hfam hact hbid⟩, ?_⟩
  · obtain ⟨t, hnext, hmachine, hqueue, hchan, hserved⟩ := tick_later hclock hl hfam hact hbid halloc
    rw [burstReq, wrap_slice_eq_burstOf] at hserved
    exact ⟨t, hnext, hmachine, hqueue, hchan, hserved⟩
  · rintro (hfam | ⟨hfam, hact⟩)
    · exact tick_unhandled hclock hl hfam
    · exact tick_inactive hclock hl hfam hact

end Sys2Proof.Proofs
end

