-- ==== Sys2Proof/Proofs/BlockAssembly.lean ====
section
/-! The assembly of an uplink block (47_scheduler.md R270 (7), (8), R271): the channel state that holds one more
burst, field by field, and the command that stores a burst which is not the last of its block. -/

namespace Sys2Proof.Machine

/-! ### Measurement accumulators (R35, R271 (b)) -/

theorem addSum_toInt {tag which : Nat} {sum : BitVec 32} {x : Int} (hlow : -2147483648 ≤ sum.toInt + x)
    (hhigh : sum.toInt + x < 2147483648) : (addSum tag which sum x).toInt = sum.toInt + x := by
  rw [addSum, if_pos ⟨hlow, hhigh⟩]
  exact BitVec.toInt_ofInt_eq_self (by decide) hlow hhigh

/-- The first input of a sum keeps its value in the wider format. -/
theorem addSum_zero {tag which w : Nat} (hw : w ≤ 31) (x : BitVec w) :
    addSum tag which 0 x.toInt = x.signExtend 32 := by
  have hpow : (2 : Int) ^ (w - 1) ≤ 2 ^ 30 := by
    exact_mod_cast Nat.pow_le_pow_right (by decide) (by omega)
  have hlow := BitVec.le_toInt x
  have hhigh : x.toInt < 2 ^ (w - 1) := BitVec.toInt_lt
  have hrange : -2147483648 ≤ (0 : BitVec 32).toInt + x.toInt ∧
      (0 : BitVec 32).toInt + x.toInt < 2147483648 := by
    simp only [BitVec.ofNat_eq_ofNat, BitVec.toInt_zero]
    omega
  rw [addSum, if_pos hrange, BitVec.signExtend]
  simp

theorem addCount_of_lt {tag which : Nat} {num : Byte} (h : num.toNat < 255) :
    addCount tag which num = num + 1 :=
  if_pos (by omega)

theorem addCount_zero (tag which : Nat) : addCount tag which 0 = 1 := addCount_of_lt (by decide)

/-- The accumulators of `y` hold the measurements of the one indication `r` (R271 (a), (b)). -/
structure ChanState.MeasuredFirst (r : RxInd) (y : ChanState) : Prop where
  rssiSum : y.rssiSum = r.rssi.signExtend 32
  rssiNum : y.rssiNum = 1
  toaSum : y.toaSum = r.toa256.signExtend 32
  toaNum : y.toaNum = 1
  ciSum : y.ciSum = (if r.hasCi then r.ci.signExtend 32 else 0)
  ciNum : y.ciNum = (if r.hasCi then 1 else 0)

/-- The accumulators of `y` are those of `x` with the measurements of `r`, where they stay in their formats
(R271 (b)). -/
structure ChanState.MeasuredNext (r : RxInd) (x y : ChanState) : Prop where
  rssiSum : -2147483648 ≤ x.rssiSum.toInt + r.rssi.toInt → x.rssiSum.toInt + r.rssi.toInt < 2147483648 →
    y.rssiSum.toInt = x.rssiSum.toInt + r.rssi.toInt
  rssiNum : x.rssiNum.toNat < 255 → y.rssiNum = x.rssiNum + 1
  toaSum : -2147483648 ≤ x.toaSum.toInt + r.toa256.toInt →
    x.toaSum.toInt + r.toa256.toInt < 2147483648 → y.toaSum.toInt = x.toaSum.toInt + r.toa256.toInt
  toaNum : x.toaNum.toNat < 255 → y.toaNum = x.toaNum + 1
  noCi : r.hasCi = false → y.ciSum = x.ciSum ∧ y.ciNum = x.ciNum
  ciSum : r.hasCi = true → -2147483648 ≤ x.ciSum.toInt + r.ci.toInt →
    x.ciSum.toInt + r.ci.toInt < 2147483648 → y.ciSum.toInt = x.ciSum.toInt + r.ci.toInt
  ciNum : r.hasCi = true → x.ciNum.toNat < 255 → y.ciNum = x.ciNum + 1

theorem ChanState.storeUl_measuredNext (x : ChanState) (r : RxInd) (bid : Fin 8) (tag : Nat) :
    ChanState.MeasuredNext r x (x.storeUl r bid tag) where
  rssiSum := addSum_toInt
  rssiNum := addCount_of_lt
  toaSum := addSum_toInt
  toaNum := addCount_of_lt
  noCi h := by simp [ChanState.storeUl, ChanState.count, h]
  ciSum h hlow hhigh := by
    simp only [ChanState.storeUl, ChanState.count, h, if_true]
    exact addSum_toInt hlow hhigh
  ciNum h hlt := by
    simp only [ChanState.storeUl, ChanState.count, h, if_true]
    exact addCount_of_lt hlt

theorem ChanState.startUl_storeUl_measuredFirst (x : ChanState) (nb : Nat) (bid : Fin 8) (f0 : Fn)
    (r : RxInd) (tag : Nat) : ChanState.MeasuredFirst r ((x.startUl nb bid f0).storeUl r bid tag) where
  rssiSum := addSum_zero (by decide) _
  rssiNum := addCount_zero tag 0
  toaSum := addSum_zero (by decide) _
  toaNum := addCount_zero tag 1
  ciSum := by
    have hsum : addSum tag 2 0 r.ci.toInt = r.ci.signExtend 32 := addSum_zero (by decide) _
    simp only [ChanState.storeUl, ChanState.count, ChanState.startUl, ChanState.latchUl, hsum]
  ciNum := by
    simp only [ChanState.storeUl, ChanState.count, ChanState.startUl, ChanState.latchUl, addCount_zero]

/-! ### The buffer (R271) -/

/-- A portion of 116 elements written into a buffer. -/
theorem spliced_getElem? {α : Type} {buf p : List α} {a : Nat} (hp : p.length = 116)
    (ha : a ≤ buf.length) (i : Nat) : (buf.take a ++ p ++ buf.drop (a + 116))[i]? =
      if i < a then buf[i]? else if i < a + 116 then p[i - a]? else buf[i]? := by
  have hlen : (buf.take a).length = a := by rw [List.length_take, Nat.min_eq_left ha]
  split
  · next hi => rw [List.append_assoc, List.getElem?_append_left (by omega), List.getElem?_take_of_lt hi]
  · split
    · next hi =>
      rw [List.append_assoc, List.getElem?_append_right (by omega), hlen,
        List.getElem?_append_left (by omega)]
    · next hi =>
      have hpos : a + 116 + (i - (a + 116)) = i := by omega
      rw [List.getElem?_append_right (by rw [List.length_append]; omega), List.length_append, hlen, hp,
        List.getElem?_drop, hpos]

theorem unwrap_length (r : RxInd) : (unwrap r.bits.toList).length = 116 := by
  have hlen : r.bits.toList.length = 444 := Vector.length_toList
  rw [unwrap, List.length_append, slice_length _ _ _ (by omega), slice_length _ _ _ (by omega)]

/-- The two halves of a received payload (R272). -/
theorem unwrap_getElem? (r : RxInd) {k : Nat} (hk : k < 58) :
    (unwrap r.bits.toList)[k]? = r.bits[3 + k]? ∧ (unwrap r.bits.toList)[58 + k]? = r.bits[87 + k]? := by
  have hlen : (slice r.bits.toList 3 58).length = 58 :=
    slice_length _ _ _ (by rw [Vector.length_toList]; omega)
  have hrest : 58 + k - 58 = k := by omega
  constructor
  · rw [unwrap, List.getElem?_append_left (by omega), slice_getElem? _ _ hk, Vector.getElem?_toList]
  · rw [unwrap, List.getElem?_append_right (by omega), hlen, hrest, slice_getElem? _ _ hk,
      Vector.getElem?_toList]

/-! ### A channel state that can hold a burst (R270 (7)) -/

/-- The channel state with its uplink buffer allocated. -/
def ChanState.readyUl (x : ChanState) : ChanState := if x.ulAlloc then x else x.allocUl

theorem ChanState.readyUl_of_alloc {x : ChanState} (h : x.ulAlloc = true) : x.readyUl = x := if_pos h

/-- Allocation gives the buffer and changes nothing else while no burst is held. -/
theorem ChanState.readyUl_eq {x : ChanState} (h : x.ulAlloc = true ∨ x.ulMask = 0) :
    x.readyUl = { x with ulAlloc := true, ulBuf := x.readyUl.ulBuf } := by
  unfold ChanState.readyUl
  split
  · next halloc => rw [← halloc]
  · next halloc =>
    rw [ChanState.allocUl, ← h.resolve_left halloc]

theorem ChanState.readyUl_ulBuf_length {x : ChanState}
    (h : x.ulBuf.length = if x.ulAlloc then 928 else 0) : x.readyUl.ulBuf.length = 928 := by
  unfold ChanState.readyUl
  split
  · next halloc => rw [h, if_pos halloc]
  · exact List.length_replicate

/-! ### A channel state that holds one more burst (R271) -/

/-- The channel state after the burst `r` of number `bid` of a block of `nb` bursts that began at `f0`. -/
def ChanState.hearUl (x : ChanState) (nb : Nat) (bid : Fin 8) (f0 : Fn) (r : RxInd) (tag : Nat) :
    ChanState :=
  (if blockStarts x bid f0 then x.startUl nb bid f0 else x).storeUl r bid tag

section HearUl

variable (x : ChanState) (nb : Nat) (bid : Fin 8) (f0 : Fn) (r : RxInd) (tag : Nat)

theorem blockStarts_iff : blockStarts x bid f0 = true ↔ bid = 0 ∨ x.ulMask = 0 ∨ x.ulFirstFn ≠ f0 := by
  simp [blockStarts, or_assoc]

/-- What a burst leaves as it was, and what it always writes. -/
theorem ChanState.hearUl_fields : (x.hearUl nb bid f0 r tag).active = x.active ∧
    (x.hearUl nb bid f0 r tag).ulAlloc = x.ulAlloc ∧ (x.hearUl nb bid f0 r tag).modeP = x.modeP ∧
    (x.hearUl nb bid f0 r tag).ulFt = x.ulFt ∧ (x.hearUl nb bid f0 r tag).ulCmr = x.ulCmr ∧
    (x.hearUl nb bid f0 r tag).nproc = x.nproc + 1 ∧ (x.hearUl nb bid f0 r tag).lastFn = r.fn ∧
    (x.hearUl nb bid f0 r tag).lastValid = true := by
  unfold ChanState.hearUl
  split <;> exact ⟨rfl, rfl, rfl, rfl, rfl, rfl, rfl, rfl⟩

theorem ChanState.hearUl_ulMask : (x.hearUl nb bid f0 r tag).ulMask =
    (if blockStarts x bid f0 then 0 else x.ulMask) ||| (1#8 <<< bid.val) := by
  unfold ChanState.hearUl
  split <;> rfl

theorem ChanState.hearUl_modeUl : (x.hearUl nb bid f0 r tag).modeUl =
    if blockStarts x bid f0 then x.modeP else x.modeUl := by
  unfold ChanState.hearUl
  split <;> rfl

theorem ChanState.hearUl_ciphUl : (x.hearUl nb bid f0 r tag).ciphUl =
    if blockStarts x bid f0 then x.ciphUlP else x.ciphUl := by
  unfold ChanState.hearUl
  split <;> rfl

theorem ChanState.hearUl_ulFirstFn : (x.hearUl nb bid f0 r tag).ulFirstFn = f0 := by
  unfold ChanState.hearUl
  split
  · rfl
  · next h =>
    have hnot := mt (blockStarts_iff x bid f0).2 h
    simp only [not_or, not_not] at hnot
    obtain ⟨-, -, hfirst⟩ := hnot
    exact hfirst

theorem ChanState.hearUl_ulSync (h : x.ulSync = true ∨ bid = 0) :
    (x.hearUl nb bid f0 r tag).ulSync = true := by
  unfold ChanState.hearUl
  split
  · rcases h with h | h <;> simp [ChanState.storeUl, ChanState.count, ChanState.startUl,
      ChanState.latchUl, h]
  · next hstart => exact h.resolve_right fun hbid => hstart ((blockStarts_iff x bid f0).2 (.inl hbid))

/-- The bursts of an abandoned block are lost (R271 (a), R289). -/
theorem ChanState.hearUl_nlost : (x.hearUl nb bid f0 r tag).nlost =
    x.nlost + BitVec.ofNat 32 (if blockStarts x bid f0 = true ∧ x.ulMask ≠ 0 then nb else 0) := by
  unfold ChanState.hearUl
  by_cases hstart : blockStarts x bid f0 = true
  · by_cases hmask : x.ulMask = 0#8 <;>
      simp [ChanState.storeUl, ChanState.count, ChanState.startUl, ChanState.latchUl, hstart, hmask]
  · simp [ChanState.storeUl, ChanState.count, hstart]

theorem ChanState.hearUl_measuredFirst (h : blockStarts x bid f0 = true) :
    ChanState.MeasuredFirst r (x.hearUl nb bid f0 r tag) := by
  rw [ChanState.hearUl, if_pos h]
  exact x.startUl_storeUl_measuredFirst nb bid f0 r tag

theorem ChanState.hearUl_measuredNext (h : blockStarts x bid f0 = false) :
    ChanState.MeasuredNext r x (x.hearUl nb bid f0 r tag) := by
  rw [ChanState.hearUl, if_neg (by rw [h]; exact Bool.false_ne_true)]
  exact x.storeUl_measuredNext r bid tag

/-- The buffer that a burst is stored in. -/
def ChanState.heardBuf (x : ChanState) (nb : Nat) (bid : Fin 8) (f0 : Fn) : List SBit :=
  if blockStarts x bid f0 then List.replicate (116 * nb) SBit.zero ++ x.ulBuf.drop (116 * nb) else x.ulBuf

theorem ChanState.hearUl_ulBuf : (x.hearUl nb bid f0 r tag).ulBuf =
    (x.heardBuf nb bid f0).take (116 * bid.val) ++ unwrap r.bits.toList ++
      (x.heardBuf nb bid f0).drop (116 * bid.val + 116) := by
  unfold ChanState.hearUl ChanState.heardBuf
  split <;> rfl

variable (hlen : x.ulBuf.length = 928) (hnb : nb ≤ 8)
include hlen hnb

theorem ChanState.heardBuf_length : (x.heardBuf nb bid f0).length = 928 := by
  unfold ChanState.heardBuf
  split
  · rw [List.length_append, List.length_replicate, List.length_drop, hlen]
    omega
  · exact hlen

theorem ChanState.hearUl_ulBuf_getElem? (i : Nat) : (x.hearUl nb bid f0 r tag).ulBuf[i]? =
    if i < 116 * bid.val then (x.heardBuf nb bid f0)[i]?
    else if i < 116 * bid.val + 116 then (unwrap r.bits.toList)[i - 116 * bid.val]?
    else (x.heardBuf nb bid f0)[i]? := by
  rw [ChanState.hearUl_ulBuf]
  exact spliced_getElem? (unwrap_length r)
    (by rw [x.heardBuf_length nb bid f0 hlen hnb]; omega) i

/-- The payload stands in its portion of the buffer. -/
theorem ChanState.hearUl_payload {k : Nat} (hk : k < 58) :
    (x.hearUl nb bid f0 r tag).ulBuf[116 * bid.val + k]? = r.bits[3 + k]? ∧
    (x.hearUl nb bid f0 r tag).ulBuf[116 * bid.val + 58 + k]? = r.bits[87 + k]? := by
  obtain ⟨hleft, hright⟩ := unwrap_getElem? r hk
  have hpos : 116 * bid.val + k - 116 * bid.val = k := by omega
  have hpos' : 116 * bid.val + 58 + k - 116 * bid.val = 58 + k := by omega
  rw [x.hearUl_ulBuf_getElem? nb bid f0 r tag hlen hnb, x.hearUl_ulBuf_getElem? nb bid f0 r tag hlen hnb,
    if_neg (by omega), if_pos (by omega), if_neg (by omega), if_pos (by omega), hpos, hpos']
  exact ⟨hleft, hright⟩

/-- The rest of the block's buffer: zeros at a block start, otherwise as it was. -/
theorem ChanState.hearUl_rest {k : Nat} (hk : k < 116 * bid.val ∨ 116 * bid.val + 116 ≤ k) :
    (blockStarts x bid f0 = true → k < 116 * nb →
      (x.hearUl nb bid f0 r tag).ulBuf[k]? = some SBit.zero) ∧
    (blockStarts x bid f0 = false → (x.hearUl nb bid f0 r tag).ulBuf[k]? = x.ulBuf[k]?) := by
  have hget : (x.hearUl nb bid f0 r tag).ulBuf[k]? = (x.heardBuf nb bid f0)[k]? := by
    rw [x.hearUl_ulBuf_getElem? nb bid f0 r tag hlen hnb]
    split
    · rfl
    · rw [if_neg (by omega)]
  rw [hget, ChanState.heardBuf]
  constructor
  · intro hstart hin
    rw [if_pos hstart, List.getElem?_append_left (by rw [List.length_replicate]; exact hin),
      List.getElem?_replicate_of_lt hin]
  · intro hstart
    rw [hstart, if_neg Bool.false_ne_true]

end HearUl

/-! ### The commands' stages on the state (R270 (7), (8), R271) -/

/-- The state with the channel's uplink buffer allocated. -/
def State.readyUl (s : State) (tn : Tn) (ch : Chan) : State :=
  if (s.chan tn ch).ulAlloc then s
  else State.setChan { s with allocs := s.allocs + 1 } tn ch (s.chan tn ch).allocUl

theorem State.readyUl_receives (s : State) (tn : Tn) (ch : Chan) :
    State.Receives tn ch s (s.readyUl tn ch) := by
  unfold State.readyUl
  split
  · exact .refl s
  · exact ((State.Receives.refl s).countAllocs _).setChan _

theorem State.readyUl_evq (s : State) (tn : Tn) (ch : Chan) : (s.readyUl tn ch).evq = s.evq := by
  unfold State.readyUl
  split <;> rfl

theorem State.readyUl_rxind (s : State) (tn : Tn) (ch : Chan) : (s.readyUl tn ch).rxind = s.rxind :=
  (s.readyUl_receives tn ch).hostSideKept.rxind

theorem State.readyUl_chan (s : State) (tn : Tn) (ch : Chan) :
    (s.readyUl tn ch).chan tn ch = (s.chan tn ch).readyUl := by
  unfold State.readyUl ChanState.readyUl
  split
  · rfl
  · exact State.setChan_chan _ _ _ _

theorem allocAssemble_of_ready {P : Params} {tn : Tn} {ch : Chan} {bid : Fin 8} {f0 : Fn} {s : State}
    (h : (s.chan tn ch).ulAlloc = true ∨ P.allocOk s.allocs = true) :
    allocAssemble P tn ch bid f0 s = assembleUl P tn ch bid f0 (s.readyUl tn ch) := by
  unfold allocAssemble State.readyUl
  split
  · rfl
  · next halloc => rw [State.alloc_eq, h.resolve_left halloc]

/-- The log of an abandoned block. -/
def abandonedLog (tn : Tn) (ch : Chan) (x : ChanState) (bid : Fin 8) (f0 : Fn) : List Event :=
  if blockStarts x bid f0 = true ∧ x.ulMask ≠ 0 then [.log .abandoned tn ch x.ulFirstFn] else []

/-- The state after a burst is stored. -/
def State.hearUl (s : State) (tn : Tn) (ch : Chan) (bid : Fin 8) (f0 : Fn) : State :=
  { s.setChan tn ch ((s.chan tn ch).hearUl (nbUl ch) bid f0 s.rxind s.free) with
    evq := s.evq ++ abandonedLog tn ch (s.chan tn ch) bid f0, free := s.free + 1 }

theorem State.hearUl_chan (s : State) (tn : Tn) (ch : Chan) (bid : Fin 8) (f0 : Fn) :
    (s.hearUl tn ch bid f0).chan tn ch = (s.chan tn ch).hearUl (nbUl ch) bid f0 s.rxind s.free :=
  State.setChan_chan _ _ _ _

theorem assembleUl_eq (P : Params) (tn : Tn) (ch : Chan) (bid : Fin 8) (f0 : Fn) (s : State) :
    assembleUl P tn ch bid f0 s = if bid.val + 1 = nbUl ch then
      completeUl P tn ch (nbUl ch) ((s.chan tn ch).hearUl (nbUl ch) bid f0 s.rxind s.free)
        (s.hearUl tn ch bid f0)
      else .done (s.hearUl tn ch bid f0) := by
  have hlog : (if blockStarts (s.chan tn ch) bid f0 && (s.chan tn ch).ulMask != 0 then
      s.emit (.log .abandoned tn ch (s.chan tn ch).ulFirstFn) else s) =
      { s with evq := s.evq ++ abandonedLog tn ch (s.chan tn ch) bid f0 } := by
    unfold abandonedLog
    simp only [Bool.and_eq_true, bne_iff_ne]
    split
    · rfl
    · rw [List.append_nil]
  unfold assembleUl
  dsimp only
  rw [hlog]
  rfl

/-! ### `RX.BURST` on a channel with blocks -/

/-- A burst that reaches block assembly (R270 (3) to (8)). -/
structure State.Assembles (P : Params) (s : State) (l : Layout) (ch : Chan) (bid : Fin 8) : Prop where
  routed : s.RoutedTo P l ch bid
  family : ulFamily ch ∈ [Family.xcch, .pdtch, .tch]
  active : s.isActive s.rxind.slot ch = true
  sync : (s.chan s.rxind.slot ch).ulSync = true ∨ bid = 0
  ready : (s.chan s.rxind.slot ch).ulAlloc = true ∨
    ((s.chan s.rxind.slot ch).ulMask = 0 ∧ P.allocOk s.allocs = true)

/-- The channel state after the burst is stored. -/
def State.heardChan (s : State) (l : Layout) (ch : Chan) (bid : Fin 8) : ChanState :=
  (s.chan s.rxind.slot ch).readyUl.hearUl (nbUl ch) bid (s.rxFirst l) s.rxind
    (s.readyUl s.rxind.slot ch).free

/-- The state after the burst is stored. -/
def State.heard (s : State) (l : Layout) (ch : Chan) (bid : Fin 8) : State :=
  (s.readyUl s.rxind.slot ch).hearUl s.rxind.slot ch bid (s.rxFirst l)

section Heard

variable (s : State) (l : Layout) (ch : Chan) (bid : Fin 8)

theorem State.heard_chan : (s.heard l ch bid).chan s.rxind.slot ch = s.heardChan l ch bid := by
  rw [State.heard, State.hearUl_chan, State.readyUl_chan, State.readyUl_rxind, State.heardChan]

theorem State.heard_receives : State.Receives s.rxind.slot ch s (s.heard l ch bid) :=
  (s.readyUl_receives _ _).trans ⟨rfl, ⟨_, rfl⟩,
    fun _ _ hkc => State.setChan_chan_ne _ _ _ _ _ _ (not_and_or.1 hkc)⟩

theorem State.heardChan_ulFirstFn : (s.heardChan l ch bid).ulFirstFn = s.rxFirst l :=
  ChanState.hearUl_ulFirstFn _ _ _ _ _ _

theorem State.heardChan_payload (hlen : (s.chan s.rxind.slot ch).ulBuf.length =
    if (s.chan s.rxind.slot ch).ulAlloc then 928 else 0) {k : Nat} (hk : k < 58) :
    (s.heardChan l ch bid).ulBuf[116 * bid.val + k]? = s.rxind.bits[3 + k]? ∧
    (s.heardChan l ch bid).ulBuf[116 * bid.val + 58 + k]? = s.rxind.bits[87 + k]? :=
  ChanState.hearUl_payload _ _ _ _ _ _ (ChanState.readyUl_ulBuf_length hlen) (nbUl_le ch) hk

end Heard

namespace State.Assembles

variable {P : Params} {s : State} {l : Layout} {ch : Chan} {bid : Fin 8} (h : s.Assembles P l ch bid)

include h

theorem mask : (s.chan s.rxind.slot ch).ulAlloc = true ∨ (s.chan s.rxind.slot ch).ulMask = 0 :=
  h.ready.imp_right And.left

/-- Whether a block starts is seen in the channel state before allocation. -/
theorem blockStarts_readyUl : blockStarts (s.chan s.rxind.slot ch).readyUl bid (s.rxFirst l) =
    blockStarts (s.chan s.rxind.slot ch) bid (s.rxFirst l) := by
  rw [ChanState.readyUl_eq h.mask]
  rfl

theorem execIn_eq : execIn P .rxBurst s =
    (if bid.val + 1 = nbUl ch then
      completeUl P s.rxind.slot ch (nbUl ch) (s.heardChan l ch bid) (s.heard l ch bid)
    else .done (s.heard l ch bid)).scratched.finish := by
  have hcodec : ulFamily ch ≠ .none ∧ ulFamily ch ≠ .rach := by
    constructor <;> intro heq <;> exact absurd h.family (by rw [heq]; decide)
  obtain ⟨hnone, hrach⟩ := hcodec
  have hgo : ¬((s.chan s.rxind.slot ch).ulSync = false ∧ bid ≠ 0) := by
    rintro ⟨hsync, hbid⟩
    rcases h.sync with hs | hb
    · rw [hsync] at hs; cases hs
    · exact hbid hb
  rw [execIn_rxBurst_of_routedTo h.routed, routeUl_of_routedTo h.routed,
    if_neg (by simp [hnone, h.active]), if_neg hrach, if_neg hgo,
    allocAssemble_of_ready (h.ready.imp_right And.right), assembleUl_eq, State.readyUl_chan,
    State.readyUl_rxind]
  rfl

theorem heard_evq : (s.heard l ch bid).evq =
    s.evq ++ abandonedLog s.rxind.slot ch (s.chan s.rxind.slot ch) bid (s.rxFirst l) := by
  have hlog : abandonedLog s.rxind.slot ch (s.chan s.rxind.slot ch).readyUl bid (s.rxFirst l) =
      abandonedLog s.rxind.slot ch (s.chan s.rxind.slot ch) bid (s.rxFirst l) := by
    rw [ChanState.readyUl_eq h.mask]
    rfl
  show (s.readyUl s.rxind.slot ch).evq ++ _ = _
  rw [State.readyUl_evq, State.readyUl_chan, hlog]

/-- What the burst leaves of the channel state as it was, and what it always writes. -/
theorem heardChan_fields : (s.heardChan l ch bid).active = (s.chan s.rxind.slot ch).active ∧
    (s.heardChan l ch bid).ulAlloc = true ∧
    (s.heardChan l ch bid).modeP = (s.chan s.rxind.slot ch).modeP ∧
    (s.heardChan l ch bid).ulFt = (s.chan s.rxind.slot ch).ulFt ∧
    (s.heardChan l ch bid).ulCmr = (s.chan s.rxind.slot ch).ulCmr ∧
    (s.heardChan l ch bid).nproc = (s.chan s.rxind.slot ch).nproc + 1 ∧
    (s.heardChan l ch bid).lastFn = s.rxind.fn ∧ (s.heardChan l ch bid).lastValid = true := by
  have hfields := (s.chan s.rxind.slot ch).readyUl.hearUl_fields (nbUl ch) bid (s.rxFirst l) s.rxind
    (s.readyUl s.rxind.slot ch).free
  rw [ChanState.readyUl_eq h.mask] at hfields
  rw [State.heardChan, ChanState.readyUl_eq h.mask]
  exact hfields

theorem heardChan_ulSync : (s.heardChan l ch bid).ulSync = true := by
  refine ChanState.hearUl_ulSync _ _ _ _ _ _ ?_
  rw [ChanState.readyUl_eq h.mask]
  exact h.sync

theorem heardChan_ulMask : (s.heardChan l ch bid).ulMask =
    (if blockStarts (s.chan s.rxind.slot ch) bid (s.rxFirst l) then 0
      else (s.chan s.rxind.slot ch).ulMask) ||| (1#8 <<< bid.val) := by
  rw [State.heardChan, ChanState.hearUl_ulMask, h.blockStarts_readyUl, ChanState.readyUl_eq h.mask]

theorem heardChan_modeUl : (s.heardChan l ch bid).modeUl =
    if blockStarts (s.chan s.rxind.slot ch) bid (s.rxFirst l) then (s.chan s.rxind.slot ch).modeP
      else (s.chan s.rxind.slot ch).modeUl := by
  rw [State.heardChan, ChanState.hearUl_modeUl, h.blockStarts_readyUl, ChanState.readyUl_eq h.mask]

theorem heardChan_ciphUl : (s.heardChan l ch bid).ciphUl =
    if blockStarts (s.chan s.rxind.slot ch) bid (s.rxFirst l) then (s.chan s.rxind.slot ch).ciphUlP
      else (s.chan s.rxind.slot ch).ciphUl := by
  rw [State.heardChan, ChanState.hearUl_ciphUl, h.blockStarts_readyUl, ChanState.readyUl_eq h.mask]

theorem heardChan_nlost : (s.heardChan l ch bid).nlost = (s.chan s.rxind.slot ch).nlost +
    BitVec.ofNat 32 (if blockStarts (s.chan s.rxind.slot ch) bid (s.rxFirst l) = true ∧
      (s.chan s.rxind.slot ch).ulMask ≠ 0 then nbUl ch else 0) := by
  rw [State.heardChan, ChanState.hearUl_nlost, h.blockStarts_readyUl, ChanState.readyUl_eq h.mask]

theorem heardChan_measuredFirst
    (hstart : blockStarts (s.chan s.rxind.slot ch) bid (s.rxFirst l) = true) :
    ChanState.MeasuredFirst s.rxind (s.heardChan l ch bid) :=
  ChanState.hearUl_measuredFirst _ _ _ _ _ _ (h.blockStarts_readyUl.trans hstart)

/-- A block goes on only in an allocated buffer. -/
theorem readyUl_of_not_start (hstart : blockStarts (s.chan s.rxind.slot ch) bid (s.rxFirst l) = false) :
    (s.chan s.rxind.slot ch).readyUl = s.chan s.rxind.slot ch := by
  refine ChanState.readyUl_of_alloc (h.mask.resolve_right fun hmask => ?_)
  have htrue := (blockStarts_iff (s.chan s.rxind.slot ch) bid (s.rxFirst l)).2 (.inr (.inl hmask))
  rw [hstart] at htrue
  cases htrue

theorem heardChan_measuredNext
    (hstart : blockStarts (s.chan s.rxind.slot ch) bid (s.rxFirst l) = false) :
    ChanState.MeasuredNext s.rxind (s.chan s.rxind.slot ch) (s.heardChan l ch bid) := by
  rw [State.heardChan, h.readyUl_of_not_start hstart]
  exact ChanState.hearUl_measuredNext _ _ _ _ _ _ hstart

variable (hlen : (s.chan s.rxind.slot ch).ulBuf.length =
  if (s.chan s.rxind.slot ch).ulAlloc then 928 else 0)
include hlen

theorem heardChan_rest_of_start
    (hstart : blockStarts (s.chan s.rxind.slot ch) bid (s.rxFirst l) = true) {k : Nat}
    (hin : k < 116 * nbUl ch) (hk : k < 116 * bid.val ∨ 116 * bid.val + 116 ≤ k) :
    (s.heardChan l ch bid).ulBuf[k]? = some SBit.zero :=
  (ChanState.hearUl_rest _ _ _ _ _ _ (ChanState.readyUl_ulBuf_length hlen) (nbUl_le ch) hk).1
    (h.blockStarts_readyUl.trans hstart) hin

theorem heardChan_rest_of_not_start
    (hstart : blockStarts (s.chan s.rxind.slot ch) bid (s.rxFirst l) = false) {k : Nat}
    (hk : k < 116 * bid.val ∨ 116 * bid.val + 116 ≤ k) :
    (s.heardChan l ch bid).ulBuf[k]? = (s.chan s.rxind.slot ch).ulBuf[k]? := by
  have hrest := (ChanState.hearUl_rest (s.chan s.rxind.slot ch).readyUl (nbUl ch) bid (s.rxFirst l)
    s.rxind (s.readyUl s.rxind.slot ch).free (ChanState.readyUl_ulBuf_length hlen) (nbUl_le ch) hk).2
    (h.blockStarts_readyUl.trans hstart)
  rw [State.heardChan, hrest, h.readyUl_of_not_start hstart]

end State.Assembles

/-- A burst that is not the last of its block is stored and nothing more (R271 (b)). -/
theorem State.Assembles.execIn_stored {P : Params} {s : State} {l : Layout} {ch : Chan} {bid : Fin 8}
    (h : s.Assembles P l ch bid) (hbid : bid.val + 1 < nbUl ch) :
    execIn P .rxBurst s = .next ((s.heard l ch bid).scratch.raise .none 0) := by
  rw [h.execIn_eq, if_neg (Nat.ne_of_lt hbid)]
  rfl

end Sys2Proof.Machine

namespace Sys2Proof.Proofs

open Sys2Proof.Machine

/-- Settles O50: a stored burst leaves the channel state `State.heardChan`, by whether it starts a block. -/
theorem rxStoresBurst : Obligations.RxStoresBurst := by
  unfold Obligations.RxStoresBurst
  rintro P s l ch bid _ hroute hfam hact rfl hsync hready hlen hbid
  have h : s.Assembles P l ch bid := ⟨hroute, hfam, hact, hsync, hready⟩
  have hexec := h.execIn_stored hbid
  obtain ⟨hactive, halloc, hmodeP, -, -, hnproc, hlastFn, hlastValid⟩ := h.heardChan_fields
  have hchan : ((s.heard l ch bid).scratch.raise .none 0).chan s.rxind.slot ch = s.heardChan l ch bid :=
    s.heard_chan l ch bid
  have hevq : ((s.heard l ch bid).scratch.raise .none 0).evq =
      s.evq ++ abandonedLog s.rxind.slot ch (s.chan s.rxind.slot ch) bid (s.rxFirst l) := h.heard_evq
  have hmask := h.heardChan_ulMask
  have hmode := h.heardChan_modeUl
  have hciph := h.heardChan_ciphUl
  have hnlost := h.heardChan_nlost
  refine ⟨_, s.heardChan l ch bid, hexec, fun hP => by rw [exec_eq_execIn, ← hP]; exact hexec, rfl,
    hchan.symm, (s.heard_receives l ch bid).others, halloc, h.heardChan_ulSync, hactive, hmodeP, hnproc, hlastFn,
    hlastValid, fun k hk => s.heardChan_payload l ch bid hlen hk, fun hstart => ?start,
    fun hne hheld hfirst => ?goesOn⟩
  case start =>
    rw [← blockStarts_iff] at hstart
    obtain ⟨hrssi, hrssiNum, htoa, htoaNum, hci, hciNum⟩ := h.heardChan_measuredFirst hstart
    simp only [hstart, if_true, true_and] at hmask hmode hciph hnlost
    rw [abandonedLog, hstart] at hevq
    simp only [true_and] at hevq
    refine ⟨s.heardChan_ulFirstFn l ch bid, hmask.trans BitVec.zero_or, hmode, hciph,
      fun k hin hk => h.heardChan_rest_of_start hlen hstart hin hk, hrssi, hrssiNum, htoa, htoaNum, hci,
      hciNum, fun hheld => ⟨?_, ?_⟩, fun hheld => ⟨?_, ?_⟩⟩
    · simpa [hheld] using hnlost
    · simpa [hheld] using hevq
    · rw [hnlost, if_pos hheld]
    · rw [hevq, if_pos hheld]
  case goesOn =>
    have hstart : blockStarts (s.chan s.rxind.slot ch) bid (s.rxFirst l) = false := by
      rw [← Bool.not_eq_true, blockStarts_iff]
      exact not_or.2 ⟨hne, not_or.2 ⟨hheld, not_not.2 hfirst⟩⟩
    obtain ⟨hrssi, hrssiNum, htoa, htoaNum, hnoCi, hci, hciNum⟩ := h.heardChan_measuredNext hstart
    simp only [hstart, Bool.false_eq_true, if_false, false_and, BitVec.add_zero] at hmask hmode hciph hnlost
    rw [abandonedLog, hstart] at hevq
    simp only [Bool.false_eq_true, false_and, if_false, List.append_nil] at hevq
    exact ⟨(s.heardChan_ulFirstFn l ch bid).trans hfirst.symm, hmask, hmode, hciph, hnlost, hevq,
      fun k hk => h.heardChan_rest_of_not_start hlen hstart hk, hrssi, hrssiNum, htoa, htoaNum, hnoCi,
      hci, hciNum⟩

end Sys2Proof.Proofs
end

