-- ==== Sys2Proof/Proofs/BlockCompletion.lean ====
section
/-! The end of an uplink block (47_scheduler.md R273, R274): its decoder reads the stored bursts and, on AMR, the
channel's configuration alone, so it ends as the decoder command ends on any state that has them. -/

namespace Sys2Proof.Machine

/-! ### Two runs of a decoder on the same bursts -/

/-- The two bodies end alike: with the same PDU and results that `R` relates, or with the same error, a range
error with the same index. -/
inductive Cmd.SameEnd (R : Res → Res → Prop) : Cmd → Cmd → Prop
  | done {a b : State} (hpdu : a.pdu = b.pdu) (hres : R a.res b.res) : Cmd.SameEnd R (.done a) (.done b)
  | raised {e : ErrCode} {info : Nat} {a b : State} (he : e ≠ .none)
      (hidx : e = .modeRange → a.res.idx = b.res.idx) : Cmd.SameEnd R (.raised e info a) (.raised e info b)

theorem Cmd.SameEnd.mono {R R' : Res → Res → Prop} {c c' : Cmd} (h : c.SameEnd R c')
    (hR : ∀ a b, R a b → R' a b) : c.SameEnd R' c' := by
  cases h with
  | done hpdu hres => exact .done hpdu (hR _ _ hres)
  | raised he hidx => exact .raised he hidx

/-- The same error estimate (R127). -/
structure Res.SameErrors (a b : Res) : Prop where
  nerr : a.nerr = b.nerr
  nbits : a.nbits = b.nbits

section Stages

variable {R R' : Res → Res → Prop} {a b : State}

theorem State.checkBlock_sameEnd (h : R a.res b.res) (x : CrcSel) (d p : List UBit) (pdu : List Byte) :
    (a.checkBlock x d p pdu).SameEnd R (b.checkBlock x d p pdu) := by
  unfold State.checkBlock
  split
  · exact .done ((State.setPdu_pdu _ _).trans (State.setPdu_pdu _ _).symm) h
  · exact .raised nofun nofun

theorem State.decodeControl_sameEnd {P : Params} {cs : List SBit}
    (h : R (a.trellis P xcchCode cs 224).res (b.trellis P xcchCode cs 224).res) :
    (a.decodeControl P cs).SameEnd R (b.decodeControl P cs) :=
  State.checkBlock_sameEnd h _ _ _ _

/-- The results of packet data that the receive path reports (R274). -/
structure Res.SamePacket (a b : Res) : Prop where
  errors : a.SameErrors b
  usf : a.usf = b.usf
  cs : a.cs = b.cs

theorem State.finishPacket_sameEnd (herrors : a.res.SameErrors b.res) (hcs : a.res.cs = b.res.cs)
    (scheme : Scheme) (wd : Nat) (u : List UBit) :
    (a.finishPacket scheme wd u).SameEnd Res.SamePacket (b.finishPacket scheme wd u) := by
  unfold State.finishPacket
  refine State.checkBlock_sameEnd (R := Res.SamePacket) ?_ _ _ _ _
  exact ⟨⟨herrors.nerr, herrors.nbits⟩, rfl, hcs⟩

theorem State.decodeCoded_sameEnd (P : Params) (hcs : a.res.cs = b.res.cs) (scheme : Scheme) (mask : Mask)
    (cs : List SBit) :
    (a.decodeCoded P scheme mask cs).SameEnd Res.SamePacket (b.decodeCoded P scheme mask cs) := by
  unfold State.decodeCoded
  refine State.finishPacket_sameEnd ?_ ?_ _ _ _
  · exact ⟨rfl, rfl⟩
  · exact hcs

theorem State.decodePlain_sameEnd (hcs : a.res.cs = b.res.cs) (cs : List SBit) :
    (a.decodePlain cs).SameEnd Res.SamePacket (b.decodePlain cs) := by
  unfold State.decodePlain
  refine State.finishPacket_sameEnd ?_ ?_ _ _ _
  · exact ⟨rfl, rfl⟩
  · exact hcs

theorem State.decodeScheme1_sameEnd (P : Params) (hcs : a.res.cs = b.res.cs) (cs : List SBit) :
    (a.decodeScheme1 P cs).SameEnd Res.SamePacket (b.decodeScheme1 P cs) := by
  have hcontrol : (a.decodeControl P cs).SameEnd (fun r r' => r.SameErrors r' ∧ r.cs = r'.cs)
      (b.decodeControl P cs) := State.decodeControl_sameEnd ⟨⟨rfl, rfl⟩, hcs⟩
  unfold State.decodeScheme1
  generalize a.decodeControl P cs = c at hcontrol
  generalize b.decodeControl P cs = c' at hcontrol
  cases hcontrol with
  | done hpdu hres =>
    obtain ⟨herrors, hcs'⟩ := hres
    exact .done hpdu ⟨⟨herrors.nerr, herrors.nbits⟩, congrArg usfOf hpdu, hcs'⟩
  | raised he hidx => exact .raised he hidx

/-- The results of a traffic block that the receive path reports (R274). -/
structure Res.SameTraffic (a b : Res) : Prop where
  errors : a.SameErrors b
  steal : a.steal = b.steal

theorem State.decodeSpeech_sameEnd (P : Params) (hsteal : a.res.steal = b.res.steal) (speech : Efr)
    (cs : List SBit) : (a.decodeSpeech P speech cs).SameEnd Res.SameTraffic (b.decodeSpeech P speech cs) := by
  unfold State.decodeSpeech
  dsimp only
  split
  · split
    · exact .done ((State.setPdu_pdu _ _).trans (State.setPdu_pdu _ _).symm) ⟨⟨rfl, rfl⟩, hsteal⟩
    · exact .raised nofun nofun
  · exact .raised nofun nofun

/-- The results of an AMR block that the receive path reports (R274). -/
structure Res.SameAmr (a b : Res) : Prop where
  traffic : a.SameTraffic b
  ft : a.ft = b.ft
  cmr : a.cmr = b.cmr

theorem State.decodeAfs_sameEnd (P : Params) (hsteal : a.res.steal = b.res.steal) (hft : a.res.ft = b.res.ft)
    (hcmr : a.res.cmr = b.res.cmr) (phase : Phase) (m : BitVec 3) (idx : Nat) (soft : List SBit) :
    (a.decodeAfs P phase m idx soft).SameEnd Res.SameAmr (b.decodeAfs P phase m idx soft) := by
  have hcheck (x : CrcSel) (d p : List UBit) (pdu : List Byte) (kd : Nat) :=
    State.checkBlock_sameEnd (R := Res.SameAmr)
      (a := (a.setSoftC soft).trellis P (afsCodeOf P m).1 soft kd)
      (b := (b.setSoftC soft).trellis P (afsCodeOf P m).1 soft kd)
      ⟨⟨⟨rfl, rfl⟩, hsteal⟩, hft, hcmr⟩ x d p pdu
  unfold State.decodeAfs
  dsimp only
  generalize hc : State.checkBlock _ _ _ _ _ = c
  generalize hc' : State.checkBlock _ _ _ _ _ = c'
  have hsame : c.SameEnd Res.SameAmr c' := hc ▸ hc' ▸ hcheck _ _ _ _ _
  cases hsame with
  | done hpdu hres =>
    obtain ⟨⟨⟨hnerr, hnbits⟩, hsteal⟩, hft, hcmr⟩ := hres
    refine .done ?_ ?_
    · cases phase <;> exact hpdu
    · cases phase with
      | cmi => exact ⟨⟨⟨hnerr, hnbits⟩, hsteal⟩, rfl, hcmr⟩
      | cmr => exact ⟨⟨⟨hnerr, hnbits⟩, hsteal⟩, hft, rfl⟩
  | raised he hidx => exact .raised he hidx

end Stages

section Decoders

variable (P : Params) {a b : State} (h : a.softE = b.softE)
include h

theorem es_len_eq_of_softE_eq : a.mem.es.len = b.mem.es.len := by
  rw [← State.softE_length, h, State.softE_length]

theorem xcchDecBody_sameEnd : (xcchDecBody P a).SameEnd Res.SameErrors (xcchDecBody P b) := by
  unfold xcchDecBody
  rw [es_len_eq_of_softE_eq h, h]
  split
  · exact .raised nofun nofun
  · refine State.decodeControl_sameEnd ?_
    exact ⟨rfl, rfl⟩

theorem pdtchDecBody_sameEnd : (pdtchDecBody P a).SameEnd Res.SamePacket (pdtchDecBody P b) := by
  unfold pdtchDecBody
  rw [es_len_eq_of_softE_eq h, h]
  split
  · exact .raised nofun nofun
  · dsimp only
    split
    · refine State.decodeScheme1_sameEnd P ?_ _
      rfl
    · refine State.decodeCoded_sameEnd P ?_ _ _ _
      rfl
    · refine State.decodeCoded_sameEnd P ?_ _ _ _
      rfl
    · refine State.decodePlain_sameEnd ?_ _
      rfl

theorem tchfrDecBody_sameEnd (speech : Efr) :
    (tchfrDecBody P speech a).SameEnd Res.SameTraffic (tchfrDecBody P speech b) := by
  unfold tchfrDecBody
  rw [es_len_eq_of_softE_eq h, h]
  split
  · exact .raised nofun nofun
  · dsimp only
    split
    · refine State.decodeControl_sameEnd ?_
      exact ⟨⟨rfl, rfl⟩, rfl⟩
    · refine State.decodeSpeech_sameEnd P ?_ speech _
      rfl

theorem tchafsDecBody_sameEnd (hw : a.wamr = b.wamr) (phase : Phase) :
    (tchafsDecBody P phase a).SameEnd Res.SameAmr (tchafsDecBody P phase b) := by
  unfold tchafsDecBody
  rw [es_len_eq_of_softE_eq h, h, hw]
  split
  · exact .raised nofun nofun
  · dsimp only
    split
    · refine State.decodeControl_sameEnd ?_
      exact ⟨⟨⟨rfl, rfl⟩, rfl⟩, rfl, rfl⟩
    · split
      · exact .raised nofun fun _ => rfl
      · split
        · exact .raised nofun nofun
        · refine State.decodeAfs_sameEnd P ?_ ?_ ?_ phase _ _ _ <;> rfl

end Decoders

/-! ### The decoder of a channel and its command (R273) -/

/-- The results of a block of channel `ch` in a mode that the receive path reports (R274). -/
structure Res.SameReport (ch : Chan) (mode : Mode) (a b : Res) : Prop where
  errors : a.SameErrors b
  packet : ulFamily ch = .pdtch → a.usf = b.usf ∧ a.cs = b.cs
  traffic : ulFamily ch = .tch → a.steal = b.steal
  indices : ulFamily ch = .tch → mode.tchMode = .amr → a.ft = b.ft ∧ a.cmr = b.cmr

/-- The decoder command on a state with the block's bursts and, on AMR, the channel's configuration. -/
structure State.DecodesUl (P : Params) (ch : Chan) (x : ChanState) (es : List SBit) (d u : State) : Prop where
  bursts : d.softE = es
  config : ulFamily ch = .tch → x.modeUl.tchMode = .amr → d.wamr = wamrOf x.modeUl x.ulFt x.ulCmr
  next : execIn P (ulCommand P ch x.modeUl x.ulFirstFn) d = .next u

/-- How the receive path's decoder ends, from the outcome `u` of the command. -/
inductive Cmd.DecodedLike (ch : Chan) (mode : Mode) (u : State) : Cmd → Prop
  | delivered {v : State} (h : Delivered ch mode u) (hpdu : v.pdu = u.pdu)
      (hres : v.res.SameReport ch mode u.res) : Cmd.DecodedLike ch mode u (.done v)
  | failed {e : ErrCode} {info : Nat} {v : State} (h : ¬Delivered ch mode u)
      (hcode : e = .modeRange ↔ u.stat.code = ErrCode.modeRange.code)
      (hidx : e = .modeRange → v.res.idx = u.res.idx) : Cmd.DecodedLike ch mode u (.raised e info v)

theorem ErrCode.code_eq_iff (e e' : ErrCode) : e.code = e'.code ↔ e = e' := by
  cases e <;> cases e' <;> decide

/-- A decoder that ends as its command does; a block of a signalling-only channel is delivered if stolen. -/
theorem Cmd.SameEnd.decodedLike {R : Res → Res → Prop} {ch : Chan} {mode : Mode} {c c' : Cmd} {u : State}
    (h : c.SameEnd R c') (hu : c'.finish = .next u) (hR : ∀ r r', R r r' → r.SameReport ch mode r')
    (hmode : ulFamily ch = .tch → mode.tchMode ≠ .sign) : c.DecodedLike ch mode u := by
  cases h with
  | done hpdu hres =>
    obtain rfl := Host.Outcome.next.inj hu
    exact .delivered ⟨rfl, fun hch hsign => absurd hsign (hmode hch)⟩ hpdu (hR _ _ hres)
  | @raised e info a b he hidx =>
    obtain rfl := Host.Outcome.next.inj hu
    refine .failed (fun hdel => he ?_) (ErrCode.code_eq_iff e .modeRange).symm hidx
    exact (ErrCode.code_eq_iff e .none).1 (congrArg Stat.code hdel.1)

/-- The filter of a signalling-only channel (R273). -/
theorem runDecoder_sign {P : Params} {ch : Chan} {x : ChanState} {a b u : State} (hch : ulFamily ch = .tch)
    (hsign : x.modeUl.tchMode = .sign) (h : a.softE = b.softE)
    (hu : (tchfrDecBody P .fr b).finish = .next u) :
    (runDecoder P ch x a).DecodedLike ch x.modeUl u := by
  have hsame := tchfrDecBody_sameEnd P h .fr
  have hnotamr : x.modeUl.tchMode ≠ .amr := by rw [hsign]; decide
  unfold runDecoder
  rw [hch, hsign]
  dsimp only
  generalize tchfrDecBody P .fr a = c at hsame
  generalize tchfrDecBody P .fr b = c' at hsame hu
  cases hsame with
  | @done v w hpdu hres =>
    obtain rfl := Host.Outcome.next.inj hu
    have hsteal : v.res.steal = w.res.steal := hres.steal
    dsimp only
    split
    · next hs =>
      exact .delivered ⟨rfl, fun _ _ => hsteal ▸ hs⟩ hpdu
        ⟨hres.errors, fun hpk => (by rw [hch] at hpk; cases hpk), fun _ => hsteal,
          fun _ hamr => absurd hamr hnotamr⟩
    · next hs =>
      refine .failed (fun hdel => hs ?_) (iff_of_false nofun (mt (ErrCode.code_eq_iff .none .modeRange).1 nofun)) nofun
      rw [hsteal]
      exact hdel.2 hch hsign
  | @raised e info v w he hidx =>
    obtain rfl := Host.Outcome.next.inj hu
    refine .failed (fun hdel => he ?_) (ErrCode.code_eq_iff e .modeRange).symm hidx
    exact (ErrCode.code_eq_iff e .none).1 (congrArg Stat.code hdel.1)

theorem runDecoder_decodedLike {P : Params} {ch : Chan} {x : ChanState} {es : List SBit} {a d u : State}
    (hfam : ulFamily ch ∈ [Family.xcch, .pdtch, .tch]) (ha : a.softE = es)
    (h : State.DecodesUl P ch x es d u) : (runDecoder P ch x a).DecodedLike ch x.modeUl u := by
  obtain ⟨hbursts, hconfig, hnext⟩ := h
  have hsoft : a.softE = d.softE := ha.trans hbursts.symm
  simp only [List.mem_cons, List.not_mem_nil, or_false] at hfam
  obtain hch | hch | hch := hfam
  · have hcommand : ulCommand P ch x.modeUl x.ulFirstFn = .xcchDec := by rw [ulCommand, hch]
    rw [hcommand] at hnext
    unfold runDecoder
    rw [hch]
    exact (xcchDecBody_sameEnd P hsoft).decodedLike hnext (fun r r' hr => ⟨hr, by simp [hch],
      by simp [hch], by simp [hch]⟩) (by simp [hch])
  · have hcommand : ulCommand P ch x.modeUl x.ulFirstFn = .pdtchDec := by rw [ulCommand, hch]
    rw [hcommand] at hnext
    unfold runDecoder
    rw [hch]
    exact (pdtchDecBody_sameEnd P hsoft).decodedLike hnext (fun r r' hr => ⟨hr.errors,
      fun _ => ⟨hr.usf, hr.cs⟩, by simp [hch], by simp [hch]⟩) (by simp [hch])
  · have htraffic (r r' : Res) (hr : r.SameTraffic r') (hamr : x.modeUl.tchMode ≠ .amr) :
        r.SameReport ch x.modeUl r' :=
      ⟨hr.errors, by simp [hch], fun _ => hr.steal, fun _ h => absurd h hamr⟩
    cases hmode : x.modeUl.tchMode with
    | sign =>
      have hcommand : ulCommand P ch x.modeUl x.ulFirstFn = .tchfrDec .fr := by rw [ulCommand, hch, hmode]
      rw [hcommand] at hnext
      exact runDecoder_sign hch hmode hsoft hnext
    | fr =>
      have hcommand : ulCommand P ch x.modeUl x.ulFirstFn = .tchfrDec .fr := by rw [ulCommand, hch, hmode]
      rw [hcommand] at hnext
      unfold runDecoder
      rw [hch, hmode]
      exact (tchfrDecBody_sameEnd P hsoft .fr).decodedLike hnext
        (fun r r' hr => htraffic r r' hr (by rw [hmode]; decide)) fun _ => by rw [hmode]; decide
    | efr =>
      have hcommand : ulCommand P ch x.modeUl x.ulFirstFn = .tchfrDec .efr := by rw [ulCommand, hch, hmode]
      rw [hcommand] at hnext
      unfold runDecoder
      rw [hch, hmode]
      exact (tchfrDecBody_sameEnd P hsoft .efr).decodedLike hnext
        (fun r r' hr => htraffic r r' hr (by rw [hmode]; decide)) fun _ => by rw [hmode]; decide
    | amr =>
      have hcommand : ulCommand P ch x.modeUl x.ulFirstFn = .tchafsDec (P.amrPhase x.ulFirstFn) := by
        rw [ulCommand, hch, hmode]
      rw [hcommand] at hnext
      unfold runDecoder
      rw [hch, hmode]
      exact (tchafsDecBody_sameEnd P (a := { a with wamr := wamrOf x.modeUl x.ulFt x.ulCmr }) hsoft
        (hconfig hch hmode).symm _).decodedLike hnext (fun r r' hr => ⟨hr.traffic.errors, by simp [hch],
          fun _ => hr.traffic.steal, fun _ _ => ⟨hr.ft, hr.cmr⟩⟩) fun _ => by rw [hmode]; decide

end Sys2Proof.Machine
end

