-- ==== Sys2Proof/Proofs/BlockDelivery.lean ====
section
/-! The end of an uplink block (47_scheduler.md R273, R274, R289): the outcome of its decoder command decides
between a `DATAIND`, a `MODEIND` and silence. -/

namespace Sys2Proof.Machine

open Cmd.Ends

/-! ### The counters and the log of missing bursts -/

/-- The number of bursts that a block of mask `mask` misses. -/
def missing (nb : Nat) (mask : Byte) : Nat := if mask = fullMask nb then 0 else nb - popcount mask

/-- The log of an incomplete block. -/
def incompleteLog (tn : Tn) (ch : Chan) (nb : Nat) (x : ChanState) : List Event :=
  if x.ulMask = fullMask nb then [] else [.log .incomplete tn ch x.ulFirstFn]

/-- The bursts that a block misses are counted as lost. -/
theorem ChanState.lose_missing (x : ChanState) (nb : Nat) :
    (if x.ulMask != fullMask nb then x.lose (nb - popcount x.ulMask) else x) =
      x.lose (missing nb x.ulMask) := by
  unfold missing
  simp only [bne_iff_ne, ne_eq, ite_not]
  split
  · exact congrArg (fun n => { x with nlost := n }) (BitVec.add_zero x.nlost).symm
  · rfl

/-- The counter after several losses (R289). -/
theorem ChanState.lose_lose (x : ChanState) (m n : Nat) : (x.lose m).lose n = x.lose (m + n) := by
  simp only [ChanState.lose, BitVec.ofNat_add, BitVec.add_assoc]

/-- The state with an incomplete block logged. -/
def State.logIncomplete (s : State) (tn : Tn) (ch : Chan) (nb : Nat) (x : ChanState) : State :=
  { s with evq := s.evq ++ incompleteLog tn ch nb x }

theorem State.logIncomplete_eq (s : State) (tn : Tn) (ch : Chan) (nb : Nat) (x : ChanState) :
    (if x.ulMask != fullMask nb then s.emit (.log .incomplete tn ch x.ulFirstFn) else s) =
      s.logIncomplete tn ch nb x := by
  unfold State.logIncomplete incompleteLog
  simp only [bne_iff_ne, ne_eq, ite_not]
  split
  · rw [List.append_nil]
  · rfl

/-! ### What the block's report depends on (R274) -/

theorem Res.SameReport.amrSpeech_eq {ch : Chan} {x : ChanState} {v u : State}
    (h : v.res.SameReport ch x.modeUl u.res) : amrSpeech ch x v = amrSpeech ch x u := by
  unfold amrSpeech
  by_cases hch : ulFamily ch = .tch
  · rw [h.traffic hch]
  · rw [beq_false_of_ne hch, Bool.false_and, Bool.false_and, Bool.false_and]

theorem amrSpeech_iff (ch : Chan) (x : ChanState) (u : State) :
    amrSpeech ch x u = true ↔ AmrSpeech ch x.modeUl u := by
  simp [amrSpeech, AmrSpeech, and_assoc]

theorem Res.SameReport.dataAux_eq {ch : Chan} {x : ChanState} {v u : State}
    (h : v.res.SameReport ch x.modeUl u.res) :
    dataAux ch v.res (amrSpeech ch x u) = dataAux ch u.res (amrSpeech ch x u) := by
  unfold dataAux
  by_cases hch : ulFamily ch = .pdtch
  · obtain ⟨husf, hcs⟩ := h.packet hch
    simp only [hch, husf, hcs, beq_self_eq_true, if_true]
  · by_cases hamr : amrSpeech ch x u = true
    · obtain ⟨htch, hmode, -⟩ := (amrSpeech_iff ch x u).1 hamr
      obtain ⟨hft, hcmr⟩ := h.indices htch hmode
      simp only [hch, hft, hcmr, beq_iff_eq, if_false]
    · simp [hch, hamr]

theorem Res.SameReport.dataIndOf_eq {ch : Chan} {x : ChanState} {v u : State}
    (h : v.res.SameReport ch x.modeUl u.res) (hpdu : v.pdu = u.pdu) (tn : Tn) :
    dataIndOf tn ch x v = dataIndOf tn ch x u := by
  unfold dataIndOf
  rw [h.amrSpeech_eq, h.dataAux_eq, hpdu, h.errors.nerr, h.errors.nbits]

theorem Res.SameReport.takeUlIndices_eq {ch : Chan} {x : ChanState} {v u : State}
    (h : v.res.SameReport ch x.modeUl u.res) (y : ChanState) :
    y.takeUlIndices (amrSpeech ch x v) v.res = y.takeUlIndices (amrSpeech ch x u) u.res := by
  rw [h.amrSpeech_eq]
  unfold ChanState.takeUlIndices
  split
  · next hamr =>
    obtain ⟨htch, hmode, -⟩ := (amrSpeech_iff ch x u).1 hamr
    obtain ⟨hft, hcmr⟩ := h.indices htch hmode
    rw [hft, hcmr]
  · rfl

/-- Packet data: the two fields of `aux` do not overlap. -/
theorem dataAux_pdtch {ch : Chan} (hch : ulFamily ch = .pdtch) (r : Res) (amr : Bool) :
    (dataAux ch r amr).toNat = r.usf.toNat + 16 * r.cs.toNat := by
  have hfields : ∀ usf cs : BitVec 3,
      (usf.setWidth 8 ||| (cs.setWidth 8 <<< 4)).toNat = usf.toNat + 16 * cs.toNat := by decide
  rw [dataAux, if_pos (beq_iff_eq.2 hch)]
  exact hfields _ _

/-- AMR speech: the two fields of `aux` do not overlap. -/
theorem dataAux_amr {ch : Chan} (hch : ulFamily ch ≠ .pdtch) (r : Res) :
    (dataAux ch r true).toNat = r.ft.toNat + 8 * r.cmr.toNat := by
  have hfields : ∀ ft cmr : BitVec 3,
      (ft.setWidth 8 ||| (cmr.setWidth 8 <<< 3)).toNat = ft.toNat + 8 * cmr.toNat := by decide
  rw [dataAux, if_neg (mt beq_iff_eq.1 hch), if_pos rfl]
  exact hfields _ _

theorem dataAux_other {ch : Chan} (hch : ulFamily ch ≠ .pdtch) (r : Res) : dataAux ch r false = 0 := by
  rw [dataAux, if_neg (mt beq_iff_eq.1 hch), if_neg Bool.false_ne_true]

/-! ### Completion by the decoder's outcome -/

section Completion

variable {P : Params} {tn : Tn} {ch : Chan} {nb : Nat} {x : ChanState} {s : State}

/-- The bursts of a block in `ES` (R273). -/
def State.loadUl (s : State) (tn : Tn) (ch : Chan) (nb : Nat) (x : ChanState) : State :=
  (s.logIncomplete tn ch nb x).setSoftE (x.ulBuf.take (116 * nb))

theorem completeUl_of_done {v : State} (h : runDecoder P ch x (s.loadUl tn ch nb x) = .done v) :
    completeUl P tn ch nb x s = .done ((v.emit (dataIndOf tn ch x v)).setChan tn ch
      { (x.lose (missing nb x.ulMask)).takeUlIndices (amrSpeech ch x v) v.res with ulMask := 0 }) := by
  have hrun : runDecoder P ch (x.lose (missing nb x.ulMask)) ((s.logIncomplete tn ch nb x).setSoftE
      ((x.lose (missing nb x.ulMask)).ulBuf.take (116 * nb))) = .done v := h
  unfold completeUl
  dsimp only
  rw [State.logIncomplete_eq, ChanState.lose_missing, hrun]
  rfl

/-- Only a range error is reported (R274). -/
theorem completeUl_of_raised {e : ErrCode} {info : Nat} {v : State}
    (h : runDecoder P ch x (s.loadUl tn ch nb x) = .raised e info v) :
    completeUl P tn ch nb x s = .done (State.setChan
      (if e = .modeRange then v.emit (.modeInd tn ch x.ulFirstFn v.res.idx) else v) tn ch
      { x.lose (missing nb x.ulMask + popcount x.ulMask) with ulMask := 0 }) := by
  have hrun : runDecoder P ch (x.lose (missing nb x.ulMask)) ((s.logIncomplete tn ch nb x).setSoftE
      ((x.lose (missing nb x.ulMask)).ulBuf.take (116 * nb))) = .raised e info v := h
  unfold completeUl
  dsimp only
  rw [State.logIncomplete_eq, ChanState.lose_missing, hrun, ← ChanState.lose_lose]
  cases e <;> rfl

/-- Whatever the outcome, of the channel state with the last burst only the mask, the counter of lost bursts
and the indices change. -/
theorem completeUl_ends_settled (P : Params) (tn : Tn) (ch : Chan) (nb : Nat) (x : ChanState) (s : State) :
    (completeUl P tn ch nb x s).Ends fun t => ∃ nlost ft cmr,
      t.chan tn ch = { x with ulMask := 0, nlost := nlost, ulFt := ft, ulCmr := cmr } := by
  cases hrun : runDecoder P ch x (s.loadUl tn ch nb x) with
  | done v =>
    rw [completeUl_of_done hrun]
    refine done ?_
    rw [State.setChan_chan]
    unfold ChanState.takeUlIndices
    split <;> exact ⟨_, _, _, rfl⟩
  | raised e info v =>
    rw [completeUl_of_raised hrun]
    refine done ?_
    rw [State.setChan_chan]
    exact ⟨_, _, _, rfl⟩
  | refused r => exact absurd hrun (runDecoder_answers P ch x _ r)

/-- How a completed block from `s` ends in `t`: `x` is the channel state with its last burst (R273, R274). -/
structure BlockEnd (P : Params) (tn : Tn) (ch : Chan) (nb : Nat) (x : ChanState) (s t : State) : Prop where
  /-- Whatever the outcome. -/
  chan : ∃ nlost ft cmr, t.chan tn ch = { x with ulMask := 0, nlost := nlost, ulFt := ft, ulCmr := cmr }
  evq : ∃ rest : List Event, rest.length ≤ 1 ∧ t.evq = s.evq ++ incompleteLog tn ch nb x ++ rest
  delivered : ∀ d u, State.DecodesUl P ch x (x.ulBuf.take (116 * nb)) d u → Delivered ch x.modeUl u →
    t.chan tn ch =
      { (x.lose (missing nb x.ulMask)).takeUlIndices (amrSpeech ch x u) u.res with ulMask := 0 } ∧
    t.evq = s.evq ++ incompleteLog tn ch nb x ++ [dataIndOf tn ch x u]
  failed : ∀ d u, State.DecodesUl P ch x (x.ulBuf.take (116 * nb)) d u → ¬Delivered ch x.modeUl u →
    t.chan tn ch = { x.lose (missing nb x.ulMask + popcount x.ulMask) with ulMask := 0 } ∧
    t.evq = s.evq ++ incompleteLog tn ch nb x ++
      (if u.stat.code = ErrCode.modeRange.code then [.modeInd tn ch x.ulFirstFn u.res.idx] else [])

theorem completeUl_blockEnd (hfam : ulFamily ch ∈ [Family.xcch, .pdtch, .tch]) :
    ∃ t, completeUl P tn ch nb x s = .done t ∧ BlockEnd P tn ch nb x s t := by
  have hwork := runDecoder_ends_writesWork P ch x (s.loadUl tn ch nb x)
  have hsettled := completeUl_ends_settled P tn ch nb x s
  have hlike (d u : State) (h : State.DecodesUl P ch x (x.ulBuf.take (116 * nb)) d u) :=
    runDecoder_decodedLike (a := s.loadUl tn ch nb x) hfam (State.setSoftE_softE _ _) h
  cases hrun : runDecoder P ch x (s.loadUl tn ch nb x) with
  | refused r => exact absurd hrun (runDecoder_answers P ch x _ r)
  | done v =>
    rw [hrun] at hwork
    have hevq : v.evq = s.evq ++ incompleteLog tn ch nb x := by rw [hwork.of_done]; rfl
    rw [completeUl_of_done hrun] at hsettled
    refine ⟨_, completeUl_of_done hrun, hsettled.of_done,
      ⟨[dataIndOf tn ch x v], le_rfl, congrArg (· ++ _) hevq⟩, ?_, ?_⟩
    · intro d u hd _
      have hl := hlike d u hd
      rw [hrun] at hl
      cases hl with
      | delivered _ hpdu hres =>
        rw [State.setChan_chan, ← hres.takeUlIndices_eq, ← hres.dataIndOf_eq hpdu]
        exact ⟨rfl, congrArg (· ++ _) hevq⟩
    · intro d u hd hnot
      have hl := hlike d u hd
      rw [hrun] at hl
      cases hl with
      | delivered hdel => exact absurd hdel hnot
  | raised e info v =>
    rw [hrun] at hwork
    have hevq : v.evq = s.evq ++ incompleteLog tn ch nb x := by rw [hwork.of_raised]; rfl
    have hafter : (if e = .modeRange then v.emit (.modeInd tn ch x.ulFirstFn v.res.idx) else v).evq =
        s.evq ++ incompleteLog tn ch nb x ++
          if e = .modeRange then [.modeInd tn ch x.ulFirstFn v.res.idx] else [] := by
      split
      · exact congrArg (· ++ _) hevq
      · rw [List.append_nil, hevq]
    rw [completeUl_of_raised hrun] at hsettled
    refine ⟨_, completeUl_of_raised hrun, hsettled.of_done, ⟨_, ?_, hafter⟩, ?_, ?_⟩
    · split <;> simp
    · intro d u hd hdel
      have hl := hlike d u hd
      rw [hrun] at hl
      cases hl with
      | failed hnot => exact absurd hdel hnot
    · intro d u hd _
      have hl := hlike d u hd
      rw [hrun] at hl
      cases hl with
      | failed _ hcode hidx =>
        refine ⟨State.setChan_chan _ _ _ _, hafter.trans ?_⟩
        by_cases he : e = .modeRange
        · rw [if_pos he, if_pos (hcode.1 he), hidx he]
        · rw [if_neg he, if_neg (mt hcode.2 he)]

end Completion

end Sys2Proof.Machine
end

