-- ==== Sys2Proof/Proofs/BlockReport.lean ====
section
/-! `RX.BURST` on the last burst of a block (47_scheduler.md R271, R273, R274): what it stores, counts, logs and
reports. -/

namespace Sys2Proof.Machine

/-- The block's end seen from the end of the command, which frees the working buffers' numbers. -/
theorem BlockEnd.finished {P : Params} {tn : Tn} {ch : Chan} {nb : Nat} {x : ChanState} {s t : State}
    (h : BlockEnd P tn ch nb x s t) : BlockEnd P tn ch nb x s (t.scratch.raise .none 0) :=
  ⟨h.chan, h.evq, h.delivered, h.failed⟩

theorem ChanState.takeUlIndices_nlost (x : ChanState) (amr : Bool) (r : Res) :
    (x.takeUlIndices amr r).nlost = x.nlost := by
  unfold ChanState.takeUlIndices
  split <;> rfl

/-- `aux` by the kind of block (R274). -/
theorem dataAux_spec (ch : Chan) (x : ChanState) (u : State) :
    (ulFamily ch = .pdtch →
      (dataAux ch u.res (amrSpeech ch x u)).toNat = u.res.usf.toNat + 16 * u.res.cs.toNat) ∧
    (AmrSpeech ch x.modeUl u →
      (dataAux ch u.res (amrSpeech ch x u)).toNat = u.res.ft.toNat + 8 * u.res.cmr.toNat) ∧
    (ulFamily ch ≠ .pdtch → ¬AmrSpeech ch x.modeUl u → dataAux ch u.res (amrSpeech ch x u) = 0) := by
  rw [← amrSpeech_iff]
  refine ⟨fun hpk => dataAux_pdtch hpk _ _, fun hamr => ?_, fun hpk hamr => ?_⟩
  · obtain ⟨hch, -⟩ := (amrSpeech_iff ch x u).1 hamr
    rw [hamr]
    exact dataAux_amr (by rw [hch]; decide) _
  · rw [eq_false_of_ne_true hamr]
    exact dataAux_other hpk _

/-- The channel's indices by the kind of block (R274). -/
theorem takeUlIndices_spec (ch : Chan) (x y : ChanState) (u : State) :
    (AmrSpeech ch x.modeUl u → (y.takeUlIndices (amrSpeech ch x u) u.res).ulFt = u.res.ft ∧
      (y.takeUlIndices (amrSpeech ch x u) u.res).ulCmr = u.res.cmr) ∧
    (¬AmrSpeech ch x.modeUl u → (y.takeUlIndices (amrSpeech ch x u) u.res).ulFt = y.ulFt ∧
      (y.takeUlIndices (amrSpeech ch x u) u.res).ulCmr = y.ulCmr) := by
  rw [← amrSpeech_iff]
  refine ⟨fun hamr => ?_, fun hamr => ?_⟩
  · rw [hamr]
    exact ⟨rfl, rfl⟩
  · rw [eq_false_of_ne_true hamr]
    exact ⟨rfl, rfl⟩

section LastBurst

variable {P : Params} {s : State} {l : Layout} {ch : Chan} {bid : Fin 8} (h : s.Assembles P l ch bid)
include h

/-- The last burst of a block completes it. -/
theorem State.Assembles.execIn_completed (hbid : bid.val + 1 = nbUl ch) :
    ∃ t, execIn P .rxBurst s = .next t ∧ t.stat = Stat.ok ∧ State.Receives s.rxind.slot ch s t ∧
      BlockEnd P s.rxind.slot ch (nbUl ch) (s.heardChan l ch bid) (s.heard l ch bid) t := by
  obtain ⟨t, hrun, hend⟩ := completeUl_blockEnd (P := P) (tn := s.rxind.slot) (nb := nbUl ch)
    (x := s.heardChan l ch bid) (s := s.heard l ch bid) h.family
  have hrecv := completeUl_ends_receives P s.rxind.slot ch (nbUl ch) (s.heardChan l ch bid) (s.heard l ch bid)
  rw [hrun] at hrecv
  refine ⟨t.scratch.raise .none 0, ?_, rfl, ((s.heard_receives l ch bid).trans hrecv.of_done).writesWork rfl,
    hend.finished⟩
  rw [h.execIn_eq, if_pos hbid, hrun]
  rfl

/-- Every block has at least four bursts. -/
theorem State.Assembles.bid_ne_zero (hbid : bid.val + 1 = nbUl ch) : bid ≠ 0 := by
  rintro rfl
  have hfam := h.family
  simp only [nbUl, Family.nb] at hbid
  revert hfam hbid
  cases ulFamily ch <;> decide

theorem State.Assembles.blockStarts_eq (hbid : bid.val + 1 = nbUl ch) {start : Bool}
    (hstart : start = true ↔ (s.chan s.rxind.slot ch).ulMask = 0 ∨
      (s.chan s.rxind.slot ch).ulFirstFn ≠ s.rxFirst l) :
    blockStarts (s.chan s.rxind.slot ch) bid (s.rxFirst l) = start := by
  rw [Bool.eq_iff_iff, blockStarts_iff, hstart]
  exact or_iff_right (h.bid_ne_zero hbid)

/-- The counter of lost bursts after an abandoned block and `n` more losses. -/
theorem State.Assembles.heardChan_lose_nlost (n : Nat) : ((s.heardChan l ch bid).lose n).nlost =
    (s.chan s.rxind.slot ch).nlost + BitVec.ofNat 32
      ((if blockStarts (s.chan s.rxind.slot ch) bid (s.rxFirst l) = true ∧
        (s.chan s.rxind.slot ch).ulMask ≠ 0 then nbUl ch else 0) + n) := by
  rw [BitVec.ofNat_add, ← BitVec.add_assoc, ← h.heardChan_nlost]
  rfl

variable (hgoes : blockStarts (s.chan s.rxind.slot ch) bid (s.rxFirst l) = false)
include hgoes

/-- A burst of a block that goes on: its mask bit, no loss and no event. -/
theorem State.Assembles.heard_of_not_start :
    (s.heardChan l ch bid).ulMask = (s.chan s.rxind.slot ch).ulMask ||| (1#8 <<< bid.val) ∧
    (s.heardChan l ch bid).nlost = (s.chan s.rxind.slot ch).nlost ∧ (s.heard l ch bid).evq = s.evq := by
  refine ⟨?_, ?_, ?_⟩
  · rw [h.heardChan_ulMask, hgoes, if_neg Bool.false_ne_true]
  · rw [h.heardChan_nlost, hgoes, if_neg (by simp)]
    exact BitVec.add_zero _
  · rw [h.heard_evq, abandonedLog, hgoes, if_neg (by simp), List.append_nil]

theorem State.Assembles.heardChan_ulBuf_of_not_start : (s.heardChan l ch bid).ulBuf =
    (s.chan s.rxind.slot ch).ulBuf.take (116 * bid.val) ++ unwrap s.rxind.bits.toList ++
      (s.chan s.rxind.slot ch).ulBuf.drop (116 * bid.val + 116) := by
  have hblock := h.blockStarts_readyUl.trans hgoes
  rw [h.readyUl_of_not_start hgoes] at hblock
  rw [State.heardChan, h.readyUl_of_not_start hgoes, ChanState.hearUl_ulBuf, ChanState.heardBuf, hblock,
    if_neg Bool.false_ne_true]

end LastBurst

/-! ### Control blocks (R273, R288) -/

theorem controlBlock_length (c flags : List UBit) : (softAll (blockBursts .x4 c flags)).length = 464 := by
  rw [softAll_length, blockBursts_length]
  rfl

/-- A control block's decoder on 464 soft bits. -/
theorem exists_decodesUl_control (P : Params) (s : State) {ch : Chan} (hch : ulFamily ch = .xcch) (x : ChanState)
    {es : List SBit} (hlen : es.length = 464) :
    ∃ d u, State.DecodesUl P ch x es d u ∧ ControlDecoded P d u (softCoded .x4 es) := by
  have hload : (s.setSoftE es).softE = es := State.setSoftE_softE _ _
  have hes : (s.setSoftE es).mem.es.len = 464 := by rw [← State.softE_length, hload, hlen]
  obtain ⟨u, hfinish, hdecoded⟩ := State.decodeControl_blockDecoded P (s₀ := s.setSoftE es)
    (s := (s.setSoftE es).gather .x4 es) rfl (softCoded .x4 es)
  have hcommand : ulCommand P ch x.modeUl x.ulFirstFn = .xcchDec := by rw [ulCommand, hch]
  refine ⟨s.setSoftE es, u, ⟨hload, by simp [hch], ?_⟩, hdecoded.controlDecoded⟩
  rw [hcommand, ← hfinish]
  show (xcchDecBody P (s.setSoftE es)).finish = _
  rw [xcchDecBody, if_neg (not_not.2 hes), hload]

section Control

variable {P : Params} {tn : Tn} {ch : Chan} {x : ChanState} {s t : State}
  (h : BlockEnd P tn ch 4 x s t) (hch : ulFamily ch = .xcch) (hfull : x.ulMask = 0x0F)

theorem incompleteLog_full (hfull : x.ulMask = 0x0F) : incompleteLog tn ch 4 x = [] := if_pos hfull

include h hch hfull

/-- A clean control block is delivered. -/
theorem BlockEnd.control_clean {pdu : List Byte} {flags : List UBit} (hpdu : pdu.length = 23)
    (hes : x.ulBuf.take 464 = softAll (blockBursts .x4 (controlCoded pdu) flags)) :
    (t.chan tn ch).nlost = x.nlost ∧ t.evq = s.evq ++ [.dataInd tn ch x.ulFirstFn pdu
      (BitVec.ofInt 8 (avg x.rssiSum x.rssiNum)) (BitVec.ofInt 16 (avg x.toaSum x.toaNum))
      (BitVec.ofInt 16 (avg x.ciSum x.ciNum)) (decide (0 < x.ciNum.toNat)) 0 0] := by
  have hlen : (x.ulBuf.take 464).length = 464 := by rw [hes, controlBlock_length]
  obtain ⟨d, u, hdec, hdecoded⟩ := exists_decodesUl_control P s hch x hlen
  rw [hes, softCoded_clean .x4 (controlCoded_length pdu)] at hdecoded
  obtain ⟨-, hstat, hpdu', -, hnerr, hnbits⟩ := hdecoded.of_clean hpdu
  have hdel : Delivered ch x.modeUl u := ⟨hstat, by simp [hch]⟩
  have hamr : amrSpeech ch x u = false := by simp [amrSpeech, hch]
  obtain ⟨hchan, hevq⟩ := h.delivered d u hdec hdel
  have haux : dataAux ch u.res false = 0 := dataAux_other (by rw [hch]; decide) _
  rw [incompleteLog_full hfull, List.append_nil, dataIndOf, hamr, haux, hnerr, hpdu'] at hevq
  rw [hchan, hamr, hfull]
  refine ⟨BitVec.add_zero _, hevq.trans ?_⟩
  rw [hnbits]
  rfl

/-- A control block with a flipped payload bit is dropped. -/
theorem BlockEnd.control_flipped {d d' flags : List UBit} {j : Nat} (hd : d.length = 184)
    (hdiff : DifferAt j d d')
    (hes : x.ulBuf.take 464 =
      softAll (blockBursts .x4 (convEnc xcchCode (infoWord d' (crcGen .fire40 d))) flags)) :
    (t.chan tn ch).nlost = x.nlost + 4 ∧ t.evq = s.evq := by
  have hlen : (x.ulBuf.take 464).length = 464 := by rw [hes, controlBlock_length]
  obtain ⟨e, u, hdec, hdecoded⟩ := exists_decodesUl_control P s hch x hlen
  rw [hes, softCoded_clean .x4 (flipped_control_coded_length hd hdiff)] at hdecoded
  obtain ⟨hstat, -⟩ := hdecoded.of_flipped hd hdiff
  have hnot : ¬Delivered ch x.modeUl u := fun hdel => Stat.error_badBlock_ne_ok 0 (hstat.symm.trans hdel.1)
  obtain ⟨hchan, hevq⟩ := h.failed e u hdec hnot
  have hcode : (Stat.error .badBlock 0).code ≠ ErrCode.modeRange.code := by decide
  rw [incompleteLog_full hfull, List.append_nil, hstat, if_neg hcode, List.append_nil] at hevq
  rw [hchan, hfull]
  exact ⟨rfl, hevq⟩

end Control

end Sys2Proof.Machine

namespace Sys2Proof.Proofs

open Sys2Proof.Machine

/-- Settles O51: the stored burst is `State.heardChan`, and `BlockEnd` says how the block ends. -/
theorem rxCompletesBlock : Obligations.RxCompletesBlock := by
  unfold Obligations.RxCompletesBlock
  refine ⟨?any, ?control⟩
  case any =>
    rintro P s l ch bid _ start mask lost logged hroute hfam hact rfl hbid hsync hready hlen hstart -
      hmask hlost hlogged
    have h : s.Assembles P l ch bid := ⟨hroute, hfam, hact, .inl hsync, hready⟩
    obtain rfl := h.blockStarts_eq hbid hstart
    obtain ⟨t, hexec, hstat, hrecv, hend⟩ := h.execIn_completed hbid
    obtain ⟨hactive, halloc, hmodeP, hft, hcmr, hnproc, hlastFn, hlastValid⟩ := h.heardChan_fields
    obtain ⟨nlost, ft, cmr, hchan⟩ := hend.chan
    have hfirst := s.heardChan_ulFirstFn l ch bid
    have hheldMask : (s.heardChan l ch bid).ulMask = mask := h.heardChan_ulMask.trans hmask.symm
    have hlostBy (n : Nat) : ((s.heardChan l ch bid).lose (missing (nbUl ch) mask + n)).nlost =
        (s.chan s.rxind.slot ch).nlost + BitVec.ofNat 32 (lost + n) := by
      rw [h.heardChan_lose_nlost, hlost, Nat.add_assoc]
      rfl
    have hevq : (s.heard l ch bid).evq ++
        incompleteLog s.rxind.slot ch (nbUl ch) (s.heardChan l ch bid) = s.evq ++ logged := by
      rw [h.heard_evq, List.append_assoc, hlogged, abandonedLog, incompleteLog, hfirst, hheldMask]
    refine ⟨t, _, hexec, fun hP => by rw [exec_eq_execIn, ← hP]; exact hexec, hstat, hchan.symm, hrecv.others, rfl,
      halloc, h.heardChan_ulSync, hfirst, hactive, hmodeP, hnproc, hlastFn, hlastValid, h.heardChan_modeUl,
      h.heardChan_ciphUl, fun k hk => s.heardChan_payload l ch bid hlen hk, fun k hk => ?rest, ?first, ?next,
      fun d u hd hw hu => ?_⟩
    case rest =>
      split
      · next hs => exact h.heardChan_rest_of_start hlen hs (by omega) (.inl hk)
      · next hs => exact h.heardChan_rest_of_not_start hlen (Bool.not_eq_true _ ▸ hs) (.inl hk)
    case first =>
      intro hs
      obtain ⟨hrssi, hrssiNum, htoa, htoaNum, hci, hciNum⟩ := h.heardChan_measuredFirst hs
      exact ⟨hrssi, hrssiNum, htoa, htoaNum, hci, hciNum⟩
    case next =>
      intro hs
      obtain ⟨hrssi, hrssiNum, htoa, htoaNum, hnoCi, hci, hciNum⟩ := h.heardChan_measuredNext hs
      exact ⟨hrssi, hrssiNum, htoa, htoaNum, hnoCi, hci, hciNum⟩
    have hdec : State.DecodesUl P ch (s.heardChan l ch bid)
        ((s.heardChan l ch bid).ulBuf.take (116 * nbUl ch)) d u := by
      refine ⟨hd, fun hch hmode => ?_, ?_⟩
      · rw [hw hch hmode, wamrOf, hft, hcmr]
      · rw [hfirst]; exact hu
    refine ⟨fun hdel => ?_, fun hnot => ?_⟩
    · obtain ⟨hchan', hevq'⟩ := hend.delivered d u hdec hdel
      rw [hchan] at hchan'
      obtain ⟨hamr, hother⟩ := takeUlIndices_spec ch (s.heardChan l ch bid)
        ((s.heardChan l ch bid).lose (missing (nbUl ch) mask)) u
      rw [hheldMask] at hchan'
      have hftEq := congrArg ChanState.ulFt hchan'
      have hcmrEq := congrArg ChanState.ulCmr hchan'
      refine ⟨?_, ⟨_, hevq'.trans (by rw [hevq, ← hfirst]; rfl), dataAux_spec ch _ u⟩, fun hspeech => ?_,
        fun hspeech => ?_⟩
      · exact (congrArg ChanState.nlost hchan').trans ((ChanState.takeUlIndices_nlost _ _ _).trans (hlostBy 0))
      · obtain ⟨hft', hcmr'⟩ := hamr hspeech
        exact ⟨hftEq.trans hft', hcmrEq.trans hcmr'⟩
      · obtain ⟨hft', hcmr'⟩ := hother hspeech
        exact ⟨hftEq.trans (hft'.trans hft), hcmrEq.trans (hcmr'.trans hcmr)⟩
    · obtain ⟨hchan', hevq'⟩ := hend.failed d u hdec hnot
      rw [hchan] at hchan'
      refine ⟨?_, (congrArg ChanState.ulFt hchan').trans hft, (congrArg ChanState.ulCmr hchan').trans hcmr, ?_⟩
      · rw [hheldMask] at hchan'
        exact (congrArg ChanState.nlost hchan').trans (hlostBy _)
      · rw [hevq', hevq, hfirst]
  case control =>
    rintro P s l ch _ hroute hch hact rfl hsync halloc hmask hfirst -
    have h : s.Assembles P l ch 3 := ⟨hroute, by simp [hch], hact, .inl hsync, .inl halloc⟩
    have hnb : nbUl ch = 4 := by rw [nbUl, hch]; rfl
    obtain ⟨t, hexec, hstat, -, hend⟩ := h.execIn_completed hnb.symm
    rw [hnb] at hend
    obtain ⟨-, halloc', -, -, -, hnproc, hlastFn, -⟩ := h.heardChan_fields
    obtain ⟨nlost, ft, cmr, hchan⟩ := hend.chan
    have hstart : blockStarts (s.chan s.rxind.slot ch) 3 (s.rxFirst l) = false :=
      h.blockStarts_eq hnb.symm (iff_of_false Bool.false_ne_true
        (not_or.2 ⟨hmask, not_not.2 hfirst⟩))
    obtain ⟨hheldMask, hlost, hevq⟩ := h.heard_of_not_start hstart
    have hfull (hm : (s.chan s.rxind.slot ch).ulMask = 0x07) : (s.heardChan l ch 3).ulMask = 0x0F := by
      rw [hheldMask, hm]
      rfl
    have htake {es : List SBit} (hlen : es.length = 464)
        (hes : (s.chan s.rxind.slot ch).ulBuf.take 348 ++ unwrap s.rxind.bits.toList = es) :
        (s.heardChan l ch 3).ulBuf.take 464 = es := by
      rw [h.heardChan_ulBuf_of_not_start hstart]
      exact List.take_left' ((congrArg List.length hes).trans hlen) |>.trans hes
    refine ⟨t, _, hexec, fun hP => by rw [exec_eq_execIn, ← hP]; exact hexec, hstat, hchan.symm, rfl, halloc',
      hnproc, hlastFn, fun pdu flags hm hpdu _ hes => ?_, fun d d' flags j hm hd _ hdiff hes => ?_, fun hm => ?_⟩
    · have hclean := hend.control_clean hch (hfull hm) hpdu (htake (controlBlock_length _ _) hes)
      rw [hchan, hlost, hevq, s.heardChan_ulFirstFn, ← hfirst] at hclean
      exact hclean
    · have hflipped := hend.control_flipped hch (hfull hm) hd hdiff (htake (controlBlock_length _ _) hes)
      rw [hchan, hlost, hevq] at hflipped
      exact hflipped
    · obtain ⟨rest, hrest, htevq⟩ := hend.evq
      refine ⟨rest, hrest, ?_⟩
      have hlog : incompleteLog s.rxind.slot ch 4 (s.heardChan l ch 3) =
          [.log .incomplete s.rxind.slot ch (s.heardChan l ch 3).ulFirstFn] :=
        if_neg (by rw [hheldMask]; exact hm)
      rw [htevq, hevq, hlog, s.heardChan_ulFirstFn, hfirst]

end Sys2Proof.Proofs
end

