-- ==== Sys2Proof/Proofs/ControlCommands.lean ====
section
/-! The control commands (47_scheduler.md R257 to R263, R269): the words of the two that set one register field,
and what each command makes of the channel states and queues it names. -/

namespace Sys2Proof.Machine

/-! ### Words of format A and V (R92) -/

theorem wordABC_toNat (op a b c : Byte) : (wordABC op a b c).toNat =
    op.toNat * 16777216 + a.toNat * 65536 + b.toNat * 256 + c.toNat := by
  have hshift (x : Nat) (y : Byte) : x <<< 8 ||| y.toNat = x * 256 + y.toNat := by
    rw [← Nat.shiftLeft_add_eq_or_of_lt y.isLt, Nat.shiftLeft_eq]
  simp only [wordABC, BitVec.toNat_append, hshift]
  omega

theorem exists_decode_error {w : Word} (h : ∀ i, decodeFormat w ≠ .ok i) : ∃ e, decode w = .error e := by
  cases hw : decode w with
  | error e => exact ⟨e, rfl⟩
  | ok i => exact absurd (decodeFormat_eq_ok_iff.2 (decode_eq_ok_iff.1 hw).2) (h i)

theorem exists_decode_error_setBsic {w : Word} (hop : w.op = 0x4A) (h : 63 < w.a.toNat ∨ w.n ≠ 0) :
    ∃ e, decode w = .error e := by
  refine exists_decode_error fun i hi => ?_
  have hformat : formatA w bsicOf .setBsic = .ok i := by rwa [decodeFormat, hop] at hi
  obtain ⟨x, hword, -⟩ := (formatA_eq_ok_iff bsicOf_selects hop).1 hformat
  obtain ⟨-, ha, hb, hc⟩ := wordABC_eq_iff.1 hword
  have hlow : w.a.toNat < 64 := by
    rw [ha, BitVec.toNat_setWidth]
    exact (Nat.mod_le _ _).trans_lt x.isLt
  exact h.elim (by omega) fun hn => hn (w.n_eq_zero_iff.2 ⟨hb, hc⟩)

theorem exists_decode_error_setAtt {w : Word} (hop : w.op = 0x47) (h : 7 < w.a.toNat ∨ w.c ≠ 0) :
    ∃ e, decode w = .error e := by
  refine exists_decode_error fun i hi => ?_
  have hformat : formatV w .setAtt = .ok i := by rwa [decodeFormat, hop] at hi
  obtain ⟨tn, b, hword, -⟩ := (formatV_eq_ok_iff hop).1 hformat
  obtain ⟨-, ha, -, hc⟩ := wordABC_eq_iff.1 hword
  have hlow : w.a.toNat < 8 := by
    rw [ha, tnByte, BitVec.toNat_ofNat]
    exact (Nat.mod_le _ _).trans_lt tn.isLt
  exact h.elim (by omega) fun hn => hn hc

/-! ### A whole timeslot (R258) -/

theorem State.clearSlot_chan (s : State) (tn : Tn) (ch : Chan) : (s.clearSlot tn).chan tn ch = ChanState.zero := by
  simp [State.chan, chanStatesZero, Vector.get_eq_getElem]

theorem State.clearSlot_queue (s : State) (tn : Tn) (ch : Chan) : (s.clearSlot tn).queue tn ch = [] := by
  simp [State.queue, queuesEmpty, Vector.get_eq_getElem]

/-! ### The targets of a command (R261 to R263) -/

theorem target_mem_cons_iff {k tn : Tn} {x c : Chan} {chs : List Chan} (h : ¬(k = tn ∧ x = c)) :
    (k = tn ∧ x ∈ c :: chs) ↔ k = tn ∧ x ∈ chs :=
  and_congr_right fun hk => List.mem_cons.trans (or_iff_right fun hx => h ⟨hk, hx⟩)

section Targets

variable (s : State) (tn : Tn) (chs : List Chan)

theorem foldl_activate_frame : chs.foldl (fun t x => t.activate tn x) s =
    { s with cs := (chs.foldl (fun t x => t.activate tn x) s).cs } := by
  induction chs generalizing s with
  | nil => rfl
  | cons c chs ih => exact ih (s.activate tn c)

theorem foldl_activate_chan (k : Tn) (x : Chan) : (chs.foldl (fun t x => t.activate tn x) s).chan k x =
    if k = tn ∧ x ∈ chs then { s.chan k x with active := true } else s.chan k x := by
  induction chs generalizing s with
  | nil => simp
  | cons c chs ih =>
    rw [List.foldl_cons, ih]
    by_cases hkx : k = tn ∧ x = c
    · obtain ⟨rfl, rfl⟩ := hkx
      have hset : (s.activate k x).chan k x = { s.chan k x with active := true } := State.setChan_chan _ _ _ _
      simp [hset]
    · have hkeep : (s.activate tn c).chan k x = s.chan k x :=
        State.setChan_chan_ne _ _ _ _ _ _ (not_and_or.1 hkx)
      simp only [hkeep, target_mem_cons_iff hkx]

theorem foldl_clearChan_frame : chs.foldl (fun t x => t.clearChan tn x) s =
    { s with
      cs := (chs.foldl (fun t x => t.clearChan tn x) s).cs
      q := (chs.foldl (fun t x => t.clearChan tn x) s).q } := by
  induction chs generalizing s with
  | nil => rfl
  | cons c chs ih => exact ih (s.clearChan tn c)

theorem foldl_clearChan_get (k : Tn) (x : Chan) :
    (chs.foldl (fun t x => t.clearChan tn x) s).chan k x =
      (if k = tn ∧ x ∈ chs then ChanState.zero else s.chan k x) ∧
    (chs.foldl (fun t x => t.clearChan tn x) s).queue k x =
      (if k = tn ∧ x ∈ chs then [] else s.queue k x) := by
  induction chs generalizing s with
  | nil => simp
  | cons c chs ih =>
    rw [List.foldl_cons, (ih _).1, (ih _).2]
    by_cases hkx : k = tn ∧ x = c
    · obtain ⟨rfl, rfl⟩ := hkx
      have hchan : (s.clearChan k x).chan k x = ChanState.zero := State.setChan_chan _ _ _ _
      have hqueue : (s.clearChan k x).queue k x = [] := State.setQueue_queue _ _ _ _
      simp [hchan, hqueue]
    · have hchan : (s.clearChan tn c).chan k x = s.chan k x :=
        State.setChan_chan_ne _ _ _ _ _ _ (not_and_or.1 hkx)
      have hqueue : (s.clearChan tn c).queue k x = s.queue k x :=
        State.setQueue_queue_ne _ _ _ _ _ _ (not_and_or.1 hkx)
      simp only [hchan, hqueue, target_mem_cons_iff hkx, and_self]

end Targets

theorem unsupported_iff (ch : Chan) : unsupported ch = true ↔ dlFamily ch = .unsupp ∨ ulFamily ch = .unsupp := by
  simp [unsupported]

theorem Layout.mentions_iff (l : Layout) (ch : Chan) :
    l.mentions ch = true ↔ ∃ y ∈ l.slots, y.dlChan = ch ∨ y.ulChan = ch := by
  simp [Layout.mentions]

/-- Why `CH.ACT` rejects. -/
theorem actRejected_iff {P : Params} {tn : Tn} {ch : Chan} {k : LinkSel} {s : State} :
    actRejected P tn ch k s = true ↔ s.layout P tn = none ∨ targets ch k = [] ∨ ch = chIdle ∨
      ∃ x ∈ targets ch k, dlFamily x = .unsupp ∨ ulFamily x = .unsupp ∨
        ∀ l, s.layout P tn = some l → ∀ y ∈ l.slots, y.dlChan ≠ x ∧ y.ulChan ≠ x := by
  unfold actRejected
  cases hl : s.layout P tn with
  | none => simp
  | some l =>
    have hmentions (x : Chan) : (!l.mentions x) = true ↔
        ∀ l', some l = some l' → ∀ y ∈ l'.slots, y.dlChan ≠ x ∧ y.ulChan ≠ x := by
      rw [Bool.not_eq_true', ← Bool.not_eq_true, l.mentions_iff]
      simp
    simp only [Bool.or_eq_true, List.isEmpty_iff, List.any_eq_true, unsupported_iff, hmentions, beq_iff_eq,
      reduceCtorEq, false_or]
    constructor
    · rintro (((hnone | ⟨x, hx, hfam⟩) | ⟨x, hx, hout⟩) | hidle)
      · exact .inl hnone
      · exact .inr (.inr ⟨x, hx, hfam.imp_right .inl⟩)
      · exact .inr (.inr ⟨x, hx, .inr (.inr hout)⟩)
      · exact .inr (.inl hidle)
    · rintro (hnone | hidle | ⟨x, hx, hdl | hul | hout⟩)
      · exact .inl (.inl (.inl hnone))
      · exact .inr hidle
      · exact .inl (.inl (.inr ⟨x, hx, .inl hdl⟩))
      · exact .inl (.inl (.inr ⟨x, hx, .inr hul⟩))
      · exact .inl (.inr ⟨x, hx, hout⟩)

end Sys2Proof.Machine

namespace Sys2Proof.Proofs

open Sys2Proof.Machine

/-- Settles O40: the two illegal forms fail in the format of the command's word. -/
theorem bsicAndAttenuation : Obligations.BsicAndAttenuation := by
  unfold Obligations.BsicAndAttenuation
  refine ⟨fun bsic => ?_, fun bsic s => rfl, fun w s hop h => ?_, fun tn att => ?_, fun tn att s => ?_,
    fun w s hop h => ?_⟩
  · have hbsic : (bsic.zeroExtend 8).toNat = bsic.toNat := by
      rw [BitVec.toNat_setWidth]
      exact Nat.mod_eq_of_lt (bsic.isLt.trans (by decide))
    rw [encode, wordABC_toNat, hbsic]
    rfl
  · obtain ⟨e, he⟩ := exists_decode_error_setBsic hop h
    exact command_of_decode_error he s
  · have htn : (tnByte tn).toNat = tn.val := by
      rw [tnByte, BitVec.toNat_ofNat]
      exact Nat.mod_eq_of_lt (tn.isLt.trans (by decide))
    rw [encode, wordABC_toNat, htn]
    rfl
  · have hslot := (State.ControlsSlot.refl (tn := tn) s).setTs { s.ts.get tn with att := att }
    exact ⟨_, rfl, State.setTs_get s tn _, hslot.ts, rfl⟩
  · obtain ⟨e, he⟩ := exists_decode_error_setAtt hop h
    exact command_of_decode_error he s

/-- Settles O41: `State.clearSlot` after the write of the timeslot's registers. -/
theorem setPchanResult : Obligations.SetPchanResult := by
  unfold Obligations.SetPchanResult
  intro tn pchan tsc s hlegal
  have hbody : setPchanBody Config.inst tn pchan tsc s =
      .done ((s.setTs tn { (s.ts.get tn) with pchan := pchan, tsc := tsc }).clearSlot tn) :=
    if_neg fun ⟨hne, hle⟩ => hlegal.elim hne fun hlt => Nat.not_lt.2 hle hlt
  have hexec : exec (.setPchan tn pchan tsc) s = .next (State.raise
      ((s.setTs tn { (s.ts.get tn) with pchan := pchan, tsc := tsc }).clearSlot tn) .none 0) := by
    rw [exec_eq_execIn, execIn, bodyIn, hbody]
    rfl
  have hslot := controlsSlot_of_exec rfl hexec
  exact ⟨_, hexec, State.setTs_get s tn _,
    fun ch => ⟨State.clearSlot_chan _ tn ch, State.clearSlot_queue _ tn ch⟩,
    fun k hk => ⟨hslot.ts k hk, fun ch => ⟨hslot.chan k ch hk, hslot.queue k ch hk⟩⟩, hslot.frame⟩

/-- Settles O42: `actRejected_iff` decides, and `foldl_activate_chan` says what acceptance does. -/
theorem chActResult : Obligations.ChActResult := by
  unfold Obligations.ChActResult
  refine ⟨fun P tn ch k s l hl hne hidle hall => ?_, fun P tn ch k s hbad => ?_, fun ch => ⟨rfl, rfl, ?_⟩⟩
  · have haccept : ¬actRejected P tn ch k s = true := by
      rw [actRejected_iff]
      rintro (hnone | hempty | hch | ⟨x, hx, hbad⟩)
      · rw [hl] at hnone
        cases hnone
      · exact hne hempty
      · exact hidle hch
      · obtain ⟨hdl, hul, y, hy, hyx⟩ := hall x hx
        obtain ⟨hdl', hul'⟩ := (hbad.resolve_left hdl).resolve_left hul l hl y hy
        exact hyx.elim hdl' hul'
    have hexec : execIn P (.chAct tn ch k) s =
        .next (State.raise ((targets ch k).foldl (fun t x => t.activate tn x) s) .none 0) := by
      rw [execIn, bodyIn, chActBody, if_neg haccept]
      rfl
    refine ⟨_, hexec, fun hP => by rw [exec_eq_execIn, ← hP]; exact hexec, fun x hx => ?_, fun j x hjx => ?_, ?_⟩
    · exact (foldl_activate_chan s tn (targets ch k) tn x).trans (if_pos ⟨rfl, hx⟩)
    · exact (foldl_activate_chan s tn (targets ch k) j x).trans (if_neg hjx)
    · rw [foldl_activate_frame]
      rfl
  · have hreject : actRejected P tn ch k s = true :=
      actRejected_iff.2 (hbad.imp_left fun hconf => if_pos hconf)
    rw [execIn, bodyIn, chActBody, if_pos hreject]
    rfl
  · rw [targets]
    cases chAssoc ch <;> rfl

/-- Settles O43: `foldl_clearChan_get` says what becomes of every channel and queue. -/
theorem chDeactResult : Obligations.ChDeactResult := by
  unfold Obligations.ChDeactResult
  refine ⟨fun tn ch k s hne => ?_, fun tn ch k s hnone => ?_⟩
  · have hbody : chDeactBody tn ch k s = .done ((targets ch k).foldl (fun t x => t.clearChan tn x) s) :=
      if_neg (by simpa using hne)
    refine ⟨State.raise ((targets ch k).foldl (fun t x => t.clearChan tn x) s) .none 0, ?_, fun x hx => ?_,
      fun j x hjx => ?_, ?_⟩
    · rw [exec_eq_execIn, execIn, bodyIn, hbody]
      rfl
    · obtain ⟨hchan, hqueue⟩ := foldl_clearChan_get s tn (targets ch k) tn x
      rw [if_pos ⟨rfl, hx⟩] at hchan hqueue
      exact ⟨hchan, hqueue⟩
    · obtain ⟨hchan, hqueue⟩ := foldl_clearChan_get s tn (targets ch k) j x
      rw [if_neg hjx] at hchan hqueue
      exact ⟨hchan, hqueue⟩
    · rw [foldl_clearChan_frame]
      rfl
  · have hbody : chDeactBody tn ch k s = .raised .badChan ch.val s := if_pos (by simpa using hnone)
    rw [exec_eq_execIn, execIn, bodyIn, hbody]
    rfl

/-- Settles O44, by the command's two checks in order. -/
theorem pduEnqResult : Obligations.PduEnqResult := by
  unfold Obligations.PduEnqResult
  intro tn ch aux s
  simp only [exec_eq_execIn, execIn, bodyIn, pduEnqBody, ← queued_iff, Bool.not_eq_true]
  refine ⟨fun hconf hqueue hroom => ?_, fun hbad => ?_, fun hconf hqueue hfull => ?_⟩
  · rw [if_neg (not_or.2 ⟨hconf, by simp [hqueue]⟩), if_neg (Nat.not_le.2 hroom)]
    exact ⟨_, rfl, State.setQueue_queue _ _ _ _,
      fun k x hkx => State.setQueue_queue_ne _ _ _ _ _ _ (not_and_or.1 hkx), rfl⟩
  · rw [if_pos hbad]
    rfl
  · rw [if_neg (not_or.2 ⟨hconf, by simp [hqueue]⟩), if_pos hfull]
    rfl

end Sys2Proof.Proofs
end

