-- ==== Sys2Proof/Proofs/EffectiveCopies.lean ====
section
/-! The effective mode and cipher copies of the channel states (47_scheduler.md R266, R339): which command loads
them from the pending copies, which returns them to zero, and that every other one keeps them. -/

namespace Sys2Proof.Machine

open Cmd.Ends

/-! ### The copies of one channel from `x` to `y` -/

/-- The uplink copies are kept. -/
def ChanState.KeepsUl (x y : ChanState) : Prop := y.modeUl = x.modeUl ∧ y.ciphUl = x.ciphUl

/-- The uplink copies are loaded from the pending ones. -/
def ChanState.LoadsUl (x y : ChanState) : Prop := y.modeUl = x.modeP ∧ y.ciphUl = x.ciphUlP

/-- The downlink copies are kept. -/
def ChanState.KeepsDl (x y : ChanState) : Prop := y.modeDl = x.modeDl ∧ y.ciphDl = x.ciphDl

/-- The downlink copies are loaded from the pending ones. -/
def ChanState.LoadsDl (x y : ChanState) : Prop := y.modeDl = x.modeP ∧ y.ciphDl = x.ciphDlP

/-- All effective copies are kept. -/
def ChanState.KeepsCopies (x y : ChanState) : Prop := x.KeepsUl y ∧ x.KeepsDl y

theorem ChanState.KeepsCopies.refl (x : ChanState) : x.KeepsCopies x := ⟨⟨rfl, rfl⟩, rfl, rfl⟩

theorem ChanState.KeepsCopies.of_eq {x y : ChanState} (h : y = x) : x.KeepsCopies y := h ▸ .refl x

theorem ChanState.KeepsCopies.trans {x y z : ChanState} (h : x.KeepsCopies y) (h' : y.KeepsCopies z) :
    x.KeepsCopies z := by
  obtain ⟨⟨hm, hc⟩, hm', hc'⟩ := h
  obtain ⟨⟨km, kc⟩, km', kc'⟩ := h'
  exact ⟨⟨km.trans hm, kc.trans hc⟩, km'.trans hm', kc'.trans hc'⟩

/-! ### Commands that keep the copies of every channel -/

/-- From `s` to `t` every channel keeps its effective copies. -/
def State.KeepsCopies (s t : State) : Prop := ∀ k c, (s.chan k c).KeepsCopies (t.chan k c)

theorem State.KeepsCopies.refl (s : State) : s.KeepsCopies s := fun _ _ => .refl _

theorem State.KeepsCopies.trans {s t u : State} (h : s.KeepsCopies t) (h' : t.KeepsCopies u) :
    s.KeepsCopies u := fun k c => (h k c).trans (h' k c)

theorem State.KeepsCopies.of_writesWork {s t : State} (h : s.WritesWork t) : s.KeepsCopies t := by
  rw [h]
  exact fun _ _ => .refl _

theorem State.KeepsCopies.setChan {s : State} {tn : Tn} {ch : Chan} {x : ChanState}
    (h : (s.chan tn ch).KeepsCopies x) : s.KeepsCopies (s.setChan tn ch x) := by
  intro k c
  by_cases hkc : k = tn ∧ c = ch
  · obtain ⟨rfl, rfl⟩ := hkc
    rw [State.setChan_chan]
    exact h
  · exact .of_eq (State.setChan_chan_ne _ _ _ _ _ _ (not_and_or.1 hkc))

/-- No codec command writes scheduler state, under any parameters. -/
theorem codecBody_ends_writesWork (P : Params) {i : Instr} (hi : isCodecCommand i = true) (s : State) :
    (bodyIn P i s).Ends s.WritesWork := by
  have hkeep : s.WritesWork s := .refl s
  have hcodec {c : Cmd} (h : c.Ends s.CodecTo) : c.Ends s.WritesWork := h.mono fun _ ht => .of_codecTo ht
  cases i with
  | crcGen x n => exact hcodec (crcGenBody_ends x _ s)
  | crcChk x n => exact hcodec (crcChkBody_ends x _ s)
  | uappPar => exact hcodec (uappParBody_ends s)
  | uappZero n => exact hcodec (uappZeroBody_ends _ s)
  | convEnc e => exact hcodec (convEncBody_ends P e s)
  | convDec e kd =>
    change (convDecBody P e kd.toNat s).Ends s.WritesWork
    unfold convDecBody
    split
    · exact rejected hkeep
    · exact check (fun _ => done rfl) fun _ => raised hkeep
  | punc e => exact hcodec (puncBody_ends P e s)
  | depunc e => exact hcodec (depuncBody_ends P e s)
  | intlv x => exact hcodec (intlvBody_ends x s)
  | deintlv x => exact hcodec (deintlvBody_ends x s)
  | map nb => exact hcodec (mapBody_ends (nbOf_le nb) s)
  | unmap nb => exact hcodec (unmapBody_ends (nbOf_le nb) s)
  | hSet nb p => exact hcodec (hSetBody_ends (nbOf_le nb) _ s)
  | matchPat x => exact hcodec (matchBody_ends P x s)
  | xcchEnc => exact hcodec (xcchEncBody_ends s)
  | xcchDec => exact hcodec (xcchDecBody_ends P s)
  | rachEnc bsic => exact hcodec (rachEncBody_ends bsic s)
  | rachDec bsic => exact hcodec (rachDecBody_ends P bsic s)
  | schEnc => exact hcodec (schEncBody_ends s)
  | schDec => exact hcodec (schDecBody_ends P s)
  | pdtchEnc => exact hcodec (pdtchEncBody_ends s)
  | pdtchDec => exact hcodec (pdtchDecBody_ends P s)
  | tchfrEnc speech => exact hcodec (tchfrEncBody_ends P speech s)
  | tchfrDec speech => exact hcodec (tchfrDecBody_ends P speech s)
  | tchafsEnc phase => exact tchafsEncBody_ends_writesWork P phase s
  | tchafsDec phase => exact hcodec (tchafsDecBody_ends P phase s)
  | amrCfg | parLd | unpack | pack => exact check (fun _ => raised hkeep) fun _ => done rfl
  | schedInit | setPchan | chAct | chDeact | setMode | setCipher | pduEnq | setAtt | tick | rxBurst
  | setBsic => cases hi

/-- The control commands that neither clear a channel nor run its blocks. -/
def setsPending : Instr → Bool
  | .chAct _ _ _ | .setMode _ _ | .setCipher _ _ _ | .pduEnq _ _ _ | .setAtt _ _ | .setBsic _ => true
  | _ => false

theorem setModeBody_ends_keepsCopies (tn : Tn) (ch : Chan) (s : State) :
    (setModeBody tn ch s).Ends s.KeepsCopies := by
  unfold setModeBody
  split
  · exact raised (.refl s)
  · exact check (fun _ => raised (.refl s)) fun _ => done (.setChan ⟨⟨rfl, rfl⟩, rfl, rfl⟩)

theorem ChanState.setCipherP_keepsCopies (x : ChanState) (dir : Dir) (c : Cipher) :
    x.KeepsCopies (x.setCipherP dir c) := by
  cases dir <;> exact ⟨⟨rfl, rfl⟩, rfl, rfl⟩

/-- They write pending copies at most. -/
theorem controlBody_ends_keepsCopies (P : Params) {i : Instr} (hi : setsPending i = true) (s : State) :
    (bodyIn P i s).Ends s.KeepsCopies := by
  cases i with
  | chAct tn ch k =>
    refine check (fun _ => raised (.refl s)) fun _ => done fun j c => ?_
    rw [foldl_activate_chan]
    split
    · exact ⟨⟨rfl, rfl⟩, rfl, rfl⟩
    · exact .refl _
  | setMode tn ch => exact setModeBody_ends_keepsCopies tn ch s
  | setCipher tn ch dir =>
    exact check (fun _ => raised (.refl s)) fun _ => check (fun _ => raised (.refl s)) fun _ =>
      done (.setChan (ChanState.setCipherP_keepsCopies _ _ _))
  | pduEnq tn ch aux =>
    exact check (fun _ => raised (.refl s)) fun _ => check (fun _ => raised (.refl s)) fun _ =>
      done fun _ _ => .refl _
  | setAtt | setBsic => exact done fun _ _ => .refl _
  | _ => cases hi

/-! ### Commands that return whole channels to zero -/

/-- The command returns channel `ch` of timeslot `tn` to the created state. -/
def Clears (i : Instr) (tn : Tn) (ch : Chan) : Prop :=
  i = .schedInit ∨ (∃ p c, i = .setPchan tn p c) ∨ ∃ c k, i = .chDeact tn c k ∧ ch ∈ targets c k

/-- From `s` to `t` the channels that `i` names are zero and every other one keeps its copies. -/
def State.ClearsOrKeeps (i : Instr) (s t : State) : Prop := ∀ k c,
  (s.chan k c).KeepsCopies (t.chan k c) ∨ (t.chan k c = ChanState.zero ∧ Clears i k c)

theorem State.ClearsOrKeeps.of_keeps {i : Instr} {s t : State} (h : s.KeepsCopies t) :
    State.ClearsOrKeeps i s t := fun k c => .inl (h k c)

theorem schedInit_chan (s : State) (k : Tn) (c : Chan) :
    State.chan { s with
      fn := 0, fnValid := false, ts := Vector.replicate 8 TsRegs.zero
      cs := Vector.replicate 8 chanStatesZero, q := Vector.replicate 8 queuesEmpty, evq := [] } k c =
      ChanState.zero := by
  simp [State.chan, chanStatesZero, Vector.get_eq_getElem]

/-- Every command but the two that run blocks. -/
theorem bodyIn_ends_clearsOrKeeps (P : Params) {i : Instr} (htick : ∀ fn, i ≠ .tick fn) (hrx : i ≠ .rxBurst)
    (s : State) : (bodyIn P i s).Ends (State.ClearsOrKeeps i s) := by
  have hkeep : State.ClearsOrKeeps i s s := .of_keeps (.refl s)
  cases i with
  | schedInit => exact done fun k c => .inr ⟨schedInit_chan s k c, .inl rfl⟩
  | setPchan tn p tsc =>
    refine check (fun _ => rejected hkeep) fun _ => done fun k c => ?_
    by_cases hk : k = tn
    · subst hk
      exact .inr ⟨State.clearSlot_chan _ k c, .inr (.inl ⟨p, tsc, rfl⟩)⟩
    · exact .inl (.of_eq (((State.ControlsSlot.refl s).setTs _).clearSlot.chan k c hk))
  | chDeact tn ch sel =>
    refine check (fun _ => raised hkeep) fun _ => done fun k c => ?_
    obtain ⟨hchan, -⟩ := foldl_clearChan_get s tn (targets ch sel) k c
    rw [hchan]
    split
    · next hkc =>
      obtain ⟨rfl, hc⟩ := hkc
      exact .inr ⟨rfl, .inr (.inr ⟨ch, sel, rfl, hc⟩)⟩
    · exact .inl (.refl _)
  | tick fn => exact absurd rfl (htick fn)
  | rxBurst => exact absurd rfl hrx
  | chAct | setMode | setCipher | pduEnq | setAtt | setBsic =>
    exact (controlBody_ends_keepsCopies P rfl s).mono fun _ ht => .of_keeps ht
  | _ => exact (codecBody_ends_writesWork P rfl s).mono fun _ ht => .of_keeps (.of_writesWork ht)

/-! ### `RX.BURST` (R270, R271 (a)) -/

/-- The copies of the burst's channel after assembly: the uplink ones are loaded if a block starts. -/
structure ChanState.AssemblesCopies (start : Bool) (x y : ChanState) : Prop where
  modeUl : y.modeUl = if start then x.modeP else x.modeUl
  ciphUl : y.ciphUl = if start then x.ciphUlP else x.ciphUl
  keepsDl : x.KeepsDl y

theorem ChanState.hearUl_assemblesCopies (x : ChanState) (nb : Nat) (bid : Fin 8) (f0 : Fn) (r : RxInd)
    (tag : Nat) : ChanState.AssemblesCopies (blockStarts x bid f0) x (x.hearUl nb bid f0 r tag) := by
  refine ⟨x.hearUl_modeUl nb bid f0 r tag, x.hearUl_ciphUl nb bid f0 r tag, ?_⟩
  unfold ChanState.hearUl
  split <;> exact ⟨rfl, rfl⟩

theorem assembleUl_ends_assemblesCopies (P : Params) (tn : Tn) (ch : Chan) (bid : Fin 8) (f0 : Fn) (s : State) :
    (assembleUl P tn ch bid f0 s).Ends fun t =>
      ChanState.AssemblesCopies (blockStarts (s.chan tn ch) bid f0) (s.chan tn ch) (t.chan tn ch) := by
  have hheard := (s.chan tn ch).hearUl_assemblesCopies (nbUl ch) bid f0 s.rxind s.free
  rw [assembleUl_eq]
  refine check (fun _ => (completeUl_ends_settled ..).mono fun t ht => ?_) fun _ => done ?_
  · obtain ⟨nlost, ft, cmr, hchan⟩ := ht
    rw [hchan]
    exact ⟨hheard.modeUl, hheard.ciphUl, hheard.keepsDl⟩
  · rw [State.hearUl_chan]
    exact hheard

/-- What `RX.BURST` makes of the copies of the channel a burst is routed to: a block that starts loads the
uplink ones. -/
def ChanState.LoadsAtStart (bid : Fin 8) (f0 : Fn) (x y : ChanState) : Prop :=
  x.KeepsCopies y ∨
    (bid = 0 ∨ x.ulAlloc = false ∨ x.ulMask = 0 ∨ x.ulFirstFn ≠ f0) ∧ x.LoadsUl y ∧ x.KeepsDl y

theorem ChanState.AssemblesCopies.loadsAtStart {bid : Fin 8} {f0 : Fn} {x y : ChanState}
    (h : ChanState.AssemblesCopies (blockStarts x bid f0) x y) : x.LoadsAtStart bid f0 y := by
  obtain ⟨hmode, hciph, hdl⟩ := h
  by_cases hstart : blockStarts x bid f0 = true
  · rw [if_pos hstart] at hmode hciph
    exact .inr ⟨((blockStarts_iff x bid f0).1 hstart).imp_right .inr, ⟨hmode, hciph⟩, hdl⟩
  · rw [if_neg hstart] at hmode hciph
    exact .inl ⟨⟨hmode, hciph⟩, hdl⟩

theorem allocAssemble_ends_loadsAtStart (P : Params) (tn : Tn) (ch : Chan) (bid : Fin 8) (f0 : Fn) (s : State) :
    (allocAssemble P tn ch bid f0 s).Ends fun t => (s.chan tn ch).LoadsAtStart bid f0 (t.chan tn ch) := by
  by_cases hready : (s.chan tn ch).ulAlloc = true ∨ P.allocOk s.allocs = true
  · rw [allocAssemble_of_ready hready]
    refine (assembleUl_ends_assemblesCopies P tn ch bid f0 _).mono fun t ht => ?_
    rw [State.readyUl_chan] at ht
    cases halloc : (s.chan tn ch).ulAlloc with
    | true =>
      rw [ChanState.readyUl_of_alloc halloc] at ht
      exact ht.loadsAtStart
    | false =>
      have hallocUl : (s.chan tn ch).readyUl = (s.chan tn ch).allocUl := if_neg (by simp [halloc])
      have hstart : blockStarts (s.chan tn ch).allocUl bid f0 = true :=
        (blockStarts_iff _ bid f0).2 (.inr (.inl rfl))
      rw [hallocUl, hstart] at ht
      exact .inr ⟨.inr (.inl halloc), ⟨ht.modeUl, ht.ciphUl⟩, ht.keepsDl⟩
  · obtain ⟨halloc, hfail⟩ := not_or.1 hready
    unfold allocAssemble
    rw [if_neg halloc, State.alloc_eq, eq_false_of_ne_true hfail]
    exact raised (.inl (.refl _))

theorem accessUl_ends_keepsCopies (P : Params) (tn : Tn) (ch : Chan) (s : State) :
    (accessUl P tn ch s).Ends fun t => (s.chan tn ch).KeepsCopies (t.chan tn ch) := by
  unfold accessUl
  extract_lets s1
  have hs1 : (s.chan tn ch).KeepsCopies (s1.chan tn ch) := by
    unfold s1
    rw [State.setChan_chan]
    exact ⟨⟨rfl, rfl⟩, rfl, rfl⟩
  have hdec := (rachDecBody_ends P s.bsic s1).mono fun t ht =>
    hs1.trans (State.KeepsCopies.of_writesWork (.of_codecTo ht) tn ch)
  split
  · next hd => rw [hd] at hdec; exact done hdec.of_done
  · next hd =>
    rw [hd] at hdec
    refine done ?_
    rw [State.setChan_chan]
    exact hdec.of_raised.trans ⟨⟨rfl, rfl⟩, rfl, rfl⟩
  · exact refused _

theorem Cmd.scratched_ends_loadsAtStart {tn : Tn} {ch : Chan} {bid : Fin 8} {f0 : Fn} {x : ChanState} {c : Cmd}
    (h : c.Ends fun t => x.LoadsAtStart bid f0 (t.chan tn ch)) :
    c.scratched.Ends fun t => x.LoadsAtStart bid f0 (t.chan tn ch) := by
  cases h with
  | done h => exact .done h
  | raised h => exact .raised h
  | refused r => exact .refused r

/-- Only a burst of an active channel is assembled. -/
theorem rxBurst_loads {P : Params} {s t : State} {l : Layout} {ch : Chan} {bid : Fin 8}
    (hroute : s.RoutedTo P l ch bid) (h : execIn P .rxBurst s = .next t) :
    (s.chan s.rxind.slot ch).KeepsCopies (t.chan s.rxind.slot ch) ∨ s.isActive s.rxind.slot ch = true ∧
      (s.chan s.rxind.slot ch).LoadsAtStart bid (s.rxFirst l) (t.chan s.rxind.slot ch) := by
  rw [execIn_rxBurst_of_routedTo hroute, routeUl_of_routedTo hroute] at h
  split at h
  · obtain rfl := Host.Outcome.next.inj h
    exact .inl (.refl _)
  · next hgo =>
    have hact : s.isActive s.rxind.slot ch = true := by
      obtain ⟨-, hact⟩ := not_or.1 hgo
      simpa using hact
    have hends : (if ulFamily ch = .rach then (accessUl P s.rxind.slot ch s).scratched
        else if (s.chan s.rxind.slot ch).ulSync = false ∧ bid ≠ 0 then .done s
        else (allocAssemble P s.rxind.slot ch bid (s.rxFirst l) s).scratched).Ends fun t =>
          (s.chan s.rxind.slot ch).LoadsAtStart bid (s.rxFirst l) (t.chan s.rxind.slot ch) :=
      check (fun _ => Cmd.scratched_ends_loadsAtStart
          ((accessUl_ends_keepsCopies P s.rxind.slot ch s).mono fun _ ht => .inl ht)) fun _ =>
        check (fun _ => done (.inl (.refl _))) fun _ =>
          Cmd.scratched_ends_loadsAtStart (allocAssemble_ends_loadsAtStart P _ _ _ _ _)
    obtain ⟨u, e, info, hu, rfl⟩ := hends.finish h
    exact .inr ⟨hact, hu⟩

/-- A channel that no burst is routed to keeps its state. -/
theorem rxBurst_chan_eq {P : Params} {s t : State} (h : execIn P .rxBurst s = .next t) {k : Tn} {c : Chan}
    (hkc : ∀ l bid, ¬(s.RoutedTo P l c bid ∧ k = s.rxind.slot)) : t.chan k c = s.chan k c := by
  obtain ⟨u, e, info, hu, rfl⟩ := (rxBurstBody_ends_receivesBurst P s).finish h
  exact hu.chan_eq hkc

/-! ### `TICK` (R280 (a), R281) -/

/-- What one turn makes of a channel's copies: burst 0 of the active channel loads the downlink ones. -/
def State.LoadsInTurn (P : Params) (fn : Fn) (u : State) (tn : Tn) (ch : Chan) (y : ChanState) : Prop :=
  (u.chan tn ch).KeepsCopies y ∨ (∃ l, u.layout P tn = some l ∧ (l.slot fn.toNat).dlChan = ch ∧
    (l.slot fn.toNat).dlBid = 0 ∧ dlFamily ch ∈ [Family.xcch, .pdtch, .tch]) ∧ u.isActive tn ch = true ∧
    (u.chan tn ch).KeepsUl y ∧ (u.chan tn ch).LoadsDl y

theorem sendBurst_keepsCopies (P : Params) (tn : Tn) (ch : Chan) (bid : Fin 8) (fn : Fn) (s : State) :
    s.KeepsCopies (sendBurst P tn ch bid fn s) := by
  unfold sendBurst
  extract_lets y t
  have ht : s.KeepsCopies t := by
    unfold t
    split <;> exact .refl s
  have hchan : t.chan tn ch = y := by
    unfold t
    split <;> rfl
  split
  · refine ht.trans (.setChan ?_)
    rw [hchan]
    exact ⟨⟨rfl, rfl⟩, rfl, rfl⟩
  · exact ht

/-- A block start loads the downlink copies, whatever becomes of the block. -/
theorem blockDl_loads {P : Params} {tn : Tn} {ch : Chan} {fn : Fn} {s : State}
    (hfam : dlFamily ch ∈ [Family.xcch, .pdtch, .tch]) (hact : s.isActive tn ch = true) :
    (s.chan tn ch).KeepsUl ((blockDl P tn ch 0 fn s).2.chan tn ch) ∧
      (s.chan tn ch).LoadsDl ((blockDl P tn ch 0 fn s).2.chan tn ch) := by
  obtain ⟨x, bad, xs, hx⟩ := s.exists_offered P tn ch fn
  cases x with
  | none =>
    obtain ⟨w, hw, -, hchan, -⟩ := blockDl_of_nothing hfam hact hx
    rw [hw, hchan]
    exact ⟨⟨rfl, rfl⟩, rfl, rfl⟩
  | some e =>
    cases halloc : P.allocOk s.allocs with
    | false =>
      obtain ⟨w, hw, -, hchan, -⟩ := blockDl_of_nomem hact hx halloc
      rw [hw, hchan]
      exact ⟨⟨rfl, rfl⟩, rfl, rfl⟩
    | true =>
      obtain ⟨w, hw, -, hchan, -⟩ := blockDl_of_alloc hfam hact hx halloc
      rw [hw, hchan, sendState_eq]
      exact ⟨⟨rfl, rfl⟩, rfl, rfl⟩

/-- The families without blocks write no channel. -/
theorem dlSlot_cs_of_unblocked {P : Params} {fn : Nat} {s : State} {tn : Tn} {l : Layout}
    (hl : s.layout P tn = some l) (hfam : dlFamily (l.slot fn).dlChan ∉ [Family.xcch, .pdtch, .tch]) :
    (dlSlot P fn s tn).2.cs = s.cs := by
  unfold dlSlot
  rw [hl]
  dsimp only
  cases hf : dlFamily (l.slot fn).dlChan with
  | sch =>
    obtain ⟨w, hsch, hframe⟩ := schDl_eq P tn (toFn fn) s
    dsimp only
    rw [hsch]
    exact hframe.cs
  | fcch | none | rach | unsupp => rfl
  | xcch | pdtch | tch => exact absurd hfam (by simp [hf])

theorem dlSlot_loads (P : Params) (fn : Fn) (u : State) (tn : Tn) (ch : Chan) :
    u.LoadsInTurn P fn tn ch ((dlSlot P fn.toNat u tn).2.chan tn ch) := by
  cases hl : u.layout P tn with
  | none =>
    rw [dlSlot_of_unconfigured hl]
    exact .inl (.refl _)
  | some l =>
    by_cases hfam : dlFamily (l.slot fn.toNat).dlChan ∈ [Family.xcch, .pdtch, .tch]
    · rw [dlSlot_of_block hl hfam]
      by_cases hch : (l.slot fn.toNat).dlChan = ch
      · subst hch
        cases hact : u.isActive tn (l.slot fn.toNat).dlChan with
        | false =>
          rw [blockDl_inactive hact]
          exact .inl (.refl _)
        | true =>
          by_cases hbid : (l.slot fn.toNat).dlBid = 0
          · rw [hbid]
            exact .inr ⟨⟨l, hl, rfl, hbid, hfam⟩, hact, blockDl_loads hfam hact⟩
          · rw [blockDl_later hact hbid]
            exact .inl (sendBurst_keepsCopies P tn _ _ fn u tn _)
      · obtain ⟨evs, hserves⟩ := blockDl_serves hl hfam
        exact .inl (.of_eq (hserves.others tn ch fun h => hch h.2.symm).1)
    · have hcs : (dlSlot P fn.toNat u tn).2.cs = u.cs := dlSlot_cs_of_unblocked hl hfam
      exact .inl (.of_eq (by rw [State.chan, hcs, State.chan]))

/-- `TICK` loads the downlink copies of the channels whose block starts. -/
theorem tick_loads {P : Params} {fn : Fn} {s t : State} (h : execIn P (.tick fn) s = .next t) (tn : Tn)
    (ch : Chan) : s.LoadsInTurn P fn tn ch (t.chan tn ch) := by
  obtain ⟨u, v, t', failed, hturn⟩ := exists_tickTurn P (clockOk_of_execIn_tick h) tn
  obtain ⟨hnext, -⟩ := hturn.next
  obtain rfl : t' = t := Host.Outcome.next.inj (hnext.symm.trans h)
  obtain ⟨hbefore, -⟩ := hturn.before ch
  obtain ⟨hafter, -⟩ := hturn.after ch
  have hloads := dlSlot_loads P fn u tn ch
  rwa [hturn.own, State.LoadsInTurn, hturn.layout_eq, hturn.before.isActive, hbefore, ← hafter] at hloads

end Sys2Proof.Machine

namespace Sys2Proof.Proofs

open Sys2Proof.Machine

/-- Settles O54: `RX.BURST` and `TICK` load copies at a block start, and every other command keeps them or
clears the channel. -/
theorem effectiveCopies : Obligations.EffectiveCopies := by
  unfold Obligations.EffectiveCopies
  intro P i s t tn ch hexec
  have hstep : execIn P i s = .next t := by
    rcases hexec with h | ⟨rfl, h⟩
    · exact h
    · rwa [exec_eq_execIn] at h
  by_cases hrx : i = .rxBurst
  · subst hrx
    by_cases hroute : ∃ l bid, s.RoutedTo P l ch bid ∧ tn = s.rxind.slot
    · obtain ⟨l, bid, hroute, rfl⟩ := hroute
      rcases rxBurst_loads hroute hstep with ⟨hul, hdl⟩ | ⟨hact, ⟨hul, hdl⟩ | ⟨hstart, hul, hdl⟩⟩
      · exact ⟨.inl hul, .inl hdl⟩
      · exact ⟨.inl hul, .inl hdl⟩
      · exact ⟨.inr (.inl ⟨rfl, rfl, hact, ⟨l, bid, hroute, hstart⟩, hul⟩), .inl hdl⟩
    · have hsame := rxBurst_chan_eq hstep (k := tn) (c := ch) fun l bid h => hroute ⟨l, bid, h⟩
      obtain ⟨hul, hdl⟩ := ChanState.KeepsCopies.of_eq hsame
      exact ⟨.inl hul, .inl hdl⟩
  · by_cases htick : ∃ fn, i = .tick fn
    · obtain ⟨fn, rfl⟩ := htick
      rcases tick_loads hstep tn ch with ⟨hul, hdl⟩ | ⟨⟨l, hl, hslot⟩, hact, hul, hdl⟩
      · exact ⟨.inl hul, .inl hdl⟩
      · exact ⟨.inl hul, .inr (.inl ⟨⟨fn, l, rfl, hl, hslot⟩, hact, hdl⟩)⟩
    · have hends := bodyIn_ends_clearsOrKeeps P (fun fn h => htick ⟨fn, h⟩) hrx s
      obtain ⟨u, e, info, hu, rfl⟩ := hends.finish hstep
      rcases hu tn ch with ⟨hul, hdl⟩ | hzero
      · exact ⟨.inl hul, .inl hdl⟩
      · exact ⟨.inr (.inr hzero), .inr (.inr hzero)⟩

end Sys2Proof.Proofs
end
